-- ==== Sys2Proof/Word.lean ====
section
/-! DEFINITION. The widths of the block: the command word, a byte of system memory, an endpoint number, a device address
(spec 30_encoding R80, R81; 20_memory R62). A byte address is a Nat: rules compute addresses on unbounded naturals (R11), and
that an access stays inside the address space of `AddrWidth` bits (R62) is part of its admission. -/

namespace Sys2Proof

/-- A command word, 32 bits (R80). -/
abbrev Word := BitVec 32

/-- A byte of system memory or of a data buffer (R54). -/
abbrev Byte := BitVec 8

/-- An endpoint number 0..15: the width of the E field makes any other inexpressible (R81, R174). -/
abbrev EpNum := Fin 16

/-- A USB device address, 7 bits (R81). -/
abbrev DevAddr := BitVec 7

end Sys2Proof
end

