-- ==== Sys2Proof/Syntax.lean ====
section
/-! DEFINITION. The commands of the block: one constructor of `Instr` per row of the opcode table, its operands pulled out
of the command word as named values (spec 30_encoding R80 to R84). The argument record of a command (R85) is not part of its
word; it lies in the state. -/

namespace Sys2Proof

/-- Transfer direction: OUT is host to device, IN is device to host (R21). -/
inductive Dir where
  | out
  | in_
  deriving DecidableEq, Repr, Inhabited

/-- The other direction: that of a control transfer's STATUS stage (R187). -/
def Dir.opposite : Dir → Dir
  | .out => .in_
  | .in_ => .out

/-- Device speed: the S field's legal values (R80) and the link speed input (R39). -/
inductive Speed where
  | full
  | low
  | high
  deriving DecidableEq, Repr, Inhabited

/-- Data-stage direction of XFER_CONTROL (R84). -/
inductive DataDir where
  | noData
  | in_
  | out
  deriving DecidableEq, Repr, Inhabited

/-- The endpoint-0 stage EP_CONFIGURE programs when its endpoint is 0 (R84). -/
inductive CtrlStage where
  | setup
  | data
  | status
  deriving DecidableEq, Repr, Inhabited

/-- Transfer types of an endpoint register (R50). ISOCH is a value of the register; no command word carries it (R84). -/
inductive EpType where
  | control
  | isoch
  | bulk
  | interrupt
  deriving DecidableEq, Repr, Inhabited

/-- The X operand of EP_CONFIGURE: a stage for endpoint 0, a transfer type for the others (R84). -/
inductive EpSub where
  | stage (s : CtrlStage)
  | type (t : EpType)
  deriving DecidableEq, Repr, Inhabited

/-- Controller power state (R43). -/
inductive HcState where
  | halt
  | operational
  | suspend
  deriving DecidableEq, Repr, Inhabited

/-- Root-hub port features (R84). -/
inductive Feature where
  | enable
  | suspend
  | reset
  | power
  | owner
  | connectChange
  | enableChange
  | suspendChange
  | overcurrentChange
  | resetChange
  deriving DecidableEq, Repr, Inhabited

/-- The 24 commands of the opcode map (R82), each with the operands of its used fields. -/
inductive Instr where
  | dmaProgram (ep : EpNum) (dir : Dir)
  | dmaCheck (ep : EpNum) (dir : Dir)
  | dmaClear (ep : EpNum) (dir : Dir)
  | dmaRelease (ep : EpNum) (dir : Dir)
  | dmaReset
  | epConfigure (ep : EpNum) (dir : Dir) (toggle : Bool) (addr : DevAddr) (sub : EpSub)
  | otgPoll
  | portSuspend (enable : Bool)
  | portReset (enable : Bool)
  | xferControl (addr : DevAddr) (speed : Speed) (dataDir : DataDir)
  | xferBulk (ep : EpNum) (dir : Dir) (toggle : Bool) (addr : DevAddr) (speed : Speed)
  | xferIntSync (ep : EpNum) (dir : Dir) (toggle : Bool) (addr : DevAddr) (speed : Speed)
  | xferIntAsyncArm (ep : EpNum) (dir : Dir) (toggle : Bool) (addr : DevAddr) (speed : Speed)
  | xferIsoch (ep : EpNum) (dir : Dir) (addr : DevAddr) (speed : Speed)
  | asyncRegister (ep : EpNum) (dir : Dir) (toggle : Bool) (addr : DevAddr) (speed : Speed)
  | asyncCancel (ep : EpNum) (addr : DevAddr)
  | asyncTick
  | hcGetCapability
  | hcReset
  | hcGetState
  | hcSetState (st : HcState)
  | rhGetPortStatus
  | rhSetPortFeature (feature : Feature)
  | rhClearPortFeature (feature : Feature)
  deriving DecidableEq, Repr, Inhabited

/-- The opcode byte of each command (R82). -/
def Instr.opcode : Instr → BitVec 8
  | .dmaProgram .. => 0x01
  | .dmaCheck .. => 0x02
  | .dmaClear .. => 0x03
  | .dmaRelease .. => 0x04
  | .dmaReset => 0x05
  | .epConfigure .. => 0x08
  | .otgPoll => 0x10
  | .portSuspend .. => 0x11
  | .portReset .. => 0x12
  | .xferControl .. => 0x20
  | .xferBulk .. => 0x21
  | .xferIntSync .. => 0x22
  | .xferIntAsyncArm .. => 0x23
  | .xferIsoch .. => 0x24
  | .asyncRegister .. => 0x30
  | .asyncCancel .. => 0x31
  | .asyncTick => 0x32
  | .hcGetCapability => 0x40
  | .hcReset => 0x41
  | .hcGetState => 0x42
  | .hcSetState .. => 0x43
  | .rhGetPortStatus => 0x44
  | .rhSetPortFeature .. => 0x45
  | .rhClearPortFeature .. => 0x46

end Sys2Proof
end

