-- ==== Sys2Proof/WellFormed.lean ====
section
/-! DEFINITION. Which terms of `Instr` stand for a legal command word. Every operand but EP_CONFIGURE's X is legal at each
value of its type; X must be a stage for endpoint 0 and a transfer type other than ISOCH for the others (spec 30_encoding
R84, R86). -/

namespace Sys2Proof

/-- EP_CONFIGURE's X operand fits its endpoint (R84): endpoint 0 takes a stage, the others CONTROL, BULK or INTERRUPT. -/
def EpSub.legalFor (ep : EpNum) : EpSub → Bool
  | .stage _ => ep = 0
  | .type .isoch => false
  | .type _ => ep ≠ 0

/-- The instruction is one that some legal command word stands for (R86). -/
def Instr.wellFormed : Instr → Bool
  | .epConfigure ep _ _ _ sub => sub.legalFor ep
  | .dmaProgram .. | .dmaCheck .. | .dmaClear .. | .dmaRelease .. | .dmaReset
  | .otgPoll | .portSuspend .. | .portReset ..
  | .xferControl .. | .xferBulk .. | .xferIntSync .. | .xferIntAsyncArm .. | .xferIsoch ..
  | .asyncRegister .. | .asyncCancel .. | .asyncTick
  | .hcGetCapability | .hcReset | .hcGetState | .hcSetState ..
  | .rhGetPortStatus | .rhSetPortFeature .. | .rhClearPortFeature .. => true

end Sys2Proof
end

