-- ==== Sys2Proof/Decode.lean ====
section
/-! DEFINITION. The decoder and the encoder of the command word (spec 30_encoding R80 to R86). Decoding is total: a word is
a command, or is illegal under a named reason (R86). -/

namespace Sys2Proof

/-- The fields of a command word, named by their letters in the format table (R80). -/
structure Fields where
  /-- bits 31:28, reserved -/
  r : BitVec 4
  /-- X, bits 27:24 -/
  x : BitVec 4
  /-- S, bits 23:22 -/
  s : BitVec 2
  /-- A, bits 21:15 -/
  a : BitVec 7
  /-- T, bit 14 -/
  t : BitVec 1
  /-- F, bit 13 -/
  f : BitVec 1
  /-- D, bit 12 -/
  d : BitVec 1
  /-- E, bits 11:8 -/
  e : BitVec 4
  /-- O, bits 7:0 -/
  o : BitVec 8
  deriving DecidableEq, Repr

/-- Field extraction (R81): every field is unsigned and unscaled. -/
def Fields.ofWord (w : Word) : Fields where
  r := w.extractLsb' 28 4
  x := w.extractLsb' 24 4
  s := w.extractLsb' 22 2
  a := w.extractLsb' 15 7
  t := w.extractLsb' 14 1
  f := w.extractLsb' 13 1
  d := w.extractLsb' 12 1
  e := w.extractLsb' 8 4
  o := w.extractLsb' 0 8

/-- The word with these fields (R80). -/
def Fields.toWord (g : Fields) : Word :=
  g.r ++ g.x ++ g.s ++ g.a ++ g.t ++ g.f ++ g.d ++ g.e ++ g.o

/-- The letters of the fields a command may use (R82). -/
inductive Letter where
  | E
  | D
  | F
  | T
  | A
  | S
  | X
  deriving DecidableEq, Repr

/-- Every letter, for the check of the unused ones. -/
def Letter.all : List Letter := [.E, .D, .F, .T, .A, .S, .X]

/-- The field of this letter holds 0. -/
def Fields.zeroAt (g : Fields) : Letter → Bool
  | .E => g.e = 0
  | .D => g.d = 0
  | .F => g.f = 0
  | .T => g.t = 0
  | .A => g.a = 0
  | .S => g.s = 0
  | .X => g.x = 0

/-- Every field outside `used` holds 0 (R83). -/
def Fields.cleanBut (g : Fields) (used : List Letter) : Bool :=
  Letter.all.all fun l => used.contains l || g.zeroAt l

/-- Why a word is illegal (R86): one constructor per clause of the rule. -/
inductive Illegal where
  /-- bits 31:28 are not 0 -/
  | reservedBits
  /-- the opcode is not in the opcode map -/
  | reservedOpcode
  /-- a field the command does not use is not 0 -/
  | unusedField
  /-- S = 3 in a command that uses S -/
  | reservedSpeed
  /-- X has a value the command reserves -/
  | reservedSub
  deriving DecidableEq, Repr

/-- The E field as an endpoint number (R81). -/
def Fields.ep (g : Fields) : EpNum := g.e.toFin

/-- The D field as a direction: 1 is IN (R81). -/
def Fields.dir (g : Fields) : Dir := if g.d = 1 then .in_ else .out

/-- The T field as a toggle (R81). -/
def Fields.toggle (g : Fields) : Bool := g.t = 1

/-- The F field as an enable flag (R81). -/
def Fields.flag (g : Fields) : Bool := g.f = 1

/-- The S field as a speed; 3 is reserved (R80). -/
def speedOf (s : BitVec 2) : Option Speed :=
  if s = 0 then some .full else if s = 1 then some .low else if s = 2 then some .high else none

/-- XFER_CONTROL's X field (R84). -/
def dataDirOf (x : BitVec 4) : Option DataDir :=
  if x = 0 then some .noData else if x = 1 then some .in_ else if x = 2 then some .out else none

/-- EP_CONFIGURE's X field for endpoint 0 (R84). -/
def ctrlStageOf (x : BitVec 4) : Option CtrlStage :=
  if x = 0 then some .setup else if x = 1 then some .data else if x = 2 then some .status else none

/-- EP_CONFIGURE's X field for endpoints 1..15; 1, ISOCH, is reserved (R84). -/
def epTypeOf (x : BitVec 4) : Option EpType :=
  if x = 0 then some .control else if x = 2 then some .bulk else if x = 3 then some .interrupt else none

/-- EP_CONFIGURE's X field, by its endpoint (R84). -/
def epSubOf (ep : EpNum) (x : BitVec 4) : Option EpSub :=
  if ep = 0 then (ctrlStageOf x).map .stage else (epTypeOf x).map .type

/-- HC_SET_STATE's X field (R84). -/
def hcStateOf (x : BitVec 4) : Option HcState :=
  if x = 0 then some .halt else if x = 1 then some .operational else if x = 2 then some .suspend else none

/-- The features in the order of their X values (R84). -/
def Feature.all : List Feature :=
  [.enable, .suspend, .reset, .power, .owner, .connectChange, .enableChange, .suspendChange, .overcurrentChange, .resetChange]

/-- The port-feature commands' X field (R84). -/
def featureOf (x : BitVec 4) : Option Feature := Feature.all[x.toNat]?

/-- A command whose unused fields must be 0 (R83). -/
def Fields.only (g : Fields) (used : List Letter) (r : Except Illegal Instr) : Except Illegal Instr :=
  if g.cleanBut used then r else .error .unusedField

/-- A command that uses S: its speed must not be the reserved one (R86). -/
def Fields.withSpeed (g : Fields) (k : Speed → Instr) : Except Illegal Instr :=
  match speedOf g.s with
  | some sp => .ok (k sp)
  | none => .error .reservedSpeed

/-- A command that uses X: a reserved value is illegal (R86). -/
def withSub {α : Type} (v : Option α) (k : α → Instr) : Except Illegal Instr :=
  match v with
  | some x => .ok (k x)
  | none => .error .reservedSub

/-- The opcode map with the fields each command uses (R82). -/
def decodeFields (g : Fields) : Except Illegal Instr :=
  if g.r ≠ 0 then .error .reservedBits else
  match g.o with
  | 0x01#8 => g.only [.E, .D] (.ok (.dmaProgram g.ep g.dir))
  | 0x02#8 => g.only [.E, .D] (.ok (.dmaCheck g.ep g.dir))
  | 0x03#8 => g.only [.E, .D] (.ok (.dmaClear g.ep g.dir))
  | 0x04#8 => g.only [.E, .D] (.ok (.dmaRelease g.ep g.dir))
  | 0x05#8 => g.only [] (.ok .dmaReset)
  | 0x08#8 => g.only [.E, .D, .T, .A, .X] (withSub (epSubOf g.ep g.x) (.epConfigure g.ep g.dir g.toggle g.a))
  | 0x10#8 => g.only [] (.ok .otgPoll)
  | 0x11#8 => g.only [.F] (.ok (.portSuspend g.flag))
  | 0x12#8 => g.only [.F] (.ok (.portReset g.flag))
  | 0x20#8 => g.only [.A, .S, .X]
      (match speedOf g.s with
       | some sp => withSub (dataDirOf g.x) (.xferControl g.a sp)
       | none => .error .reservedSpeed)
  | 0x21#8 => g.only [.E, .D, .T, .A, .S] (g.withSpeed (.xferBulk g.ep g.dir g.toggle g.a))
  | 0x22#8 => g.only [.E, .D, .T, .A, .S] (g.withSpeed (.xferIntSync g.ep g.dir g.toggle g.a))
  | 0x23#8 => g.only [.E, .D, .T, .A, .S] (g.withSpeed (.xferIntAsyncArm g.ep g.dir g.toggle g.a))
  | 0x24#8 => g.only [.E, .D, .A, .S] (g.withSpeed (.xferIsoch g.ep g.dir g.a))
  | 0x30#8 => g.only [.E, .D, .T, .A, .S] (g.withSpeed (.asyncRegister g.ep g.dir g.toggle g.a))
  | 0x31#8 => g.only [.E, .A] (.ok (.asyncCancel g.ep g.a))
  | 0x32#8 => g.only [] (.ok .asyncTick)
  | 0x40#8 => g.only [] (.ok .hcGetCapability)
  | 0x41#8 => g.only [] (.ok .hcReset)
  | 0x42#8 => g.only [] (.ok .hcGetState)
  | 0x43#8 => g.only [.X] (withSub (hcStateOf g.x) .hcSetState)
  | 0x44#8 => g.only [] (.ok .rhGetPortStatus)
  | 0x45#8 => g.only [.X] (withSub (featureOf g.x) .rhSetPortFeature)
  | 0x46#8 => g.only [.X] (withSub (featureOf g.x) .rhClearPortFeature)
  | _ => .error .reservedOpcode

/-- The decoder: a command, or the clause of R86 that makes the word illegal. -/
def decode (w : Word) : Except Illegal Instr := decodeFields (Fields.ofWord w)

/-! ### The encoder, from the same tables -/

/-- One bit for a Boolean field. -/
def bit1 (b : Bool) : BitVec 1 := if b then 1 else 0

/-- D for a direction (R81). -/
def Dir.bits : Dir → BitVec 1
  | .out => 0
  | .in_ => 1

/-- S for a speed (R80). -/
def Speed.bits : Speed → BitVec 2
  | .full => 0
  | .low => 1
  | .high => 2

/-- X for a data direction (R84). -/
def DataDir.bits : DataDir → BitVec 4
  | .noData => 0
  | .in_ => 1
  | .out => 2

/-- X for EP_CONFIGURE (R84); ISOCH has the code 1 no legal word carries. -/
def EpSub.bits : EpSub → BitVec 4
  | .stage .setup => 0
  | .stage .data => 1
  | .stage .status => 2
  | .type .control => 0
  | .type .isoch => 1
  | .type .bulk => 2
  | .type .interrupt => 3

/-- X for a power state (R84). -/
def HcState.bits : HcState → BitVec 4
  | .halt => 0
  | .operational => 1
  | .suspend => 2

/-- X for a feature (R84). -/
def Feature.bits : Feature → BitVec 4
  | .enable => 0
  | .suspend => 1
  | .reset => 2
  | .power => 3
  | .owner => 4
  | .connectChange => 5
  | .enableChange => 6
  | .suspendChange => 7
  | .overcurrentChange => 8
  | .resetChange => 9

/-- All fields 0 but the opcode: what a command with no used field looks like (R83). -/
def Fields.plain (op : BitVec 8) : Fields :=
  { r := 0, x := 0, s := 0, a := 0, t := 0, f := 0, d := 0, e := 0, o := op }

/-- The fields of a DMA primitive's word (R82). -/
def Fields.chan (op : BitVec 8) (ep : EpNum) (dir : Dir) : Fields :=
  { Fields.plain op with e := .ofFin ep, d := dir.bits }

/-- The fields of an endpoint transfer's word (R82). -/
def Fields.xfer (op : BitVec 8) (ep : EpNum) (dir : Dir) (toggle : Bool) (addr : DevAddr) (speed : Speed) : Fields :=
  { Fields.chan op ep dir with t := bit1 toggle, a := addr, s := speed.bits }

/-- The fields of an instruction's word (R80, R82). -/
def Instr.fields (i : Instr) : Fields :=
  match i with
  | .dmaProgram ep dir | .dmaCheck ep dir | .dmaClear ep dir | .dmaRelease ep dir => Fields.chan i.opcode ep dir
  | .epConfigure ep dir tg addr sub => { Fields.chan i.opcode ep dir with t := bit1 tg, a := addr, x := sub.bits }
  | .portSuspend en | .portReset en => { Fields.plain i.opcode with f := bit1 en }
  | .xferControl addr speed dd => { Fields.plain i.opcode with a := addr, s := speed.bits, x := dd.bits }
  | .xferBulk ep dir tg addr speed | .xferIntSync ep dir tg addr speed | .xferIntAsyncArm ep dir tg addr speed
  | .asyncRegister ep dir tg addr speed => Fields.xfer i.opcode ep dir tg addr speed
  | .xferIsoch ep dir addr speed => Fields.xfer i.opcode ep dir false addr speed
  | .asyncCancel ep addr => { Fields.plain i.opcode with e := .ofFin ep, a := addr }
  | .hcSetState st => { Fields.plain i.opcode with x := st.bits }
  | .rhSetPortFeature ft | .rhClearPortFeature ft => { Fields.plain i.opcode with x := ft.bits }
  | .dmaReset | .otgPoll | .asyncTick | .hcGetCapability | .hcReset | .hcGetState | .rhGetPortStatus => Fields.plain i.opcode

/-- The command word of an instruction (R80). -/
def encode (i : Instr) : Word := i.fields.toWord

/-- What the decoder reads from a word whose bits are `w`, numbered as the opcode table numbers them: a command is one
32-bit word (R88), so the bits above `nbits` are 0. Log 25. -/
def decodeTableWord (nbits w : Nat) : Option Instr :=
  (decode (BitVec.ofNat 32 (w % 2 ^ nbits))).toOption

end Sys2Proof
end

