-- ==== Sys2Proof/Config.lean ====
section
/-! DEFINITION. What is fixed outside the block: the argument record a Host gives with a command word (spec 30_encoding R85),
the implementation parameters (00_scope R9), the steps of the other agents as events (00_scope R7), and the free values:
opaque constants that no proof can evaluate, one for each draw of the spec (00_scope R14) and for each parameter without a
default. -/

namespace Sys2Proof

/-! ### The argument record -/

/-- A region named by its base and its length in bytes. -/
structure Region where
  base : Nat
  len : Nat
  deriving DecidableEq, Repr, Inhabited

/-- The 8-byte setup packet (R65), byte 0 first. -/
abbrev SetupPacket := Vector Byte 8

/-- The argument record (R85). A command reads only the operands its rule names. DESIGN CHOICE (log 1): numbers are
unbounded. -/
structure Args where
  /-- max packet size in bytes -/
  mps : Nat
  /-- data length in bytes -/
  len : Nat
  /-- caller timeout, in caller units (R183) -/
  timeout : Nat
  /-- polling interval -/
  interval : Nat
  /-- the caller region -/
  buf : Region
  /-- the setup packet -/
  setup : SetupPacket
  /-- a TRB address, DMA_PROGRAM only -/
  desc : Nat
  /-- a TRB address, XFER_INT_ASYNC_ARM only -/
  trb : Nat
  /-- a buffer address, XFER_INT_ASYNC_ARM only -/
  data : Nat
  /-- a CallbackId; 0 means a missing callback -/
  callback : Nat
  /-- an opaque word -/
  ctx : Nat
  deriving DecidableEq, Repr, Inhabited

/-- The record with every operand 0 (R92: an operand not written is 0). DESIGN CHOICE (log 1): what reset holds. -/
def Args.zero : Args :=
  { mps := 0, len := 0, timeout := 0, interval := 0, buf := ⟨0, 0⟩, setup := Vector.replicate 8 0, desc := 0, trb := 0,
    data := 0, callback := 0, ctx := 0 }

/-- A command as the Host issues it: the word and its argument record (R79). -/
structure HostCmd where
  word : Word
  args : Args
  deriving DecidableEq, Repr, Inhabited

/-! ### Names shared with the state -/

/-- A DMA channel: one per (endpoint, direction) pair (R47). -/
structure Chan where
  ep : EpNum
  dir : Dir
  deriving DecidableEq, Repr, Inhabited

/-- The five OTG interrupt fields, for the flag set and for its mask (R37, R38). -/
structure OtgFlags where
  srpDet : Bool
  bSessEnd : Bool
  vbusErr : Bool
  connChange : Bool
  idleChange : Bool
  deriving DecidableEq, Repr, Inhabited

/-- All five fields 0. -/
def OtgFlags.none : OtgFlags := ⟨false, false, false, false, false⟩

/-- The Environment's inputs (R39). -/
structure Inputs where
  idA : Bool
  hwWait : Bool
  hwHostRole : Bool
  linkSpeed : Speed
  deriving DecidableEq, Repr, Inhabited

/-! ### Steps of the other agents -/

/-- One step of an agent other than the Sequencer (R7). An event whose agent has no such step where it stands changes
nothing: it did not happen. DEDUCED (log 10). -/
inductive AgentEvent where
  /-- R158: the agent of `c` completes; for an IN channel the device returned `bytes`; `toggle` is the toggle left -/
  | complete (c : Chan) (bytes : List Byte) (toggle : Bool)
  /-- R159: the agent of `c` ends with error code `code`; IN wrote `bytes`, OUT moved `moved` bytes -/
  | fail (c : Chan) (code : BitVec 3) (moved : Nat) (bytes : List Byte) (toggle : Bool)
  /-- R95: the Environment sets the flags that are 1 in `f` -/
  | assertFlags (f : OtgFlags)
  /-- R95: the Environment changes its inputs -/
  | drive (inp : Inputs)
  /-- R242, R243: the Host issues a command -/
  | issue (cmd : HostCmd)
  /-- R54: the Host declares a caller region -/
  | declare (r : Region)
  /-- R242: the Host writes into a caller region -/
  | poke (addr : Nat) (bytes : List Byte)
  /-- R36: the owning subsystem clears the wake-disable bit -/
  | clearWake
  deriving DecidableEq, Repr

/-- The draws of one DMA_RESET (R155): the channels not kept, and whether the burst mode is kept. -/
structure ResetDraw where
  dropped : List Chan
  keepConf : Bool
  deriving DecidableEq, Repr, Inhabited

/-! ### Parameters -/

/-- Error classes of the error translation (R91, R181). -/
inductive ErrClass where
  | none
  | crc
  | stall
  | timeout
  | other
  deriving DecidableEq, Repr, Inhabited

/-- Kinds of transfer that have a timeout scale of their own (R183). -/
inductive XferKind where
  | control
  | bulk
  | interrupt
  deriving DecidableEq, Repr, Inhabited

/-- What a TRB is written for, the argument of TrbFlags (R9). -/
inductive TrbKind where
  | setup
  | data
  | status
  | bulk
  | interrupt
  deriving DecidableEq, Repr, Inhabited

/-- DMA address width (R9). -/
inductive AddrWidth where
  | w32
  | w64
  deriving DecidableEq, Repr, Inhabited

/-- The two mutually exclusive secondary register sets (R45). -/
inductive SecondaryVariant where
  | v0
  | v1
  deriving DecidableEq, Repr, Inhabited

/-! ### Registers, and the register map -/

/-- The registers the rules name (R55, 41 and 42). -/
inductive Reg where
  | dmaConf
  | dmaErrIrqEn
  | dmaSel
  | dmaDoneIrqEn
  | dmaDescAddr
  | dmaChEnable
  | dmaStatus
  | dmaStatusClr
  | ep0Mps
  | ep0Addr
  | ep0ToggleSet
  | epIrqEn
  | epType
  | epAddr
  | epSel
  | epToggleRst
  | epMps
  | epEnable
  | epTimer
  | epToggle
  deriving DecidableEq, Repr, Inhabited

/-- The register lies in the DMA sub-block, at DmaBase; the others are core registers, at CoreBase (R62; 10_state section 5;
41 and 42 name the DMA and the endpoint registers). DEDUCED (log 17). -/
def Reg.inDma : Reg → Bool
  | .dmaConf | .dmaErrIrqEn | .dmaSel | .dmaDoneIrqEn | .dmaDescAddr | .dmaChEnable | .dmaStatus | .dmaStatusClr => true
  | .ep0Mps | .ep0Addr | .ep0ToggleSet | .epIrqEn | .epType | .epAddr | .epSel | .epToggleRst | .epMps | .epEnable
  | .epTimer | .epToggle => false

/-- The parts of a register's value, in the shapes the rules write it: `(e, dir, v)`, `(e, dir, done, err)` (R55); and of the
status a channel shows: done, err and err_code (R47). -/
inductive FieldPart where
  | value
  | ep
  | dir
  | done
  | err
  | errCode
  deriving DecidableEq, Repr, Inhabited

/-- A field of a register. -/
structure RegField where
  reg : Reg
  part : FieldPart
  deriving DecidableEq, Repr, Inhabited

/-- The five OTG interrupt fields by name (R37). -/
inductive OtgField where
  | srpDet
  | bSessEnd
  | vbusErr
  | connChange
  | idleChange
  deriving DecidableEq, Repr, Inhabited

/-- The register fields the spec names that no `W(reg, _)` or `R(reg)` names a register of. The secondary register set has
none: its contents are opaque (R45). -/
inductive HwField where
  /-- the interrupt flag of this name (R37) -/
  | otgFlag (f : OtgField)
  /-- its mask (R38) -/
  | otgMask (f : OtgField)
  /-- the Environment's inputs (R39) -/
  | idPin
  | hwWait
  | hwHostRole
  | linkSpeed
  /-- the VBUS drive (R32) -/
  | vbusEnable
  /-- the SRP enable (R33) -/
  | srpEnable
  /-- the wake-disable bit of the side-channel register (R36) -/
  | wakeDisable
  /-- the global soft-reset bit of `SOFT_RESET` (R46, R156) -/
  | softReset
  /-- the fetch command of `DFETCH` (R55, R151) -/
  | fetch
  /-- the bytes a channel's last transfer moved (R47) -/
  | actual
  /-- the FIFO reset of `FIFO_RESET` in this direction (R49, R55, R171) -/
  | fifoReset (d : Dir)
  deriving DecidableEq, Repr, Inhabited

/-- The field lies in the DMA sub-block, as `Reg.inDma` (R46, R47, R62). DEDUCED (log 17). -/
def HwField.inDma : HwField → Bool
  | .softReset | .fetch | .actual => true
  | .otgFlag _ | .otgMask _ | .idPin | .hwWait | .hwHostRole | .linkSpeed | .vbusEnable | .srpEnable | .wakeDisable
  | .fifoReset _ => false

/-- Register access widths (R63). -/
inductive RegWidth where
  | w8
  | w16
  | w32
  deriving DecidableEq, Repr, Inhabited

/-- Where RegMap puts a register in its block, and the width it is accessed with (R62, R63). -/
structure RegLoc where
  offset : Nat
  width : RegWidth
  deriving DecidableEq, Repr, Inhabited

/-- Where RegMap puts a field in its register: its lowest bit and its length (R9). -/
structure BitSlice where
  lsb : Nat
  len : Nat
  deriving DecidableEq, Repr, Inhabited

/-- Where RegMap puts a field of a register no operation names: the register and the bits. -/
structure FieldLoc where
  reg : RegLoc
  bits : BitSlice
  deriving DecidableEq, Repr, Inhabited

/-- RegMap (R9): what it says of the registers and fields it lists; the free values of Config stand for the others, so that
every map can be given. -/
structure RegMap where
  regs : List (Reg × RegLoc)
  fields : List (RegField × BitSlice)
  others : List (HwField × FieldLoc)
  deriving DecidableEq, Repr, Inhabited

/-! ### The parameters as one record -/

/-- A parameter that is a function of a number (SliceBytes, IntTimerValue): the values listed, and at every other number the
default of R9, which is the number itself, or the `k`-th free function of Config. DESIGN CHOICE (log 5): a function as plain
data. -/
structure ParamFn where
  table : List (Nat × Nat)
  free : Option Nat
  deriving DecidableEq, Repr, Inhabited

/-- The implementation parameters of R9 that a rule can read. -/
structure Params where
  burstSize : Nat
  maxTrbSize : Nat
  asyncIter : Nat
  /-- SliceBytes; default the registered length -/
  sliceBytes : ParamFn
  /-- IntTimerValue; default the interval -/
  intTimerValue : ParamFn
  /-- RegMap -/
  regMap : RegMap
  /-- ErrMap, by error code -/
  errMap : Vector ErrClass 8
  timeoutControl : Nat
  timeoutBulk : Nat
  timeoutInterrupt : Nat
  trbFlagsSetup : Nat
  trbFlagsData : Nat
  trbFlagsStatus : Nat
  trbFlagsBulk : Nat
  trbFlagsInterrupt : Nat
  /-- bytes of system memory one TRB slot takes: part of the open TRB layout (D25); DESIGN CHOICE (log 11) -/
  trbBytes : Nat
  /-- DisconnectSpinBound; `none` is unbounded -/
  disconnectSpinBound : Option Nat
  is64BitCapable : Bool
  addrWidth : AddrWidth
  dmaAlign : Nat
  coreBase : Nat
  dmaBase : Nat
  secondaryVariant : SecondaryVariant
  numSrp : Nat
  otgIrqMaskReset : OtgFlags
  hcStateReset : HcState
  cancelReleasesChannel : Bool
  /-- TickPeriod, a property of the Host that no rule reads (R222); log 23 -/
  tickPeriod : Nat
  deriving DecidableEq, Repr

/-- The constraints R9 puts on the parameters; BurstSize > 0, which `ceil_div` needs (R12, R190); and MaxTrbSize at least the
8 bytes of the SETUP stage's TRB. DEDUCED (log 20): R48 bounds every TRB, and R186 writes one of 8 bytes. -/
def Params.wf (p : Params) : Bool :=
  0 < p.burstSize && p.burstSize ≤ p.maxTrbSize && 8 ≤ p.maxTrbSize && 0 < p.asyncIter && 0 < p.dmaAlign && 0 < p.numSrp
    && 0 < p.trbBytes

/-! ### Free values: no constant below has a body. DESIGN CHOICE (log 4, 5): how the draws and parameters are named. -/

/-- RegMap's offset and width of a register (R9, D72). DESIGN CHOICE (log 17): registers stay symbolic. -/
opaque Config.regLoc : Reg → RegLoc
/-- RegMap's bit position of a register field (R9, D72). DESIGN CHOICE (log 17). -/
opaque Config.fieldBits : RegField → BitSlice
/-- RegMap's place of a field of a register no operation names (R9, D72). DESIGN CHOICE (log 17). -/
opaque Config.fieldLoc : HwField → FieldLoc
/-- The functions of a number a parameter can be: the `k`-th, at a number (R9, D28, D42). -/
opaque Config.freeFn : Nat → Nat → Nat
/-- BurstSize less one: the parameter is positive (R9). -/
opaque Config.burstSizeLess1 : Nat
/-- MaxTrbSize less the larger of BurstSize and 8 (R9, R186). -/
opaque Config.maxTrbExtra : Nat
/-- AsyncIter less one (R9). -/
opaque Config.asyncIterLess1 : Nat
/-- ErrMap (R9, D21). -/
opaque Config.errMap : Vector ErrClass 8
/-- TimeoutScale (R9, D31). -/
opaque Config.timeoutScale : XferKind → Nat
/-- TrbFlags (R9, D25). -/
opaque Config.trbFlags : TrbKind → Nat
/-- Bytes of a TRB slot, less one (D25). -/
opaque Config.trbBytesLess1 : Nat
/-- Is64BitCapable (R9, D48). -/
opaque Config.is64BitCapable : Bool
/-- AddrWidth (R9, D53). -/
opaque Config.addrWidth : AddrWidth
/-- CoreBase (R9, D55). -/
opaque Config.coreBase : Nat
/-- DmaBase (R9, D55). -/
opaque Config.dmaBase : Nat
/-- SecondaryVariant (R9, D55). -/
opaque Config.secondaryVariant : SecondaryVariant
/-- TickPeriod (R9, D71). -/
opaque Config.tickPeriod : Nat
/-- The steps the other agents take at the n-th free interleaving point (R8, R95, R158, R159). -/
opaque Config.freeBatch : Nat → List AgentEvent
/-- The address the n-th free Alloc would return, or FAIL (R15, D34). -/
opaque Config.freeAlloc : Nat → Option Nat
/-- The draws of the n-th free DMA_RESET (R155, D23). -/
opaque Config.freeReset : Nat → ResetDraw

/-- The parameters of the machine that starts at reset: the default of R9 where it has one, a free value elsewhere.
DESIGN CHOICE (log 5). -/
def Config.params : Params where
  burstSize := Config.burstSizeLess1 + 1
  maxTrbSize := max (Config.burstSizeLess1 + 1) 8 + Config.maxTrbExtra
  asyncIter := Config.asyncIterLess1 + 1
  sliceBytes := { table := [], free := none }
  intTimerValue := { table := [], free := none }
  regMap := { regs := [], fields := [], others := [] }
  errMap := Config.errMap
  timeoutControl := Config.timeoutScale .control
  timeoutBulk := Config.timeoutScale .bulk
  timeoutInterrupt := Config.timeoutScale .interrupt
  trbFlagsSetup := Config.trbFlags .setup
  trbFlagsData := Config.trbFlags .data
  trbFlagsStatus := Config.trbFlags .status
  trbFlagsBulk := Config.trbFlags .bulk
  trbFlagsInterrupt := Config.trbFlags .interrupt
  trbBytes := Config.trbBytesLess1 + 1
  disconnectSpinBound := none
  is64BitCapable := Config.is64BitCapable
  addrWidth := Config.addrWidth
  dmaAlign := 1
  coreBase := Config.coreBase
  dmaBase := Config.dmaBase
  secondaryVariant := Config.secondaryVariant
  numSrp := 1
  otgIrqMaskReset := OtgFlags.none
  hcStateReset := .halt
  cancelReleasesChannel := true
  tickPeriod := Config.tickPeriod

end Sys2Proof
end

