-- ==== Sys2Proof/Machine/State.lean ====
section
/-! DEFINITION. The state of one Controller (spec 10_state R28 to R57), the reasons a step stops, and the state after attach
(70_reset_and_hazards R271). State is plain data: it holds every piece of state the spec names, the parameters (R9), the
Host's pending commands and the oracle the draws are taken from. -/

namespace Sys2Proof.Machine

/-! ### Why a step stops -/

/-- FaultReason: the model faults, the mark a faulted state carries (R57, R250). -/
inductive FaultReason where
  /-- DMA_PROGRAM on a channel programmed and not released (R151, R163) -/
  | programUnreleased
  /-- DMA_PROGRAM with no TRB at the descriptor address (R151) -/
  | noDescriptor
  /-- DMA_PROGRAM with a descriptor or buffer address that is no multiple of DmaAlign (R66, R151) -/
  | misalignedDma
  /-- the Disconnect spin reached a finite DisconnectSpinBound (R104) -/
  | disconnectSpinExceeded
  /-- ASYNC_REGISTER while another live entry holds the endpoint's IN channel (R225) -/
  | channelShared
  deriving DecidableEq, Repr, Inhabited

/-- Why the model gives no meaning. -/
inductive Refusal where
  /-- An instruction without a meaning; no arm of `exec` answers it any more. Safe. -/
  | notModelled (mnemonic : String)
  /-- The Host issued a command where none is enabled, which set the refusal mark (R243); answered by every later step.
  DESIGN CHOICE (log 13). Safe. -/
  | reentrantCommand
  deriving DecidableEq, Repr

/-! ### Values -/

/-- OTG states (R29); `bSrp k` is B_SRP_k. -/
inductive OtgState where
  | aIdle
  | aWaitVrise
  | aWaitBcon
  | aHost
  | aSuspend
  | aPeripheral
  | aVbusErr
  | aWaitVfall
  | bIdle
  | bPeripheral
  | bWaitAcon
  | bHost
  | bHost2
  | bSrp (k : Nat)
  deriving DecidableEq, Repr, Inhabited

/-- DMA burst mode (R46). -/
inductive BurstMode where
  | single
  | other
  deriving DecidableEq, Repr, Inhabited

/-- Endpoint-0 protocol stage (R44). -/
inductive Ep0Stage where
  | idle
  | setup
  | data
  | status
  deriving DecidableEq, Repr, Inhabited

/-- Result statuses (R89). -/
inductive Status where
  | success
  | invalidParameter
  | unsupported
  | deviceError
  | outOfResources
  | timeout
  | illegalCommand
  deriving DecidableEq, Repr, Inhabited

/-- Transfer results (R90). -/
inductive XferResult where
  | none
  | stall
  | babble
  | crc
  | timeout
  deriving DecidableEq, Repr, Inhabited

/-- A transfer request block (R48). -/
structure Trb where
  addr : Nat
  size : Nat
  flags : Nat
  deriving DecidableEq, Repr, Inhabited

/-- The state of one DMA channel (R47). -/
structure Channel where
  enabled : Bool
  programmed : Bool
  errIrqEn : Bool
  doneIrqEn : Bool
  descAddr : Nat
  trb : Option Trb
  pending : Bool
  done : Bool
  err : Bool
  errCode : BitVec 3
  actual : Nat
  deriving DecidableEq, Repr, Inhabited

/-- The idle channel: every field 0, false or none (R47, R155). -/
def Channel.idle : Channel :=
  { enabled := false, programmed := false, errIrqEn := false, doneIrqEn := false, descAddr := 0, trb := none,
    pending := false, done := false, err := false, errCode := 0, actual := 0 }

/-- One value for each direction. -/
structure PerDir (α : Type) where
  out : α
  in_ : α
  deriving DecidableEq, Repr, Inhabited

/-- The shared control endpoint (R49). -/
structure Ep0 where
  mps : Nat
  devAddr : DevAddr
  toggle : PerDir Bool
  deriving DecidableEq, Repr, Inhabited

/-- An endpoint 1..15 in one direction (R50). -/
structure Endpoint where
  type : EpType
  devAddr : DevAddr
  mps : Nat
  toggle : Bool
  enabled : Bool
  doneIrqEn : Bool
  errIrqEn : Bool
  intTimer : Nat
  deriving DecidableEq, Repr, Inhabited

/-- An endpoint as attach leaves it (R50). -/
def Endpoint.attach : Endpoint :=
  { type := .control, devAddr := 0, mps := 0, toggle := false, enabled := false, doneIrqEn := false, errIrqEn := false,
    intTimer := 0 }

/-- A queued asynchronous interrupt transfer (R53). Its direction is always IN (R52), so no field holds it. -/
structure AsyncEntry where
  devAddr : DevAddr
  ep : EpNum
  speed : Speed
  mps : Nat
  interval : Nat
  len : Nat
  buf : Nat
  pool : List Nat
  index : Nat
  toggle : Bool
  callback : Nat
  ctx : Nat
  deriving DecidableEq, Repr, Inhabited

/-- Owners of allocated regions (R54). -/
inductive Owner where
  | caller
  | staging
  | trb
  | async
  deriving DecidableEq, Repr, Inhabited

/-- An allocated region; its base is its key in `alloc` (R54). DESIGN CHOICE (log 8). -/
structure Alloc where
  len : Nat
  owner : Owner
  deriving DecidableEq, Repr, Inhabited

/-- System memory (R54): the listed bytes, addresses strictly rising, none equal to what an unlisted address reads as.
DESIGN CHOICE (log 7). -/
abbrev Memory := List Host.Cell

/-! ### The Sequencer -/

/-- The lines of the commands' pseudocode (R151 to R155, R169, R179, R184, R186, R191, R194, R209, R212, R215), as
positions of the Sequencer: the next micro-step is the named one. -/
inductive Line where
  /-- the command has begun and nothing of it has happened -/
  | start
  /-- `Alloc` or `AllocTrb`, `left` regions still to be acquired (R185) -/
  | alloc (left : Nat)
  /-- EP_CONFIGURE -/
  | configure
  /-- the setup packet or the OUT data goes into the staging region -/
  | fill
  /-- the TRB is written -/
  | writeTrb
  /-- DMA_PROGRAM -/
  | program
  /-- Translate -/
  | translate
  /-- the actual length is read -/
  | capture
  /-- the hardware toggle is read -/
  | readToggle
  /-- DMA_CLEAR -/
  | clear
  /-- DMA_RESET -/
  | reset
  /-- DMA_RELEASE -/
  | release
  /-- the IN data goes into the caller's buffer -/
  | deliver
  /-- the regions are freed -/
  | free
  /-- ASYNC_REGISTER looks for an entry on its endpoint (R225) -/
  | shared
  /-- the tick's DMA_CHECK of an entry -/
  | check
  /-- the tick reads the previous slice and emits the Callback -/
  | callback
  /-- the tick leaves its loop -/
  | tickEnd
  deriving DecidableEq, Repr, Inhabited

/-- The micro-step position within the executing command (R56, R59): before a line, before a sample of a wait loop with
`left` iterations to go, or in the Disconnect spin, which keeps the role before it, the samples of 1 taken so far and whether
the idle change of the same poll is still to be handled. DEDUCED (log 3, 12). -/
inductive Pos where
  | line (l : Line)
  | waiting (c : Chan) (left : Nat)
  | spin (prior : OtgState) (samples : Nat) (idleChange : Bool)
  deriving DecidableEq, Repr, Inhabited

/-- The executing command, the round of it that runs (the stage of a control transfer, the chunk of a bulk transfer, the
entry of a tick or the deferred cancel after it, from 0) and the position in that round (R56, R59). -/
structure Running where
  instr : Instr
  round : Nat
  pos : Pos
  deriving DecidableEq, Repr, Inhabited

/-- An ASYNC_CANCEL accepted during a tick (R224), held decoded. DESIGN CHOICE (log 18). -/
structure CancelReq where
  ep : EpNum
  addr : DevAddr
  deriving DecidableEq, Repr, Inhabited

/-- Sequencer state (R56). -/
structure Seq where
  busy : Bool
  cmd : Option Running
  inTick : Bool
  deferred : List CancelReq
  deriving DecidableEq, Repr, Inhabited

/-- The idle Sequencer (R56). -/
def Seq.idle : Seq := { busy := false, cmd := none, inTick := false, deferred := [] }

/-! ### Outputs -/

/-- The value of a register write, in the shapes the rules write (R55). -/
inductive RegVal where
  | num (n : Nat)
  | burst (m : BurstMode)
  | dir (d : Dir)
  | chan (c : Chan)
  /-- `(e, dir, v)` -/
  | chanVal (c : Chan) (v : Nat)
  /-- `(e, dir, done, err)` -/
  | irqEn (c : Chan) (done err : Bool)
  deriving DecidableEq, Repr, Inhabited

/-- A register operation (R55). -/
inductive RegOp where
  | W (r : Reg) (v : RegVal)
  | R (r : Reg)
  | fifoReset (c : Chan)
  | dfetch (c : Chan)
  | softReset
  deriving DecidableEq, Repr, Inhabited

/-- The output values a command returns beside its status. -/
inductive Outs where
  | none
  /-- DMA_CHECK (R152) -/
  | complete (done : Bool)
  /-- XFER_CONTROL (R186) -/
  | control (res : XferResult) (len : Nat)
  /-- XFER_BULK and XFER_INT_SYNC (R191, R194); no toggle was read where the command was rejected before any register
  operation; DESIGN CHOICE (log 15) -/
  | transfer (res : XferResult) (len : Nat) (toggle : Option Bool)
  /-- XFER_ISOCH (R197) -/
  | result (res : XferResult)
  /-- ASYNC_CANCEL (R212) -/
  | toggle (t : Bool)
  /-- HC_GET_CAPABILITY (R229) -/
  | capability (maxSpeed : Speed) (portCount : Nat) (is64 : Bool)
  /-- HC_GET_STATE (R231) -/
  | hcState (st : HcState)
  /-- RH_GET_PORT_STATUS (R234) -/
  | port (status change : BitVec 16)
  deriving DecidableEq, Repr, Inhabited

/-- An event of the output trace (R16, R55). -/
inductive Event where
  /-- R94 -/
  | callback (cb ctx : Nat) (data : List Byte) (len : Nat) (res : XferResult)
  /-- `Diag(BABBLE, otg_state)`, R96 -/
  | babble (st : OtgState)
  /-- R242 -/
  | result (op : BitVec 8) (st : Status) (outs : Outs)
  deriving DecidableEq, Repr, Inhabited

/-! ### Draws -/

/-- Where the draws come from (R14): scripted values first, then the free values of Config numbered by `next`.
DESIGN CHOICE (log 4). -/
structure Oracle where
  batches : List (List AgentEvent)
  allocs : List (Option Nat)
  resets : List ResetDraw
  next : Nat
  deriving DecidableEq, Repr

/-! ### The state -/

/-- The OTG part (R28 to R39), with the Environment's inputs. -/
structure Otg where
  state : OtgState
  vbusOn : Bool
  srpEnable : Bool
  vbusErrCount : Nat
  resetPending : Bool
  wakeDisable : Bool
  flags : OtgFlags
  mask : OtgFlags
  inputs : Inputs
  deriving DecidableEq, Repr

/-- The port part (R40, R41). -/
structure Port where
  status : BitVec 16
  change : BitVec 16
  deriving DecidableEq, Repr

/-- The DMA part (R46, R47). -/
structure Dma where
  burstMode : BurstMode
  sel : Chan
  ch : Vector (PerDir Channel) 16
  deriving DecidableEq, Repr

/-- The state of one Controller (R28). -/
structure State where
  otg : Otg
  port : Port
  hcState : HcState
  ep0Stage : Ep0Stage
  /-- contents of the secondary register set: opaque, no rule reads or writes them (R45); DESIGN CHOICE (log 16) -/
  secondary : Nat
  dma : Dma
  ep0 : Ep0
  /-- endpoints 1..15 by number (R50); endpoint 0 is `ep0`, and slot 0 stands for nothing (log 27) -/
  ep : Vector (PerDir Endpoint) 16
  async : List AsyncEntry
  mem : Memory
  alloc : List (Nat × Alloc)
  trbStore : List (Nat × Trb)
  seq : Seq
  /-- argument record of the command at the port (R85); DESIGN CHOICE (log 1) -/
  args : Args
  regtrace : List RegOp
  trace : List Event
  fault : Option FaultReason
  refused : Bool
  cfg : Params
  /-- commands the Host has issued and the Sequencer has not begun; DESIGN CHOICE (log 2) -/
  hostQueue : List HostCmd
  oracle : Oracle
  deriving DecidableEq, Repr

/-- A model fault (R250), with the faulted state: the state the fault was raised in, its mark set (R57). A faulted state has
no successor. -/
inductive Fault where
  /-- DMA_PROGRAM, alone or inside a composite, on a channel programmed and not released (R151, R163). Safe: the spec gives
  no behaviour. -/
  | programUnreleased (s : State)
  /-- DMA_PROGRAM with no TRB at the descriptor address (R151). Safe: the spec gives no behaviour. -/
  | noDescriptor (s : State)
  /-- DMA_PROGRAM with a descriptor or buffer address that is no multiple of DmaAlign (R66, R151). Safe. -/
  | misalignedDma (s : State)
  /-- The Disconnect spin reached a finite DisconnectSpinBound (R104). Safe for the hardened variant the bound describes. -/
  | disconnectSpinExceeded (s : State)
  /-- ASYNC_REGISTER while another live entry holds the endpoint's IN channel (R225). Safe. -/
  | channelShared (s : State)
  deriving DecidableEq, Repr

/-- The state after attach (R271), for any parameters, any inputs at attach, any declared caller regions and any memory.
Log 19. -/
def State.attach (p : Params) (inp : Inputs) (regions : List (Nat × Alloc)) (mem : Memory) : State where
  otg :=
    { state := if inp.idA then .aIdle else .bIdle
      vbusOn := inp.idA
      srpEnable := false
      vbusErrCount := 0
      resetPending := false
      wakeDisable := false
      flags := OtgFlags.none
      mask := p.otgIrqMaskReset
      inputs := inp }
  port := { status := 0, change := 0 }
  hcState := p.hcStateReset
  ep0Stage := .idle
  secondary := 0
  dma := { burstMode := .other, sel := ⟨0, .out⟩, ch := Vector.replicate 16 ⟨Channel.idle, Channel.idle⟩ }
  ep0 := { mps := 0, devAddr := 0, toggle := ⟨false, false⟩ }
  ep := Vector.replicate 16 ⟨Endpoint.attach, Endpoint.attach⟩
  async := []
  mem := mem
  alloc := regions
  trbStore := []
  seq := Seq.idle
  args := Args.zero
  regtrace := []
  trace := []
  fault := none
  refused := false
  cfg := p
  hostQueue := []
  oracle := { batches := [], allocs := [], resets := [], next := 0 }

/-- The machine right after reset: attach with the parameters of Config, the ID pin at 1 and the other inputs at 0 and FULL,
no caller region declared and no byte of memory listed. DESIGN CHOICE (log 5, 6, 7, 8). -/
def State.reset : State :=
  State.attach Config.params { idA := true, hwWait := false, hwHostRole := false, linkSpeed := .full } [] []

end Sys2Proof.Machine
end

