-- ==== Sys2Proof/Machine/Update.lean ====
section
/-! DEFINITION. The named updates of the state: one per part of the state, and the reads and writes of one channel, one
endpoint and one toggle, so that every special behaviour of a field has one home (spec 10_state). -/

namespace Sys2Proof.Machine

/-! ### One part of the state replaced -/

/-- The OTG part replaced. -/
def State.withOtg (s : State) (x : Otg) : State := { s with otg := x }
/-- The port part replaced. -/
def State.withPort (s : State) (x : Port) : State := { s with port := x }
/-- The controller power state replaced (R43). -/
def State.withHcState (s : State) (x : HcState) : State := { s with hcState := x }
/-- The endpoint-0 stage replaced (R44). -/
def State.withEp0Stage (s : State) (x : Ep0Stage) : State := { s with ep0Stage := x }
/-- The DMA part replaced. -/
def State.withDma (s : State) (x : Dma) : State := { s with dma := x }
/-- Endpoint 0 replaced (R49). -/
def State.withEp0 (s : State) (x : Ep0) : State := { s with ep0 := x }
/-- The endpoints 1..15 replaced (R50). -/
def State.withEp (s : State) (x : Vector (PerDir Endpoint) 16) : State := { s with ep := x }
/-- The async queue replaced (R52). -/
def State.withAsync (s : State) (x : List AsyncEntry) : State := { s with async := x }
/-- The `k`-th entry of the async queue replaced (R52, R215). -/
def State.setEntry (s : State) (k : Nat) (x : AsyncEntry) : State := s.withAsync (s.async.set k x)
/-- System memory replaced (R54). -/
def State.withMem (s : State) (x : Memory) : State := { s with mem := x }
/-- The set of allocated regions replaced (R54). -/
def State.withAlloc (s : State) (x : List (Nat × Alloc)) : State := { s with alloc := x }
/-- The TRB store replaced (R48). -/
def State.withTrbStore (s : State) (x : List (Nat × Trb)) : State := { s with trbStore := x }
/-- The Sequencer's position replaced (R56). -/
def State.withSeq (s : State) (x : Seq) : State := { s with seq := x }
/-- The argument record at the port replaced (R85). -/
def State.withArgs (s : State) (x : Args) : State := { s with args := x }
/-- The refusal mark set (R57): no update clears it. -/
def State.markRefused (s : State) : State := { s with refused := true }
/-- The Host's pending commands replaced. -/
def State.withHostQueue (s : State) (x : List HostCmd) : State := { s with hostQueue := x }
/-- The oracle replaced. -/
def State.withOracle (s : State) (x : Oracle) : State := { s with oracle := x }

/-- An event appended to the output trace: `emit E` (R16). -/
def State.emit (s : State) (e : Event) : State := { s with trace := s.trace ++ [e] }

/-- A register operation appended to the register trace (R55, R71). -/
def State.logOp (s : State) (op : RegOp) : State := { s with regtrace := s.regtrace ++ [op] }

/-- A register write logged (R55). -/
def State.logW (s : State) (r : Reg) (v : RegVal) : State := s.logOp (.W r v)

/-! ### One direction of a pair -/

/-- The value of one direction. -/
def PerDir.get {α : Type} (p : PerDir α) : Dir → α
  | .out => p.out
  | .in_ => p.in_

/-- One direction replaced. -/
def PerDir.set {α : Type} (p : PerDir α) (d : Dir) (x : α) : PerDir α :=
  match d with
  | .out => { p with out := x }
  | .in_ => { p with in_ := x }

/-! ### Channels -/

/-- The state of channel `c`, S.ch[e][d] (R47). -/
def State.chan (s : State) (c : Chan) : Channel := (s.dma.ch.get c.ep).get c.dir

/-- Channel `c` replaced. -/
def State.setChan (s : State) (c : Chan) (x : Channel) : State :=
  s.withDma { s.dma with ch := s.dma.ch.set c.ep.val ((s.dma.ch.get c.ep).set c.dir x) c.ep.isLt }

/-- The channel selector written (R46). -/
def State.setSel (s : State) (c : Chan) : State := s.withDma { s.dma with sel := c }

/-- The burst mode written (R46). -/
def State.setBurst (s : State) (m : BurstMode) : State := s.withDma { s.dma with burstMode := m }

/-! ### Endpoints and toggles -/

/-- The registers of endpoint `c.ep` (1..15) in direction `c.dir`, S.ep[e][d] (R50). -/
def State.endpoint (s : State) (c : Chan) : Endpoint := (s.ep.get c.ep).get c.dir

/-- The registers of endpoint `c.ep` in direction `c.dir` replaced. -/
def State.setEndpoint (s : State) (c : Chan) (x : Endpoint) : State :=
  s.withEp (s.ep.set c.ep.val ((s.ep.get c.ep).set c.dir x) c.ep.isLt)

/-- The hardware toggle of a channel's endpoint and direction (R51). -/
def State.toggle (s : State) (c : Chan) : Bool :=
  if c.ep = 0 then s.ep0.toggle.get c.dir else (s.endpoint c).toggle

/-- The hardware toggle written (R51). -/
def State.setToggle (s : State) (c : Chan) (t : Bool) : State :=
  if c.ep = 0 then s.withEp0 { s.ep0 with toggle := s.ep0.toggle.set c.dir t }
  else s.setEndpoint c { s.endpoint c with toggle := t }

/-! ### The Sequencer's position -/

/-- The executing command moved to another micro-step position (R56). -/
def State.setPos (s : State) (p : Pos) : State :=
  s.withSeq { s.seq with cmd := s.seq.cmd.map fun r => { r with pos := p } }

/-- The executing command moved to another round (R56). -/
def State.setRound (s : State) (n : Nat) : State :=
  s.withSeq { s.seq with cmd := s.seq.cmd.map fun r => { r with round := n } }

/-- The Sequencer begins a command (R56). -/
def State.begin (s : State) (i : Instr) : State :=
  s.withSeq { busy := true, cmd := some { instr := i, round := 0, pos := .line .start }, inTick := false, deferred := [] }

/-- `return (status, outs)` of the command with opcode `op`: its Result event is appended and the Sequencer is idle
(R16, R242). -/
def State.finishOp (s : State) (op : BitVec 8) (st : Status) (outs : Outs) : State :=
  (s.withSeq Seq.idle).emit (.result op st outs)

/-- `return (status, outs)` of a Host-issued command. -/
def State.finish (s : State) (i : Instr) (st : Status) (outs : Outs) : State := s.finishOp i.opcode st outs

/-- `fault r`: the mark set, and the Sequencer without a command (R57, R59). -/
def State.markFault (s : State) (r : FaultReason) : State := { s.withSeq Seq.idle with fault := some r }

end Sys2Proof.Machine
end

