-- ==== Sys2Proof/Machine/Flags.lean ====
section
/-! DEFINITION. Status bits and their codes: the OTG flags, the port-status and change bits, the classes and codes of OTG
states, statuses and transfer results (spec 10_state R29, R30, R37 to R41; 30_encoding R89 to R91; 60_exceptions R246). -/

namespace Sys2Proof.Machine

/-! ### Single bits of a 16-bit register -/

/-- Bit `i` set. -/
def setBit (v : BitVec 16) (i : Nat) : BitVec 16 := v ||| BitVec.twoPow 16 i

/-- Bit `i` cleared. -/
def clearBit (v : BitVec 16) (i : Nat) : BitVec 16 := v &&& ~~~ BitVec.twoPow 16 i

/-! ### Bit positions of the port status and its change mask (R40, R41) -/

/-- CONNECTION and C_CONNECTION -/
def bitConnection : Nat := 0
/-- ENABLE and C_ENABLE -/
def bitEnable : Nat := 1
/-- SUSPEND and C_SUSPEND -/
def bitSuspend : Nat := 2
/-- OVERCURRENT and C_OVERCURRENT -/
def bitOvercurrent : Nat := 3
/-- RESET and C_RESET -/
def bitReset : Nat := 4
/-- POWER -/
def bitPower : Nat := 8
/-- LOW_SPEED -/
def bitLowSpeed : Nat := 9
/-- HIGH_SPEED -/
def bitHighSpeed : Nat := 10
/-- OWNER -/
def bitOwner : Nat := 13

/-- The port status with only POWER set, what Disconnect leaves (R103). -/
def statusPowered : BitVec 16 := BitVec.twoPow 16 bitPower

/-- The bits of the port status that are fields; the others are reserved and read 0 (R40). -/
def statusFields : BitVec 16 := 0x271F

/-- The bits of the change mask that are fields (R41). -/
def changeFields : BitVec 16 := 0x001F

/-- A status bit set. -/
def State.setStatus (s : State) (i : Nat) : State := s.withPort { s.port with status := setBit s.port.status i }

/-- A status bit cleared. -/
def State.clearStatus (s : State) (i : Nat) : State := s.withPort { s.port with status := clearBit s.port.status i }

/-- A change bit set. -/
def State.setChange (s : State) (i : Nat) : State := s.withPort { s.port with change := setBit s.port.change i }

/-- A change bit cleared. -/
def State.clearChange (s : State) (i : Nat) : State := s.withPort { s.port with change := clearBit s.port.change i }

/-! ### OTG flags -/

/-- Field by field OR: the flags an assertion leaves (R95). -/
def orFlags (x y : OtgFlags) : OtgFlags :=
  { srpDet := x.srpDet || y.srpDet
    bSessEnd := x.bSessEnd || y.bSessEnd
    vbusErr := x.vbusErr || y.vbusErr
    connChange := x.connChange || y.connChange
    idleChange := x.idleChange || y.idleChange }

/-- `flags AND NOT mask`, field by field: what OTG_POLL samples (R97). -/
def unmasked (flags mask : OtgFlags) : OtgFlags :=
  { srpDet := flags.srpDet && !mask.srpDet
    bSessEnd := flags.bSessEnd && !mask.bSessEnd
    vbusErr := flags.vbusErr && !mask.vbusErr
    connChange := flags.connChange && !mask.connChange
    idleChange := flags.idleChange && !mask.idleChange }

/-- The flag set replaced. -/
def State.setFlags (s : State) (f : OtgFlags) : State := s.withOtg { s.otg with flags := f }

/-! ### Classes and codes -/

/-- The code of an OTG state (R29). -/
def otgCode : OtgState → Nat
  | .aIdle => 0
  | .aWaitVrise => 1
  | .aWaitBcon => 2
  | .aHost => 3
  | .aSuspend => 4
  | .aPeripheral => 5
  | .aVbusErr => 6
  | .aWaitVfall => 7
  | .bIdle => 8
  | .bPeripheral => 9
  | .bWaitAcon => 10
  | .bHost => 11
  | .bHost2 => 12
  | .bSrp k => 13 + k

/-- The states a machine with `numSrp` SRP states has (R29). -/
def otgStateExists (numSrp : Nat) (st : OtgState) : Bool := otgCode st < 13 + numSrp

/-- `BSide`: codes 8 and above (R30). -/
def bSide (st : OtgState) : Bool := 8 ≤ otgCode st

/-- `HostOrSuspend` (R30). -/
def hostOrSuspend : OtgState → Bool
  | .aHost | .aSuspend | .bHost | .bHost2 => true
  | .aIdle | .aWaitVrise | .aWaitBcon | .aPeripheral | .aVbusErr | .aWaitVfall
  | .bIdle | .bPeripheral | .bWaitAcon | .bSrp _ => false

/-- The number of a status (R89). -/
def statusCode : Status → Nat
  | .success => 0
  | .invalidParameter => 2
  | .unsupported => 3
  | .deviceError => 7
  | .outOfResources => 9
  | .timeout => 18
  | .illegalCommand => 255

/-- The bitmask of a transfer result (R90). -/
def resultMask : XferResult → BitVec 8
  | .none => 0x00
  | .stall => 0x02
  | .babble => 0x08
  | .crc => 0x20
  | .timeout => 0x40

/-- The transfer result of an error class (R91). -/
def resultOf : ErrClass → XferResult
  | .none => .none
  | .crc => .crc
  | .stall => .stall
  | .timeout => .timeout
  | .other => .babble

/-- The register code of a transfer type (R50). -/
def epTypeCode : EpType → Nat
  | .control => 0
  | .isoch => 1
  | .bulk => 2
  | .interrupt => 3

end Sys2Proof.Machine
end

