-- ==== Sys2Proof/Machine/Operands.lean ====
section
/-! DEFINITION. The operand forms: the parameters of R9 as functions, the setup packet's fields (20_memory R64, R65), the
chunks of a bulk payload (43 R190), the timeout budget (43 R183), and the checks a command makes on its operands before any
state change (30_encoding R87). -/

namespace Sys2Proof.Machine

/-! ### Parameters as functions -/

/-- A function parameter at a number: the listed value, or its free function's, or the number itself (R9). -/
def paramAt (f : ParamFn) (n : Nat) : Nat :=
  match f.table.lookup n with
  | some v => v
  | none =>
    match f.free with
    | some k => Config.freeFn k n
    | none => n

/-- SliceBytes(len): default the registered length (R9). -/
def sliceBytes (p : Params) (len : Nat) : Nat := paramAt p.sliceBytes len

/-- IntTimerValue(interval): default the interval itself (R9). -/
def intTimerValue (p : Params) (interval : Nat) : Nat := paramAt p.intTimerValue interval

/-- ErrMap(code) (R9, R181). -/
def errClassOf (p : Params) (code : BitVec 3) : ErrClass := p.errMap.get code.toFin

/-- TimeoutScale(kind) (R9, R183). -/
def timeoutScale (p : Params) : XferKind → Nat
  | .control => p.timeoutControl
  | .bulk => p.timeoutBulk
  | .interrupt => p.timeoutInterrupt

/-- TrbFlags(kind) (R9). -/
def trbFlags (p : Params) : TrbKind → Nat
  | .setup => p.trbFlagsSetup
  | .data => p.trbFlagsData
  | .status => p.trbFlagsStatus
  | .bulk => p.trbFlagsBulk
  | .interrupt => p.trbFlagsInterrupt

/-- Size of the address space (R62). -/
def addrSpace : AddrWidth → Nat
  | .w32 => 2 ^ 32
  | .w64 => 2 ^ 64

/-- The wait budget of a transfer: `iters = timeout × TimeoutScale(kind)` (R183). -/
def waitBudget (p : Params) (kind : XferKind) (timeout : Nat) : Nat := timeout * timeoutScale p kind

/-- RegMap's place of a register: its offset and access width (R9, R63). -/
def regLoc (p : Params) (r : Reg) : RegLoc := (p.regMap.regs.lookup r).getD (Config.regLoc r)

/-- RegMap's bit position of a register field (R9). -/
def fieldBits (p : Params) (f : RegField) : BitSlice := (p.regMap.fields.lookup f).getD (Config.fieldBits f)

/-- The bus address of a register: DmaBase for the DMA sub-block and CoreBase for the core, and RegMap's offset (R62). -/
def regAddress (p : Params) (r : Reg) : Nat := (if r.inDma then p.dmaBase else p.coreBase) + (regLoc p r).offset

/-- RegMap's place of a field of a register no operation names (R9). -/
def fieldLoc (p : Params) (f : HwField) : FieldLoc := (p.regMap.others.lookup f).getD (Config.fieldLoc f)

/-- The bus address of such a field's register (R62). -/
def fieldAddress (p : Params) (f : HwField) : Nat :=
  (if f.inDma then p.dmaBase else p.coreBase) + (fieldLoc p f).reg.offset

/-! ### Byte order (R64) -/

/-- The `n` bytes of a value in memory order: least significant first. -/
def leBytes : Nat → Nat → List Byte
  | 0, _ => []
  | n + 1, v => BitVec.ofNat 8 v :: leBytes n (v / 256)

/-- The value of bytes in memory order. -/
def leValue : List Byte → Nat
  | [] => 0
  | b :: bs => b.toNat + 256 * leValue bs

/-! ### The setup packet (R65). The block sends the bytes and interprets none of these fields. -/

/-- A 16-bit field of the packet at byte `i`. -/
def setupField (p : SetupPacket) (i : Nat) : Nat := leValue ((p.toList.drop i).take 2)

/-- wValue, bytes 2..3 -/
def setupValue (p : SetupPacket) : Nat := setupField p 2
/-- wIndex, bytes 4..5 -/
def setupIndex (p : SetupPacket) : Nat := setupField p 4
/-- wLength, bytes 6..7 -/
def setupLength (p : SetupPacket) : Nat := setupField p 6

/-! ### Bulk chunks (R190) -/

/-- `⌈a / b⌉` for b > 0 (R12). -/
def ceilDiv (a b : Nat) : Nat := (a + b - 1) / b

/-- The number of chunks of a payload of `len` bytes. -/
def chunkCount (len burst : Nat) : Nat := ceilDiv len burst

/-- The size of chunk `i`. -/
def chunkSize (len burst i : Nat) : Nat :=
  if i + 1 < chunkCount len burst then burst else len - (chunkCount len burst - 1) * burst

/-! ### Directions -/

/-- The direction of a control transfer's data stage, where it has one. -/
def dataStageDir : DataDir → Option Dir
  | .noData => none
  | .in_ => some .in_
  | .out => some .out

/-- The direction of a control transfer's STATUS stage (R187): OUT after data in, IN otherwise. -/
def statusDir : DataDir → Dir
  | .in_ => .out
  | .noData | .out => .in_

/-! ### Checks on operands (R87) -/

/-- XFER_CONTROL's operands are legal (R186). -/
def controlOk (p : Params) (dd : DataDir) (a : Args) : Bool :=
  (if dd = .noData then a.len = 0 else a.len ≠ 0) && a.len ≤ p.maxTrbSize && a.len ≤ a.buf.len

/-- The legal bulk max-packet sizes, BulkMpsSet (R9). -/
def bulkMpsSet : List Nat := [8, 16, 32, 64]

/-- XFER_BULK's operands are legal (R191). -/
def bulkOk (ep : EpNum) (a : Args) : Bool := bulkMpsSet.contains a.mps && ep ≠ 0 && a.len ≤ a.buf.len

/-- XFER_INT_SYNC's operands are legal (R194). -/
def intSyncOk (p : Params) (ep : EpNum) (a : Args) : Bool :=
  ep ≠ 0 && a.len ≠ 0 && a.len ≤ p.maxTrbSize && a.len ≤ a.buf.len

/-- The async queue holds an entry of this key (R52). -/
def hasKey (q : List AsyncEntry) (addr : DevAddr) (ep : EpNum) : Bool := q.any fun x => x.devAddr = addr && x.ep = ep

/-- ASYNC_REGISTER's operands are legal, steps 1 to 7 of R209. -/
def registerOk (p : Params) (q : List AsyncEntry) (ep : EpNum) (dir : Dir) (addr : DevAddr) (a : Args) : Bool :=
  dir = .in_ && ep ≠ 0 && (1 ≤ a.interval && a.interval ≤ 255) && a.len ≠ 0 && a.callback ≠ 0
    && sliceBytes p a.len ≤ p.maxTrbSize && !hasKey q addr ep

end Sys2Proof.Machine
end

