-- ==== Sys2Proof/Machine/Ops.lean ====
section
/-! DEFINITION. The shared operations of the machine: memory and the TRB store, allocation, admission of an access, the
draws, the steps of the other agents and the points between the Sequencer's micro-steps at which they stand (spec 00_scope
R8, R13 to R16; 20_memory R62 to R78; 41 R158 to R160; 43 R185; 45 R242, R243). The block has no exception entry and no
return from one (60_exceptions R254), so there is no such operation: a command fails by its status, or the model by a named
fault. -/

namespace Sys2Proof.Machine

/-! ### Outcomes of a part of a command -/

/-- The outcome of a command. -/
abbrev Out := Host.Outcome State Fault Refusal

/-- The outcome of a part of a command that yields a value: it is done and the Sequencer goes on; the Sequencer is held at its
position, in the Disconnect spin (R104) or stuck before an access that is not admitted (R13, R251); or a model fault (R250). -/
inductive Part (α : Type) where
  | done (a : α) (s : State)
  | hold (s : State)
  | fault (r : FaultReason) (s : State)
  deriving DecidableEq, Repr

/-- The state a part ends in. -/
def Part.state {α : Type} : Part α → State
  | .done _ s | .hold s | .fault _ s => s

/-- The first part, and where it goes on, the second. -/
def andThen {α β : Type} (x : Part α) (f : α → State → Part β) : Part β :=
  match x with
  | .done a s => f a s
  | .hold s => .hold s
  | .fault r s => .fault r s

/-- The fault of a reason, with the faulted state (R57, R250). -/
def faultOf (r : FaultReason) (s : State) : Fault :=
  match r with
  | .programUnreleased => .programUnreleased s
  | .noDescriptor => .noDescriptor s
  | .misalignedDma => .misalignedDma s
  | .disconnectSpinExceeded => .disconnectSpinExceeded s
  | .channelShared => .channelShared s

/-- The outcome of a command whose parts came to `x`: a held Sequencer keeps its command, a faulted state is marked. Log 13. -/
def conclude (x : Part Unit) : Out :=
  match x with
  | .done _ s | .hold s => .next s
  | .fault r s => .fault (faultOf r (s.markFault r))

/-! ### Sorted tables: system memory, the TRB store, the set of regions -/

/-- The entry of key `a`. -/
def tabFind {α : Type} : List (Nat × α) → Nat → Option α
  | [], _ => none
  | (k, v) :: t, a => if a = k then some v else tabFind t a

/-- The entry of key `a` written, keys kept strictly rising. -/
def tabPut {α : Type} : List (Nat × α) → Nat → α → List (Nat × α)
  | [], a, v => [(a, v)]
  | (k, w) :: t, a, v =>
    if a < k then (a, v) :: (k, w) :: t else if a = k then (a, v) :: t else (k, w) :: tabPut t a v

/-- The entry of key `a` removed. -/
def tabDrop {α : Type} : List (Nat × α) → Nat → List (Nat × α)
  | [], _ => []
  | (k, w) :: t, a => if a = k then tabDrop t a else (k, w) :: tabDrop t a

/-- The keys rise strictly. -/
abbrev tabSorted {α : Type} (t : List (Nat × α)) : Prop := (t.map Prod.fst).Pairwise (· < ·)

/-! ### System memory (R54, R64) -/

/-- What an address no entry lists reads as: memory at attach is a draw (R54), and the model lists what it is told.
DESIGN CHOICE (log 7). -/
def blankByte : Byte := 0

/-- The canonical form of memory: addresses strictly rising, no entry equal to what an unlisted address reads as. -/
abbrev memWf (m : Memory) : Prop := tabSorted m ∧ ∀ c ∈ m, c.2 ≠ blankByte

/-- The byte at an address. -/
def readByte (m : Memory) (a : Nat) : Byte := (tabFind m a).getD blankByte

/-- A byte written. -/
def writeByte (m : Memory) (a : Nat) (v : Byte) : Memory := if v = blankByte then tabDrop m a else tabPut m a v

/-- `MemRead(addr, n)`: `n` bytes, that at `a` first (R13). -/
def readBytes (m : Memory) (a : Nat) : Nat → List Byte
  | 0 => []
  | n + 1 => readByte m a :: readBytes m (a + 1) n

/-- `MemWrite(addr, n, v)` of a byte string (R13, R64). -/
def writeBytes (m : Memory) (a : Nat) : List Byte → Memory
  | [] => m
  | b :: bs => writeBytes (writeByte m a b) (a + 1) bs

/-! ### Allocated regions and admission (R13, R15, R54) -/

/-- Every owner: a channel agent's access is admitted inside any allocated region (R158). -/
def anyOwner : List Owner := [.caller, .staging, .trb, .async]

/-- The access [a, a + n) is admitted: it is empty, or lies in the address space and inside one allocated region with an
owner of `own` (R13, R62, R70, R276). DEDUCED (log 9). -/
def State.admits (s : State) (own : List Owner) (a n : Nat) : Bool :=
  n = 0 || (a + n ≤ addrSpace s.cfg.addrWidth
    && s.alloc.any fun r => own.contains r.2.owner && r.1 ≤ a && a + n ≤ r.1 + r.2.len)

/-- A region of `n` bytes at `a` starts and lies in the address space, apart from every allocated region (R15, R54, R62).
DESIGN CHOICE (log 8): no two regions share a base. -/
def State.apart (s : State) (a n : Nat) : Bool :=
  a < addrSpace s.cfg.addrWidth && a + n ≤ addrSpace s.cfg.addrWidth
    && s.alloc.all fun r => r.1 ≠ a && (a + n ≤ r.1 || r.1 + r.2.len ≤ a)

/-- A region of `n` bytes at `a` is one Alloc may return: apart from the others, and aligned (R15, R66). -/
def State.fresh (s : State) (a n : Nat) : Bool := a % s.cfg.dmaAlign = 0 && s.apart a n

/-! ### Draws (R14). DESIGN CHOICE (log 4): scripted first, then free. -/

/-- The result the next Alloc draws. -/
def State.drawAlloc (s : State) : Option Nat × State :=
  match s.oracle.allocs with
  | d :: ds => (d, s.withOracle { s.oracle with allocs := ds })
  | [] => (Config.freeAlloc s.oracle.next, s.withOracle { s.oracle with next := s.oracle.next + 1 })

/-- The draws of the next DMA_RESET. -/
def State.drawReset (s : State) : ResetDraw × State :=
  match s.oracle.resets with
  | d :: ds => (d, s.withOracle { s.oracle with resets := ds })
  | [] => (Config.freeReset s.oracle.next, s.withOracle { s.oracle with next := s.oracle.next + 1 })

/-- The steps the other agents take at the next interleaving point. -/
def State.drawBatch (s : State) : List AgentEvent × State :=
  match s.oracle.batches with
  | b :: bs => (b, s.withOracle { s.oracle with batches := bs })
  | [] => (Config.freeBatch s.oracle.next, s.withOracle { s.oracle with next := s.oracle.next + 1 })

/-! ### The steps of the other agents -/

/-- The channel agent of `c` has a step (R158, R160): its channel is enabled and its latched transfer is pending. -/
def State.agentTrb (s : State) (c : Chan) : Option Trb :=
  if (s.chan c).enabled && (s.chan c).pending then (s.chan c).trb else none

/-- R158: the agent of `c` completes its transfer. An access that is not admitted, or a length the device cannot return,
is no step. DEDUCED (log 10). -/
def agentComplete (c : Chan) (bytes : List Byte) (tg : Bool) (s : State) : State :=
  match s.agentTrb c with
  | none => s
  | some t =>
    match c.dir with
    | .out =>
      if s.admits anyOwner t.addr t.size then
        (s.setToggle c tg).setChan c { s.chan c with actual := t.size, pending := false, done := true }
      else s
    | .in_ =>
      if bytes.length ≤ t.size && s.admits anyOwner t.addr bytes.length then
        ((s.withMem (writeBytes s.mem t.addr bytes)).setToggle c tg).setChan c
          { s.chan c with actual := bytes.length, pending := false, done := true }
      else s

/-- R159: the agent of `c` ends its transfer with an error. -/
def agentFail (c : Chan) (code : BitVec 3) (moved : Nat) (bytes : List Byte) (tg : Bool) (s : State) : State :=
  match s.agentTrb c with
  | none => s
  | some t =>
    match c.dir with
    | .out =>
      if moved ≤ t.size then
        (s.setToggle c tg).setChan c
          { s.chan c with actual := moved, pending := false, done := true, err := true, errCode := code }
      else s
    | .in_ =>
      if bytes.length ≤ t.size && s.admits anyOwner t.addr bytes.length then
        ((s.withMem (writeBytes s.mem t.addr bytes)).setToggle c tg).setChan c
          { s.chan c with actual := bytes.length, pending := false, done := true, err := true, errCode := code }
      else s

/-- The Host issues a command (R242, R243, R224): when the Sequencer is idle it is the next command; during a tick an
ASYNC_CANCEL is deferred; any other issue sets the refusal mark. Log 2. -/
def hostIssue (cmd : HostCmd) (s : State) : State :=
  if !s.seq.busy then s.withHostQueue (s.hostQueue ++ [cmd])
  else if s.seq.inTick then
    match decode cmd.word with
    | .ok (.asyncCancel ep addr) => s.withSeq { s.seq with deferred := s.seq.deferred ++ [{ ep := ep, addr := addr }] }
    | _ => s.markRefused
  else s.markRefused

/-- The Host declares a caller region, between commands (R54); a caller region has no alignment requirement (R66).
DESIGN CHOICE (log 8, 21): a region that overlaps an allocated one is not declared, and none is taken back. -/
def hostDeclare (r : Region) (s : State) : State :=
  if !s.seq.busy && s.apart r.base r.len then s.withAlloc (tabPut s.alloc r.base { len := r.len, owner := .caller }) else s

/-- The Host writes into a caller region, between commands (R242). Log 21. -/
def hostPoke (a : Nat) (bs : List Byte) (s : State) : State :=
  if !s.seq.busy && s.admits [.caller] a bs.length then s.withMem (writeBytes s.mem a bs) else s

/-- One step of another agent (R7). Log 22: the owning subsystem clears its bit while no command executes. -/
def agentStep (s : State) : AgentEvent → State
  | .complete c bytes tg => agentComplete c bytes tg s
  | .fail c code moved bytes tg => agentFail c code moved bytes tg s
  | .assertFlags f => s.setFlags (orFlags s.otg.flags f)
  | .drive inp => s.withOtg { s.otg with inputs := inp }
  | .issue cmd => hostIssue cmd s
  | .declare r => hostDeclare r s
  | .poke a bs => hostPoke a bs s
  | .clearWake => if s.seq.busy then s else s.withOtg { s.otg with wakeDisable := false }

/-- The other agents step between two micro-steps of the Sequencer (R8): the drawn steps, in their order.
DEDUCED (log 3): the points where this stands are enough. -/
def State.interleave (s : State) : State := s.drawBatch.1.foldl agentStep s.drawBatch.2

/-- The Sequencer comes to a position of its command, and the other agents step before it goes on (R8, R56). -/
def State.atPos (s : State) (p : Pos) : State := (s.setPos p).interleave

/-- The Sequencer comes to a line of its command. -/
abbrev State.atLine (s : State) (l : Line) : State := s.atPos (.line l)

/-- A command begun, the other agents having stepped before its first micro-step (R8, R242, R243). -/
def State.started (s : State) (i : Instr) : State := (s.begin i).interleave

/-! ### Allocation (R15, R185) -/

/-- `Alloc(n)`: a fresh region or FAIL. A drawn address that is not fresh is no result of Alloc, and reads as FAIL.
DEDUCED (log 8). DESIGN CHOICE (log 28): the region's bytes are those memory held there before. -/
def State.allocRegion (s : State) (n : Nat) (own : Owner) : Option Nat × State :=
  match s.drawAlloc with
  | (some a, t) =>
    if t.fresh a n then (some a, t.withAlloc (tabPut t.alloc a { len := n, owner := own })) else (none, t)
  | (none, t) => (none, t)

/-- `Free(a)`: the region at `a` returned. -/
def State.freeRegion (s : State) (a : Nat) : State := s.withAlloc (tabDrop s.alloc a)

/-- A TRB slot emptied and returned (R185, R212). -/
def State.freeTrb (s : State) (p : Nat) : State := (s.withTrbStore (tabDrop s.trbStore p)).freeRegion p

/-- A list of regions allocated in order, the other agents stepping before each Alloc; if one fails, those acquired before it
are returned and no region stays (R8, R185). DESIGN CHOICE (log 30): the TRB store is as it was, so a TRB that stood at the
address of a slot acquired and returned still stands there. -/
def acquire : List (Nat × Owner) → State → Option (List Nat) × State
  | [], s => (some [], s)
  | (n, own) :: rest, s =>
    match (s.atLine (.alloc (rest.length + 1))).allocRegion n own with
    | (none, t) => (none, t)
    | (some a, t) =>
      match acquire rest t with
      | (none, u) => (none, u.freeRegion a)
      | (some as, u) => (some (a :: as), u)

/-- The request for one TRB slot, `AllocTrb()` (R185). -/
def trbRequest (p : Params) : Nat × Owner := (p.trbBytes, .trb)

/-! ### The Sequencer's own memory accesses (R62, R77, R251) -/

/-- The Sequencer is stuck before line `l`: its access is not admitted, and it has no step; the other agents go on (R13,
R251). -/
def stuckAt {α : Type} (l : Line) (s : State) : Part α := .hold (s.setPos (.line l))

/-- A Sequencer read of `n` bytes in a region with an owner of `own`, at line `l`. -/
def seqRead (l : Line) (own : List Owner) (a n : Nat) (s : State) : Part (List Byte) :=
  if s.admits own a n then .done (readBytes s.mem a n) s else stuckAt l s

/-- A Sequencer write of a byte string, at line `l`. -/
def seqWrite (l : Line) (own : List Owner) (a : Nat) (bs : List Byte) (s : State) : Part Unit :=
  if s.admits own a bs.length then .done () (s.withMem (writeBytes s.mem a bs)) else stuckAt l s

/-- A byte copy, in one micro-step (R67). -/
def copyBytes (l : Line) (src : List Owner) (a : Nat) (dst : List Owner) (b : Nat) (n : Nat) (s : State) : Part Unit :=
  andThen (seqRead l src a n s) fun bs t => seqWrite l dst b bs t

/-- A TRB put into its slot (R48). -/
def State.putTrb (s : State) (p : Nat) (t : Trb) : State := s.withTrbStore (tabPut s.trbStore p t)

/-- The Sequencer's TRB write (R48, R62): the slot and the buffer must be addresses of the address space, else it is stuck.
DESIGN CHOICE (log 29): no allocated region is asked for, neither here nor at the fetch. -/
def writeTrb (p : Nat) (t : Trb) (s : State) : Part Unit :=
  if p < addrSpace s.cfg.addrWidth && t.addr < addrSpace s.cfg.addrWidth then .done () (s.putTrb p t)
  else stuckAt .writeTrb s

/-! ### The command port -/

/-- The Sequencer takes the Host's next command and its argument record (R242). -/
def State.takeCmd (s : State) : Option (Word × State) :=
  match s.hostQueue with
  | [] => none
  | cmd :: rest => some (cmd.word, (s.withHostQueue rest).withArgs cmd.args)

/-- An illegal word: ILLEGAL_COMMAND and no other effect (R86, T-ENC). -/
def rejectWord (w : Word) (s : State) : State := s.finishOp (w.extractLsb' 0 8) .illegalCommand .none

end Sys2Proof.Machine
end

