-- ==== Sys2Proof/Machine/Dma.lean ====
section
/-! DEFINITION. The DMA channel engine (spec 41_dma_channel_engine R151 to R163): the five primitives, as composites call
them (30_encoding R93), and the five commands over them. A primitive is one micro-step, as 43_transfer_protocol R179 calls
the two operations of a sample one. DEDUCED (log 3). -/

namespace Sys2Proof.Machine

/-- The channel selector written, the first operation of every primitive but DMA_RESET. -/
def selectChan (c : Chan) (s : State) : State := (s.logW .dmaSel (.chan c)).setSel c

/-- The checks DMA_PROGRAM makes of its channel and descriptor, in their order (R151): the latched TRB, or the fault. -/
def programCheck (c : Chan) (desc : Nat) (s : State) : Part Trb :=
  if (s.chan c).programmed then .fault .programUnreleased s
  else
    match tabFind s.trbStore desc with
    | none => .fault .noDescriptor s
    | some t =>
      if desc % s.cfg.dmaAlign ≠ 0 || t.addr % s.cfg.dmaAlign ≠ 0 then .fault .misalignedDma s else .done t s

/-- DMA_PROGRAM's register operations, in their order (R151). -/
def programOps (c : Chan) (desc : Nat) (s : State) : State :=
  (((((((s.logW .dmaConf (.burst .single)).logW .dmaErrIrqEn (.chan c)).logW .dmaSel (.chan c)).logW .dmaDoneIrqEn
    (.num 1)).logW .dmaDescAddr (.num desc)).logOp (.dfetch c)).logW .dmaChEnable (.num 1))

/-- The channel after DMA_PROGRAM: done, err, err_code and actual keep their values (R151). -/
def programmedChan (ch : Channel) (desc : Nat) (t : Trb) : Channel :=
  { ch with errIrqEn := true, doneIrqEn := true, descAddr := desc, trb := some t, pending := true, enabled := true,
            programmed := true }

/-- The state DMA_PROGRAM leaves, with the latched TRB `t` (R151). -/
def programmed (c : Chan) (desc : Nat) (t : Trb) (s : State) : State :=
  (((programOps c desc s).setBurst .single).setSel c).setChan c (programmedChan (s.chan c) desc t)

/-- DMA_PROGRAM (R151). -/
def dmaProgram (c : Chan) (desc : Nat) (s : State) : Part Unit :=
  andThen (programCheck c desc s) fun t s => .done () (programmed c desc t s)

/-- DMA_CHECK: selects and reads the status; its answer is the channel's `done` (R152). -/
def dmaCheck (c : Chan) (s : State) : State := (selectChan c s).logOp (.R .dmaStatus)

/-- DMA_CLEAR (R153). -/
def dmaClear (c : Chan) (s : State) : State :=
  ((selectChan c s).logW .dmaStatusClr (.chan c)).setChan c { s.chan c with done := false, err := false, errCode := 0 }

/-- DMA_RELEASE (R154). -/
def dmaRelease (c : Chan) (s : State) : State :=
  ((selectChan c s).logW .dmaChEnable (.num 0)).setChan c
    { s.chan c with enabled := false, programmed := false, pending := false, trb := none }

/-- A list of channels idled. -/
def idleChans (cs : List Chan) (s : State) : State := cs.foldl (fun t c => t.setChan c Channel.idle) s

/-- DMA_RESET (R155, R156): the selected channel is idled; each other channel and the burst mode are kept or reset by
draw. -/
def dmaReset (s : State) : State :=
  let d := (s.logOp .softReset).drawReset
  let t := idleChans (s.dma.sel :: d.1.dropped) d.2
  if d.1.keepConf then t else t.setBurst .other

/-! ### The commands -/

/-- DMA_PROGRAM issued by the Host: the descriptor is the argument `desc` (R151). -/
def execDmaProgram (ep : EpNum) (dir : Dir) (s : State) : Out :=
  conclude (andThen (dmaProgram ⟨ep, dir⟩ s.args.desc (s.started (.dmaProgram ep dir))) fun _ t =>
    .done () (t.finish (.dmaProgram ep dir) .success .none))

/-- DMA_CHECK issued by the Host (R152). -/
def execDmaCheck (ep : EpNum) (dir : Dir) (s : State) : Out :=
  let t := s.started (.dmaCheck ep dir)
  .next ((dmaCheck ⟨ep, dir⟩ t).finish (.dmaCheck ep dir) .success (.complete (t.chan ⟨ep, dir⟩).done))

/-- DMA_CLEAR issued by the Host (R153). -/
def execDmaClear (ep : EpNum) (dir : Dir) (s : State) : Out :=
  .next ((dmaClear ⟨ep, dir⟩ (s.started (.dmaClear ep dir))).finish (.dmaClear ep dir) .success .none)

/-- DMA_RELEASE issued by the Host (R154). -/
def execDmaRelease (ep : EpNum) (dir : Dir) (s : State) : Out :=
  .next ((dmaRelease ⟨ep, dir⟩ (s.started (.dmaRelease ep dir))).finish (.dmaRelease ep dir) .success .none)

/-- DMA_RESET issued by the Host (R155). -/
def execDmaReset (s : State) : Out := .next ((dmaReset (s.started .dmaReset)).finish .dmaReset .success .none)

end Sys2Proof.Machine
end

