-- ==== Sys2Proof/Machine/Endpoint.lean ====
section
/-! DEFINITION. The endpoint request programmer (spec 42_endpoint_programmer R169 to R175): EP_CONFIGURE in its endpoint-0
form and its endpoint-1..15 form, as composites call them, and the command. -/

namespace Sys2Proof.Machine

/-- EP_CONFIGURE for endpoint 0 (R170): the toggle is forced to 1 for an IN data stage, and left alone otherwise. -/
def configureEp0 (dir : Dir) (stage : CtrlStage) (addr : DevAddr) (mps : Nat) (s : State) : State :=
  let t := (((s.logW .ep0Mps (.num mps)).logW .ep0Addr (.num addr.toNat)).logOp (.fifoReset ⟨0, dir⟩)).withEp0
    { s.ep0 with mps := mps, devAddr := addr }
  if stage = .data && dir = .in_ then
    (t.logW .ep0ToggleSet (.dir .in_)).withEp0 { t.ep0 with toggle := t.ep0.toggle.set .in_ true }
  else t

/-- EP_CONFIGURE's eight register operations for an endpoint 1..15, the enable last (R171, R172). -/
def configureOps (c : Chan) (ty : EpType) (tg : Bool) (addr : DevAddr) (mps : Nat) (s : State) : State :=
  (((((((s.logW .epIrqEn (.irqEn c true true)).logW .epType (.chanVal c (epTypeCode ty))).logW .epAddr
    (.chanVal c addr.toNat)).logW .epSel (.chan c)).logW .epToggleRst (.chanVal c tg.toNat)).logOp (.fifoReset c)).logW .epMps
    (.chanVal c mps)).logW .epEnable (.chan c)

/-- The endpoint's registers after those operations (R171); the timer is written only for an interrupt endpoint with a
polling interval. -/
def configuredEndpoint (p : Params) (old : Endpoint) (ty : EpType) (tg : Bool) (addr : DevAddr) (mps interval : Nat) :
    Endpoint :=
  { type := ty, devAddr := addr, mps := mps, toggle := tg, enabled := true, doneIrqEn := true, errIrqEn := true
    intTimer := if ty = .interrupt && interval ≠ 0 then intTimerValue p interval else old.intTimer }

/-- EP_CONFIGURE for endpoint `c.ep` in 1..15 (R171). -/
def configureEp (c : Chan) (ty : EpType) (tg : Bool) (addr : DevAddr) (mps interval : Nat) (s : State) : State :=
  let t := configureOps c ty tg addr mps s
  let u :=
    if ty = .interrupt && interval ≠ 0 then t.logW .epTimer (.chanVal c (intTimerValue s.cfg interval)) else t
  u.setEndpoint c (configuredEndpoint s.cfg (s.endpoint c) ty tg addr mps interval)

/-- EP_CONFIGURE (R169). A term whose X does not fit its endpoint stands for no legal word, and is answered as R86 answers
such a word. DESIGN CHOICE (log 26). -/
def execEpConfigure (ep : EpNum) (dir : Dir) (tg : Bool) (addr : DevAddr) (sub : EpSub) (s : State) : Out :=
  let i := Instr.epConfigure ep dir tg addr sub
  if sub.legalFor ep then
    match sub with
    | .stage st => .next ((configureEp0 dir st addr s.args.mps (s.started i)).finish i .success .none)
    | .type ty => .next ((configureEp ⟨ep, dir⟩ ty tg addr s.args.mps s.args.interval (s.started i)).finish i .success .none)
  else .next ((s.started i).finish i .illegalCommand .none)

end Sys2Proof.Machine
end

