-- ==== Sys2Proof/Machine/Transfer.lean ====
section
/-! DEFINITION. The transfer protocol sequencer (spec 43_transfer_protocol R179 to R201): the wait loop, the error
translation, the stage cycle, and the transfer commands. `atLine` stands before every line whose effect, or whose place among
the steps of the other agents, can matter, so every order of micro-steps and agent steps (00_scope R8) is one run of the
machine. DEDUCED (log 3). No command reads its speed operand (R175, log 24). -/

namespace Sys2Proof.Machine

/-! ### Shared procedures -/

/-- WaitLoop (R179): up to `n` samples of channel `c`, agents stepping before each; `true` is COMPLETE. -/
def waitLoop (c : Chan) : Nat → State → Bool × State
  | 0, s => (false, s)
  | n + 1, s =>
    let t := dmaCheck c (s.atPos (.waiting c (n + 1)))
    if (t.chan c).done || (t.chan c).err then (true, t) else waitLoop c n t

/-- Translate (R181): an error flag raised with a code of class none counts as other. -/
def translate (s : State) (c : Chan) : Status × XferResult :=
  if (s.chan c).err then
    match errClassOf s.cfg (s.chan c).errCode with
    | .none => (.deviceError, resultOf .other)
    | k => (.deviceError, resultOf k)
  else (.success, .none)

/-- How a stage cycle ended: its status, result and actual length (R184). -/
structure StageEnd where
  status : Status
  res : XferResult
  actual : Nat
  deriving DecidableEq, Repr

/-- The end of a cycle that completed: capture, clear, reset after an error, release, in that order (R184, R279, R280). -/
def stageComplete (c : Chan) (s : State) : Part StageEnd :=
  let s := s.atLine .translate
  let r := translate s c
  let s := s.atLine .capture
  let a := (s.chan c).actual
  let s := dmaClear c (s.atLine .clear)
  let s := if r.1 = .success then s else dmaReset (s.atLine .reset)
  .done { status := r.1, res := r.2, actual := a } (dmaRelease c (s.atLine .release))

/-- The end of a cycle that timed out: reset, then release (R184). -/
def stageTimeout (c : Chan) (s : State) : Part StageEnd :=
  .done { status := .timeout, res := .timeout, actual := 0 } (dmaRelease c ((dmaReset (s.atLine .reset)).atLine .release))

/-- StageCycle (R184): program, poll within the budget, release on every path. -/
def stageCycle (c : Chan) (trb : Nat) (kind : XferKind) (s : State) : Part StageEnd :=
  andThen (dmaProgram c trb (s.atLine .program)) fun _ t =>
    let w := waitLoop c (waitBudget t.cfg kind t.args.timeout) t
    if w.1 then stageComplete c w.2 else stageTimeout c w.2

/-- The TRB of a stage or chunk written, and its cycle (R184, R186, R191, R194). -/
def trbCycle (c : Chan) (trb : Nat) (x : Trb) (kind : XferKind) (s : State) : Part StageEnd :=
  andThen (writeTrb trb x (s.atLine .writeTrb)) fun _ t => stageCycle c trb kind t

/-- Every region a synchronous command acquired is freed, and its TRB slot `trb` emptied (R185). -/
def releaseAll (trb : Nat) (staging : List Nat) (s : State) : State :=
  staging.foldl State.freeRegion ((s.atLine .free).freeTrb trb)

/-! ### Control transfers (R186 to R189) -/

/-- What the stages of a control transfer have come to: status, result and data length. -/
structure XferEnd where
  status : Status
  res : XferResult
  len : Nat
  deriving DecidableEq, Repr

/-- A stage of a control transfer begins: its round, the protocol stage and EP_CONFIGURE (R186). -/
def controlBegin (round : Nat) (stage : Ep0Stage) (dir : Dir) (st : CtrlStage) (addr : DevAddr) (s : State) : State :=
  configureEp0 dir st addr s.args.mps (((s.setRound round).atLine .configure).withEp0Stage stage)

/-- The SETUP stage (R186 (1)): the packet, exactly as the caller gave it, goes OUT. -/
def controlSetup (addr : DevAddr) (trb sb : Nat) (s : State) : Part StageEnd :=
  let s := controlBegin 0 .setup .out .setup addr s
  andThen (seqWrite .fill [.staging] sb s.args.setup.toList (s.atLine .fill)) fun _ s =>
  trbCycle ⟨0, .out⟩ trb { addr := sb, size := 8, flags := trbFlags s.cfg .setup } .control s

/-- The staging region filled before an OUT cycle: `n` bytes of the caller's buffer (R77). -/
def fillOut (dir : Dir) (src dst n : Nat) (s : State) : Part Unit :=
  if dir = .out then copyBytes .fill [.caller] src [.staging] dst n (s.atLine .fill) else .done () s

/-- The bytes a successful IN cycle left in the staging region copied to the caller's buffer (R77). -/
def deliverIn (dir : Dir) (src dst n : Nat) (s : State) : Part Unit :=
  if dir = .in_ then copyBytes .deliver [.staging] src [.caller] dst n (s.atLine .deliver) else .done () s

/-- The DATA stage in direction `dir` (R186 (2)): one TRB of the whole length; IN data is copied to the caller on success. -/
def controlData (addr : DevAddr) (dir : Dir) (trb db : Nat) (s : State) : Part XferEnd :=
  let s := controlBegin 1 .data dir .data addr s
  andThen (fillOut dir s.args.buf.base db s.args.len s) fun _ s =>
  andThen (trbCycle ⟨0, dir⟩ trb { addr := db, size := s.args.len, flags := trbFlags s.cfg .data } .control s) fun e s =>
  if e.status = .success then
    andThen (deliverIn dir db s.args.buf.base e.actual s) fun _ s =>
    .done { status := e.status, res := e.res, len := e.actual } s
  else .done { status := e.status, res := e.res, len := 0 } s

/-- The STATUS stage, zero-length, in the opposite direction (R186 (3), R187). -/
def controlStatus (addr : DevAddr) (dd : DataDir) (trb sb : Nat) (len : Nat) (s : State) : Part XferEnd :=
  let s := controlBegin 2 .status (statusDir dd) .status addr s
  andThen (trbCycle ⟨0, statusDir dd⟩ trb { addr := sb, size := 0, flags := trbFlags s.cfg .status } .control s) fun e s =>
  .done { status := e.status, res := e.res, len := len } s

/-- The DATA stage, where the transfer has one; `db` is read only then (R186 (2)). -/
def controlMiddle (addr : DevAddr) (dd : DataDir) (trb db : Nat) (s : State) : Part XferEnd :=
  match dataStageDir dd with
  | some dir => controlData addr dir trb db s
  | none => .done { status := .success, res := .none, len := 0 } s

/-- The three stages, each run only if the one before it succeeded (R186, R187). -/
def controlStages (addr : DevAddr) (dd : DataDir) (trb sb db : Nat) (s : State) : Part XferEnd :=
  andThen (controlSetup addr trb sb s) fun e s =>
  if e.status = .success then
    andThen (controlMiddle addr dd trb db s) fun d s =>
    if d.status = .success then controlStatus addr dd trb sb d.len s else .done d s
  else .done { status := e.status, res := e.res, len := 0 } s

/-- The regions XFER_CONTROL acquires: a TRB slot, 8 bytes for the packet, and the data if there is any (R186). -/
def controlRequests (p : Params) (len : Nat) : List (Nat × Owner) :=
  trbRequest p :: (8, .staging) :: (if len = 0 then [] else [(len, .staging)])

/-- XFER_CONTROL (R186). -/
def execXferControl (addr : DevAddr) (speed : Speed) (dd : DataDir) (s : State) : Out :=
  let i := Instr.xferControl addr speed dd
  let s := s.started i
  if controlOk s.cfg dd s.args then
    match acquire (controlRequests s.cfg s.args.len) s with
    | (some (trb :: sb :: db), t) =>
      conclude (andThen (controlStages addr dd trb sb (db.headD 0) t) fun e t =>
        .done () ((releaseAll trb (sb :: db) (t.withEp0Stage .idle)).finish i e.status (.control e.res e.len)))
    | (_, t) => .next (t.finish i .outOfResources (.control .none 0))
  else .next (s.finish i .invalidParameter (.control .none 0))

/-! ### Bulk transfers (R190 to R193) -/

/-- One chunk at index `i` (R191): OUT data is staged, the cycle runs, IN data is copied to the chunk's place. -/
def bulkChunk (c : Chan) (trb stg : Nat) (i : Nat) (s : State) : Part StageEnd :=
  let size := chunkSize s.args.len s.cfg.burstSize i
  let place := s.args.buf.base + i * s.cfg.burstSize
  andThen (fillOut c.dir place stg size (s.setRound i)) fun _ s =>
  andThen (trbCycle c trb { addr := stg, size := size, flags := trbFlags s.cfg .bulk } .bulk s) fun e s =>
  if e.status = .success then andThen (deliverIn c.dir stg place e.actual s) fun _ s => .done e s
  else .done e s

/-- The chunk loop from chunk `i`, with `n` chunks to go and `len` bytes moved so far; a chunk that fails ends it (R191,
R193). -/
def bulkLoop (c : Chan) (trb stg : Nat) : (n i len : Nat) → State → Part XferEnd
  | 0, _, len, s => .done { status := .success, res := .none, len := len } s
  | n + 1, i, len, s =>
    andThen (bulkChunk c trb stg i s) fun e s =>
    if e.status = .success then bulkLoop c trb stg n (i + 1) (len + e.actual) s
    else .done { status := e.status, res := e.res, len := len } s

/-- The toggle read back from hardware (R192), and the return of an endpoint transfer. -/
def finishTransfer (i : Instr) (c : Chan) (trb stg : Nat) (e : XferEnd) (s : State) : State :=
  let t := (s.atLine .readToggle).logOp (.R .epToggle)
  (releaseAll trb [stg] t).finish i e.status (.transfer e.res e.len (some (t.toggle c)))

/-- XFER_BULK (R191). -/
def execXferBulk (ep : EpNum) (dir : Dir) (tg : Bool) (addr : DevAddr) (speed : Speed) (s : State) : Out :=
  let i := Instr.xferBulk ep dir tg addr speed
  let c : Chan := ⟨ep, dir⟩
  let s := s.started i
  if bulkOk ep s.args then
    match acquire [trbRequest s.cfg, (s.cfg.burstSize, .staging)] s with
    | (some [trb, stg], t) =>
      conclude (andThen (bulkLoop c trb stg (chunkCount t.args.len t.cfg.burstSize) 0 0
        (configureEp c .bulk tg addr t.args.mps 0 (t.atLine .configure))) fun e t =>
        .done () (finishTransfer i c trb stg e t))
    | (_, t) => .next (t.finish i .outOfResources (.transfer .none 0 none))
  else .next (s.finish i .invalidParameter (.transfer .none 0 none))

/-! ### Interrupt transfers (R194 to R196) and isochronous ones (R197) -/

/-- The one cycle of XFER_INT_SYNC, with its copies (R194). -/
def intSyncCycle (c : Chan) (trb stg : Nat) (s : State) : Part XferEnd :=
  andThen (fillOut c.dir s.args.buf.base stg s.args.len s) fun _ s =>
  andThen (trbCycle c trb { addr := stg, size := s.args.len, flags := trbFlags s.cfg .interrupt } .interrupt s) fun e s =>
  if e.status = .success then
    andThen (deliverIn c.dir stg s.args.buf.base e.actual s) fun _ s =>
    .done { status := e.status, res := e.res, len := e.actual } s
  else .done { status := e.status, res := e.res, len := 0 } s

/-- XFER_INT_SYNC (R194). -/
def execXferIntSync (ep : EpNum) (dir : Dir) (tg : Bool) (addr : DevAddr) (speed : Speed) (s : State) : Out :=
  let i := Instr.xferIntSync ep dir tg addr speed
  let c : Chan := ⟨ep, dir⟩
  let s := s.started i
  if intSyncOk s.cfg ep s.args then
    match acquire [trbRequest s.cfg, (s.args.len, .staging)] s with
    | (some [trb, stg], t) =>
      conclude (andThen (intSyncCycle c trb stg
        (configureEp c .interrupt tg addr t.args.mps t.args.interval (t.atLine .configure))) fun e t =>
        .done () (finishTransfer i c trb stg e t))
    | (_, t) => .next (t.finish i .outOfResources (.transfer .none 0 none))
  else .next (s.finish i .invalidParameter (.transfer .none 0 none))

/-- The arm of an interrupt endpoint (R196): validated, then configure, write the TRB, program once, and no wait; each of the
three is a line of its own, as in the rule. A length above MaxTrbSize is rejected (R48, D68). -/
def armInterrupt (c : Chan) (tg : Bool) (addr : DevAddr) (mps interval : Nat) (trb data : Nat) (len : Nat) (s : State) :
    Part Status :=
  if c.ep = 0 || s.cfg.maxTrbSize < len then .done .invalidParameter s
  else
    let t := configureEp c .interrupt tg addr mps interval (s.atLine .configure)
    andThen (writeTrb trb { addr := data, size := len, flags := trbFlags t.cfg .interrupt } (t.atLine .writeTrb)) fun _ t =>
    andThen (dmaProgram c trb (t.atLine .program)) fun _ t => .done .success t

/-- XFER_INT_ASYNC_ARM (R196). -/
def execXferIntAsyncArm (ep : EpNum) (dir : Dir) (tg : Bool) (addr : DevAddr) (speed : Speed) (s : State) : Out :=
  let i := Instr.xferIntAsyncArm ep dir tg addr speed
  conclude (andThen (armInterrupt ⟨ep, dir⟩ tg addr s.args.mps s.args.interval s.args.trb s.args.data s.args.len (s.started i))
    fun st t => .done () (t.finish i st .none))

/-- XFER_ISOCH: always rejected, nothing written (R197). -/
def execXferIsoch (ep : EpNum) (dir : Dir) (addr : DevAddr) (speed : Speed) (s : State) : Out :=
  let i := Instr.xferIsoch ep dir addr speed
  .next ((s.started i).finish i .unsupported (.result .none))

end Sys2Proof.Machine
end

