-- ==== Sys2Proof/Machine/AsyncQueue.lean ====
section
/-! DEFINITION. The async interrupt request queue (spec 44_async_queue R209 to R227): register, cancel, and the dispatch
tick. -/

namespace Sys2Proof.Machine

/-- An entry's channel: its endpoint, IN (R209). -/
def entryChan (x : AsyncEntry) : Chan := ⟨x.ep, .in_⟩

/-! ### Register -/

/-- The regions ASYNC_REGISTER acquires: AsyncIter slices, and a TRB slot for each (R209, R211). -/
def registerRequests (p : Params) (len : Nat) : List (Nat × Owner) :=
  (p.asyncIter * sliceBytes p len, .async) :: List.replicate p.asyncIter (trbRequest p)

/-- The entry ASYNC_REGISTER appends (R209). -/
def newEntry (ep : EpNum) (tg : Bool) (addr : DevAddr) (speed : Speed) (a : Args) (buf : Nat) (pool : List Nat) :
    AsyncEntry :=
  { devAddr := addr, ep := ep, speed := speed, mps := a.mps, interval := a.interval, len := a.len, buf := buf, pool := pool,
    index := 0, toggle := tg, callback := a.callback, ctx := a.ctx }

/-- ASYNC_REGISTER (R209, R210, R225). -/
def execAsyncRegister (ep : EpNum) (dir : Dir) (tg : Bool) (addr : DevAddr) (speed : Speed) (s : State) : Out :=
  let i := Instr.asyncRegister ep dir tg addr speed
  let s := s.started i
  if registerOk s.cfg s.async ep dir addr s.args then
    match acquire (registerRequests s.cfg s.args.len) s with
    | (some (buf :: pool), t) =>
      let t := t.atLine .shared
      conclude (
        if t.async.any fun y => y.ep = ep then .fault .channelShared t
        else
          andThen (armInterrupt ⟨ep, .in_⟩ tg addr t.args.mps t.args.interval (pool.headD 0) buf
            (sliceBytes t.cfg t.args.len) t) fun _ u =>
          .done () ((u.withAsync (u.async ++ [newEntry ep tg addr speed u.args buf pool])).finish i .success .none))
    | (_, t) => .next (t.finish i .outOfResources .none)
  else .next (s.finish i .invalidParameter .none)

/-! ### Cancel -/

/-- The entry of this key (R212). -/
def findEntry (q : List AsyncEntry) (ep : EpNum) (addr : DevAddr) : Option AsyncEntry :=
  q.find? fun x => x.devAddr = addr && x.ep = ep

/-- The queue without the first entry of this key, the order of the others kept (R212). -/
def removeEntry (q : List AsyncEntry) (ep : EpNum) (addr : DevAddr) : List AsyncEntry :=
  q.eraseP fun x => x.devAddr = addr && x.ep = ep

/-- The release a Cancel makes of its entry's channel, where CancelReleasesChannel holds (R212, R214). -/
def cancelChannel (x : AsyncEntry) (s : State) : State :=
  if s.cfg.cancelReleasesChannel then
    dmaRelease (entryChan x) ((dmaClear (entryChan x) (s.atLine .clear)).atLine .release)
  else s

/-- An entry's buffer and its pool freed, the slots emptied (R212). -/
def cancelFree (x : AsyncEntry) (s : State) : State := x.pool.foldl State.freeTrb ((s.atLine .free).freeRegion x.buf)

/-- ASYNC_CANCEL's pseudocode (R212): the status and outputs it returns, and the state. -/
def cancelEntry (ep : EpNum) (addr : DevAddr) (s : State) : (Status × Outs) × State :=
  match findEntry s.async ep addr with
  | none => ((.invalidParameter, .none), s)
  | some x =>
    let t := cancelFree x (cancelChannel x s)
    ((.success, .toggle x.toggle), t.withAsync (removeEntry t.async ep addr))

/-- ASYNC_CANCEL issued while the Sequencer is idle (R212). -/
def execAsyncCancel (ep : EpNum) (addr : DevAddr) (s : State) : Out :=
  let r := cancelEntry ep addr (s.started (.asyncCancel ep addr))
  .next (r.2.finish (.asyncCancel ep addr) r.1.1 r.1.2)

/-! ### Dispatch tick -/

/-- The arm of the slice an entry's index names (R211, R215). -/
def armSlice (x : AsyncEntry) (s : State) : Part Status :=
  armInterrupt (entryChan x) x.toggle x.devAddr x.mps x.interval (x.pool.getD x.index 0)
    (x.buf + x.index * sliceBytes s.cfg x.len) (sliceBytes s.cfg x.len) s

/-- A completed entry, the `k`-th of the queue, serviced (R215): translate, capture, read the toggle into the entry, clear,
reset after an error, release, advance the entry's index, arm the next slice, and deliver the previous slice's bytes. -/
def tickComplete (k : Nat) (x : AsyncEntry) (s : State) : Part Unit :=
  let c := entryChan x
  let s := s.atLine .translate
  let r := translate s c
  let s := s.atLine .capture
  let a := (s.chan c).actual
  let s := (s.atLine .readToggle).logOp (.R .epToggle)
  let y := { x with toggle := s.toggle c }
  let s := dmaClear c ((s.setEntry k y).atLine .clear)
  let s := if r.1 = .success then s else dmaReset (s.atLine .reset)
  let s := dmaRelease c (s.atLine .release)
  let z := { y with index := (x.index + 1) % s.cfg.asyncIter }
  andThen (armSlice z (s.setEntry k z)) fun _ s =>
  andThen (seqRead .callback [.async] (x.buf + x.index * sliceBytes s.cfg x.len) a (s.atLine .callback)) fun data s =>
  .done () (s.emit (.callback x.callback x.ctx data a r.2))

/-- One entry visited by the tick: an entry whose channel does not report complete is skipped (R216). -/
def tickEntry (k : Nat) (x : AsyncEntry) (s : State) : Part Unit :=
  let t := dmaCheck (entryChan x) (s.atLine .check)
  if (t.chan (entryChan x)).done then tickComplete k x t else .done () t

/-- The entries of the queue visited in order, from the `k`-th on (R215, R223). -/
def tickLoop (k : Nat) : List AsyncEntry → State → Part Unit
  | [], s => .done () s
  | x :: rest, s => andThen (tickEntry k x (s.setRound k)) fun _ t => tickLoop (k + 1) rest t

/-- The commands deferred during the tick, executed in order, each with its own Result; `k` is the round of the first (R215,
R224). -/
def runDeferred (k : Nat) : List CancelReq → State → State
  | [], s => s
  | q :: rest, s =>
    let r := cancelEntry q.ep q.addr (s.setRound k)
    runDeferred (k + 1) rest (r.2.emit (.result (Instr.asyncCancel q.ep q.addr).opcode r.1.1 r.1.2))

/-- The tick over, its deferred commands run; the return empties the list (R215). -/
def tickEnd (s : State) : State := runDeferred 0 s.seq.deferred (s.withSeq { s.seq with inTick := false })

/-- The tick begun: `in_tick` set (R215). -/
def tickBegin (s : State) : State :=
  let t := s.started .asyncTick
  t.withSeq { t.seq with inTick := true }

/-- ASYNC_TICK (R215): a point stands before `in_tick` is cleared, also when no entry is visited, where the Host can still
issue an ASYNC_CANCEL (R224). -/
def execAsyncTick (s : State) : Out :=
  let t := tickBegin s
  conclude (andThen (tickLoop 0 t.async t) fun _ u =>
    .done () ((tickEnd (u.atLine .tickEnd)).finish .asyncTick .success .none))

end Sys2Proof.Machine
end

