-- ==== Sys2Proof/Machine/Otg.lean ====
section
/-! DEFINITION. The OTG state machine (spec 40_otg_state_machine R95 to R112, R146, R147) and the root-hub query that runs
it (45_host_interface R234). A poll is one step of the machine, but for the Disconnect spin, which takes one sample a step
for as long as the hardware reports a host role (R104); the other agents step before each sample (R8). -/

namespace Sys2Proof.Machine

/-! ### The actions of a poll -/

/-- Action (a): the transitional flags that are set in the sample are cleared (R99). -/
def transitionalClear (f : OtgFlags) (s : State) : State :=
  s.setFlags
    { s.otg.flags with
      srpDet := if f.srpDet then false else s.otg.flags.srpDet
      bSessEnd := if f.bSessEnd then false else s.otg.flags.bSessEnd }

/-- VbusErrLimit (R9). -/
def vbusErrLimit : Nat := 3

/-- Action (b), the VBUS error (R100). -/
def vbusErrorAction (s : State) : State :=
  let t := s.withOtg
    { s.otg with flags := { s.otg.flags with vbusErr := false }, vbusOn := false, state := .aVbusErr,
                 vbusErrCount := s.otg.vbusErrCount + 1 }
  if vbusErrLimit ≤ t.otg.vbusErrCount then
    ((t.setStatus bitOvercurrent).setChange bitOvercurrent).withOtg { t.otg with vbusErrCount := 0 }
  else t.withOtg { t.otg with vbusOn := true }

/-- The port status Connect leaves: CONNECTION set, ENABLE and the speed bits cleared, then the detected speed's bit set;
FULL has none (R102). -/
def connectStatus (sp : Speed) (st : BitVec 16) : BitVec 16 :=
  let st := clearBit (clearBit (clearBit (setBit st bitConnection) bitEnable) bitLowSpeed) bitHighSpeed
  match sp with
  | .low => setBit st bitLowSpeed
  | .high => setBit st bitHighSpeed
  | .full => st

/-- Connect (R102). -/
def connect (s : State) : State :=
  (s.withPort
      { status := connectStatus s.otg.inputs.linkSpeed s.port.status, change := setBit s.port.change bitConnection }).withOtg
    { s.otg with
      flags := { s.otg.flags with connChange := false }
      resetPending := true
      vbusOn := true
      state := if bSide s.otg.state then .bHost else .aHost
      vbusErrCount := 0 }

/-- Babble: logged and ignored (R96, R105). -/
def babble (s : State) : State := s.emit (.babble s.otg.state)

/-- The endpoint-0 FIFO reset sequence (R107). -/
def ep0FifoReset (s : State) : State := (s.logOp (.fifoReset ⟨0, .out⟩)).logOp (.fifoReset ⟨0, .in_⟩)

/-- Disconnect before its spin (R103). -/
def disconnectBegin (s : State) : State := s.setFlags { s.otg.flags with connChange := false }

/-- Disconnect up to the first sample of its spin, before which the other agents step (R8, R103, R104). -/
def disconnectSpin (prior : OtgState) (idleChange : Bool) (s : State) : State :=
  (disconnectBegin s).atPos (.spin prior 0 idleChange)

/-- Disconnect after its spin; `prior` is the role before it (R103). -/
def disconnectEnd (prior : OtgState) (s : State) : State :=
  ((ep0FifoReset s).withPort { status := statusPowered, change := setBit s.port.change bitConnection }).withOtg
    { s.otg with
      vbusOn := if prior = .aSuspend then true else s.otg.vbusOn
      state := .aIdle
      wakeDisable := true }

/-- The A-side idle handler (R108). -/
def idleA (s : State) : State := s.withOtg { s.otg with srpEnable := false, vbusOn := true, state := .aIdle }

/-- The B-side idle handler (R109). -/
def idleB (s : State) : State := s.withOtg { s.otg with srpEnable := false, vbusOn := false, state := .bIdle }

/-- Action (d), the idle or role change, by the ID pin (R106). -/
def idleChangeAction (s : State) : State :=
  let t := s.setFlags { s.otg.flags with idleChange := false }
  if t.otg.inputs.idA then idleA t else idleB t

/-! ### The poll -/

/-- Actions (a) and (b) of a poll with sample `f` (R98). -/
def pollHead (f : OtgFlags) (s : State) : State :=
  let t := if f.srpDet || f.bSessEnd then transitionalClear f s else s
  if f.vbusErr then vbusErrorAction t else t

/-- Action (d) of a poll. -/
def pollTail (idleChange : Bool) (s : State) : State := if idleChange then idleChangeAction s else s

/-- The bound of R104 is reached at the `n`-th consecutive sample of 1. -/
def spinExceeded (p : Params) (n : Nat) : Bool :=
  match p.disconnectSpinBound with
  | none => false
  | some b => b ≤ n

/-- One sample of the Disconnect spin (R103, R104): while the hardware reports a host role the Sequencer holds, `n` samples
of 1 having been taken before; then Disconnect and the rest of the poll, which `ret` ends.
DESIGN CHOICE (log 12): one sample a step. -/
def spinSample (prior : OtgState) (n : Nat) (idleChange : Bool) (ret : State → State) (s : State) : Part Unit :=
  if s.otg.inputs.hwHostRole then
    if spinExceeded s.cfg (n + 1) then .fault .disconnectSpinExceeded s
    else .hold (s.setPos (.spin prior (n + 1) idleChange))
  else .done () (ret (pollTail idleChange (disconnectEnd prior s)))

/-- OTG_POLL's pseudocode (R98, R101), up to its return, which is `ret`. -/
def otgPoll (ret : State → State) (s : State) : Part Unit :=
  let f := unmasked s.otg.flags s.otg.mask
  let t := pollHead f s
  if f.connChange then
    if hostOrSuspend t.otg.state then
      if t.otg.inputs.hwWait then
        spinSample t.otg.state 0 f.idleChange ret (disconnectSpin t.otg.state f.idleChange t)
      else .done () (ret (pollTail f.idleChange (babble t)))
    else .done () (ret (pollTail f.idleChange (connect t)))
  else .done () (ret (pollTail f.idleChange t))

/-- The return of OTG_POLL (R98). -/
def endOtgPoll (s : State) : State := s.finish .otgPoll .success .none

/-- The return of RH_GET_PORT_STATUS: the cached pair after the poll (R234, R235). -/
def endRhGetPortStatus (s : State) : State :=
  s.finish .rhGetPortStatus .success (.port s.port.status s.port.change)

/-- The return of the command a spin belongs to. -/
def endPollOf (i : Instr) (s : State) : State :=
  if i = .rhGetPortStatus then endRhGetPortStatus s else endOtgPoll s

/-- A Sequencer held within a command: in the Disconnect spin it takes its next sample (log 12); at a line it is stuck, for
no step changes the set of allocated regions meanwhile, and has no step (R13, R251; log 9). -/
def resume (r : Running) (s : State) : Out :=
  match r.pos with
  | .spin prior n idleChange => conclude (spinSample prior n idleChange (endPollOf r.instr) s)
  | .line _ | .waiting _ _ => .next s

/-- OTG_POLL (R98). -/
def execOtgPoll (s : State) : Out := conclude (otgPoll endOtgPoll (s.started .otgPoll))

/-- RH_GET_PORT_STATUS: an OTG_POLL, then the cached status (R234). -/
def execRhGetPortStatus (s : State) : Out := conclude (otgPoll endRhGetPortStatus (s.started .rhGetPortStatus))

/-! ### Caller-invoked port operations -/

/-- PORT_SUSPEND's pseudocode (R146). -/
def portSuspend (enable : Bool) (s : State) : State :=
  if enable then
    if s.otg.state = .aHost || s.otg.state = .bHost then
      (s.withOtg { s.otg with vbusOn := false, state := .aSuspend }).setStatus bitSuspend
    else babble s
  else if s.otg.state = .aSuspend then
    (s.withOtg { s.otg with vbusOn := true, state := .aHost }).clearStatus bitSuspend
  else babble s

/-- PORT_RESET's pseudocode (R147). -/
def portReset (enable : Bool) (s : State) : State :=
  if enable then ((s.setFlags OtgFlags.none).setStatus bitReset).clearStatus bitEnable
  else ((s.clearStatus bitReset).setStatus bitEnable).withOtg { s.otg with resetPending := false }

/-- PORT_SUSPEND (R146). -/
def execPortSuspend (enable : Bool) (s : State) : Out :=
  .next ((portSuspend enable (s.started (.portSuspend enable))).finish (.portSuspend enable) .success .none)

/-- PORT_RESET (R147). -/
def execPortReset (enable : Bool) (s : State) : Out :=
  .next ((portReset enable (s.started (.portReset enable))).finish (.portReset enable) .success .none)

end Sys2Proof.Machine
end

