-- ==== Sys2Proof/Machine/HostIf.lean ====
section
/-! DEFINITION. The controller commands and the root-hub port features (spec 45_host_interface R229 to R240). -/

namespace Sys2Proof.Machine

/-- HC_GET_CAPABILITY: fixed answers (R229). -/
def execHcGetCapability (s : State) : Out :=
  .next ((s.started .hcGetCapability).finish .hcGetCapability .success (.capability .high 1 s.cfg.is64BitCapable))

/-- HC_RESET: a no-op success (R230). -/
def execHcReset (s : State) : Out := .next ((s.started .hcReset).finish .hcReset .success .none)

/-- HC_GET_STATE (R231). -/
def execHcGetState (s : State) : Out :=
  .next ((s.started .hcGetState).finish .hcGetState .success (.hcState (s.started .hcGetState).hcState))

/-- HC_SET_STATE: stored, no other effect (R232). -/
def execHcSetState (st : HcState) (s : State) : Out :=
  .next (((s.started (.hcSetState st)).withHcState st).finish (.hcSetState st) .success .none)

/-- The change bit a change feature names (R238). -/
def changeBitOf : Feature → Option Nat
  | .connectChange => some bitConnection
  | .enableChange => some bitEnable
  | .suspendChange => some bitSuspend
  | .overcurrentChange => some bitOvercurrent
  | .resetChange => some bitReset
  | .enable | .suspend | .reset | .power | .owner => none

/-- Setting a port feature (R237): a change feature has no effect. -/
def setFeature (f : Feature) (s : State) : State :=
  match f with
  | .enable => s.setStatus bitEnable
  | .suspend => portSuspend true s
  | .reset => portReset true s
  | .power => s.setStatus bitPower
  | .owner => s.setStatus bitOwner
  | .connectChange | .enableChange | .suspendChange | .overcurrentChange | .resetChange => s

/-- Clearing a port feature (R238). -/
def clearFeature (f : Feature) (s : State) : State :=
  match f with
  | .enable => s.clearStatus bitEnable
  | .suspend => portSuspend false s
  | .reset => portReset false s
  | .power => s.clearStatus bitPower
  | .owner => s.clearStatus bitOwner
  | .connectChange | .enableChange | .suspendChange | .overcurrentChange | .resetChange =>
    match changeBitOf f with
    | some i => s.clearChange i
    | none => s

/-- RH_SET_PORT_FEATURE (R237). -/
def execRhSetPortFeature (f : Feature) (s : State) : Out :=
  .next ((setFeature f (s.started (.rhSetPortFeature f))).finish (.rhSetPortFeature f) .success .none)

/-- RH_CLEAR_PORT_FEATURE (R238). -/
def execRhClearPortFeature (f : Feature) (s : State) : Out :=
  .next ((clearFeature f (s.started (.rhClearPortFeature f))).finish (.rhClearPortFeature f) .success .none)

end Sys2Proof.Machine
end

