-- ==== Sys2Proof/Machine/Dispatch.lean ====
section
/-! DEFINITION. The dispatch: one arm per command of the opcode map (spec 30_encoding R82), each one call of its meaning. -/

namespace Sys2Proof.Machine

def exec (i : Instr) (s : State) : Host.Outcome State Fault Refusal :=
  match i with
  | .dmaProgram ep dir => Sys2Proof.Machine.execDmaProgram ep dir s
  | .dmaCheck ep dir => Sys2Proof.Machine.execDmaCheck ep dir s
  | .dmaClear ep dir => Sys2Proof.Machine.execDmaClear ep dir s
  | .dmaRelease ep dir => Sys2Proof.Machine.execDmaRelease ep dir s
  | .dmaReset => Sys2Proof.Machine.execDmaReset s
  | .epConfigure ep dir toggle addr sub => Sys2Proof.Machine.execEpConfigure ep dir toggle addr sub s
  | .otgPoll => Sys2Proof.Machine.execOtgPoll s
  | .portSuspend enable => Sys2Proof.Machine.execPortSuspend enable s
  | .portReset enable => Sys2Proof.Machine.execPortReset enable s
  | .xferControl addr speed dataDir => Sys2Proof.Machine.execXferControl addr speed dataDir s
  | .xferBulk ep dir toggle addr speed => Sys2Proof.Machine.execXferBulk ep dir toggle addr speed s
  | .xferIntSync ep dir toggle addr speed => Sys2Proof.Machine.execXferIntSync ep dir toggle addr speed s
  | .xferIntAsyncArm ep dir toggle addr speed => Sys2Proof.Machine.execXferIntAsyncArm ep dir toggle addr speed s
  | .xferIsoch ep dir addr speed => Sys2Proof.Machine.execXferIsoch ep dir addr speed s
  | .asyncRegister ep dir toggle addr speed => Sys2Proof.Machine.execAsyncRegister ep dir toggle addr speed s
  | .asyncCancel ep addr => Sys2Proof.Machine.execAsyncCancel ep addr s
  | .asyncTick => Sys2Proof.Machine.execAsyncTick s
  | .hcGetCapability => Sys2Proof.Machine.execHcGetCapability s
  | .hcReset => Sys2Proof.Machine.execHcReset s
  | .hcGetState => Sys2Proof.Machine.execHcGetState s
  | .hcSetState st => Sys2Proof.Machine.execHcSetState st s
  | .rhGetPortStatus => Sys2Proof.Machine.execRhGetPortStatus s
  | .rhSetPortFeature feature => Sys2Proof.Machine.execRhSetPortFeature feature s
  | .rhClearPortFeature feature => Sys2Proof.Machine.execRhClearPortFeature feature s

end Sys2Proof.Machine
end

