-- ==== Sys2Proof/Machine/Step.lean ====
section
/-! DEFINITION. One step of the machine (spec 00_scope R8; 10_state R57, R59; 45_host_interface R242). A machine with a
fault or the refusal mark has no successor. Otherwise the Sequencer takes the next sample of a spin it is held in, or
executes the Host's next command, or is idle or stuck; then the other agents step.
DEDUCED (log 3). A mark answers every later step (log 13). -/

namespace Sys2Proof.Machine

/-- A command word run: its instruction's meaning, or the rejection of an illegal word (R86, R87). -/
def runWord (w : Word) (s : State) : Out :=
  match decode w with
  | .ok i => exec i s
  | .error _ => .next (rejectWord w s)

/-- The Sequencer's part of a step. -/
def sequencerStep (s : State) : Out :=
  match s.seq.cmd with
  | some r => resume r s
  | none =>
    match s.takeCmd with
    | some (w, t) => runWord w t
    | none => .next s

/-- One step. -/
def step (s : State) : Host.Outcome State Fault Refusal :=
  match s.fault with
  | some r => .fault (faultOf r s)
  | none =>
    if s.refused then .refused .reentrantCommand
    else
      match sequencerStep s with
      | .next t => .next t.interleave
      | .fault f => .fault f
      | .refused r => .refused r

/-- The state with this command issued by the Host as the next one the Sequencer begins, with the argument record at the
port: the Sequencer is idle and no mark stands, so that the very next step runs it. DESIGN CHOICE (log 2): it stands for the
Host's issue. -/
def State.withFetchWord (s : State) (nbits w : Nat) : State :=
  { s with
    hostQueue := { word := BitVec.ofNat 32 (w % 2 ^ nbits), args := s.args } :: s.hostQueue
    seq := Seq.idle
    fault := none
    refused := false }

end Sys2Proof.Machine
end

