-- ==== Sys2Proof/Safety.lean ====
section
/-! DEFINITION. The terms claims are made in: safe runs, the invariants of the machine, the legality of a command word as the
opcode table states it, and the readiness of a channel for a transfer. -/

namespace Sys2Proof.Machine

/-! ### Runs -/

/-- No mark stands: the state is one claims are about (spec 00_scope R23). -/
def Unmarked (s : State) : Prop := s.fault = none ∧ s.refused = false

/-- The machine takes `k` steps without a fault or a refusal. -/
def SafeFor (k : Nat) (s : State) : Prop := ∃ t, Host.Core.run Sys2Proof.core k s = .next t

/-- No event of the batch is a Host's issue of a command. -/
def NoIssue (es : List AgentEvent) : Prop := ∀ e ∈ es, ∀ cmd, e ≠ .issue cmd

/-- The Host has no further command to issue (R22): none waits at the port, and no interleaving point to come, scripted or
free, has the Host issue one. -/
def HostDone (s : State) : Prop :=
  s.hostQueue = [] ∧ (∀ es ∈ s.oracle.batches, NoIssue es) ∧ ∀ n, s.oracle.next ≤ n → NoIssue (Config.freeBatch n)

/-- The run is over (R22): the Host has no further command to issue, the Sequencer is idle, and every programmed channel
belongs to a live async entry. -/
def RunOver (s : State) : Prop :=
  Unmarked s ∧ HostDone s ∧ s.seq = Seq.idle ∧ ∀ c, (s.chan c).programmed = true → ∃ x ∈ s.async, c = entryChan x

/-! ### Invariants -/

/-- Memory, the region set and the TRB store are in their canonical forms. -/
def MemCanonical (s : State) : Prop := memWf s.mem ∧ tabSorted s.alloc ∧ tabSorted s.trbStore

/-- The change bits some rule sets: C_CONNECTION and C_OVERCURRENT (R240). -/
def settableChanges : BitVec 16 := 0x0009

/-- Reserved port bits read 0 (R40, R41), C_ENABLE, C_SUSPEND and C_RESET are never set (R240), the error count is 0..2
(R34), and the OTG state is one the machine has (R29). -/
def PortLegal (s : State) : Prop :=
  s.port.status &&& ~~~statusFields = 0 ∧ s.port.change &&& ~~~settableChanges = 0 ∧ s.otg.vbusErrCount < vbusErrLimit ∧
    otgStateExists s.cfg.numSrp s.otg.state = true

/-- A channel is enabled exactly while it is programmed, has a latched TRB exactly then, and a transfer pends only then
(R47, R151, R154, R155). -/
def ChannelsCoherent (s : State) : Prop :=
  ∀ c, (s.chan c).enabled = (s.chan c).programmed ∧ (s.chan c).trb.isSome = (s.chan c).programmed ∧
    ((s.chan c).pending = true → (s.chan c).programmed = true)

/-- Every TRB, in its slot or latched by a channel, is at most MaxTrbSize long (R48), and slots and buffers of the store are
addresses of the address space (R62). -/
def TrbsFit (s : State) : Prop :=
  (∀ p t, tabFind s.trbStore p = some t → t.size ≤ s.cfg.maxTrbSize ∧ p < addrSpace s.cfg.addrWidth ∧
    t.addr < addrSpace s.cfg.addrWidth) ∧
    ∀ c t, (s.chan c).trb = some t → t.size ≤ s.cfg.maxTrbSize

/-- An entry's fields are in their ranges (R53, R209). -/
def EntryLegal (p : Params) (x : AsyncEntry) : Prop :=
  x.ep ≠ 0 ∧ (1 ≤ x.interval ∧ x.interval ≤ 255) ∧ x.len ≠ 0 ∧ x.callback ≠ 0 ∧ sliceBytes p x.len ≤ p.maxTrbSize ∧
    x.index < p.asyncIter ∧ x.pool.length = p.asyncIter

/-- Every entry is legal and no two share an endpoint, so no two share a key (R52, R225). -/
def QueueLegal (s : State) : Prop := (∀ x ∈ s.async, EntryLegal s.cfg x) ∧ (s.async.map (·.ep)).Nodup

/-- The lines at which a command makes a memory access of the Sequencer's, where it can be stuck (R13, R62, R251). -/
def accessLine (i : Instr) (l : Line) : Bool :=
  match i with
  | .xferControl .. | .xferBulk .. | .xferIntSync .. => l = .fill || l = .writeTrb || l = .deliver
  | .xferIntAsyncArm .. | .asyncRegister .. => l = .writeTrb
  | .asyncTick => l = .writeTrb || l = .callback
  | _ => false

/-- The Sequencer is stuck before a memory access of its command (R251). -/
def Stuck (s : State) : Prop :=
  ∃ i k l, s.seq = { busy := true, cmd := some ⟨i, k, .line l⟩, inTick := decide (i = .asyncTick), deferred := s.seq.deferred } ∧
    accessLine i l = true ∧ (i ≠ .asyncTick → s.seq.deferred = [])

/-- The Sequencer is held in the Disconnect spin of a poll, the role unchanged (R104). -/
def Spinning (s : State) : Prop :=
  ∃ i n b, s.seq = { busy := true, cmd := some ⟨i, 0, .spin s.otg.state n b⟩, inTick := false, deferred := [] } ∧
    (i = .otgPoll ∨ i = .rhGetPortStatus) ∧ hostOrSuspend s.otg.state = true

/-- The executing command is an XFER_CONTROL. -/
def InControl (s : State) : Prop := ∃ a sp dd k p, s.seq.cmd = some ⟨.xferControl a sp dd, k, p⟩

/-- Between steps the Sequencer is idle, or held in the Disconnect spin, or stuck; the endpoint-0 stage is IDLE but in a
stuck control transfer (R44, R56, R104, R251). -/
def SequencerSettled (s : State) : Prop :=
  (s.seq = Seq.idle ∨ Spinning s ∨ Stuck s) ∧ (¬InControl s → s.ep0Stage = .idle)

/-! ### Legal words, as the opcode table states them -/

/-- A row of the opcode table: the bits it fixes, their values, and whether it uses S and X. -/
structure OpRow where
  mask : Word
  pattern : Word
  usesS : Bool
  usesX : Bool
  deriving DecidableEq, Repr

/-- The opcode table (spec opcode_table.json; R82, R83). -/
def opcodeRows : List OpRow :=
  [⟨0xFFFFE0FF, 0x01, false, false⟩, ⟨0xFFFFE0FF, 0x02, false, false⟩, ⟨0xFFFFE0FF, 0x03, false, false⟩,
   ⟨0xFFFFE0FF, 0x04, false, false⟩, ⟨0xFFFFFFFF, 0x05, false, false⟩, ⟨0xF0C020FF, 0x08, false, true⟩,
   ⟨0xFFFFFFFF, 0x10, false, false⟩, ⟨0xFFFFDFFF, 0x11, false, false⟩, ⟨0xFFFFDFFF, 0x12, false, false⟩,
   ⟨0xF0007FFF, 0x20, true, true⟩, ⟨0xFF0020FF, 0x21, true, false⟩, ⟨0xFF0020FF, 0x22, true, false⟩,
   ⟨0xFF0020FF, 0x23, true, false⟩, ⟨0xFF0060FF, 0x24, true, false⟩, ⟨0xFF0020FF, 0x30, true, false⟩,
   ⟨0xFFC070FF, 0x31, false, false⟩, ⟨0xFFFFFFFF, 0x32, false, false⟩, ⟨0xFFFFFFFF, 0x40, false, false⟩,
   ⟨0xFFFFFFFF, 0x41, false, false⟩, ⟨0xFFFFFFFF, 0x42, false, false⟩, ⟨0xF0FFFFFF, 0x43, false, true⟩,
   ⟨0xFFFFFFFF, 0x44, false, false⟩, ⟨0xF0FFFFFF, 0x45, false, true⟩, ⟨0xF0FFFFFF, 0x46, false, true⟩]

/-- The X values R84 gives a meaning to, by opcode and endpoint number. -/
def xLegal (op : BitVec 8) (ep x : BitVec 4) : Bool :=
  if op = 0x08 then (if ep = 0 then x.toNat ≤ 2 else x = 0 || x = 2 || x = 3)
  else if op = 0x20 || op = 0x43 then x.toNat ≤ 2
  else x.toNat ≤ 9

/-- A word is legal: a row of the table matches it, its S is not the reserved value if the row uses S, and its X has a
meaning if the row uses X (R86). -/
def LegalWord (w : Word) : Prop :=
  ∃ r ∈ opcodeRows, w &&& r.mask = r.pattern ∧ (r.usesS = true → w.extractLsb' 22 2 ≠ 3) ∧
    (r.usesX = true → xLegal (w.extractLsb' 0 8) (w.extractLsb' 8 4) (w.extractLsb' 24 4) = true)

/-! ### Readiness -/

/-- Nothing of an earlier use is left on the channel: it is not programmed and no completion or error stands. -/
def ChanClean (s : State) (c : Chan) : Prop :=
  (s.chan c).enabled = false ∧ (s.chan c).programmed = false ∧ (s.chan c).done = false ∧ (s.chan c).err = false

/-- The buffer a command names is a caller region (R242, R276). -/
def CallerBuf (s : State) : Prop := s.admits [.caller] s.args.buf.base s.args.buf.len = true

/-- The address lies outside the buffer of every IN transfer that another agent still has to perform. -/
def OutsideAgents (s : State) (a : Nat) : Prop :=
  ∀ c x, c.dir = .in_ → s.agentTrb c = some x → a < x.addr ∨ x.addr + x.size ≤ a

/-- The other agents take no step at the next `n` interleaving points. -/
def Quiet (n : Nat) (s : State) : Prop := ∃ rest, s.oracle.batches = List.replicate n [] ++ rest

/-- The transfer of channel `c` has ended: its channel is now `ch`, the toggle of its endpoint and direction is `tg`, and
nothing else but bytes of memory differs (R158, R159). -/
def TransferEnded (c : Chan) (ch : Channel) (tg : Bool) (s t : State) : Prop :=
  t.chan c = ch ∧ t.toggle c = tg ∧ (∀ b, b ≠ c → t.chan b = s.chan b ∧ t.toggle b = s.toggle b) ∧
    (∀ b, t.endpoint b = { s.endpoint b with toggle := (t.endpoint b).toggle }) ∧
    t = { s with
          dma := { s.dma with ch := t.dma.ch }, ep0 := { s.ep0 with toggle := t.ep0.toggle }, ep := t.ep, mem := t.mem }

/-- Beside channel `c`, its endpoint and the engine's own registers and outputs, which the claim states, only steps of the
other agents lie between `s` and `t` (R8): a transfer that was pending may have ended, a flag be set, an input be driven, and
bytes of the buffers of pending IN transfers be written. The Sequencer is idle at `t`. -/
def OnlyAgentsBeside (c : Chan) (s t : State) : Prop :=
  (∀ b, b ≠ c → t.endpoint b = { s.endpoint b with toggle := (t.endpoint b).toggle } ∧
    (s.agentTrb b = none → t.chan b = s.chan b ∧ t.toggle b = s.toggle b) ∧
    (t.chan b = s.chan b ∨
      t.chan b =
        { s.chan b with
          pending := false, done := true, actual := (t.chan b).actual, err := (t.chan b).err
          errCode := (t.chan b).errCode })) ∧
    (∀ a, OutsideAgents s a → readByte t.mem a = readByte s.mem a) ∧ orFlags s.otg.flags t.otg.flags = t.otg.flags ∧
    t = { s with
          otg := { s.otg with flags := t.otg.flags, inputs := t.otg.inputs }
          dma := t.dma, ep0 := { s.ep0 with toggle := t.ep0.toggle }, ep := t.ep, async := t.async, mem := t.mem
          alloc := t.alloc, trbStore := t.trbStore, seq := Seq.idle, regtrace := t.regtrace, trace := t.trace
          refused := t.refused, oracle := t.oracle }

/-- The flags a poll of this state samples (R97). -/
def polled (s : State) : OtgFlags := unmasked s.otg.flags s.otg.mask

/-- A poll that ends its Disconnect, from role `prior`, at a sample of 0 in state `s`, and handles the idle change of the same
poll where `idle` is set; with its Result (R103, R106, R107, R234). -/
def pollDisconnected (i : Instr) (prior : OtgState) (idle : Bool) (s : State) : State :=
  { s with
    otg :=
      { s.otg with
        flags := { s.otg.flags with idleChange := if idle then false else s.otg.flags.idleChange }
        srpEnable := if idle then false else s.otg.srpEnable
        vbusOn := if idle then s.otg.inputs.idA else s.otg.vbusOn || decide (prior = .aSuspend)
        state := if idle then (if s.otg.inputs.idA then .aIdle else .bIdle) else .aIdle
        wakeDisable := true }
    port := { status := 0x0100, change := s.port.change ||| 0x0001 }
    seq := Seq.idle
    regtrace := s.regtrace ++ [.fifoReset ⟨0, .out⟩, .fifoReset ⟨0, .in_⟩]
    trace := s.trace ++
      [if i = .rhGetPortStatus then .result 0x44 .success (.port 0x0100 (s.port.change ||| 0x0001))
       else .result 0x10 .success .none] }

/-- The Sequencer's part of a step, working on command `i`: it begins it, or goes on with it where it is held. -/
def Executes (i : Instr) (s t : State) : Prop :=
  exec i s = .next t ∨ ∃ k p, s.seq.cmd = some ⟨i, k, p⟩ ∧ SequencerSettled s ∧ resume ⟨i, k, p⟩ s = .next t

/-- The instruction can write the OTG state: the polls and port suspend, also through its port feature (R31, R110). -/
def WritesOtgState (i : Instr) : Prop :=
  i = .otgPoll ∨ i = .rhGetPortStatus ∨ (∃ e, i = .portSuspend e) ∨ i = .rhSetPortFeature .suspend ∨
    i = .rhClearPortFeature .suspend

/-- The synchronous transfers (R198). -/
def IsSyncTransfer (i : Instr) : Prop :=
  (∃ a sp dd, i = .xferControl a sp dd) ∨ (∃ e d tg a sp, i = .xferBulk e d tg a sp) ∨
    (∃ e d tg a sp, i = .xferIntSync e d tg a sp)

/-- The channels a synchronous transfer runs its stages on (R186, R191, R194). -/
def syncChans : Instr → List Chan
  | .xferControl _ _ _ => [⟨0, .out⟩, ⟨0, .in_⟩]
  | .xferBulk ep dir _ _ _ | .xferIntSync ep dir _ _ _ => [⟨ep, dir⟩]
  | _ => []

/-- The regions a synchronous transfer acquires, with their lengths (R186, R191, R194). -/
def syncRequests (i : Instr) (s : State) : List (Nat × Owner) :=
  match i with
  | .xferControl _ _ _ => controlRequests s.cfg s.args.len
  | .xferBulk _ _ _ _ _ => [trbRequest s.cfg, (s.cfg.burstSize, .staging)]
  | .xferIntSync _ _ _ _ _ => [trbRequest s.cfg, (s.args.len, .staging)]
  | _ => []

/-- The transfer only sends: it writes nothing into the caller's buffer (R186, R191, R194). -/
def sendsOnly : Instr → Bool
  | .xferControl _ _ dd => dd ≠ .in_
  | .xferBulk _ dir _ _ _ | .xferIntSync _ dir _ _ _ => dir = .out
  | _ => false

/-- The register operations of DMA_PROGRAM on channel `c` with descriptor `desc` (R151). -/
def programTrace (c : Chan) (desc : Nat) : List RegOp :=
  [.W .dmaConf (.burst .single), .W .dmaErrIrqEn (.chan c), .W .dmaSel (.chan c), .W .dmaDoneIrqEn (.num 1),
   .W .dmaDescAddr (.num desc), .dfetch c, .W .dmaChEnable (.num 1)]

/-- The register operations of EP_CONFIGURE on an endpoint 1..15, before the timer write (R171). -/
def configureTrace (c : Chan) (ty : EpType) (tg : Bool) (addr : DevAddr) (mps : Nat) : List RegOp :=
  [.W .epIrqEn (.irqEn c true true), .W .epType (.chanVal c (epTypeCode ty)), .W .epAddr (.chanVal c addr.toNat),
   .W .epSel (.chan c), .W .epToggleRst (.chanVal c tg.toNat), .fifoReset c, .W .epMps (.chanVal c mps),
   .W .epEnable (.chan c)]

/-- The register operations of one sample of a channel's status (R152, R179). -/
def sampleTrace (c : Chan) : List RegOp := [.W .dmaSel (.chan c), .R .dmaStatus]

/-- The register operations of EP_CONFIGURE on endpoint 0 (R170). -/
def configureEp0Trace (dir : Dir) (st : CtrlStage) (addr : DevAddr) (mps : Nat) : List RegOp :=
  [.W .ep0Mps (.num mps), .W .ep0Addr (.num addr.toNat), .fifoReset ⟨0, dir⟩] ++
    if st = .data ∧ dir = .in_ then [.W .ep0ToggleSet (.dir .in_)] else []

/-- The register operations of DMA_CLEAR, and of DMA_RELEASE, on channel `c` (R153, R154). -/
def clearTrace (c : Chan) : List RegOp := [.W .dmaSel (.chan c), .W .dmaStatusClr (.chan c)]
def releaseTrace (c : Chan) : List RegOp := [.W .dmaSel (.chan c), .W .dmaChEnable (.num 0)]

/-- The register operations of a stage cycle whose first sample shows a completion without an error (R184). -/
def cycleTrace (c : Chan) (trb : Nat) : List RegOp :=
  programTrace c trb ++ sampleTrace c ++ clearTrace c ++ releaseTrace c

/-- The other agents take no step at the next points but one: before the first sample of channel `c`'s wait, after `before`
points, its device answers; `after` points follow. -/
def answered (before after : Nat) (c : Chan) (bs : List Byte) (tg : Bool) : List (List AgentEvent) :=
  List.replicate before [] ++ [.complete c bs tg] :: List.replicate after []

/-- The chunks of a bulk transfer from the `i`-th on, each successful, whose cycles ended as `ends` says, lead from `s` to `t`
(R191, R193). -/
def ChunksMoved (c : Chan) (trb stg : Nat) : Nat → List StageEnd → State → State → Prop
  | _, [], s, t => t = s
  | i, e :: es, s, t =>
    ∃ u, bulkChunk c trb stg i s = .done e u ∧ e.status = .success ∧ ChunksMoved c trb stg (i + 1) es u t

/-- Every slice of an entry's buffer, and every slot of its pool, is an aligned address inside the entry's own region, and
what its channel holds or will deliver fits a slice (R66, R209, R211): under these a tick can serve the entry. ASYNC_REGISTER
leaves its entry so where the slices are aligned and no longer completion of an earlier use stands on the channel. -/
def EntryReady (s : State) (x : AsyncEntry) : Prop :=
  (∀ i, i < s.cfg.asyncIter → (x.buf + i * sliceBytes s.cfg x.len) % s.cfg.dmaAlign = 0 ∧
      x.buf + i * sliceBytes s.cfg x.len < addrSpace s.cfg.addrWidth ∧
      s.admits [.async] (x.buf + i * sliceBytes s.cfg x.len) (sliceBytes s.cfg x.len) = true) ∧
    (∀ p ∈ x.pool, p % s.cfg.dmaAlign = 0 ∧ p < addrSpace s.cfg.addrWidth) ∧
    ((s.chan (entryChan x)).done = true → (s.chan (entryChan x)).actual ≤ sliceBytes s.cfg x.len) ∧
    (∀ t, s.agentTrb (entryChan x) = some t → t.size ≤ sliceBytes s.cfg x.len)

/-- A command that came out of resources left no register operation, no TRB, no region and no other field of the channel
engine changed but what the other agents wrote; a byte of memory only in the buffers of pending transfers (R185). -/
def NothingAcquired (s t : State) : Prop :=
  t.alloc = s.alloc ∧ t.regtrace = s.regtrace ∧ t.trbStore = s.trbStore ∧ t.dma = { s.dma with ch := t.dma.ch } ∧
    (∀ c, (t.chan c).programmed = (s.chan c).programmed) ∧
    (∀ c, t.endpoint c = { s.endpoint c with toggle := (t.endpoint c).toggle }) ∧
    t.ep0 = { s.ep0 with toggle := t.ep0.toggle } ∧ ∀ a, OutsideAgents s a → readByte t.mem a = readByte s.mem a

/-- A channel that was clean, programmed on `trb`, whose transfer moved `n` bytes without an error, cleared and released (R151,
R153, R154, R158). -/
def usedChan (trb n : Nat) : Channel :=
  { Channel.idle with errIrqEn := true, doneIrqEn := true, descAddr := trb, actual := n }

/-- The register operations of EP_CONFIGURE on an interrupt endpoint, the timer write among them if there is an interval
(R171). -/
def interruptTrace (p : Params) (c : Chan) (tg : Bool) (addr : DevAddr) (mps interval : Nat) : List RegOp :=
  configureTrace c .interrupt tg addr mps ++
    if interval ≠ 0 then [.W .epTimer (.chanVal c (intTimerValue p interval))] else []

/-- The transfer result that goes with a status (R181, R182, R184, R185, R188). -/
def ResultFits (st : Status) (res : XferResult) : Prop :=
  (st = .success → res = .none) ∧ (st = .outOfResources → res = .none) ∧ (st = .timeout → res = .timeout) ∧
    (st = .deviceError → res ≠ .none)

/-- The statuses a synchronous transfer with legal operands can return (R247). -/
def transferStatuses : List Status := [.success, .outOfResources, .deviceError, .timeout]

/-! ### What a tick does to one entry of its queue, the other agents quiet (R215) -/

/-- The index of an entry's next slice (R215, R217). -/
def nextIndex (p : Params) (x : AsyncEntry) : Nat := (x.index + 1) % p.asyncIter

/-- The slot an entry's next slice is armed on, and its TRB (R211, R215). -/
def nextSlot (p : Params) (x : AsyncEntry) : Nat := x.pool.getD (nextIndex p x) 0
def nextTrb (p : Params) (x : AsyncEntry) : Trb :=
  { addr := x.buf + nextIndex p x * sliceBytes p x.len, size := sliceBytes p x.len, flags := trbFlags p .interrupt }

/-- A complete entry after its visit: the hardware's toggle and the next index (R215). -/
def servedEntry (s : State) (x : AsyncEntry) : AsyncEntry :=
  { x with toggle := s.toggle (entryChan x), index := nextIndex s.cfg x }

/-- The Callback of a complete entry: the bytes of the slice its index names, their number and the translated result (R215,
R218, R219). -/
def entryCallback (s : State) (x : AsyncEntry) : Event :=
  .callback x.callback x.ctx
    (readBytes s.mem (x.buf + x.index * sliceBytes s.cfg x.len) (s.chan (entryChan x)).actual)
    (s.chan (entryChan x)).actual (translate s (entryChan x)).2

/-- The register operations of an entry's visit: the check, and for a complete entry the toggle read, the clear, the reset
after an error, the release, and the arm of the next slice with the toggle read (R196, R215, R220). -/
def visitTrace (s : State) (x : AsyncEntry) : List RegOp :=
  let c := entryChan x
  sampleTrace c ++
    if (s.chan c).done then
      [.R .epToggle] ++ clearTrace c ++ (if (s.chan c).err then [.softReset] else []) ++ releaseTrace c ++
        interruptTrace s.cfg c (s.toggle c) x.devAddr x.mps x.interval ++ programTrace c (nextSlot s.cfg x)
    else []

/-- A complete entry's channel after its visit: armed on the next slice, nothing of the completion left but its count, and not
that after an error, whose reset idled the channel (R151, R153, R155, R215). -/
def rearmedChan (s : State) (x : AsyncEntry) : Channel :=
  { (if (s.chan (entryChan x)).err then Channel.idle else s.chan (entryChan x)) with
    enabled := true, programmed := true, errIrqEn := true, doneIrqEn := true, descAddr := nextSlot s.cfg x
    trb := some (nextTrb s.cfg x), pending := true, done := false, err := false, errCode := 0 }

/-- A complete entry's endpoint after its visit: configured again as the entry says, with the hardware's toggle (R171, R215). -/
def rearmedEndpoint (s : State) (x : AsyncEntry) : Endpoint :=
  { type := .interrupt, devAddr := x.devAddr, mps := x.mps, toggle := s.toggle (entryChan x), enabled := true
    doneIrqEn := true, errIrqEn := true, intTimer := intTimerValue s.cfg x.interval }

/-- The draws of the DMA_RESETs a tick makes are scripted, one for each complete entry with an error, and reset no entry's
channel (R155, R215). -/
def ResetsSpareQueue (s : State) : Prop :=
  let n := (s.async.filter fun x => (s.chan (entryChan x)).done && (s.chan (entryChan x)).err).length
  n ≤ s.oracle.resets.length ∧ ∀ d ∈ s.oracle.resets.take n, ∀ x ∈ s.async, entryChan x ∉ d.dropped

end Sys2Proof.Machine
end

