-- ==== Sys2Proof/Certificates/Slice0/Obligations.lean ====
section
/-! DEFINITION. The statements for the provers, by the rules of the spec they formalise. A docstring names the rules. The
other agents step before a command's first micro-step (00_scope R8): `s.started i` is the state they leave there, and the
effect of command `i` is stated from it. Where a command of several micro-steps lets them step, and that one step of the
model runs a whole command, is log 3 (DEDUCED); that a fault carries the faulted state is log 13 (DESIGN CHOICE). -/

open Sys2Proof Sys2Proof.Machine

/-! ### The command word (30_encoding) -/

/-- Decoding the word of a well-formed instruction gives the instruction back, for every instruction and operand (R80 to
R84). -/
def Obligations.EncodeThenDecode : Prop := ∀ i : Instr, i.wellFormed = true → decode (encode i) = .ok i

/-- A word that decodes is the word of its instruction: no bit is dropped, no second word means the same (R80 to R84). -/
def Obligations.DecodeThenEncode : Prop :=
  ∀ (w : Word) (i : Instr), decode w = .ok i → i.wellFormed = true ∧ encode i = w

/-- A word decodes exactly when the opcode table, the reserved speed and the reserved X values allow it (R83, R84, R86). -/
def Obligations.WordIsLegalExactlyByTheTable : Prop :=
  ∀ w : Word, (∃ i, decode w = .ok i) ↔ LegalWord w

/-- Words the spec writes out, of each unit, and what they stand for (95_test_vectors T-ENC, T-*). -/
def Obligations.SpecWordsDecode : Prop :=
  decode 0x00001101 = .ok (.dmaProgram 1 .in_) ∧
  decode 0x0201C208 = .ok (.epConfigure 2 .out true 3 (.type .bulk)) ∧
  decode 0x00002011 = .ok (.portSuspend true) ∧
  decode 0x00818221 = .ok (.xferBulk 2 .out false 3 .high) ∧
  decode 0x00829130 = .ok (.asyncRegister 1 .in_ false 5 .high) ∧
  decode 0x05000046 = .ok (.rhClearPortFeature .connectChange) ∧
  decode 0x10000010 = .error .reservedBits ∧ decode 0x00000110 = .error .unusedField

/-! ### The step (00_scope, 45_host_interface) -/

/-- When the Sequencer is idle and the word of the Host's next command decodes to an instruction, a step of the model is
that instruction's meaning with the command's argument record at the port, and after a next state a step of the other
agents; a fault or a refusal is the step's. The model's choices: the Host's pending commands wait in a queue in the state
(log 2, DESIGN CHOICE), and one step runs the whole command, the other agents acting at its points and after it (log 3,
DEDUCED). R8 and R242 give the order of the micro-steps only. -/
def Obligations.StepRunsTheIssuedCommand : Prop :=
  ∀ (s : State) (cmd : HostCmd) (rest : List HostCmd) (i : Instr), Unmarked s → s.seq.cmd = none →
    s.hostQueue = cmd :: rest → decode cmd.word = .ok i →
    let p : State := { s with hostQueue := rest, args := cmd.args }
    (∀ t, exec i p = .next t → step s = .next t.interleave) ∧ (∀ f, exec i p = .fault f → step s = .fault f) ∧
      ∀ r, exec i p = .refused r → step s = .refused r

/-- An illegal word returns ILLEGAL_COMMAND, which its Result event says, and has no other effect (R86). The queue it is
taken from is the model's (log 2). -/
def Obligations.IllegalWordOnlyReturnsItsStatus : Prop :=
  ∀ (s : State) (cmd : HostCmd) (rest : List HostCmd) (e : Illegal), Unmarked s → s.seq = Seq.idle →
    s.hostQueue = cmd :: rest → decode cmd.word = .error e →
    step s = .next
      ({ s with
          hostQueue := rest
          args := cmd.args
          trace := s.trace ++ [.result (cmd.word.extractLsb' 0 8) .illegalCommand .none] } : State).interleave

/-- The Host issues a command only while the Sequencer is idle, or an ASYNC_CANCEL during a tick, which is deferred; any
other issue sets the refusal mark and changes nothing else (R224, R242, R243); so does an issue before the first micro-step
of any command. That an issue to an idle Sequencer waits in a queue is the model's choice (log 2). -/
def Obligations.HostIssueIsQueuedDeferredOrRefused : Prop :=
  ∀ (s : State) (cmd : HostCmd),
    (s.seq.busy = false → agentStep s (.issue cmd) = { s with hostQueue := s.hostQueue ++ [cmd] }) ∧
    (∀ ep addr, s.seq.busy = true → s.seq.inTick = true → decode cmd.word = .ok (.asyncCancel ep addr) →
      agentStep s (.issue cmd) = { s with seq := { s.seq with deferred := s.seq.deferred ++ [⟨ep, addr⟩] } }) ∧
    (s.seq.busy = true → (s.seq.inTick = false ∨ ∀ ep addr, decode cmd.word ≠ .ok (.asyncCancel ep addr)) →
      agentStep s (.issue cmd) = { s with refused := true }) ∧
    ∀ (i : Instr) (rest : List (List AgentEvent)), s.oracle.batches = [.issue cmd] :: rest →
      s.started i = { s.begin i with refused := true, oracle := { s.oracle with batches := rest } }

/-! ### Attach and the invariants (70_reset_and_hazards, 10_state) -/

/-- The state after attach, for every parameter, input, declared region and memory (R271). -/
def Obligations.AttachGivesTheTableOfR271 : Prop :=
  ∀ (p : Params) (inp : Inputs) (regions : List (Nat × Alloc)) (mem : Memory),
    let s := State.attach p inp regions mem
    s.otg.state = (if inp.idA then .aIdle else .bIdle) ∧ s.otg.vbusOn = inp.idA ∧ s.otg.srpEnable = false ∧
    s.otg.vbusErrCount = 0 ∧ s.otg.resetPending = false ∧ s.otg.wakeDisable = false ∧ s.otg.flags = OtgFlags.none ∧
    s.otg.mask = p.otgIrqMaskReset ∧ s.otg.inputs = inp ∧ s.port.status = 0 ∧ s.port.change = 0 ∧
    s.hcState = p.hcStateReset ∧ s.ep0Stage = .idle ∧ s.dma.burstMode = .other ∧ s.dma.sel = ⟨0, .out⟩ ∧
    (∀ c, s.chan c = Channel.idle) ∧ s.ep0.mps = 0 ∧ s.ep0.devAddr = 0 ∧ (∀ c, s.toggle c = false) ∧
    (∀ c, s.endpoint c = Endpoint.attach) ∧ s.async = [] ∧ s.mem = mem ∧ s.alloc = regions ∧ s.trbStore = [] ∧
    s.regtrace = [] ∧ s.trace = [] ∧ s.seq = Seq.idle ∧ s.fault = none ∧ s.refused = false

/-- The machine right after reset meets every invariant below. -/
def Obligations.ResetMeetsTheInvariants : Prop :=
  State.reset.cfg.wf = true ∧ MemCanonical State.reset ∧ PortLegal State.reset ∧ ChannelsCoherent State.reset ∧
    TrbsFit State.reset ∧ QueueLegal State.reset ∧ SequencerSettled State.reset ∧ Unmarked State.reset

/-- Every step keeps memory, the region set and the TRB store in their canonical forms. -/
def Obligations.StepKeepsMemoryCanonical : Prop := ∀ s t : State, step s = .next t → MemCanonical s → MemCanonical t

/-- Every step keeps the reserved port bits 0, C_ENABLE, C_SUSPEND and C_RESET clear, the VBUS error count below 3, and the
OTG state one the machine has (R34, R40, R41, R240). -/
def Obligations.StepKeepsPortLegal : Prop := ∀ s t : State, step s = .next t → PortLegal s → PortLegal t

/-- Every step keeps each channel enabled exactly while programmed, with a latched TRB exactly then, and pending only then
(R47, R151, R154, R155); and every TRB, stored or latched, at most MaxTrbSize long, stored ones with addresses of the
address space (R48, R62). That a write of an address outside the space leaves the Sequencer stuck is log 29. -/
def Obligations.StepKeepsChannelsCoherent : Prop :=
  ∀ s t : State, step s = .next t →
    (ChannelsCoherent s → ChannelsCoherent t) ∧ (s.cfg.wf = true → TrbsFit s → TrbsFit t)

/-- Every step keeps the async queue's entries in their ranges and their keys and channels distinct (R52, R53, R225). -/
def Obligations.StepKeepsQueueLegal : Prop :=
  ∀ s t : State, step s = .next t → s.cfg.wf = true → QueueLegal s → QueueLegal t ∧ t.cfg = s.cfg

/-- Between steps the Sequencer is idle, held in the Disconnect spin, or stuck before a memory access, and the endpoint-0
stage is IDLE but in a control transfer that is stuck (R44, R56, R104, R251). That a step runs up to there is log 3, that a
sample of the spin is a step is log 12. -/
def Obligations.StepKeepsSequencerSettled : Prop :=
  ∀ s t : State, step s = .next t → SequencerSettled s → SequencerSettled t

/-! ### The DMA channel engine (41_dma_channel_engine) -/

/-- DMA_PROGRAM on a channel not programmed, with an aligned descriptor, arms it: every register it writes, in order, and
nothing else; on a programmed channel, without a TRB at the descriptor, or with a misaligned address it faults (R66, R151,
R163, R250). That the Sequencer of a faulted state is idle is log 13 (DESIGN CHOICE). -/
def Obligations.DmaProgramArmsTheChannel : Prop :=
  ∀ (ep : EpNum) (dir : Dir) (s : State),
    let u := s.started (.dmaProgram ep dir)
    (∀ x, (s.chan ⟨ep, dir⟩).programmed = false → tabFind s.trbStore s.args.desc = some x →
      s.args.desc % s.cfg.dmaAlign = 0 → x.addr % s.cfg.dmaAlign = 0 →
      ∃ t, exec (.dmaProgram ep dir) s = .next t ∧
        t.chan ⟨ep, dir⟩ =
          { u.chan ⟨ep, dir⟩ with
            errIrqEn := true, doneIrqEn := true, descAddr := s.args.desc, trb := some x, pending := true, enabled := true
            programmed := true } ∧
        (∀ c, c ≠ ⟨ep, dir⟩ → t.chan c = u.chan c) ∧ t.dma.burstMode = .single ∧ t.dma.sel = ⟨ep, dir⟩ ∧
        t.regtrace = s.regtrace ++ programTrace ⟨ep, dir⟩ s.args.desc ∧
        t = { u with
              dma := t.dma, regtrace := t.regtrace, seq := Seq.idle, trace := s.trace ++ [.result 0x01 .success .none] }) ∧
    ((s.chan ⟨ep, dir⟩).programmed = true →
      exec (.dmaProgram ep dir) s =
        .fault (.programUnreleased { u with fault := some .programUnreleased, seq := Seq.idle })) ∧
    ((s.chan ⟨ep, dir⟩).programmed = false → tabFind s.trbStore s.args.desc = none →
      exec (.dmaProgram ep dir) s = .fault (.noDescriptor { u with fault := some .noDescriptor, seq := Seq.idle })) ∧
    (∀ x, (s.chan ⟨ep, dir⟩).programmed = false → tabFind s.trbStore s.args.desc = some x →
      (s.args.desc % s.cfg.dmaAlign ≠ 0 ∨ x.addr % s.cfg.dmaAlign ≠ 0) →
      exec (.dmaProgram ep dir) s = .fault (.misalignedDma { u with fault := some .misalignedDma, seq := Seq.idle }))

/-- DMA_CHECK answers the channel's `done` and clears nothing: only the selector is written (R68, R152). -/
def Obligations.DmaCheckReadsDone : Prop :=
  ∀ (ep : EpNum) (dir : Dir) (s : State),
    let u := s.started (.dmaCheck ep dir)
    ∃ t, exec (.dmaCheck ep dir) s = .next t ∧ (∀ c, t.chan c = u.chan c) ∧
      t = { u with
            dma := { u.dma with sel := ⟨ep, dir⟩ }, regtrace := s.regtrace ++ sampleTrace ⟨ep, dir⟩, seq := Seq.idle
            trace := s.trace ++ [.result 0x02 .success (.complete (u.chan ⟨ep, dir⟩).done)] }

/-- DMA_CLEAR clears done, err and err_code of its channel and nothing else of any channel (R153). -/
def Obligations.DmaClearClearsTheStatus : Prop :=
  ∀ (ep : EpNum) (dir : Dir) (s : State),
    let u := s.started (.dmaClear ep dir)
    ∃ t, exec (.dmaClear ep dir) s = .next t ∧
      t.chan ⟨ep, dir⟩ = { u.chan ⟨ep, dir⟩ with done := false, err := false, errCode := 0 } ∧
      (∀ c, c ≠ ⟨ep, dir⟩ → t.chan c = u.chan c) ∧ t.dma.sel = ⟨ep, dir⟩ ∧ t.dma.burstMode = s.dma.burstMode ∧
      t = { u with
            dma := t.dma, seq := Seq.idle, trace := s.trace ++ [.result 0x03 .success .none]
            regtrace := s.regtrace ++ clearTrace ⟨ep, dir⟩ }

/-- DMA_RELEASE disables its channel and cancels its transfer, and releasing it again leaves every channel as the second
release finds it (R154). -/
def Obligations.DmaReleaseDisablesAndIsIdempotent : Prop :=
  ∀ (ep : EpNum) (dir : Dir) (s : State),
    let u := s.started (.dmaRelease ep dir)
    ∃ t v, exec (.dmaRelease ep dir) s = .next t ∧ exec (.dmaRelease ep dir) t = .next v ∧
      t.chan ⟨ep, dir⟩ =
        { u.chan ⟨ep, dir⟩ with enabled := false, programmed := false, pending := false, trb := none } ∧
      (∀ c, c ≠ ⟨ep, dir⟩ → t.chan c = u.chan c) ∧ t.dma.sel = ⟨ep, dir⟩ ∧ t.dma.burstMode = s.dma.burstMode ∧
      t = { u with
            dma := t.dma, seq := Seq.idle, trace := s.trace ++ [.result 0x04 .success .none]
            regtrace := s.regtrace ++ releaseTrace ⟨ep, dir⟩ } ∧
      v.chan ⟨ep, dir⟩ = t.chan ⟨ep, dir⟩ ∧ ∀ c, v.chan c = (t.started (.dmaRelease ep dir)).chan c

/-- DMA_RESET idles the selected channel; every other channel, and the burst mode, is kept or reset by draw; the selector
stays (R155, R156). -/
def Obligations.DmaResetIdlesTheSelectedChannel : Prop :=
  ∀ s : State,
    let u := s.started .dmaReset
    ∃ t, exec .dmaReset s = .next t ∧ t.chan s.dma.sel = Channel.idle ∧
      (∀ c, t.chan c = u.chan c ∨ t.chan c = Channel.idle) ∧ t.dma.sel = s.dma.sel ∧
      (t.dma.burstMode = s.dma.burstMode ∨ t.dma.burstMode = .other) ∧
      t = { u with
            dma := t.dma, oracle := t.oracle, seq := Seq.idle, regtrace := s.regtrace ++ [.softReset]
            trace := s.trace ++ [.result 0x05 .success .none] }

/-- A channel agent that completes an IN transfer writes the returned bytes at the TRB's address and records their number; one
that completes an OUT transfer records the TRB's size; one that ends with an error records the code too, and the bytes moved;
each hands back a toggle, ends the pending transfer and sets done, and nothing else changes (R158, R159). An event its agent
could not make changes nothing: without a pending transfer of an enabled channel, with an access that is not admitted (the
agent is stuck, R13), or with more bytes than the TRB's size; that such an event stands for no step is log 10 (DEDUCED). -/
def Obligations.AgentEndsItsTransfer : Prop :=
  ∀ (s : State) (c : Chan) (bs : List Byte) (tg : Bool) (code : BitVec 3) (moved : Nat),
    let t := agentStep s (.complete c bs tg)
    let v := agentStep s (.fail c code moved bs tg)
    (s.agentTrb c = none → t = s ∧ v = s) ∧
    ∀ x, s.agentTrb c = some x →
    (c.dir = .in_ → (x.size < bs.length ∨ s.admits anyOwner x.addr bs.length = false) → t = s ∧ v = s) ∧
    (c.dir = .out → s.admits anyOwner x.addr x.size = false → t = s) ∧ (c.dir = .out → x.size < moved → v = s) ∧
    (c.dir = .in_ → bs.length ≤ x.size → s.admits anyOwner x.addr bs.length = true →
      TransferEnded c { s.chan c with actual := bs.length, pending := false, done := true } tg s t ∧
      TransferEnded c
        { s.chan c with actual := bs.length, pending := false, done := true, err := true, errCode := code } tg s v ∧
      v.mem = t.mem ∧ readBytes t.mem x.addr bs.length = bs ∧
      ∀ a, a < x.addr ∨ x.addr + bs.length ≤ a → readByte t.mem a = readByte s.mem a) ∧
    (c.dir = .out → s.admits anyOwner x.addr x.size = true →
      TransferEnded c { s.chan c with actual := x.size, pending := false, done := true } tg s t ∧ t.mem = s.mem) ∧
    (c.dir = .out → moved ≤ x.size →
      TransferEnded c
        { s.chan c with actual := moved, pending := false, done := true, err := true, errCode := code } tg s v ∧
      v.mem = s.mem)

/-- What the other agents can change at an interleaving point. A channel that is not enabled or has nothing pending has no
agent step: it and its toggle stay as they are; any other keeps all but what the end of its transfer writes. OTG flags are
only set; and while a command executes neither the wake-disable bit, nor the regions, nor the pending commands, nor a byte
outside the buffers of pending IN transfers changes (R95, R158, R160, R162; that the Host and the owning subsystem act only
between commands is log 21 and 22). -/
def Obligations.OtherAgentsFrame : Prop :=
  ∀ s : State,
    let t := s.interleave
    (∀ c, (s.chan c).enabled = false ∨ (s.chan c).pending = false → t.chan c = s.chan c ∧ t.toggle c = s.toggle c) ∧
    (∀ c, t.chan c = s.chan c ∨
      t.chan c =
        { s.chan c with
          pending := false, done := true, actual := (t.chan c).actual, err := (t.chan c).err
          errCode := (t.chan c).errCode }) ∧
    (∀ c, t.endpoint c = { s.endpoint c with toggle := (t.endpoint c).toggle }) ∧
    orFlags s.otg.flags t.otg.flags = t.otg.flags ∧
    t = { s with
          otg := { s.otg with flags := t.otg.flags, inputs := t.otg.inputs, wakeDisable := t.otg.wakeDisable }
          dma := { s.dma with ch := t.dma.ch }, ep0 := { s.ep0 with toggle := t.ep0.toggle }, ep := t.ep, mem := t.mem
          alloc := t.alloc, oracle := t.oracle, seq := { s.seq with deferred := t.seq.deferred }
          hostQueue := t.hostQueue, refused := t.refused } ∧
    (s.seq.busy = true →
      t.otg.wakeDisable = s.otg.wakeDisable ∧ t.alloc = s.alloc ∧ t.hostQueue = s.hostQueue ∧
        ∀ a, OutsideAgents s a → readByte t.mem a = readByte s.mem a)

/-! ### The endpoint programmer (42_endpoint_programmer) -/

/-- EP_CONFIGURE for endpoint 0: the shared registers, the FIFO reset of the stage's direction, and the toggle forced to 1
for an IN data stage alone (R170). For an endpoint 1..15: all its registers, in the two-phase order with the enable last, the
timer only for an interrupt endpoint with a polling interval, and no other endpoint or direction (R171, R172). -/
def Obligations.EpConfigureProgramsItsEndpoint : Prop :=
  (∀ (dir : Dir) (tg : Bool) (addr : DevAddr) (st : CtrlStage) (s : State),
    let u := s.started (.epConfigure 0 dir tg addr (.stage st))
    ∃ t, exec (.epConfigure 0 dir tg addr (.stage st)) s = .next t ∧
      t.ep0.mps = s.args.mps ∧ t.ep0.devAddr = addr ∧
      (∀ d, t.toggle ⟨0, d⟩ = if st = .data ∧ dir = .in_ ∧ d = .in_ then true else u.toggle ⟨0, d⟩) ∧
      t.regtrace = s.regtrace ++ configureEp0Trace dir st addr s.args.mps ∧
      t = { u with
            ep0 := t.ep0, regtrace := t.regtrace, seq := Seq.idle, trace := s.trace ++ [.result 0x08 .success .none] }) ∧
  ∀ (ep : EpNum) (dir : Dir) (tg : Bool) (addr : DevAddr) (ty : EpType) (s : State), ep ≠ 0 → ty ≠ .isoch →
    let u := s.started (.epConfigure ep dir tg addr (.type ty))
    ∃ t, exec (.epConfigure ep dir tg addr (.type ty)) s = .next t ∧
      t.endpoint ⟨ep, dir⟩ =
        { type := ty, devAddr := addr, mps := s.args.mps, toggle := tg, enabled := true, doneIrqEn := true
          errIrqEn := true
          intTimer :=
            if ty = .interrupt ∧ s.args.interval ≠ 0 then intTimerValue s.cfg s.args.interval
            else (s.endpoint ⟨ep, dir⟩).intTimer } ∧
      (∀ c, c ≠ ⟨ep, dir⟩ → t.endpoint c = u.endpoint c) ∧
      t.regtrace = s.regtrace ++ configureTrace ⟨ep, dir⟩ ty tg addr s.args.mps ++
        (if ty = .interrupt ∧ s.args.interval ≠ 0 then
          [.W .epTimer (.chanVal ⟨ep, dir⟩ (intTimerValue s.cfg s.args.interval))] else []) ∧
      t = { u with
            ep := t.ep, regtrace := t.regtrace, seq := Seq.idle, trace := s.trace ++ [.result 0x08 .success .none] }

/-! ### The OTG state machine (40_otg_state_machine). `u` is the state a poll samples. -/

/-- A poll whose sample holds only transitional flags clears those and changes no other state (R99). -/
def Obligations.PollClearsTransitionalFlags : Prop :=
  ∀ s : State,
    let u := s.started .otgPoll
    (polled u).vbusErr = false → (polled u).connChange = false → (polled u).idleChange = false →
    exec .otgPoll s = .next
      { u with
        otg :=
          { u.otg with
            flags :=
              { u.otg.flags with
                srpDet := u.otg.flags.srpDet && s.otg.mask.srpDet
                bSessEnd := u.otg.flags.bSessEnd && s.otg.mask.bSessEnd } }
        seq := Seq.idle
        trace := s.trace ++ [.result 0x10 .success .none] }

/-- A poll that handles a VBUS error alone: VBUS off and A_VBUS_ERR; the third consecutive error reports over-current,
restarts the count and leaves VBUS off, an earlier one retries VBUS once (R100). -/
def Obligations.PollHandlesVbusError : Prop :=
  ∀ s : State,
    let u := s.started .otgPoll
    polled u = { OtgFlags.none with vbusErr := true } →
    exec .otgPoll s = .next
      { u with
        otg :=
          { u.otg with
            flags := { u.otg.flags with vbusErr := false }
            state := .aVbusErr
            vbusOn := decide (s.otg.vbusErrCount + 1 < 3)
            vbusErrCount := if s.otg.vbusErrCount + 1 < 3 then s.otg.vbusErrCount + 1 else 0 }
        port :=
          if s.otg.vbusErrCount + 1 < 3 then s.port
          else { status := s.port.status ||| 0x0008, change := s.port.change ||| 0x0008 }
        seq := Seq.idle
        trace := s.trace ++ [.result 0x10 .success .none] }

/-- A poll that runs Connect alone: CONNECTION and its change bit set, ENABLE and the speed bits cleared and the detected
rate's bit set, every other port bit kept; reset pending, VBUS on, host role of the prior side, error count 0 (R101, R102). -/
def Obligations.PollRunsConnect : Prop :=
  ∀ s : State,
    let u := s.started .otgPoll
    polled u = { OtgFlags.none with connChange := true } → hostOrSuspend s.otg.state = false →
    ∃ t, exec .otgPoll s = .next t ∧
      t.port.status.getLsbD 0 = true ∧ t.port.status.getLsbD 1 = false ∧
      t.port.status.getLsbD 9 = decide (u.otg.inputs.linkSpeed = .low) ∧
      t.port.status.getLsbD 10 = decide (u.otg.inputs.linkSpeed = .high) ∧
      (∀ i, i ≠ 0 → i ≠ 1 → i ≠ 9 → i ≠ 10 → t.port.status.getLsbD i = s.port.status.getLsbD i) ∧
      t.port.change = s.port.change ||| 0x0001 ∧
      t = { u with
            otg :=
              { u.otg with
                flags := { u.otg.flags with connChange := false }
                resetPending := true
                vbusOn := true
                state := if 8 ≤ otgCode s.otg.state then .bHost else .aHost
                vbusErrCount := 0 }
            port := t.port
            seq := Seq.idle
            trace := s.trace ++ [.result 0x10 .success .none] }

/-- A poll that finds a host or suspend role: in the wait sub-state it clears the connect-change flag and samples the host role,
the other agents stepping before the sample (log 3, DEDUCED); with the hardware not in a host role it runs Disconnect, with the
FIFO reset sequence, the status {POWER}, the change bit, VBUS on again after a suspend, A_IDLE and the wake-disable bit (R101,
R103, R107); with no wait sub-state it logs a babble and leaves the flag set (R105). -/
def Obligations.PollRunsDisconnectOrLogsBabble : Prop :=
  ∀ s : State,
    let u := s.started .otgPoll
    let v : State := { u with otg := { u.otg with flags := { u.otg.flags with connChange := false } } }
    let w := v.atPos (.spin s.otg.state 0 false)
    polled u = { OtgFlags.none with connChange := true } → hostOrSuspend s.otg.state = true →
    (u.otg.inputs.hwWait = true → w.otg.inputs.hwHostRole = false →
      exec .otgPoll s = .next
        { w with
          otg :=
            { w.otg with
              vbusOn := s.otg.vbusOn || decide (s.otg.state = .aSuspend)
              state := .aIdle
              wakeDisable := true }
          port := { status := 0x0100, change := s.port.change ||| 0x0001 }
          seq := Seq.idle
          regtrace := s.regtrace ++ [.fifoReset ⟨0, .out⟩, .fifoReset ⟨0, .in_⟩]
          trace := s.trace ++ [.result 0x10 .success .none] }) ∧
    (u.otg.inputs.hwWait = false →
      exec .otgPoll s = .next
        { u with seq := Seq.idle, trace := s.trace ++ [.babble s.otg.state, .result 0x10 .success .none] })

/-- A poll that handles an idle change alone: SRP off, VBUS and the idle state by the ID pin, the port status untouched
(R106, R108, R109). -/
def Obligations.PollHandlesIdleChange : Prop :=
  ∀ s : State,
    let u := s.started .otgPoll
    polled u = { OtgFlags.none with idleChange := true } →
    exec .otgPoll s = .next
      { u with
        otg :=
          { u.otg with
            flags := { u.otg.flags with idleChange := false }
            srpEnable := false
            vbusOn := u.otg.inputs.idA
            state := if u.otg.inputs.idA then .aIdle else .bIdle }
        seq := Seq.idle
        trace := s.trace ++ [.result 0x10 .success .none] }

/-- With every flag asserted and none masked, one poll runs all four actions in their fixed order: the flags are all
cleared, the VBUS error is followed by a Connect to the A side, and that by the idle handler of the ID pin (R97, R98). -/
def Obligations.PollRunsAllActionsInOrder : Prop :=
  ∀ s : State,
    let u := s.started .otgPoll
    polled u = ⟨true, true, true, true, true⟩ →
    ∃ t, exec .otgPoll s = .next t ∧ t.otg.flags = OtgFlags.none ∧ t.otg.vbusErrCount = 0 ∧
      t.otg.state = (if u.otg.inputs.idA then .aIdle else .bIdle) ∧ t.otg.vbusOn = u.otg.inputs.idA ∧
      t.otg.resetPending = true ∧ t.port.status.getLsbD 0 = true ∧
      t.port.status.getLsbD 3 = (s.port.status.getLsbD 3 || decide (3 ≤ s.otg.vbusErrCount + 1)) ∧
      t.port.change.getLsbD 0 = true ∧ t.trace = s.trace ++ [.result 0x10 .success .none] ∧ t.regtrace = s.regtrace

/-- Both polls complete in one step unless they run Disconnect and the hardware reports a host role at its first sample (the
other agents step before it, log 3, DEDUCED), and the query returns the cached pair as it stands at the end of its poll (R98,
R101, R103, R234, R235). -/
def Obligations.PollAndQueryComplete : Prop :=
  ∀ s : State,
    let u := s.started .otgPoll
    ((polled u).vbusErr = false → (polled u).connChange = true → hostOrSuspend s.otg.state = true →
      u.otg.inputs.hwWait = true → u.interleave.otg.inputs.hwHostRole = false) →
    ∃ t v, exec .otgPoll s = .next t ∧ exec .rhGetPortStatus s = .next v ∧ t.seq = Seq.idle ∧
      t.trace.getLast? = some (.result 0x10 .success .none) ∧
      v.trace = t.trace.dropLast ++ [.result 0x44 .success (.port t.port.status t.port.change)] ∧
      v = { t with trace := v.trace }

/-- A poll, alone or in a port-status query, that runs Disconnect takes its first sample of the spin, its transitional flags and
the connect-change flag cleared, an idle change kept for the end, and the other agents having stepped before the sample; a
Sequencer held in the spin takes one sample a step. A sample of 1 below the bound holds it in the spin, at the bound it faults,
and a sample of 0 ends the Disconnect and the rest of the poll: the status {POWER}, the change bit, VBUS on again after a
suspend, A_IDLE, the wake-disable bit and the FIFO reset, then the idle change of the same poll, and the Result (R99, R103,
R104, R106, R107, R234). That a sample is one step of the model, the other agents acting before and after it, is log 12 (DESIGN
CHOICE) and log 3 (DEDUCED); that the faulted Sequencer is idle is log 13 (DESIGN CHOICE). -/
def Obligations.SpinHoldsFaultsOrEnds : Prop :=
  (∀ (s : State) (i : Instr), (i = .otgPoll ∨ i = .rhGetPortStatus) →
    let u := s.started i
    let v : State :=
      { u with
        otg :=
          { u.otg with
            flags :=
              { u.otg.flags with
                srpDet := u.otg.flags.srpDet && s.otg.mask.srpDet
                bSessEnd := u.otg.flags.bSessEnd && s.otg.mask.bSessEnd
                connChange := false } } }
    let w := v.atPos (.spin s.otg.state 0 (polled u).idleChange)
    (polled u).vbusErr = false → (polled u).connChange = true → hostOrSuspend s.otg.state = true →
    u.otg.inputs.hwWait = true →
    (w.otg.inputs.hwHostRole = true → (∀ k, s.cfg.disconnectSpinBound = some k → 1 < k) →
      exec i s = .next
        { w with
          seq :=
            { busy := true, cmd := some ⟨i, 0, .spin s.otg.state 1 (polled u).idleChange⟩, inTick := false
              deferred := [] } }) ∧
    (∀ k, w.otg.inputs.hwHostRole = true → s.cfg.disconnectSpinBound = some k → k ≤ 1 →
      exec i s =
        .fault (.disconnectSpinExceeded { w with fault := some .disconnectSpinExceeded, seq := Seq.idle })) ∧
    (w.otg.inputs.hwHostRole = false → exec i s = .next (pollDisconnected i s.otg.state (polled u).idleChange w))) ∧
  ∀ (s : State) (i : Instr) (round : Nat) (prior : OtgState) (n : Nat) (b : Bool), Unmarked s →
    (i = .otgPoll ∨ i = .rhGetPortStatus) → s.seq.cmd = some ⟨i, round, .spin prior n b⟩ →
    (s.otg.inputs.hwHostRole = true → (∀ k, s.cfg.disconnectSpinBound = some k → n + 1 < k) →
      step s = .next
        ({ s with seq := { s.seq with cmd := some ⟨i, round, .spin prior (n + 1) b⟩ } } : State).interleave) ∧
    (∀ k, s.otg.inputs.hwHostRole = true → s.cfg.disconnectSpinBound = some k → k ≤ n + 1 →
      step s =
        .fault (.disconnectSpinExceeded { s with fault := some .disconnectSpinExceeded, seq := Seq.idle })) ∧
    (s.otg.inputs.hwHostRole = false → step s = .next (pollDisconnected i prior b s).interleave)

/-- PORT_SUSPEND: from a host role to A_SUSPEND with VBUS off and SUSPEND set, and back to A_HOST; otherwise a babble
(R146). PORT_RESET: enable clears all five OTG flags and flips RESET on and ENABLE off; the end of reset flips them back and
clears the reset-pending flag; no change bit is set (R147). -/
def Obligations.PortSuspendAndPortReset : Prop :=
  ∀ (enable : Bool) (s : State),
    (let u := s.started (.portSuspend enable)
     ∃ t, exec (.portSuspend enable) s = .next t ∧
      (enable = true → (s.otg.state = .aHost ∨ s.otg.state = .bHost) →
        t = { u with
              otg := { u.otg with vbusOn := false, state := .aSuspend }
              port := { s.port with status := s.port.status ||| 0x0004 }
              seq := Seq.idle
              trace := s.trace ++ [.result 0x11 .success .none] }) ∧
      (enable = false → s.otg.state = .aSuspend →
        t = { u with
              otg := { u.otg with vbusOn := true, state := .aHost }
              port := { s.port with status := s.port.status &&& ~~~0x0004 }
              seq := Seq.idle
              trace := s.trace ++ [.result 0x11 .success .none] }) ∧
      (¬(enable = true ∧ (s.otg.state = .aHost ∨ s.otg.state = .bHost)) → ¬(enable = false ∧ s.otg.state = .aSuspend) →
        t = { u with
              seq := Seq.idle, trace := s.trace ++ [.babble s.otg.state, .result 0x11 .success .none] })) ∧
    (let u := s.started (.portReset enable)
     ∃ t, exec (.portReset enable) s = .next t ∧
      t.port.status.getLsbD 4 = enable ∧ t.port.status.getLsbD 1 = !enable ∧
      (∀ i, i ≠ 4 → i ≠ 1 → t.port.status.getLsbD i = s.port.status.getLsbD i) ∧
      t = { u with
            otg :=
              { u.otg with
                flags := if enable then OtgFlags.none else u.otg.flags
                resetPending := if enable then s.otg.resetPending else false }
            port := { s.port with status := t.port.status }
            seq := Seq.idle
            trace := s.trace ++ [.result 0x12 .success .none] })

/-- Only the polls and port suspend write the OTG state: no transfer, queue, DMA or endpoint command does, whatever the
other agents do meanwhile, and whether it begins in this step or goes on with it; and only HC_SET_STATE writes the power
state (R29, R31, R43, R232). -/
def Obligations.OnlyOtgCommandsWriteTheOtgState : Prop :=
  ∀ (i : Instr) (s t : State), Executes i s t →
    (¬WritesOtgState i → t.otg.state = s.otg.state) ∧ ((∀ st, i ≠ .hcSetState st) → t.hcState = s.hcState)

/-! ### The root hub and the controller commands (45_host_interface) -/

/-- RH_SET_PORT_FEATURE: ENABLE, POWER and OWNER set their status bit, SUSPEND and RESET are the port operations, with the
babble of a suspend out of no host role, a change feature has no effect (R237). RH_CLEAR_PORT_FEATURE: ENABLE, POWER and OWNER
clear their status bit, SUSPEND and RESET end the port operations, with the babble of a resume out of no suspend, a change
feature clears its own change bit and no other bit (R238, R240). Nothing else changes. -/
def Obligations.PortFeaturesRule : Prop :=
  ∀ (f : Feature) (s : State),
    (let u := s.started (.rhSetPortFeature f)
     let host := s.otg.state = .aHost ∨ s.otg.state = .bHost
     exec (.rhSetPortFeature f) s = .next
      { u with
        otg :=
          match f with
          | .suspend => if host then { u.otg with vbusOn := false, state := .aSuspend } else u.otg
          | .reset => { u.otg with flags := OtgFlags.none }
          | _ => u.otg
        port :=
          match f with
          | .enable => { s.port with status := s.port.status ||| 0x0002 }
          | .suspend => if host then { s.port with status := s.port.status ||| 0x0004 } else s.port
          | .reset => { s.port with status := (s.port.status ||| 0x0010) &&& ~~~0x0002 }
          | .power => { s.port with status := s.port.status ||| 0x0100 }
          | .owner => { s.port with status := s.port.status ||| 0x2000 }
          | _ => s.port
        seq := Seq.idle
        trace :=
          s.trace ++ (if f = .suspend ∧ ¬host then [.babble s.otg.state] else []) ++ [.result 0x45 .success .none] }) ∧
    (let u := s.started (.rhClearPortFeature f)
     let asleep := s.otg.state = .aSuspend
     exec (.rhClearPortFeature f) s = .next
      { u with
        otg :=
          match f with
          | .suspend => if asleep then { u.otg with vbusOn := true, state := .aHost } else u.otg
          | .reset => { u.otg with resetPending := false }
          | _ => u.otg
        port :=
          match f with
          | .enable => { s.port with status := s.port.status &&& ~~~0x0002 }
          | .suspend => if asleep then { s.port with status := s.port.status &&& ~~~0x0004 } else s.port
          | .reset => { s.port with status := (s.port.status &&& ~~~0x0010) ||| 0x0002 }
          | .power => { s.port with status := s.port.status &&& ~~~0x0100 }
          | .owner => { s.port with status := s.port.status &&& ~~~0x2000 }
          | .connectChange => { s.port with change := s.port.change &&& ~~~0x0001 }
          | .enableChange => { s.port with change := s.port.change &&& ~~~0x0002 }
          | .suspendChange => { s.port with change := s.port.change &&& ~~~0x0004 }
          | .overcurrentChange => { s.port with change := s.port.change &&& ~~~0x0008 }
          | .resetChange => { s.port with change := s.port.change &&& ~~~0x0010 }
        seq := Seq.idle
        trace :=
          s.trace ++ (if f = .suspend ∧ ¬asleep then [.babble s.otg.state] else []) ++ [.result 0x46 .success .none] })

/-- No command but RH_CLEAR_PORT_FEATURE clears a change bit, and the only change bits any command sets are C_CONNECTION
and C_OVERCURRENT, whether the command begins in this step or goes on with it (R240). -/
def Obligations.ChangeBitsAreClearedOnlyByTheFeature : Prop :=
  ∀ (i : Instr) (s t : State), Executes i s t →
    ((∀ f, i ≠ .rhClearPortFeature f) → ∀ j, s.port.change.getLsbD j = true → t.port.change.getLsbD j = true) ∧
    (∀ j, t.port.change.getLsbD j = true → s.port.change.getLsbD j = true ∨ j = 0 ∨ j = 3)

/-- OVERCURRENT is set only by a poll's third consecutive VBUS error and cleared only by a poll's Disconnect, which leaves
the status {POWER}, in the poll's first step or, after a spin, in a later one (R239). -/
def Obligations.OvercurrentIsSetAndClearedOnlyByThePoll : Prop :=
  ∀ (i : Instr) (s t : State), Executes i s t →
    (s.port.status.getLsbD 3 = false → t.port.status.getLsbD 3 = true →
      (i = .otgPoll ∨ i = .rhGetPortStatus) ∧ exec i s = .next t ∧ (polled (s.started i)).vbusErr = true ∧
        3 ≤ s.otg.vbusErrCount + 1) ∧
    (s.port.status.getLsbD 3 = true → t.port.status.getLsbD 3 = false →
      (i = .otgPoll ∨ i = .rhGetPortStatus) ∧ t.port.status = 0x0100 ∧
        (Spinning s ∨ exec i s = .next t ∧ (polled (s.started i)).connChange = true ∧ hostOrSuspend s.otg.state = true))

/-- HC_GET_STATE returns the stored power state, HC_SET_STATE stores one, which the next query returns; HC_GET_CAPABILITY
gives its fixed answers and HC_RESET is a no-op success; none of the four changes anything else (R229, R230, R231, R232). -/
def Obligations.ControllerCommandsAnswerAndStore : Prop :=
  ∀ (st : HcState) (s : State),
    exec .hcGetState s = .next
      { s.started .hcGetState with seq := Seq.idle, trace := s.trace ++ [.result 0x42 .success (.hcState s.hcState)] } ∧
    (∃ t v, exec (.hcSetState st) s = .next t ∧
      t = { s.started (.hcSetState st) with
            hcState := st, seq := Seq.idle, trace := s.trace ++ [.result 0x43 .success .none] } ∧
      exec .hcGetState t = .next v ∧ v.trace = t.trace ++ [.result 0x42 .success (.hcState st)]) ∧
    exec .hcGetCapability s = .next
      { s.started .hcGetCapability with
        seq := Seq.idle, trace := s.trace ++ [.result 0x40 .success (.capability .high 1 s.cfg.is64BitCapable)] } ∧
    exec .hcReset s = .next
      { s.started .hcReset with seq := Seq.idle, trace := s.trace ++ [.result 0x41 .success .none] }

/-! ### The transfer sequencer (43_transfer_protocol) -/

/-- The chunks of a bulk payload: every chunk but the last is a full burst, the last holds 1 to a full burst, their sizes
sum to the payload, and an empty payload has none (R190). -/
def Obligations.ChunksCoverThePayload : Prop :=
  ∀ len burst : Nat, 0 < burst →
    ((List.range (chunkCount len burst)).map (chunkSize len burst)).sum = len ∧
    (∀ i, i + 1 < chunkCount len burst → chunkSize len burst i = burst) ∧
    (0 < len → 1 ≤ chunkSize len burst (chunkCount len burst - 1) ∧
      chunkSize len burst (chunkCount len burst - 1) ≤ burst ∧ 0 < chunkCount len burst) ∧
    chunkCount 0 burst = 0

/-- WaitLoop samples its channel at most as often as its budget. It answers COMPLETE at the first sample that shows done or
err: with any smaller budget it would have timed out. It answers TIMEOUT only when the whole budget is used, and then the
channel at the last sample shows neither; a budget of 0 takes no sample (R179). -/
def Obligations.WaitLoopSamplesWithinItsBudget : Prop :=
  ∀ (c : Chan) (n : Nat) (s : State),
    let w := waitLoop c n s
    ∃ k, k ≤ n ∧ w.2.regtrace = s.regtrace ++ (List.replicate k (sampleTrace c)).flatten ∧
      (w.1 = true → 0 < k ∧ ((w.2.chan c).done = true ∨ (w.2.chan c).err = true) ∧
        ∀ j, j < k → (waitLoop c j s).1 = false) ∧
      (w.1 = false → k = n ∧ (0 < n → (w.2.chan c).done = false ∧ (w.2.chan c).err = false)) ∧
      (n = 0 → w = (false, s))

/-- The error translation: no error flag is success; with one, the class of the code, where a code of class none counts as
other, which is BABBLE (R91, R181, R182). -/
def Obligations.TranslateMapsTheErrorCode : Prop :=
  ∀ (s : State) (c : Chan),
    ((s.chan c).err = false → translate s c = (.success, .none)) ∧
    ((s.chan c).err = true →
      translate s c = (.deviceError,
        match errClassOf s.cfg (s.chan c).errCode with
        | .crc => .crc
        | .stall => .stall
        | .timeout => .timeout
        | .none | .other => .babble))

/-- A stage cycle begins by programming its channel and ends with it released on every path, whatever the other agents did,
and with a timeout or a device error whenever it does not succeed; its last register operations are a clear and the release
where it succeeds, and the soft reset and then the release where it fails (R184, R198, R200, R280). -/
def Obligations.StageCycleReleasesItsChannel : Prop :=
  ∀ (c : Chan) (trb : Nat) (kind : XferKind) (s t : State) (e : StageEnd), stageCycle c trb kind s = .done e t →
    (t.chan c).enabled = false ∧ (t.chan c).programmed = false ∧ (t.chan c).pending = false ∧ (t.chan c).trb = none ∧
      t.dma.sel = c ∧ (e.status = .success ∧ e.res = .none ∨ e.status = .deviceError ∧ e.res ≠ .none ∨
        e.status = .timeout ∧ e.res = .timeout ∧ e.actual = 0) ∧
      ∃ polls, t.regtrace = s.regtrace ++ (programTrace c trb ++ polls ++
        (if e.status = .success then clearTrace c else [.softReset]) ++ releaseTrace c)

/-- Operands a transfer command rejects: INVALID_PARAMETER with result NONE, and nothing changed, no register operation made;
XFER_ISOCH is always rejected (R87, R186, R191, R194, R197). The length 0 and the absent toggle in the Result of a rejected
bulk or interrupt transfer are the model's choice (log 15, DESIGN CHOICE, unsafe). -/
def Obligations.TransfersRejectBadOperands : Prop :=
  ∀ (ep : EpNum) (dir : Dir) (tg : Bool) (addr : DevAddr) (sp : Speed) (dd : DataDir) (s : State),
    ((dd = .noData ∧ s.args.len ≠ 0 ∨ dd ≠ .noData ∧ s.args.len = 0 ∨ s.cfg.maxTrbSize < s.args.len ∨
        s.args.buf.len < s.args.len) →
      exec (.xferControl addr sp dd) s = .next
        { s.started (.xferControl addr sp dd) with
          seq := Seq.idle, trace := s.trace ++ [.result 0x20 .invalidParameter (.control .none 0)] }) ∧
    ((s.args.mps ∉ [8, 16, 32, 64] ∨ ep = 0 ∨ s.args.buf.len < s.args.len) →
      exec (.xferBulk ep dir tg addr sp) s = .next
        { s.started (.xferBulk ep dir tg addr sp) with
          seq := Seq.idle, trace := s.trace ++ [.result 0x21 .invalidParameter (.transfer .none 0 none)] }) ∧
    ((ep = 0 ∨ s.args.len = 0 ∨ s.cfg.maxTrbSize < s.args.len ∨ s.args.buf.len < s.args.len) →
      exec (.xferIntSync ep dir tg addr sp) s = .next
        { s.started (.xferIntSync ep dir tg addr sp) with
          seq := Seq.idle, trace := s.trace ++ [.result 0x22 .invalidParameter (.transfer .none 0 none)] }) ∧
    exec (.xferIsoch ep dir addr sp) s = .next
      { s.started (.xferIsoch ep dir addr sp) with
        seq := Seq.idle, trace := s.trace ++ [.result 0x24 .unsupported (.result .none)] }

/-- XFER_CONTROL completes on every device behaviour: with legal operands, a caller buffer and clean endpoint-0 channels it
returns one of the statuses of R247 with the result that goes with it, endpoint 0's channels released, every region it
acquired freed, and stage IDLE. It is out of resources exactly when its allocations fail, and then no register, TRB or region
differs, and no byte but those the agents of pending transfers write (that a TRB at a returned slot stays is log 30, DESIGN
CHOICE). Otherwise its outputs are those of the stage that ended
it, by the functions of the meaning: length 0 after a failed SETUP or DATA stage, and the count of the DATA stage after a
STATUS stage, also a failed one. Of the caller's buffer it writes the first bytes of that length, and only for IN: a DATA stage
that fails or times out leaves the buffer alone. That other bytes change only by pending transfers is log 21 (R185, R186,
R188). -/
def Obligations.ControlTransferCompletes : Prop :=
  ∀ (addr : DevAddr) (sp : Speed) (dd : DataDir) (s : State),
    let got := acquire (controlRequests s.cfg s.args.len) (s.started (.xferControl addr sp dd))
    controlOk s.cfg dd s.args = true → s.ep0Stage = .idle → CallerBuf s → ChanClean s ⟨0, .out⟩ → ChanClean s ⟨0, .in_⟩ →
    ∃ t st res len, exec (.xferControl addr sp dd) s = .next t ∧
      t.trace = s.trace ++ [.result 0x20 st (.control res len)] ∧ st ∈ transferStatuses ∧ len ≤ s.args.len ∧
      ResultFits st res ∧ t.seq = Seq.idle ∧ t.ep0Stage = .idle ∧ t.alloc = s.alloc ∧
      (t.chan ⟨0, .out⟩).programmed = false ∧ (t.chan ⟨0, .in_⟩).programmed = false ∧
      (st = .outOfResources ↔ got.1 = none) ∧ (st = .outOfResources → len = 0 ∧ NothingAcquired s t) ∧
      (st = .success → dd = .out → len = s.args.len) ∧
      ∀ trb sb db, got.1 = some (trb :: sb :: db) →
        (∀ a, OutsideAgents s a → (a < sb ∨ sb + 8 ≤ a) → (a < db.headD 0 ∨ db.headD 0 + s.args.len ≤ a) →
          (dd = .in_ → a < s.args.buf.base ∨ s.args.buf.base + len ≤ a) → readByte t.mem a = readByte s.mem a) ∧
        ∃ e u, controlSetup addr trb sb got.2 = .done e u ∧
          (e.status ≠ .success → st = e.status ∧ res = e.res ∧ len = 0) ∧
          (e.status = .success → ∃ d v, controlMiddle addr dd trb (db.headD 0) u = .done d v ∧
            (d.status ≠ .success → st = d.status ∧ res = d.res ∧ len = 0) ∧
            (d.status = .success → ∃ f w, controlStatus addr dd trb sb d.len v = .done f w ∧
              st = f.status ∧ res = f.res ∧ len = d.len))

/-- XFER_BULK completes on every device behaviour, with the result that goes with its status, its channel released and what
it acquired freed; the toggle it returns is the hardware's. By the functions of the meaning: after the endpoint is configured
some chunks succeed, `ends` in order, and then there is no further chunk, or the next one fails, with the status and result
returned, and the loop stops there: the common return follows. The length is the bytes of the chunks that succeeded, for OUT
the whole of them. Of the caller's buffer only those bytes are written, each chunk's at its place and only for IN: a chunk that
fails or times out leaves its place alone (R185, R190, R191, R192, R193). It is out of resources exactly when its allocations
fail, and then no register, TRB or region differs; that a TRB at a returned slot stays then is log 30, that the length is 0 and
no toggle is returned log 15 (both DESIGN CHOICE). That other bytes change only by pending transfers is log 21. -/
def Obligations.BulkTransferCompletes : Prop :=
  ∀ (ep : EpNum) (dir : Dir) (tg : Bool) (addr : DevAddr) (sp : Speed) (s : State),
    let i := Instr.xferBulk ep dir tg addr sp
    let c : Chan := ⟨ep, dir⟩
    let burst := s.cfg.burstSize
    let place := fun j => s.args.buf.base + j * burst
    let got := acquire [trbRequest s.cfg, (burst, .staging)] (s.started i)
    bulkOk ep s.args = true → s.cfg.wf = true → CallerBuf s → ChanClean s c →
    ∃ t st res len tgo, exec i s = .next t ∧
      t.trace = s.trace ++ [.result 0x21 st (.transfer res len tgo)] ∧ st ∈ transferStatuses ∧ len ≤ s.args.len ∧
      ResultFits st res ∧ t.seq = Seq.idle ∧ t.alloc = s.alloc ∧ (t.chan c).programmed = false ∧
      (st ≠ .outOfResources → tgo = some (t.toggle c)) ∧ (st = .outOfResources ↔ got.1 = none) ∧
      (st = .outOfResources → len = 0 ∧ tgo = none ∧ NothingAcquired s t) ∧
      ∀ trb stg, got.1 = some [trb, stg] →
        ∃ ends v w,
          ChunksMoved c trb stg 0 ends (configureEp c .bulk tg addr s.args.mps 0 (got.2.atLine .configure)) v ∧
          (st = .success → ends.length = chunkCount s.args.len burst ∧ w = v) ∧
          (st ≠ .success → ends.length < chunkCount s.args.len burst ∧
            ∃ e, bulkChunk c trb stg ends.length v = .done e w ∧ e.status = st ∧ e.res = res) ∧
          t = finishTransfer i c trb stg { status := st, res := res, len := len } w ∧
          len = (ends.map fun e => e.actual).sum ∧ (dir = .out → len = min (ends.length * burst) s.args.len) ∧
          (∀ j e, ends[j]? = some e → e.actual ≤ chunkSize s.args.len burst j) ∧
          ∀ a, OutsideAgents s a → (a < stg ∨ stg + burst ≤ a) →
            (dir = .in_ → ∀ j e, ends[j]? = some e → a < place j ∨ place j + e.actual ≤ a) →
            readByte t.mem a = readByte s.mem a

/-- XFER_INT_SYNC completes on every device behaviour, with the result that goes with its status and length 0 where it fails,
its channel released and what it acquired freed; the toggle it returns is the hardware's. Of the caller's buffer it writes the
first bytes of the length it returns, and only for IN: a cycle that fails or times out leaves the buffer alone (R185, R194). It
is out of resources exactly when its allocations fail, and then no register, TRB or region differs; that a TRB at a returned
slot stays then is log 30, that the length is 0 and no toggle is returned log 15 (both DESIGN CHOICE). That other bytes change
only by pending transfers is log 21. -/
def Obligations.InterruptTransferCompletes : Prop :=
  ∀ (ep : EpNum) (dir : Dir) (tg : Bool) (addr : DevAddr) (sp : Speed) (s : State),
    let i := Instr.xferIntSync ep dir tg addr sp
    let got := acquire [trbRequest s.cfg, (s.args.len, .staging)] (s.started i)
    intSyncOk s.cfg ep s.args = true → CallerBuf s → ChanClean s ⟨ep, dir⟩ →
    ∃ t st res len tgo, exec i s = .next t ∧
      t.trace = s.trace ++ [.result 0x22 st (.transfer res len tgo)] ∧ st ∈ transferStatuses ∧ len ≤ s.args.len ∧
      ResultFits st res ∧ (st ≠ .success → len = 0) ∧ t.seq = Seq.idle ∧ t.alloc = s.alloc ∧
      (t.chan ⟨ep, dir⟩).programmed = false ∧ (st ≠ .outOfResources → tgo = some (t.toggle ⟨ep, dir⟩)) ∧
      (st = .outOfResources ↔ got.1 = none) ∧ (st = .outOfResources → tgo = none ∧ NothingAcquired s t) ∧
      (st = .success → dir = .out → len = s.args.len) ∧
      ∀ trb stg, got.1 = some [trb, stg] → ∀ a, OutsideAgents s a → (a < stg ∨ stg + s.args.len ≤ a) →
        (dir = .in_ → a < s.args.buf.base ∨ s.args.buf.base + len ≤ a) → readByte t.mem a = readByte s.mem a

/-- XFER_CONTROL whose device answers each stage before its first sample, the other agents taking no other step (the places
of the points are log 3): SUCCESS with the length moved; three cycles, or two without data, each configured for its stage and
programmed on the one TRB slot; the packet lies in its staging region as the caller gave it, IN data in the caller's buffer,
OUT data in the staging region its TRB names; the STATUS stage runs in the opposite direction. Endpoint 0's two channels end
released with the counts and its toggles with the answers of their last cycles, the selector on the STATUS stage's channel,
the TRB slot empty, the regions freed; and nothing else changes but the model's own draws (R158, R184, R185, R186, R187). -/
def Obligations.ControlTransferDelivers : Prop :=
  ∀ (addr : DevAddr) (sp : Speed) (dd : DataDir) (s v : State) (trb sb : Nat) (db : List Nat) (bs : List Byte)
    (t1 t2 t3 : Bool) (rest : List (List AgentEvent)),
    let len := s.args.len
    let data := db.headD 0
    let back := statusDir dd
    controlOk s.cfg dd s.args = true → CallerBuf s → ChanClean s ⟨0, .out⟩ → ChanClean s ⟨0, .in_⟩ →
    0 < waitBudget s.cfg .control s.args.timeout → bs.length ≤ len →
    acquire (controlRequests s.cfg len) (s.started (.xferControl addr sp dd)) = (some (trb :: sb :: db), v) →
    s.oracle.batches = List.replicate (if len = 0 then 3 else 4) [] ++ answered 4 4 ⟨0, .out⟩ [] t1 ++
      (match dd with
        | .noData => []
        | .in_ => answered 3 5 ⟨0, .in_⟩ bs t2
        | .out => answered 4 4 ⟨0, .out⟩ [] t2) ++
      answered 3 4 ⟨0, back⟩ [] t3 ++ [] :: rest →
    ∃ t, exec (.xferControl addr sp dd) s = .next t ∧
      t.trace = s.trace ++ [.result 0x20 .success (.control .none (if dd = .in_ then bs.length else len))] ∧
      t.regtrace = s.regtrace ++
        (configureEp0Trace .out .setup addr s.args.mps ++ cycleTrace ⟨0, .out⟩ trb) ++
        (match dataStageDir dd with
          | none => []
          | some dir => configureEp0Trace dir .data addr s.args.mps ++ cycleTrace ⟨0, dir⟩ trb) ++
        (configureEp0Trace back .status addr s.args.mps ++ cycleTrace ⟨0, back⟩ trb) ∧
      readBytes t.mem sb 8 = s.args.setup.toList ∧
      (dd = .in_ → readBytes t.mem s.args.buf.base bs.length = bs) ∧
      (dd = .out → readBytes t.mem data len = readBytes s.mem s.args.buf.base len) ∧
      (∀ a, (a < sb ∨ sb + 8 ≤ a) → (a < data ∨ data + len ≤ a) →
        (dd = .in_ → a < s.args.buf.base ∨ s.args.buf.base + bs.length ≤ a) → readByte t.mem a = readByte s.mem a) ∧
      t.chan ⟨0, .out⟩ = usedChan trb (match dd with | .noData => 8 | .in_ => 0 | .out => len) ∧
      t.chan ⟨0, .in_⟩ = usedChan trb (if dd = .in_ then bs.length else 0) ∧
      (∀ c, c.ep ≠ 0 → t.chan c = s.chan c) ∧
      (∀ p, tabFind t.trbStore p = if p = trb then none else tabFind s.trbStore p) ∧
      t = { s with
            dma := { burstMode := .single, sel := ⟨0, back⟩, ch := t.dma.ch }
            ep0 :=
              { mps := s.args.mps, devAddr := addr
                toggle := match dd with | .noData => ⟨t1, t3⟩ | .in_ => ⟨t3, t2⟩ | .out => ⟨t2, t3⟩ }
            ep0Stage := .idle, mem := t.mem, trbStore := t.trbStore, seq := Seq.idle, regtrace := t.regtrace
            trace := t.trace, oracle := t.oracle }

/-- XFER_BULK whose device answers each chunk before its first sample, the other agents taking no other step (the places of
the points are log 3): SUCCESS with the bytes moved and the toggle of the last answer; the endpoint configured once, one
cycle a chunk on the one TRB slot, the toggle read once after the last; IN, each chunk's bytes at the chunk's place of the
caller's buffer, which is left alone between a short chunk's end and the next chunk's place; OUT, every chunk at its full
size, the last one's bytes still in the staging region. The channel ends released with the count of the last chunk, and
untouched where there is none; the TRB slot is empty, the regions freed; and nothing else changes but the model's own draws
(R158, R184, R185, R190, R191, R192, R193). -/
def Obligations.BulkTransferDelivers : Prop :=
  ∀ (ep : EpNum) (dir : Dir) (tg : Bool) (addr : DevAddr) (sp : Speed) (s v : State) (trb stg : Nat)
    (answers : List (List Byte × Bool)) (rest : List (List AgentEvent)),
    let c : Chan := ⟨ep, dir⟩
    let len := s.args.len
    let burst := s.cfg.burstSize
    let place := fun i => s.args.buf.base + i * burst
    bulkOk ep s.args = true → s.cfg.wf = true → CallerBuf s → ChanClean s c →
    0 < waitBudget s.cfg .bulk s.args.timeout → answers.length = chunkCount len burst →
    (∀ i x, answers[i]? = some x → x.1.length ≤ chunkSize len burst i) →
    acquire [trbRequest s.cfg, (burst, .staging)] (s.started (.xferBulk ep dir tg addr sp)) = (some [trb, stg], v) →
    s.oracle.batches = List.replicate 4 [] ++
      (answers.map fun x => answered (if dir = .out then 3 else 2) (if dir = .out then 4 else 5) c x.1 x.2).flatten ++
      List.replicate 2 [] ++ rest →
    ∃ t, exec (.xferBulk ep dir tg addr sp) s = .next t ∧
      t.trace = s.trace ++
        [.result 0x21 .success
          (.transfer .none (if dir = .out then len else (answers.map fun x => x.1.length).sum)
            (some ((answers.getLast?.map Prod.snd).getD tg)))] ∧
      t.regtrace = s.regtrace ++ configureTrace c .bulk tg addr s.args.mps ++
        (List.replicate answers.length (cycleTrace c trb)).flatten ++ [.R .epToggle] ∧
      (dir = .in_ → ∀ i x, answers[i]? = some x → readBytes t.mem (place i) x.1.length = x.1) ∧
      (dir = .out → ∀ i, i + 1 = chunkCount len burst →
        readBytes t.mem stg (chunkSize len burst i) = readBytes s.mem (place i) (chunkSize len burst i)) ∧
      (∀ a, (a < stg ∨ stg + burst ≤ a) →
        (dir = .in_ → ∀ i x, answers[i]? = some x → a < place i ∨ place i + x.1.length ≤ a) →
        readByte t.mem a = readByte s.mem a) ∧
      t.chan c =
        (match answers.getLast? with
          | none => s.chan c
          | some x => usedChan trb (if dir = .out then chunkSize len burst (chunkCount len burst - 1) else x.1.length)) ∧
      t.endpoint c =
        { type := .bulk, devAddr := addr, mps := s.args.mps, toggle := (answers.getLast?.map Prod.snd).getD tg
          enabled := true, doneIrqEn := true, errIrqEn := true, intTimer := (s.endpoint c).intTimer } ∧
      (∀ b, b ≠ c → t.chan b = s.chan b ∧ t.endpoint b = s.endpoint b) ∧
      (∀ p, tabFind t.trbStore p = if p = trb then none else tabFind s.trbStore p) ∧
      t = { s with
            dma :=
              { burstMode := if answers = [] then s.dma.burstMode else .single
                sel := if answers = [] then s.dma.sel else c, ch := t.dma.ch }
            ep := t.ep, mem := t.mem, trbStore := t.trbStore, seq := Seq.idle, regtrace := t.regtrace
            trace := t.trace, oracle := t.oracle }

/-- XFER_INT_SYNC, the device answering before the first sample, the other agents taking no other step (the places of the
points are log 3): SUCCESS with the bytes moved and the hardware toggle; the endpoint configured, with its timer if there is
an interval, one cycle on the TRB slot and the toggle read; IN, the device's bytes in the caller's buffer; OUT, the caller's
bytes in the staging region. The channel ends released with the count, the TRB slot empty, the regions freed; and nothing else
changes but the model's own draws (R158, R171, R184, R185, R194, R195). -/
def Obligations.InterruptTransferDelivers : Prop :=
  ∀ (ep : EpNum) (dir : Dir) (tg tg' : Bool) (addr : DevAddr) (sp : Speed) (s u : State) (trb stg : Nat) (bs : List Byte)
    (rest : List (List AgentEvent)),
    let c : Chan := ⟨ep, dir⟩
    let len := s.args.len
    let moved := if dir = .out then len else bs.length
    intSyncOk s.cfg ep s.args = true → CallerBuf s → ChanClean s c → 0 < waitBudget s.cfg .interrupt s.args.timeout →
    (dir = .in_ → bs.length ≤ len) →
    acquire [trbRequest s.cfg, (len, .staging)] (s.started (.xferIntSync ep dir tg addr sp)) = (some [trb, stg], u) →
    s.oracle.batches = answered (if dir = .out then 7 else 6) (if dir = .out then 6 else 7) c bs tg' ++ rest →
    ∃ t, exec (.xferIntSync ep dir tg addr sp) s = .next t ∧
      t.trace = s.trace ++ [.result 0x22 .success (.transfer .none moved (some tg'))] ∧
      t.regtrace =
        s.regtrace ++ interruptTrace s.cfg c tg addr s.args.mps s.args.interval ++ cycleTrace c trb ++ [.R .epToggle] ∧
      (dir = .in_ → readBytes t.mem s.args.buf.base bs.length = bs) ∧
      (dir = .out → readBytes t.mem stg len = readBytes s.mem s.args.buf.base len) ∧
      (∀ a, (a < stg ∨ stg + moved ≤ a) → (dir = .in_ → a < s.args.buf.base ∨ s.args.buf.base + moved ≤ a) →
        readByte t.mem a = readByte s.mem a) ∧
      t.chan c = usedChan trb moved ∧
      t.endpoint c =
        { type := .interrupt, devAddr := addr, mps := s.args.mps, toggle := tg', enabled := true, doneIrqEn := true
          errIrqEn := true
          intTimer :=
            if s.args.interval ≠ 0 then intTimerValue s.cfg s.args.interval else (s.endpoint c).intTimer } ∧
      (∀ b, b ≠ c → t.chan b = s.chan b ∧ t.endpoint b = s.endpoint b) ∧
      (∀ p, tabFind t.trbStore p = if p = trb then none else tabFind s.trbStore p) ∧
      t = { s with
            dma := { burstMode := .single, sel := c, ch := t.dma.ch }
            ep := t.ep, mem := t.mem, trbStore := t.trbStore, seq := Seq.idle, regtrace := t.regtrace
            trace := t.trace, oracle := t.oracle }

/-- After a synchronous transfer returns, on any path, or is stuck before a copy or a TRB write, no channel is programmed
that was not programmed before (R198). -/
def Obligations.SyncTransferLeavesNoChannelProgrammed : Prop :=
  ∀ (i : Instr) (s t : State), IsSyncTransfer i → exec i s = .next t →
    ∀ c, (t.chan c).programmed = true → (s.chan c).programmed = true

/-- What a synchronous transfer leaves alone, whatever the other agents do meanwhile: the OTG part but the flags and inputs
the Environment drives, the port, the power state, the queue, the caller's arguments and pending commands, and every earlier
trace event; and it either returns, with its Result and the regions as they were, or is stuck before a memory access (R31,
R185, R199, R251). That the wake-disable bit stays rests on log 22: the owning subsystem clears it only while no command
executes (DESIGN CHOICE, unsafe for this statement). -/
def Obligations.SyncTransferFrame : Prop :=
  ∀ (i : Instr) (s t : State), IsSyncTransfer i → exec i s = .next t →
    t.otg = { s.otg with flags := t.otg.flags, inputs := t.otg.inputs } ∧ t.port = s.port ∧ t.hcState = s.hcState ∧
      t.secondary = s.secondary ∧ t.async = s.async ∧ t.args = s.args ∧ t.cfg = s.cfg ∧ t.hostQueue = s.hostQueue ∧
      s.regtrace <+: t.regtrace ∧
      (t.seq = Seq.idle ∧ t.alloc = s.alloc ∧ (∃ st o, t.trace = s.trace ++ [.result i.opcode st o]) ∨
        Stuck t ∧ t.trace = s.trace)

/-- What a synchronous transfer leaves alone of the other channels and endpoints, whatever the other agents do meanwhile:
every register but the toggles the agents of pending transfers hand back; a channel without a pending transfer keeps its
toggle, and its state, unless a DMA_RESET of this transfer, after an error, idled it (R155, R160, R171, R280). -/
def Obligations.SyncTransferLeavesOtherChannels : Prop :=
  ∀ (i : Instr) (s t : State) (c : Chan), IsSyncTransfer i → exec i s = .next t → s.cfg.wf = true → CallerBuf s →
    (∀ b ∈ syncChans i, ChanClean s b) → c ∉ syncChans i →
    t.endpoint c = { s.endpoint c with toggle := (t.endpoint c).toggle } ∧
      (s.agentTrb c = none → t.toggle c = s.toggle c ∧
        (t.chan c = s.chan c ∨
          t.chan c = Channel.idle ∧ RegOp.softReset ∈ t.regtrace.drop s.regtrace.length)) ∧
      ((∀ b ∈ syncChans i, b.ep ≠ 0) → t.ep0 = { s.ep0 with toggle := t.ep0.toggle })

/-- What a synchronous transfer stores to: the regions it acquired, the caller's buffer unless it only sends, and the
buffers of transfers that other agents still have to perform; every other byte of memory keeps its value (R77, R186, R191,
R194). That the Host pokes caller regions only between commands is log 21. -/
def Obligations.SyncTransferStoresOnlyToItsBuffers : Prop :=
  ∀ (i : Instr) (s t u : State) (as : List Nat) (a : Nat), IsSyncTransfer i → exec i s = .next t →
    s.cfg.wf = true → CallerBuf s → (∀ c ∈ syncChans i, ChanClean s c) →
    acquire (syncRequests i s) (s.started i) = (some as, u) → OutsideAgents s a →
    (∀ r ∈ as.zip (syncRequests i s), a < r.1 ∨ r.1 + r.2.1 ≤ a) →
    (sendsOnly i = true ∨ a < s.args.buf.base ∨ s.args.buf.base + s.args.len ≤ a) →
    readByte t.mem a = readByte s.mem a

/-- XFER_INT_ASYNC_ARM: endpoint 0 and a length above MaxTrbSize are rejected (the length by R48 and D68); a programmed channel
or a misaligned address faults at the program, the endpoint configured and the TRB written; else configure, write the TRB and
program exactly once, in that order, and return at once: nothing is waited for, released or stored to memory (R163, R196).
That it completes with a slot in no allocated region is log 29 (DESIGN CHOICE, unsafe for this claim: on the other reading of
R62 the Sequencer is stuck); of an address outside the address space the next statement speaks. The faulted state is log 13,
the points between the three lines log 3, and that wake_disable and bytes no agent owes stay is log 21 and 22. -/
def Obligations.ArmConfiguresAndPrograms : Prop :=
  ∀ (ep : EpNum) (dir : Dir) (tg : Bool) (addr : DevAddr) (sp : Speed) (s : State),
    let i := Instr.xferIntAsyncArm ep dir tg addr sp
    let c : Chan := ⟨ep, dir⟩
    let space := addrSpace s.cfg.addrWidth
    let x : Trb := { addr := s.args.data, size := s.args.len, flags := trbFlags s.cfg .interrupt }
    let store := fun p => if p = s.args.trb then some x else tabFind s.trbStore p
    let ops := interruptTrace s.cfg c tg addr s.args.mps s.args.interval
    ((ep = 0 ∨ s.cfg.maxTrbSize < s.args.len) →
      exec i s = .next
        { s.started i with seq := Seq.idle, trace := s.trace ++ [.result 0x23 .invalidParameter .none] }) ∧
    (ep ≠ 0 → s.args.len ≤ s.cfg.maxTrbSize → s.args.trb < space → s.args.data < space →
      ((s.chan c).programmed = true →
        ∃ v, exec i s = .fault (.programUnreleased v) ∧ v.fault = some .programUnreleased ∧
          v.regtrace = s.regtrace ++ ops ∧ (∀ p, tabFind v.trbStore p = store p) ∧ v.trace = s.trace) ∧
      ((s.chan c).programmed = false → (s.args.trb % s.cfg.dmaAlign ≠ 0 ∨ s.args.data % s.cfg.dmaAlign ≠ 0) →
        ∃ v, exec i s = .fault (.misalignedDma v) ∧ v.fault = some .misalignedDma ∧
          v.regtrace = s.regtrace ++ ops ∧ (∀ p, tabFind v.trbStore p = store p) ∧ v.trace = s.trace) ∧
      ((s.chan c).programmed = false → ChannelsCoherent s → s.args.trb % s.cfg.dmaAlign = 0 →
        s.args.data % s.cfg.dmaAlign = 0 →
        ∃ t, exec i s = .next t ∧ (∀ p, tabFind t.trbStore p = store p) ∧
          t.chan c =
            { s.chan c with
              errIrqEn := true, doneIrqEn := true, descAddr := s.args.trb, trb := some x, pending := true, enabled := true
              programmed := true } ∧
          t.endpoint c =
            { type := .interrupt, devAddr := addr, mps := s.args.mps, toggle := tg, enabled := true, doneIrqEn := true
              errIrqEn := true
              intTimer :=
                if s.args.interval ≠ 0 then intTimerValue s.cfg s.args.interval else (s.endpoint c).intTimer } ∧
          t.dma.burstMode = .single ∧ t.dma.sel = c ∧ t.regtrace = s.regtrace ++ ops ++ programTrace c s.args.trb ∧
          t.async = s.async ∧ t.alloc = s.alloc ∧ t.trace = s.trace ++ [.result 0x23 .success .none] ∧
          OnlyAgentsBeside c s t))

/-- A Sequencer whose memory access is not admitted is stuck, which is no fault: it takes no further step and the other
agents go on (R13, R251). So it is before the copy of an XFER_INT_SYNC OUT whose buffer lies in no caller region, the channel
not yet programmed, and before the TRB write of an arm with an address outside the address space. What counts as admitted is
log 9 (DEDUCED), the address rule of a TRB write log 29 (DESIGN CHOICE). -/
def Obligations.StuckSequencerLeavesTheOthersRunning : Prop :=
  (∀ s : State, Unmarked s → Stuck s → step s = .next s.interleave ∧ Stuck s.interleave) ∧
  (∀ (ep : EpNum) (tg : Bool) (addr : DevAddr) (sp : Speed) (s v : State) (trb stg : Nat),
    let i := Instr.xferIntSync ep .out tg addr sp
    intSyncOk s.cfg ep s.args = true → s.admits [.caller] s.args.buf.base s.args.len = false →
    acquire [trbRequest s.cfg, (s.args.len, .staging)] (s.started i) = (some [trb, stg], v) →
    ∃ t, exec i s = .next t ∧ t.seq = { busy := true, cmd := some ⟨i, 0, .line .fill⟩, inTick := false, deferred := [] } ∧
      Stuck t ∧ t.trace = s.trace ∧ (∀ c, (t.chan c).programmed = (s.chan c).programmed) ∧ t.trbStore = s.trbStore) ∧
  (∀ (ep : EpNum) (dir : Dir) (tg : Bool) (addr : DevAddr) (sp : Speed) (s : State),
    let i := Instr.xferIntAsyncArm ep dir tg addr sp
    ep ≠ 0 → s.args.len ≤ s.cfg.maxTrbSize →
    (addrSpace s.cfg.addrWidth ≤ s.args.trb ∨ addrSpace s.cfg.addrWidth ≤ s.args.data) →
    ∃ t, exec i s = .next t ∧
      t.seq = { busy := true, cmd := some ⟨i, 0, .line .writeTrb⟩, inTick := false, deferred := [] } ∧
      Stuck t ∧ t.trace = s.trace ∧ (∀ c, (t.chan c).programmed = (s.chan c).programmed) ∧ t.trbStore = s.trbStore ∧
      t.regtrace = s.regtrace ++ interruptTrace s.cfg ⟨ep, dir⟩ tg addr s.args.mps s.args.interval)

/-! ### The async queue (44_async_queue) -/

/-- ASYNC_REGISTER rejects each operand out of its range and a duplicate key, allocating and writing nothing; where its
allocation fails it returns OUT_OF_RESOURCES with everything it acquired freed; with an entry already on its endpoint it
faults. ASYNC_CANCEL of a key no entry has returns a parameter error and changes nothing (R209, R210, R212, R225, R227). That
the Sequencer of the faulted state is idle is log 13 (DESIGN CHOICE), that the other agents step before that fault log 3. -/
def Obligations.QueueCommandsRejectOrFailCleanly : Prop :=
  ∀ (ep : EpNum) (dir : Dir) (tg : Bool) (addr : DevAddr) (sp : Speed) (s v : State),
    let u := s.started (.asyncRegister ep dir tg addr sp)
    ((dir ≠ .in_ ∨ ep = 0 ∨ s.args.interval < 1 ∨ 255 < s.args.interval ∨ s.args.len = 0 ∨ s.args.callback = 0 ∨
        s.cfg.maxTrbSize < sliceBytes s.cfg s.args.len ∨ ∃ x ∈ s.async, x.devAddr = addr ∧ x.ep = ep) →
      exec (.asyncRegister ep dir tg addr sp) s = .next
        { u with seq := Seq.idle, trace := s.trace ++ [.result 0x30 .invalidParameter .none] }) ∧
    (registerOk s.cfg s.async ep dir addr s.args = true →
      (acquire (registerRequests s.cfg s.args.len) u = (none, v) →
        exec (.asyncRegister ep dir tg addr sp) s = .next
          { v with seq := Seq.idle, trace := s.trace ++ [.result 0x30 .outOfResources .none] } ∧
        NothingAcquired s v ∧ v.async = s.async) ∧
      (∀ as, acquire (registerRequests s.cfg s.args.len) u = (some as, v) → (∃ y ∈ s.async, y.ep = ep) →
        exec (.asyncRegister ep dir tg addr sp) s =
          .fault (.channelShared { v.atLine .shared with fault := some .channelShared, seq := Seq.idle }))) ∧
    ((∀ x ∈ s.async, ¬(x.devAddr = addr ∧ x.ep = ep)) →
      exec (.asyncCancel ep addr) s = .next
        { s.started (.asyncCancel ep addr) with
          seq := Seq.idle, trace := s.trace ++ [.result 0x31 .invalidParameter .none] })

/-- ASYNC_REGISTER with legal operands, no entry on its endpoint, its channel not programmed and its regions allocated at
addresses its TRB may have, appends one entry with index 0 and arms its first slice; `v` is the state its allocations leave
(R209, R211). Where the slices are aligned (one slice, or a slice of a multiple of DmaAlign bytes) and no earlier completion
stands on the channel, the entry is one a tick can serve. The points between the lines are log 3, and that wake_disable and
bytes no agent owes stay is log 21 and 22. -/
def Obligations.RegisterAppendsAndArms : Prop :=
  ∀ (ep : EpNum) (tg : Bool) (addr : DevAddr) (sp : Speed) (s v : State) (buf p : Nat) (pool : List Nat),
    let i := Instr.asyncRegister ep .in_ tg addr sp
    let c : Chan := ⟨ep, .in_⟩
    let sl := sliceBytes s.cfg s.args.len
    let x : Trb := { addr := buf, size := sl, flags := trbFlags s.cfg .interrupt }
    let entry : AsyncEntry :=
      { devAddr := addr, ep := ep, speed := sp, mps := s.args.mps, interval := s.args.interval, len := s.args.len
        buf := buf, pool := p :: pool, index := 0, toggle := tg, callback := s.args.callback, ctx := s.args.ctx }
    registerOk s.cfg s.async ep .in_ addr s.args = true → (∀ y ∈ s.async, y.ep ≠ ep) → s.cfg.wf = true →
    ChannelsCoherent s → (s.chan c).programmed = false →
    acquire (registerRequests s.cfg s.args.len) (s.started i) = (some (buf :: p :: pool), v) →
    ∃ t, exec i s = .next t ∧ t.async = s.async ++ [entry] ∧ pool.length + 1 = s.cfg.asyncIter ∧ t.alloc = v.alloc ∧
      (∀ q, tabFind t.trbStore q = if q = p then some x else tabFind s.trbStore q) ∧
      t.chan c =
        { s.chan c with
          errIrqEn := true, doneIrqEn := true, descAddr := p, trb := some x, pending := true, enabled := true
          programmed := true } ∧
      t.endpoint c =
        { type := .interrupt, devAddr := addr, mps := s.args.mps, toggle := tg, enabled := true, doneIrqEn := true
          errIrqEn := true, intTimer := intTimerValue s.cfg s.args.interval } ∧
      t.dma.burstMode = .single ∧ t.dma.sel = c ∧
      t.regtrace = s.regtrace ++ interruptTrace s.cfg c tg addr s.args.mps s.args.interval ++ programTrace c p ∧
      t.trace = s.trace ++ [.result 0x30 .success .none] ∧ OnlyAgentsBeside c s t ∧
      ((s.cfg.asyncIter = 1 ∨ sl % s.cfg.dmaAlign = 0) → ((s.chan c).done = true → (s.chan c).actual ≤ sl) →
        EntryReady t entry)

/-- ASYNC_CANCEL of a live entry returns its stored toggle, removes it and keeps the order of the others, frees its buffer
and its pool and no other region, and releases its channel where CancelReleasesChannel holds; other channels, endpoints and
bytes of memory change only by the steps other agents still have to make (R212, R213, R214). That bytes change by pending
transfers alone rests on log 21: the Host pokes its regions only between commands (DESIGN CHOICE, unsafe for this clause;
R242 bars it only from regions the command names). -/
def Obligations.CancelRemovesAndFrees : Prop :=
  ∀ (s : State) (x : AsyncEntry) (before after : List AsyncEntry),
    let c : Chan := ⟨x.ep, .in_⟩
    s.async = before ++ x :: after → (∀ y ∈ before, ¬(y.devAddr = x.devAddr ∧ y.ep = x.ep)) →
    ∃ t, exec (.asyncCancel x.ep x.devAddr) s = .next t ∧
      t.trace = s.trace ++ [.result 0x31 .success (.toggle x.toggle)] ∧ t.async = before ++ after ∧
      t.seq = Seq.idle ∧
      (s.cfg.cancelReleasesChannel = true →
        (t.chan c).programmed = false ∧ (t.chan c).enabled = false ∧ (t.chan c).pending = false ∧
          (t.chan c).trb = none ∧ t.dma.sel = c ∧ t.regtrace = s.regtrace ++ clearTrace c ++ releaseTrace c) ∧
      (s.cfg.cancelReleasesChannel = false →
        (t.chan c).programmed = (s.chan c).programmed ∧ (t.chan c).enabled = (s.chan c).enabled ∧
          (t.chan c).trb = (s.chan c).trb ∧ t.dma.sel = s.dma.sel ∧ t.regtrace = s.regtrace) ∧
      t.dma.burstMode = s.dma.burstMode ∧
      (∀ r, r ∈ t.alloc ↔ r ∈ s.alloc ∧ r.1 ≠ x.buf ∧ r.1 ∉ x.pool) ∧
      (∀ p, tabFind t.trbStore p = if p ∈ x.pool then none else tabFind s.trbStore p) ∧
      (∀ b, b ≠ c → s.agentTrb b = none → t.chan b = s.chan b ∧ t.toggle b = s.toggle b) ∧
      (∀ b, t.endpoint b = { s.endpoint b with toggle := (t.endpoint b).toggle }) ∧
      (∀ a, OutsideAgents s a → readByte t.mem a = readByte s.mem a) ∧
      t.ep0.mps = s.ep0.mps ∧ t.ep0.devAddr = s.ep0.devAddr ∧ t.otg.state = s.otg.state ∧ t.port = s.port ∧
      t.hcState = s.hcState ∧ t.args = s.args ∧ t.hostQueue = s.hostQueue

/-- A tick that finds no entry complete, the other agents taking no step at its points (log 3), changes nothing but the
selector and the samples it took, in queue order (R216, R223). -/
def Obligations.TickSkipsIncompleteEntries : Prop :=
  ∀ s : State, Quiet (s.async.length + 2) s → (∀ x ∈ s.async, (s.chan (entryChan x)).done = false) →
    ∃ t, exec .asyncTick s = .next t ∧ (∀ c, t.chan c = s.chan c) ∧
      t.regtrace = s.regtrace ++ (s.async.map fun x => sampleTrace (entryChan x)).flatten ∧
      t = { s with
            dma := { s.dma with sel := t.dma.sel }, regtrace := t.regtrace, oracle := t.oracle, seq := Seq.idle
            trace := s.trace ++ [.result 0x32 .success .none] }

/-- A tick, the other agents taking no step at its points (log 3). First, over a queue of any entries, ready and with no
entry's channel dropped by a reset: the complete ones, and no others, are delivered, one Callback each, in queue order before
the Result; each gets the hardware's toggle and the next index, and its next slice is armed, on its channel, its endpoint and
its slot, after the clear, the reset of an error, and the release. Then, over one complete entry, whatever its reset drops: the
same, and a next slice or slot that is misaligned makes the tick fault at that arm (R66, R151), a captured length beyond the
region leaves the Sequencer stuck before the callback (R13, R251), the next slice armed; in both the entry already holds the
new toggle and index and no callback was emitted (R215, R218, R219, R220, R223). The faulted state is log 13, what is admitted
log 9. -/
def Obligations.TickDeliversAndRearms : Prop :=
  (∀ s : State, s.cfg.wf = true → QueueLegal s → Quiet (11 * s.async.length + 2) s → (∀ x ∈ s.async, EntryReady s x) →
    ResetsSpareQueue s →
    let done := fun x : AsyncEntry => (s.chan (entryChan x)).done
    let complete := s.async.filter done
    ∃ t, exec .asyncTick s = .next t ∧
      t.trace = s.trace ++ complete.map (entryCallback s) ++ [.result 0x32 .success .none] ∧
      t.async = s.async.map (fun x => if done x then servedEntry s x else x) ∧
      t.regtrace = s.regtrace ++ (s.async.map (visitTrace s)).flatten ∧
      (∀ x ∈ s.async,
        t.chan (entryChan x) = (if done x then rearmedChan s x else s.chan (entryChan x)) ∧
        t.endpoint (entryChan x) = if done x then rearmedEndpoint s x else s.endpoint (entryChan x)) ∧
      (∀ b, (∀ x ∈ s.async, entryChan x ≠ b) → t.endpoint b = s.endpoint b ∧
        (t.chan b = s.chan b ∨ (∃ x ∈ complete, (s.chan (entryChan x)).err = true) ∧ t.chan b = Channel.idle)) ∧
      (∀ p, tabFind t.trbStore p =
        match complete.reverse.find? fun x => nextSlot s.cfg x = p with
        | some x => some (nextTrb s.cfg x)
        | none => tabFind s.trbStore p) ∧
      t.dma.sel = (s.async.getLast?.map entryChan).getD s.dma.sel ∧
      t.dma.burstMode = (if complete = [] then s.dma.burstMode else .single) ∧
      t = { s with
            dma := t.dma, ep := t.ep, async := t.async, trbStore := t.trbStore, regtrace := t.regtrace
            oracle := t.oracle, seq := Seq.idle, trace := t.trace }) ∧
  ∀ (s : State) (x : AsyncEntry), s.async = [x] → s.cfg.wf = true → QueueLegal s → Quiet 13 s →
    (s.chan (entryChan x)).done = true →
    let c := entryChan x
    let a := (s.chan c).actual
    let from_ := x.buf + x.index * sliceBytes s.cfg x.len
    let slot := nextSlot s.cfg x
    let armed := nextTrb s.cfg x
    let space := addrSpace s.cfg.addrWidth
    (EntryReady s x →
      ∃ t, exec .asyncTick s = .next t ∧ t.async = [servedEntry s x] ∧
        t.trace = s.trace ++ [entryCallback s x, .result 0x32 .success .none] ∧
        t.regtrace = s.regtrace ++ visitTrace s x ∧
        t.chan c = rearmedChan s x ∧ t.endpoint c = rearmedEndpoint s x ∧
        (∀ b, b ≠ c →
          t.endpoint b = s.endpoint b ∧ (t.chan b = s.chan b ∨ (s.chan c).err = true ∧ t.chan b = Channel.idle)) ∧
        (∀ p, tabFind t.trbStore p = if p = slot then some armed else tabFind s.trbStore p) ∧
        t.dma.sel = c ∧ t.dma.burstMode = .single ∧
        t = { s with
              dma := t.dma, ep := t.ep, async := t.async, trbStore := t.trbStore, regtrace := t.regtrace
              oracle := t.oracle, seq := Seq.idle, trace := t.trace }) ∧
    (slot < space → armed.addr < space → (slot % s.cfg.dmaAlign ≠ 0 ∨ armed.addr % s.cfg.dmaAlign ≠ 0) →
      ∃ v, exec .asyncTick s = .fault (.misalignedDma v) ∧ v.fault = some .misalignedDma ∧ v.async = [servedEntry s x] ∧
        v.trace = s.trace ∧ (v.chan c).programmed = false ∧ tabFind v.trbStore slot = some armed) ∧
    (slot < space → armed.addr < space → slot % s.cfg.dmaAlign = 0 → armed.addr % s.cfg.dmaAlign = 0 →
      s.admits [.async] from_ a = false →
      ∃ t, exec .asyncTick s = .next t ∧
        t.seq = { busy := true, cmd := some ⟨.asyncTick, 0, .line .callback⟩, inTick := true, deferred := [] } ∧ Stuck t ∧
        t.async = [servedEntry s x] ∧ t.trace = s.trace ∧ (t.chan c).trb = some armed ∧ (t.chan c).pending = true)

/-- ASYNC_TICK completes on every behaviour of the other agents, for every queue whose entries are ready: every slice aligned
and inside the entry's own region, every slot aligned, and a completion that stands or is to come no longer than a slice
(ASYNC_REGISTER leaves its entry so under the premises its statement names). It never waits and never fails, and no byte of
memory changes outside the entries' buffers and the buffers of transfers that other agents still have to perform (R215, R216,
R218). That no other byte changes rests on log 21: the Host pokes its regions only between commands (DESIGN CHOICE, unsafe for
this clause; R242 bars it only from regions the command names). -/
def Obligations.TickCompletes : Prop :=
  ∀ s : State, s.cfg.wf = true → QueueLegal s → ChannelsCoherent s → (∀ x ∈ s.async, EntryReady s x) →
    ∃ t, exec .asyncTick s = .next t ∧ t.seq = Seq.idle ∧ s.trace <+: t.trace ∧
      t.trace.getLast? = some (.result 0x32 .success .none) ∧ t.otg.state = s.otg.state ∧ t.port = s.port ∧
      t.hcState = s.hcState ∧ t.ep0Stage = s.ep0Stage ∧ t.args = s.args ∧ t.hostQueue = s.hostQueue ∧
      ∀ a, OutsideAgents s a →
        (∀ x ∈ s.async, a < x.buf ∨ x.buf + s.cfg.asyncIter * sliceBytes s.cfg x.len ≤ a) →
        readByte t.mem a = readByte s.mem a

/-- An ASYNC_CANCEL issued during a tick runs at the tick's end, with a Result of its own before the tick's (R215, R224). First,
issued after the last visit of a tick that finds no entry complete, also of one that has none: its entry is gone, the others
are as they were. Then, issued before the check of the queue's only entry, which is complete: the entry is still serviced, its
Callback comes first, and the cancel returns the toggle the hardware left. The places of the points are log 3, that the
cancel is held decoded log 18. -/
def Obligations.TickRunsTheDeferredCancel : Prop :=
  (∀ (s : State) (cmd : HostCmd) (ep : EpNum) (addr : DevAddr) (rest : List (List AgentEvent)),
    decode cmd.word = .ok (.asyncCancel ep addr) → (∀ y ∈ s.async, (s.chan (entryChan y)).done = false) →
    s.oracle.batches = List.replicate (s.async.length + 1) [] ++ [.issue cmd] :: (List.replicate 3 [] ++ rest) →
    ∃ t, exec .asyncTick s = .next t ∧ t.seq = Seq.idle ∧ t.refused = s.refused ∧
      t.async = removeEntry s.async ep addr ∧
      t.trace = s.trace ++
        [match findEntry s.async ep addr with
          | some x => .result 0x31 .success (.toggle x.toggle)
          | none => .result 0x31 .invalidParameter .none,
         .result 0x32 .success .none] ∧
      ∀ x, findEntry s.async ep addr = some x → (∀ r, r ∈ t.alloc ↔ r ∈ s.alloc ∧ r.1 ≠ x.buf ∧ r.1 ∉ x.pool) ∧
        (s.cfg.cancelReleasesChannel = true → (t.chan (entryChan x)).programmed = false)) ∧
  ∀ (s : State) (x : AsyncEntry) (cmd : HostCmd) (rest : List (List AgentEvent)), s.async = [x] → s.cfg.wf = true →
    QueueLegal s → EntryReady s x → (s.chan (entryChan x)).done = true → (s.chan (entryChan x)).pending = false →
    decode cmd.word = .ok (.asyncCancel x.ep x.devAddr) →
    s.oracle.batches = [] :: [.issue cmd] :: (List.replicate 14 [] ++ rest) →
    let a := (s.chan (entryChan x)).actual
    ∃ t, exec .asyncTick s = .next t ∧ t.seq = Seq.idle ∧ t.refused = s.refused ∧ t.async = [] ∧
      t.trace = s.trace ++
        [.callback x.callback x.ctx (readBytes s.mem (x.buf + x.index * sliceBytes s.cfg x.len) a) a
           (translate s (entryChan x)).2,
         .result 0x31 .success (.toggle (s.toggle (entryChan x))), .result 0x32 .success .none]
end

