-- ==== Sys2Proof/Laws/State.lean ====
section
/-! SUPPORT. One lemma per field and update of the state, each true by rfl: what the update writes, and that it leaves every
other field alone. -/

namespace Sys2Proof.Machine

section withOtg
variable (s : State) (x : Otg)
@[simp] theorem State.withOtg_otg : (s.withOtg x).otg = x := rfl
@[simp] theorem State.withOtg_port : (s.withOtg x).port = s.port := rfl
@[simp] theorem State.withOtg_hcState : (s.withOtg x).hcState = s.hcState := rfl
@[simp] theorem State.withOtg_ep0Stage : (s.withOtg x).ep0Stage = s.ep0Stage := rfl
@[simp] theorem State.withOtg_secondary : (s.withOtg x).secondary = s.secondary := rfl
@[simp] theorem State.withOtg_dma : (s.withOtg x).dma = s.dma := rfl
@[simp] theorem State.withOtg_ep0 : (s.withOtg x).ep0 = s.ep0 := rfl
@[simp] theorem State.withOtg_ep : (s.withOtg x).ep = s.ep := rfl
@[simp] theorem State.withOtg_async : (s.withOtg x).async = s.async := rfl
@[simp] theorem State.withOtg_mem : (s.withOtg x).mem = s.mem := rfl
@[simp] theorem State.withOtg_alloc : (s.withOtg x).alloc = s.alloc := rfl
@[simp] theorem State.withOtg_trbStore : (s.withOtg x).trbStore = s.trbStore := rfl
@[simp] theorem State.withOtg_seq : (s.withOtg x).seq = s.seq := rfl
@[simp] theorem State.withOtg_args : (s.withOtg x).args = s.args := rfl
@[simp] theorem State.withOtg_regtrace : (s.withOtg x).regtrace = s.regtrace := rfl
@[simp] theorem State.withOtg_trace : (s.withOtg x).trace = s.trace := rfl
@[simp] theorem State.withOtg_fault : (s.withOtg x).fault = s.fault := rfl
@[simp] theorem State.withOtg_refused : (s.withOtg x).refused = s.refused := rfl
@[simp] theorem State.withOtg_cfg : (s.withOtg x).cfg = s.cfg := rfl
@[simp] theorem State.withOtg_hostQueue : (s.withOtg x).hostQueue = s.hostQueue := rfl
@[simp] theorem State.withOtg_oracle : (s.withOtg x).oracle = s.oracle := rfl
end withOtg

section withPort
variable (s : State) (x : Port)
@[simp] theorem State.withPort_otg : (s.withPort x).otg = s.otg := rfl
@[simp] theorem State.withPort_port : (s.withPort x).port = x := rfl
@[simp] theorem State.withPort_hcState : (s.withPort x).hcState = s.hcState := rfl
@[simp] theorem State.withPort_ep0Stage : (s.withPort x).ep0Stage = s.ep0Stage := rfl
@[simp] theorem State.withPort_secondary : (s.withPort x).secondary = s.secondary := rfl
@[simp] theorem State.withPort_dma : (s.withPort x).dma = s.dma := rfl
@[simp] theorem State.withPort_ep0 : (s.withPort x).ep0 = s.ep0 := rfl
@[simp] theorem State.withPort_ep : (s.withPort x).ep = s.ep := rfl
@[simp] theorem State.withPort_async : (s.withPort x).async = s.async := rfl
@[simp] theorem State.withPort_mem : (s.withPort x).mem = s.mem := rfl
@[simp] theorem State.withPort_alloc : (s.withPort x).alloc = s.alloc := rfl
@[simp] theorem State.withPort_trbStore : (s.withPort x).trbStore = s.trbStore := rfl
@[simp] theorem State.withPort_seq : (s.withPort x).seq = s.seq := rfl
@[simp] theorem State.withPort_args : (s.withPort x).args = s.args := rfl
@[simp] theorem State.withPort_regtrace : (s.withPort x).regtrace = s.regtrace := rfl
@[simp] theorem State.withPort_trace : (s.withPort x).trace = s.trace := rfl
@[simp] theorem State.withPort_fault : (s.withPort x).fault = s.fault := rfl
@[simp] theorem State.withPort_refused : (s.withPort x).refused = s.refused := rfl
@[simp] theorem State.withPort_cfg : (s.withPort x).cfg = s.cfg := rfl
@[simp] theorem State.withPort_hostQueue : (s.withPort x).hostQueue = s.hostQueue := rfl
@[simp] theorem State.withPort_oracle : (s.withPort x).oracle = s.oracle := rfl
end withPort

section withHcState
variable (s : State) (x : HcState)
@[simp] theorem State.withHcState_otg : (s.withHcState x).otg = s.otg := rfl
@[simp] theorem State.withHcState_port : (s.withHcState x).port = s.port := rfl
@[simp] theorem State.withHcState_hcState : (s.withHcState x).hcState = x := rfl
@[simp] theorem State.withHcState_ep0Stage : (s.withHcState x).ep0Stage = s.ep0Stage := rfl
@[simp] theorem State.withHcState_secondary : (s.withHcState x).secondary = s.secondary := rfl
@[simp] theorem State.withHcState_dma : (s.withHcState x).dma = s.dma := rfl
@[simp] theorem State.withHcState_ep0 : (s.withHcState x).ep0 = s.ep0 := rfl
@[simp] theorem State.withHcState_ep : (s.withHcState x).ep = s.ep := rfl
@[simp] theorem State.withHcState_async : (s.withHcState x).async = s.async := rfl
@[simp] theorem State.withHcState_mem : (s.withHcState x).mem = s.mem := rfl
@[simp] theorem State.withHcState_alloc : (s.withHcState x).alloc = s.alloc := rfl
@[simp] theorem State.withHcState_trbStore : (s.withHcState x).trbStore = s.trbStore := rfl
@[simp] theorem State.withHcState_seq : (s.withHcState x).seq = s.seq := rfl
@[simp] theorem State.withHcState_args : (s.withHcState x).args = s.args := rfl
@[simp] theorem State.withHcState_regtrace : (s.withHcState x).regtrace = s.regtrace := rfl
@[simp] theorem State.withHcState_trace : (s.withHcState x).trace = s.trace := rfl
@[simp] theorem State.withHcState_fault : (s.withHcState x).fault = s.fault := rfl
@[simp] theorem State.withHcState_refused : (s.withHcState x).refused = s.refused := rfl
@[simp] theorem State.withHcState_cfg : (s.withHcState x).cfg = s.cfg := rfl
@[simp] theorem State.withHcState_hostQueue : (s.withHcState x).hostQueue = s.hostQueue := rfl
@[simp] theorem State.withHcState_oracle : (s.withHcState x).oracle = s.oracle := rfl
end withHcState

section withEp0Stage
variable (s : State) (x : Ep0Stage)
@[simp] theorem State.withEp0Stage_otg : (s.withEp0Stage x).otg = s.otg := rfl
@[simp] theorem State.withEp0Stage_port : (s.withEp0Stage x).port = s.port := rfl
@[simp] theorem State.withEp0Stage_hcState : (s.withEp0Stage x).hcState = s.hcState := rfl
@[simp] theorem State.withEp0Stage_ep0Stage : (s.withEp0Stage x).ep0Stage = x := rfl
@[simp] theorem State.withEp0Stage_secondary : (s.withEp0Stage x).secondary = s.secondary := rfl
@[simp] theorem State.withEp0Stage_dma : (s.withEp0Stage x).dma = s.dma := rfl
@[simp] theorem State.withEp0Stage_ep0 : (s.withEp0Stage x).ep0 = s.ep0 := rfl
@[simp] theorem State.withEp0Stage_ep : (s.withEp0Stage x).ep = s.ep := rfl
@[simp] theorem State.withEp0Stage_async : (s.withEp0Stage x).async = s.async := rfl
@[simp] theorem State.withEp0Stage_mem : (s.withEp0Stage x).mem = s.mem := rfl
@[simp] theorem State.withEp0Stage_alloc : (s.withEp0Stage x).alloc = s.alloc := rfl
@[simp] theorem State.withEp0Stage_trbStore : (s.withEp0Stage x).trbStore = s.trbStore := rfl
@[simp] theorem State.withEp0Stage_seq : (s.withEp0Stage x).seq = s.seq := rfl
@[simp] theorem State.withEp0Stage_args : (s.withEp0Stage x).args = s.args := rfl
@[simp] theorem State.withEp0Stage_regtrace : (s.withEp0Stage x).regtrace = s.regtrace := rfl
@[simp] theorem State.withEp0Stage_trace : (s.withEp0Stage x).trace = s.trace := rfl
@[simp] theorem State.withEp0Stage_fault : (s.withEp0Stage x).fault = s.fault := rfl
@[simp] theorem State.withEp0Stage_refused : (s.withEp0Stage x).refused = s.refused := rfl
@[simp] theorem State.withEp0Stage_cfg : (s.withEp0Stage x).cfg = s.cfg := rfl
@[simp] theorem State.withEp0Stage_hostQueue : (s.withEp0Stage x).hostQueue = s.hostQueue := rfl
@[simp] theorem State.withEp0Stage_oracle : (s.withEp0Stage x).oracle = s.oracle := rfl
end withEp0Stage

section withDma
variable (s : State) (x : Dma)
@[simp] theorem State.withDma_otg : (s.withDma x).otg = s.otg := rfl
@[simp] theorem State.withDma_port : (s.withDma x).port = s.port := rfl
@[simp] theorem State.withDma_hcState : (s.withDma x).hcState = s.hcState := rfl
@[simp] theorem State.withDma_ep0Stage : (s.withDma x).ep0Stage = s.ep0Stage := rfl
@[simp] theorem State.withDma_secondary : (s.withDma x).secondary = s.secondary := rfl
@[simp] theorem State.withDma_dma : (s.withDma x).dma = x := rfl
@[simp] theorem State.withDma_ep0 : (s.withDma x).ep0 = s.ep0 := rfl
@[simp] theorem State.withDma_ep : (s.withDma x).ep = s.ep := rfl
@[simp] theorem State.withDma_async : (s.withDma x).async = s.async := rfl
@[simp] theorem State.withDma_mem : (s.withDma x).mem = s.mem := rfl
@[simp] theorem State.withDma_alloc : (s.withDma x).alloc = s.alloc := rfl
@[simp] theorem State.withDma_trbStore : (s.withDma x).trbStore = s.trbStore := rfl
@[simp] theorem State.withDma_seq : (s.withDma x).seq = s.seq := rfl
@[simp] theorem State.withDma_args : (s.withDma x).args = s.args := rfl
@[simp] theorem State.withDma_regtrace : (s.withDma x).regtrace = s.regtrace := rfl
@[simp] theorem State.withDma_trace : (s.withDma x).trace = s.trace := rfl
@[simp] theorem State.withDma_fault : (s.withDma x).fault = s.fault := rfl
@[simp] theorem State.withDma_refused : (s.withDma x).refused = s.refused := rfl
@[simp] theorem State.withDma_cfg : (s.withDma x).cfg = s.cfg := rfl
@[simp] theorem State.withDma_hostQueue : (s.withDma x).hostQueue = s.hostQueue := rfl
@[simp] theorem State.withDma_oracle : (s.withDma x).oracle = s.oracle := rfl
end withDma

section withEp0
variable (s : State) (x : Ep0)
@[simp] theorem State.withEp0_otg : (s.withEp0 x).otg = s.otg := rfl
@[simp] theorem State.withEp0_port : (s.withEp0 x).port = s.port := rfl
@[simp] theorem State.withEp0_hcState : (s.withEp0 x).hcState = s.hcState := rfl
@[simp] theorem State.withEp0_ep0Stage : (s.withEp0 x).ep0Stage = s.ep0Stage := rfl
@[simp] theorem State.withEp0_secondary : (s.withEp0 x).secondary = s.secondary := rfl
@[simp] theorem State.withEp0_dma : (s.withEp0 x).dma = s.dma := rfl
@[simp] theorem State.withEp0_ep0 : (s.withEp0 x).ep0 = x := rfl
@[simp] theorem State.withEp0_ep : (s.withEp0 x).ep = s.ep := rfl
@[simp] theorem State.withEp0_async : (s.withEp0 x).async = s.async := rfl
@[simp] theorem State.withEp0_mem : (s.withEp0 x).mem = s.mem := rfl
@[simp] theorem State.withEp0_alloc : (s.withEp0 x).alloc = s.alloc := rfl
@[simp] theorem State.withEp0_trbStore : (s.withEp0 x).trbStore = s.trbStore := rfl
@[simp] theorem State.withEp0_seq : (s.withEp0 x).seq = s.seq := rfl
@[simp] theorem State.withEp0_args : (s.withEp0 x).args = s.args := rfl
@[simp] theorem State.withEp0_regtrace : (s.withEp0 x).regtrace = s.regtrace := rfl
@[simp] theorem State.withEp0_trace : (s.withEp0 x).trace = s.trace := rfl
@[simp] theorem State.withEp0_fault : (s.withEp0 x).fault = s.fault := rfl
@[simp] theorem State.withEp0_refused : (s.withEp0 x).refused = s.refused := rfl
@[simp] theorem State.withEp0_cfg : (s.withEp0 x).cfg = s.cfg := rfl
@[simp] theorem State.withEp0_hostQueue : (s.withEp0 x).hostQueue = s.hostQueue := rfl
@[simp] theorem State.withEp0_oracle : (s.withEp0 x).oracle = s.oracle := rfl
end withEp0

section withEp
variable (s : State) (x : Vector (PerDir Endpoint) 16)
@[simp] theorem State.withEp_otg : (s.withEp x).otg = s.otg := rfl
@[simp] theorem State.withEp_port : (s.withEp x).port = s.port := rfl
@[simp] theorem State.withEp_hcState : (s.withEp x).hcState = s.hcState := rfl
@[simp] theorem State.withEp_ep0Stage : (s.withEp x).ep0Stage = s.ep0Stage := rfl
@[simp] theorem State.withEp_secondary : (s.withEp x).secondary = s.secondary := rfl
@[simp] theorem State.withEp_dma : (s.withEp x).dma = s.dma := rfl
@[simp] theorem State.withEp_ep0 : (s.withEp x).ep0 = s.ep0 := rfl
@[simp] theorem State.withEp_ep : (s.withEp x).ep = x := rfl
@[simp] theorem State.withEp_async : (s.withEp x).async = s.async := rfl
@[simp] theorem State.withEp_mem : (s.withEp x).mem = s.mem := rfl
@[simp] theorem State.withEp_alloc : (s.withEp x).alloc = s.alloc := rfl
@[simp] theorem State.withEp_trbStore : (s.withEp x).trbStore = s.trbStore := rfl
@[simp] theorem State.withEp_seq : (s.withEp x).seq = s.seq := rfl
@[simp] theorem State.withEp_args : (s.withEp x).args = s.args := rfl
@[simp] theorem State.withEp_regtrace : (s.withEp x).regtrace = s.regtrace := rfl
@[simp] theorem State.withEp_trace : (s.withEp x).trace = s.trace := rfl
@[simp] theorem State.withEp_fault : (s.withEp x).fault = s.fault := rfl
@[simp] theorem State.withEp_refused : (s.withEp x).refused = s.refused := rfl
@[simp] theorem State.withEp_cfg : (s.withEp x).cfg = s.cfg := rfl
@[simp] theorem State.withEp_hostQueue : (s.withEp x).hostQueue = s.hostQueue := rfl
@[simp] theorem State.withEp_oracle : (s.withEp x).oracle = s.oracle := rfl
end withEp

section withAsync
variable (s : State) (x : List AsyncEntry)
@[simp] theorem State.withAsync_otg : (s.withAsync x).otg = s.otg := rfl
@[simp] theorem State.withAsync_port : (s.withAsync x).port = s.port := rfl
@[simp] theorem State.withAsync_hcState : (s.withAsync x).hcState = s.hcState := rfl
@[simp] theorem State.withAsync_ep0Stage : (s.withAsync x).ep0Stage = s.ep0Stage := rfl
@[simp] theorem State.withAsync_secondary : (s.withAsync x).secondary = s.secondary := rfl
@[simp] theorem State.withAsync_dma : (s.withAsync x).dma = s.dma := rfl
@[simp] theorem State.withAsync_ep0 : (s.withAsync x).ep0 = s.ep0 := rfl
@[simp] theorem State.withAsync_ep : (s.withAsync x).ep = s.ep := rfl
@[simp] theorem State.withAsync_async : (s.withAsync x).async = x := rfl
@[simp] theorem State.withAsync_mem : (s.withAsync x).mem = s.mem := rfl
@[simp] theorem State.withAsync_alloc : (s.withAsync x).alloc = s.alloc := rfl
@[simp] theorem State.withAsync_trbStore : (s.withAsync x).trbStore = s.trbStore := rfl
@[simp] theorem State.withAsync_seq : (s.withAsync x).seq = s.seq := rfl
@[simp] theorem State.withAsync_args : (s.withAsync x).args = s.args := rfl
@[simp] theorem State.withAsync_regtrace : (s.withAsync x).regtrace = s.regtrace := rfl
@[simp] theorem State.withAsync_trace : (s.withAsync x).trace = s.trace := rfl
@[simp] theorem State.withAsync_fault : (s.withAsync x).fault = s.fault := rfl
@[simp] theorem State.withAsync_refused : (s.withAsync x).refused = s.refused := rfl
@[simp] theorem State.withAsync_cfg : (s.withAsync x).cfg = s.cfg := rfl
@[simp] theorem State.withAsync_hostQueue : (s.withAsync x).hostQueue = s.hostQueue := rfl
@[simp] theorem State.withAsync_oracle : (s.withAsync x).oracle = s.oracle := rfl
end withAsync

section setEntry
variable (s : State) (k : Nat) (x : AsyncEntry)
@[simp] theorem State.setEntry_otg : (s.setEntry k x).otg = s.otg := rfl
@[simp] theorem State.setEntry_port : (s.setEntry k x).port = s.port := rfl
@[simp] theorem State.setEntry_hcState : (s.setEntry k x).hcState = s.hcState := rfl
@[simp] theorem State.setEntry_ep0Stage : (s.setEntry k x).ep0Stage = s.ep0Stage := rfl
@[simp] theorem State.setEntry_secondary : (s.setEntry k x).secondary = s.secondary := rfl
@[simp] theorem State.setEntry_dma : (s.setEntry k x).dma = s.dma := rfl
@[simp] theorem State.setEntry_ep0 : (s.setEntry k x).ep0 = s.ep0 := rfl
@[simp] theorem State.setEntry_ep : (s.setEntry k x).ep = s.ep := rfl
@[simp] theorem State.setEntry_async : (s.setEntry k x).async = s.async.set k x := rfl
@[simp] theorem State.setEntry_mem : (s.setEntry k x).mem = s.mem := rfl
@[simp] theorem State.setEntry_alloc : (s.setEntry k x).alloc = s.alloc := rfl
@[simp] theorem State.setEntry_trbStore : (s.setEntry k x).trbStore = s.trbStore := rfl
@[simp] theorem State.setEntry_seq : (s.setEntry k x).seq = s.seq := rfl
@[simp] theorem State.setEntry_args : (s.setEntry k x).args = s.args := rfl
@[simp] theorem State.setEntry_regtrace : (s.setEntry k x).regtrace = s.regtrace := rfl
@[simp] theorem State.setEntry_trace : (s.setEntry k x).trace = s.trace := rfl
@[simp] theorem State.setEntry_fault : (s.setEntry k x).fault = s.fault := rfl
@[simp] theorem State.setEntry_refused : (s.setEntry k x).refused = s.refused := rfl
@[simp] theorem State.setEntry_cfg : (s.setEntry k x).cfg = s.cfg := rfl
@[simp] theorem State.setEntry_hostQueue : (s.setEntry k x).hostQueue = s.hostQueue := rfl
@[simp] theorem State.setEntry_oracle : (s.setEntry k x).oracle = s.oracle := rfl
end setEntry

section withMem
variable (s : State) (x : Memory)
@[simp] theorem State.withMem_otg : (s.withMem x).otg = s.otg := rfl
@[simp] theorem State.withMem_port : (s.withMem x).port = s.port := rfl
@[simp] theorem State.withMem_hcState : (s.withMem x).hcState = s.hcState := rfl
@[simp] theorem State.withMem_ep0Stage : (s.withMem x).ep0Stage = s.ep0Stage := rfl
@[simp] theorem State.withMem_secondary : (s.withMem x).secondary = s.secondary := rfl
@[simp] theorem State.withMem_dma : (s.withMem x).dma = s.dma := rfl
@[simp] theorem State.withMem_ep0 : (s.withMem x).ep0 = s.ep0 := rfl
@[simp] theorem State.withMem_ep : (s.withMem x).ep = s.ep := rfl
@[simp] theorem State.withMem_async : (s.withMem x).async = s.async := rfl
@[simp] theorem State.withMem_mem : (s.withMem x).mem = x := rfl
@[simp] theorem State.withMem_alloc : (s.withMem x).alloc = s.alloc := rfl
@[simp] theorem State.withMem_trbStore : (s.withMem x).trbStore = s.trbStore := rfl
@[simp] theorem State.withMem_seq : (s.withMem x).seq = s.seq := rfl
@[simp] theorem State.withMem_args : (s.withMem x).args = s.args := rfl
@[simp] theorem State.withMem_regtrace : (s.withMem x).regtrace = s.regtrace := rfl
@[simp] theorem State.withMem_trace : (s.withMem x).trace = s.trace := rfl
@[simp] theorem State.withMem_fault : (s.withMem x).fault = s.fault := rfl
@[simp] theorem State.withMem_refused : (s.withMem x).refused = s.refused := rfl
@[simp] theorem State.withMem_cfg : (s.withMem x).cfg = s.cfg := rfl
@[simp] theorem State.withMem_hostQueue : (s.withMem x).hostQueue = s.hostQueue := rfl
@[simp] theorem State.withMem_oracle : (s.withMem x).oracle = s.oracle := rfl
end withMem

section withAlloc
variable (s : State) (x : List (Nat × Alloc))
@[simp] theorem State.withAlloc_otg : (s.withAlloc x).otg = s.otg := rfl
@[simp] theorem State.withAlloc_port : (s.withAlloc x).port = s.port := rfl
@[simp] theorem State.withAlloc_hcState : (s.withAlloc x).hcState = s.hcState := rfl
@[simp] theorem State.withAlloc_ep0Stage : (s.withAlloc x).ep0Stage = s.ep0Stage := rfl
@[simp] theorem State.withAlloc_secondary : (s.withAlloc x).secondary = s.secondary := rfl
@[simp] theorem State.withAlloc_dma : (s.withAlloc x).dma = s.dma := rfl
@[simp] theorem State.withAlloc_ep0 : (s.withAlloc x).ep0 = s.ep0 := rfl
@[simp] theorem State.withAlloc_ep : (s.withAlloc x).ep = s.ep := rfl
@[simp] theorem State.withAlloc_async : (s.withAlloc x).async = s.async := rfl
@[simp] theorem State.withAlloc_mem : (s.withAlloc x).mem = s.mem := rfl
@[simp] theorem State.withAlloc_alloc : (s.withAlloc x).alloc = x := rfl
@[simp] theorem State.withAlloc_trbStore : (s.withAlloc x).trbStore = s.trbStore := rfl
@[simp] theorem State.withAlloc_seq : (s.withAlloc x).seq = s.seq := rfl
@[simp] theorem State.withAlloc_args : (s.withAlloc x).args = s.args := rfl
@[simp] theorem State.withAlloc_regtrace : (s.withAlloc x).regtrace = s.regtrace := rfl
@[simp] theorem State.withAlloc_trace : (s.withAlloc x).trace = s.trace := rfl
@[simp] theorem State.withAlloc_fault : (s.withAlloc x).fault = s.fault := rfl
@[simp] theorem State.withAlloc_refused : (s.withAlloc x).refused = s.refused := rfl
@[simp] theorem State.withAlloc_cfg : (s.withAlloc x).cfg = s.cfg := rfl
@[simp] theorem State.withAlloc_hostQueue : (s.withAlloc x).hostQueue = s.hostQueue := rfl
@[simp] theorem State.withAlloc_oracle : (s.withAlloc x).oracle = s.oracle := rfl
end withAlloc

section withTrbStore
variable (s : State) (x : List (Nat × Trb))
@[simp] theorem State.withTrbStore_otg : (s.withTrbStore x).otg = s.otg := rfl
@[simp] theorem State.withTrbStore_port : (s.withTrbStore x).port = s.port := rfl
@[simp] theorem State.withTrbStore_hcState : (s.withTrbStore x).hcState = s.hcState := rfl
@[simp] theorem State.withTrbStore_ep0Stage : (s.withTrbStore x).ep0Stage = s.ep0Stage := rfl
@[simp] theorem State.withTrbStore_secondary : (s.withTrbStore x).secondary = s.secondary := rfl
@[simp] theorem State.withTrbStore_dma : (s.withTrbStore x).dma = s.dma := rfl
@[simp] theorem State.withTrbStore_ep0 : (s.withTrbStore x).ep0 = s.ep0 := rfl
@[simp] theorem State.withTrbStore_ep : (s.withTrbStore x).ep = s.ep := rfl
@[simp] theorem State.withTrbStore_async : (s.withTrbStore x).async = s.async := rfl
@[simp] theorem State.withTrbStore_mem : (s.withTrbStore x).mem = s.mem := rfl
@[simp] theorem State.withTrbStore_alloc : (s.withTrbStore x).alloc = s.alloc := rfl
@[simp] theorem State.withTrbStore_trbStore : (s.withTrbStore x).trbStore = x := rfl
@[simp] theorem State.withTrbStore_seq : (s.withTrbStore x).seq = s.seq := rfl
@[simp] theorem State.withTrbStore_args : (s.withTrbStore x).args = s.args := rfl
@[simp] theorem State.withTrbStore_regtrace : (s.withTrbStore x).regtrace = s.regtrace := rfl
@[simp] theorem State.withTrbStore_trace : (s.withTrbStore x).trace = s.trace := rfl
@[simp] theorem State.withTrbStore_fault : (s.withTrbStore x).fault = s.fault := rfl
@[simp] theorem State.withTrbStore_refused : (s.withTrbStore x).refused = s.refused := rfl
@[simp] theorem State.withTrbStore_cfg : (s.withTrbStore x).cfg = s.cfg := rfl
@[simp] theorem State.withTrbStore_hostQueue : (s.withTrbStore x).hostQueue = s.hostQueue := rfl
@[simp] theorem State.withTrbStore_oracle : (s.withTrbStore x).oracle = s.oracle := rfl
end withTrbStore

section withSeq
variable (s : State) (x : Seq)
@[simp] theorem State.withSeq_otg : (s.withSeq x).otg = s.otg := rfl
@[simp] theorem State.withSeq_port : (s.withSeq x).port = s.port := rfl
@[simp] theorem State.withSeq_hcState : (s.withSeq x).hcState = s.hcState := rfl
@[simp] theorem State.withSeq_ep0Stage : (s.withSeq x).ep0Stage = s.ep0Stage := rfl
@[simp] theorem State.withSeq_secondary : (s.withSeq x).secondary = s.secondary := rfl
@[simp] theorem State.withSeq_dma : (s.withSeq x).dma = s.dma := rfl
@[simp] theorem State.withSeq_ep0 : (s.withSeq x).ep0 = s.ep0 := rfl
@[simp] theorem State.withSeq_ep : (s.withSeq x).ep = s.ep := rfl
@[simp] theorem State.withSeq_async : (s.withSeq x).async = s.async := rfl
@[simp] theorem State.withSeq_mem : (s.withSeq x).mem = s.mem := rfl
@[simp] theorem State.withSeq_alloc : (s.withSeq x).alloc = s.alloc := rfl
@[simp] theorem State.withSeq_trbStore : (s.withSeq x).trbStore = s.trbStore := rfl
@[simp] theorem State.withSeq_seq : (s.withSeq x).seq = x := rfl
@[simp] theorem State.withSeq_args : (s.withSeq x).args = s.args := rfl
@[simp] theorem State.withSeq_regtrace : (s.withSeq x).regtrace = s.regtrace := rfl
@[simp] theorem State.withSeq_trace : (s.withSeq x).trace = s.trace := rfl
@[simp] theorem State.withSeq_fault : (s.withSeq x).fault = s.fault := rfl
@[simp] theorem State.withSeq_refused : (s.withSeq x).refused = s.refused := rfl
@[simp] theorem State.withSeq_cfg : (s.withSeq x).cfg = s.cfg := rfl
@[simp] theorem State.withSeq_hostQueue : (s.withSeq x).hostQueue = s.hostQueue := rfl
@[simp] theorem State.withSeq_oracle : (s.withSeq x).oracle = s.oracle := rfl
end withSeq

section withArgs
variable (s : State) (x : Args)
@[simp] theorem State.withArgs_otg : (s.withArgs x).otg = s.otg := rfl
@[simp] theorem State.withArgs_port : (s.withArgs x).port = s.port := rfl
@[simp] theorem State.withArgs_hcState : (s.withArgs x).hcState = s.hcState := rfl
@[simp] theorem State.withArgs_ep0Stage : (s.withArgs x).ep0Stage = s.ep0Stage := rfl
@[simp] theorem State.withArgs_secondary : (s.withArgs x).secondary = s.secondary := rfl
@[simp] theorem State.withArgs_dma : (s.withArgs x).dma = s.dma := rfl
@[simp] theorem State.withArgs_ep0 : (s.withArgs x).ep0 = s.ep0 := rfl
@[simp] theorem State.withArgs_ep : (s.withArgs x).ep = s.ep := rfl
@[simp] theorem State.withArgs_async : (s.withArgs x).async = s.async := rfl
@[simp] theorem State.withArgs_mem : (s.withArgs x).mem = s.mem := rfl
@[simp] theorem State.withArgs_alloc : (s.withArgs x).alloc = s.alloc := rfl
@[simp] theorem State.withArgs_trbStore : (s.withArgs x).trbStore = s.trbStore := rfl
@[simp] theorem State.withArgs_seq : (s.withArgs x).seq = s.seq := rfl
@[simp] theorem State.withArgs_args : (s.withArgs x).args = x := rfl
@[simp] theorem State.withArgs_regtrace : (s.withArgs x).regtrace = s.regtrace := rfl
@[simp] theorem State.withArgs_trace : (s.withArgs x).trace = s.trace := rfl
@[simp] theorem State.withArgs_fault : (s.withArgs x).fault = s.fault := rfl
@[simp] theorem State.withArgs_refused : (s.withArgs x).refused = s.refused := rfl
@[simp] theorem State.withArgs_cfg : (s.withArgs x).cfg = s.cfg := rfl
@[simp] theorem State.withArgs_hostQueue : (s.withArgs x).hostQueue = s.hostQueue := rfl
@[simp] theorem State.withArgs_oracle : (s.withArgs x).oracle = s.oracle := rfl
end withArgs

section markRefused
variable (s : State)
@[simp] theorem State.markRefused_otg : (s.markRefused).otg = s.otg := rfl
@[simp] theorem State.markRefused_port : (s.markRefused).port = s.port := rfl
@[simp] theorem State.markRefused_hcState : (s.markRefused).hcState = s.hcState := rfl
@[simp] theorem State.markRefused_ep0Stage : (s.markRefused).ep0Stage = s.ep0Stage := rfl
@[simp] theorem State.markRefused_secondary : (s.markRefused).secondary = s.secondary := rfl
@[simp] theorem State.markRefused_dma : (s.markRefused).dma = s.dma := rfl
@[simp] theorem State.markRefused_ep0 : (s.markRefused).ep0 = s.ep0 := rfl
@[simp] theorem State.markRefused_ep : (s.markRefused).ep = s.ep := rfl
@[simp] theorem State.markRefused_async : (s.markRefused).async = s.async := rfl
@[simp] theorem State.markRefused_mem : (s.markRefused).mem = s.mem := rfl
@[simp] theorem State.markRefused_alloc : (s.markRefused).alloc = s.alloc := rfl
@[simp] theorem State.markRefused_trbStore : (s.markRefused).trbStore = s.trbStore := rfl
@[simp] theorem State.markRefused_seq : (s.markRefused).seq = s.seq := rfl
@[simp] theorem State.markRefused_args : (s.markRefused).args = s.args := rfl
@[simp] theorem State.markRefused_regtrace : (s.markRefused).regtrace = s.regtrace := rfl
@[simp] theorem State.markRefused_trace : (s.markRefused).trace = s.trace := rfl
@[simp] theorem State.markRefused_fault : (s.markRefused).fault = s.fault := rfl
@[simp] theorem State.markRefused_refused : (s.markRefused).refused = true := rfl
@[simp] theorem State.markRefused_cfg : (s.markRefused).cfg = s.cfg := rfl
@[simp] theorem State.markRefused_hostQueue : (s.markRefused).hostQueue = s.hostQueue := rfl
@[simp] theorem State.markRefused_oracle : (s.markRefused).oracle = s.oracle := rfl
end markRefused

section withHostQueue
variable (s : State) (x : List HostCmd)
@[simp] theorem State.withHostQueue_otg : (s.withHostQueue x).otg = s.otg := rfl
@[simp] theorem State.withHostQueue_port : (s.withHostQueue x).port = s.port := rfl
@[simp] theorem State.withHostQueue_hcState : (s.withHostQueue x).hcState = s.hcState := rfl
@[simp] theorem State.withHostQueue_ep0Stage : (s.withHostQueue x).ep0Stage = s.ep0Stage := rfl
@[simp] theorem State.withHostQueue_secondary : (s.withHostQueue x).secondary = s.secondary := rfl
@[simp] theorem State.withHostQueue_dma : (s.withHostQueue x).dma = s.dma := rfl
@[simp] theorem State.withHostQueue_ep0 : (s.withHostQueue x).ep0 = s.ep0 := rfl
@[simp] theorem State.withHostQueue_ep : (s.withHostQueue x).ep = s.ep := rfl
@[simp] theorem State.withHostQueue_async : (s.withHostQueue x).async = s.async := rfl
@[simp] theorem State.withHostQueue_mem : (s.withHostQueue x).mem = s.mem := rfl
@[simp] theorem State.withHostQueue_alloc : (s.withHostQueue x).alloc = s.alloc := rfl
@[simp] theorem State.withHostQueue_trbStore : (s.withHostQueue x).trbStore = s.trbStore := rfl
@[simp] theorem State.withHostQueue_seq : (s.withHostQueue x).seq = s.seq := rfl
@[simp] theorem State.withHostQueue_args : (s.withHostQueue x).args = s.args := rfl
@[simp] theorem State.withHostQueue_regtrace : (s.withHostQueue x).regtrace = s.regtrace := rfl
@[simp] theorem State.withHostQueue_trace : (s.withHostQueue x).trace = s.trace := rfl
@[simp] theorem State.withHostQueue_fault : (s.withHostQueue x).fault = s.fault := rfl
@[simp] theorem State.withHostQueue_refused : (s.withHostQueue x).refused = s.refused := rfl
@[simp] theorem State.withHostQueue_cfg : (s.withHostQueue x).cfg = s.cfg := rfl
@[simp] theorem State.withHostQueue_hostQueue : (s.withHostQueue x).hostQueue = x := rfl
@[simp] theorem State.withHostQueue_oracle : (s.withHostQueue x).oracle = s.oracle := rfl
end withHostQueue

section withOracle
variable (s : State) (x : Oracle)
@[simp] theorem State.withOracle_otg : (s.withOracle x).otg = s.otg := rfl
@[simp] theorem State.withOracle_port : (s.withOracle x).port = s.port := rfl
@[simp] theorem State.withOracle_hcState : (s.withOracle x).hcState = s.hcState := rfl
@[simp] theorem State.withOracle_ep0Stage : (s.withOracle x).ep0Stage = s.ep0Stage := rfl
@[simp] theorem State.withOracle_secondary : (s.withOracle x).secondary = s.secondary := rfl
@[simp] theorem State.withOracle_dma : (s.withOracle x).dma = s.dma := rfl
@[simp] theorem State.withOracle_ep0 : (s.withOracle x).ep0 = s.ep0 := rfl
@[simp] theorem State.withOracle_ep : (s.withOracle x).ep = s.ep := rfl
@[simp] theorem State.withOracle_async : (s.withOracle x).async = s.async := rfl
@[simp] theorem State.withOracle_mem : (s.withOracle x).mem = s.mem := rfl
@[simp] theorem State.withOracle_alloc : (s.withOracle x).alloc = s.alloc := rfl
@[simp] theorem State.withOracle_trbStore : (s.withOracle x).trbStore = s.trbStore := rfl
@[simp] theorem State.withOracle_seq : (s.withOracle x).seq = s.seq := rfl
@[simp] theorem State.withOracle_args : (s.withOracle x).args = s.args := rfl
@[simp] theorem State.withOracle_regtrace : (s.withOracle x).regtrace = s.regtrace := rfl
@[simp] theorem State.withOracle_trace : (s.withOracle x).trace = s.trace := rfl
@[simp] theorem State.withOracle_fault : (s.withOracle x).fault = s.fault := rfl
@[simp] theorem State.withOracle_refused : (s.withOracle x).refused = s.refused := rfl
@[simp] theorem State.withOracle_cfg : (s.withOracle x).cfg = s.cfg := rfl
@[simp] theorem State.withOracle_hostQueue : (s.withOracle x).hostQueue = s.hostQueue := rfl
@[simp] theorem State.withOracle_oracle : (s.withOracle x).oracle = x := rfl
end withOracle

section emit
variable (s : State) (e : Event)
@[simp] theorem State.emit_otg : (s.emit e).otg = s.otg := rfl
@[simp] theorem State.emit_port : (s.emit e).port = s.port := rfl
@[simp] theorem State.emit_hcState : (s.emit e).hcState = s.hcState := rfl
@[simp] theorem State.emit_ep0Stage : (s.emit e).ep0Stage = s.ep0Stage := rfl
@[simp] theorem State.emit_secondary : (s.emit e).secondary = s.secondary := rfl
@[simp] theorem State.emit_dma : (s.emit e).dma = s.dma := rfl
@[simp] theorem State.emit_ep0 : (s.emit e).ep0 = s.ep0 := rfl
@[simp] theorem State.emit_ep : (s.emit e).ep = s.ep := rfl
@[simp] theorem State.emit_async : (s.emit e).async = s.async := rfl
@[simp] theorem State.emit_mem : (s.emit e).mem = s.mem := rfl
@[simp] theorem State.emit_alloc : (s.emit e).alloc = s.alloc := rfl
@[simp] theorem State.emit_trbStore : (s.emit e).trbStore = s.trbStore := rfl
@[simp] theorem State.emit_seq : (s.emit e).seq = s.seq := rfl
@[simp] theorem State.emit_args : (s.emit e).args = s.args := rfl
@[simp] theorem State.emit_regtrace : (s.emit e).regtrace = s.regtrace := rfl
@[simp] theorem State.emit_trace : (s.emit e).trace = s.trace ++ [e] := rfl
@[simp] theorem State.emit_fault : (s.emit e).fault = s.fault := rfl
@[simp] theorem State.emit_refused : (s.emit e).refused = s.refused := rfl
@[simp] theorem State.emit_cfg : (s.emit e).cfg = s.cfg := rfl
@[simp] theorem State.emit_hostQueue : (s.emit e).hostQueue = s.hostQueue := rfl
@[simp] theorem State.emit_oracle : (s.emit e).oracle = s.oracle := rfl
end emit

section logOp
variable (s : State) (o : RegOp)
@[simp] theorem State.logOp_otg : (s.logOp o).otg = s.otg := rfl
@[simp] theorem State.logOp_port : (s.logOp o).port = s.port := rfl
@[simp] theorem State.logOp_hcState : (s.logOp o).hcState = s.hcState := rfl
@[simp] theorem State.logOp_ep0Stage : (s.logOp o).ep0Stage = s.ep0Stage := rfl
@[simp] theorem State.logOp_secondary : (s.logOp o).secondary = s.secondary := rfl
@[simp] theorem State.logOp_dma : (s.logOp o).dma = s.dma := rfl
@[simp] theorem State.logOp_ep0 : (s.logOp o).ep0 = s.ep0 := rfl
@[simp] theorem State.logOp_ep : (s.logOp o).ep = s.ep := rfl
@[simp] theorem State.logOp_async : (s.logOp o).async = s.async := rfl
@[simp] theorem State.logOp_mem : (s.logOp o).mem = s.mem := rfl
@[simp] theorem State.logOp_alloc : (s.logOp o).alloc = s.alloc := rfl
@[simp] theorem State.logOp_trbStore : (s.logOp o).trbStore = s.trbStore := rfl
@[simp] theorem State.logOp_seq : (s.logOp o).seq = s.seq := rfl
@[simp] theorem State.logOp_args : (s.logOp o).args = s.args := rfl
@[simp] theorem State.logOp_regtrace : (s.logOp o).regtrace = s.regtrace ++ [o] := rfl
@[simp] theorem State.logOp_trace : (s.logOp o).trace = s.trace := rfl
@[simp] theorem State.logOp_fault : (s.logOp o).fault = s.fault := rfl
@[simp] theorem State.logOp_refused : (s.logOp o).refused = s.refused := rfl
@[simp] theorem State.logOp_cfg : (s.logOp o).cfg = s.cfg := rfl
@[simp] theorem State.logOp_hostQueue : (s.logOp o).hostQueue = s.hostQueue := rfl
@[simp] theorem State.logOp_oracle : (s.logOp o).oracle = s.oracle := rfl
end logOp

section logW
variable (s : State) (r : Reg) (v : RegVal)
@[simp] theorem State.logW_otg : (s.logW r v).otg = s.otg := rfl
@[simp] theorem State.logW_port : (s.logW r v).port = s.port := rfl
@[simp] theorem State.logW_hcState : (s.logW r v).hcState = s.hcState := rfl
@[simp] theorem State.logW_ep0Stage : (s.logW r v).ep0Stage = s.ep0Stage := rfl
@[simp] theorem State.logW_secondary : (s.logW r v).secondary = s.secondary := rfl
@[simp] theorem State.logW_dma : (s.logW r v).dma = s.dma := rfl
@[simp] theorem State.logW_ep0 : (s.logW r v).ep0 = s.ep0 := rfl
@[simp] theorem State.logW_ep : (s.logW r v).ep = s.ep := rfl
@[simp] theorem State.logW_async : (s.logW r v).async = s.async := rfl
@[simp] theorem State.logW_mem : (s.logW r v).mem = s.mem := rfl
@[simp] theorem State.logW_alloc : (s.logW r v).alloc = s.alloc := rfl
@[simp] theorem State.logW_trbStore : (s.logW r v).trbStore = s.trbStore := rfl
@[simp] theorem State.logW_seq : (s.logW r v).seq = s.seq := rfl
@[simp] theorem State.logW_args : (s.logW r v).args = s.args := rfl
@[simp] theorem State.logW_regtrace : (s.logW r v).regtrace = s.regtrace ++ [.W r v] := rfl
@[simp] theorem State.logW_trace : (s.logW r v).trace = s.trace := rfl
@[simp] theorem State.logW_fault : (s.logW r v).fault = s.fault := rfl
@[simp] theorem State.logW_refused : (s.logW r v).refused = s.refused := rfl
@[simp] theorem State.logW_cfg : (s.logW r v).cfg = s.cfg := rfl
@[simp] theorem State.logW_hostQueue : (s.logW r v).hostQueue = s.hostQueue := rfl
@[simp] theorem State.logW_oracle : (s.logW r v).oracle = s.oracle := rfl
end logW

section setChan
variable (s : State) (c : Chan) (x : Channel)
@[simp] theorem State.setChan_otg : (s.setChan c x).otg = s.otg := rfl
@[simp] theorem State.setChan_port : (s.setChan c x).port = s.port := rfl
@[simp] theorem State.setChan_hcState : (s.setChan c x).hcState = s.hcState := rfl
@[simp] theorem State.setChan_ep0Stage : (s.setChan c x).ep0Stage = s.ep0Stage := rfl
@[simp] theorem State.setChan_secondary : (s.setChan c x).secondary = s.secondary := rfl
@[simp] theorem State.setChan_ep0 : (s.setChan c x).ep0 = s.ep0 := rfl
@[simp] theorem State.setChan_ep : (s.setChan c x).ep = s.ep := rfl
@[simp] theorem State.setChan_async : (s.setChan c x).async = s.async := rfl
@[simp] theorem State.setChan_mem : (s.setChan c x).mem = s.mem := rfl
@[simp] theorem State.setChan_alloc : (s.setChan c x).alloc = s.alloc := rfl
@[simp] theorem State.setChan_trbStore : (s.setChan c x).trbStore = s.trbStore := rfl
@[simp] theorem State.setChan_seq : (s.setChan c x).seq = s.seq := rfl
@[simp] theorem State.setChan_args : (s.setChan c x).args = s.args := rfl
@[simp] theorem State.setChan_regtrace : (s.setChan c x).regtrace = s.regtrace := rfl
@[simp] theorem State.setChan_trace : (s.setChan c x).trace = s.trace := rfl
@[simp] theorem State.setChan_fault : (s.setChan c x).fault = s.fault := rfl
@[simp] theorem State.setChan_refused : (s.setChan c x).refused = s.refused := rfl
@[simp] theorem State.setChan_cfg : (s.setChan c x).cfg = s.cfg := rfl
@[simp] theorem State.setChan_hostQueue : (s.setChan c x).hostQueue = s.hostQueue := rfl
@[simp] theorem State.setChan_oracle : (s.setChan c x).oracle = s.oracle := rfl
end setChan

section setSel
variable (s : State) (c : Chan)
@[simp] theorem State.setSel_otg : (s.setSel c).otg = s.otg := rfl
@[simp] theorem State.setSel_port : (s.setSel c).port = s.port := rfl
@[simp] theorem State.setSel_hcState : (s.setSel c).hcState = s.hcState := rfl
@[simp] theorem State.setSel_ep0Stage : (s.setSel c).ep0Stage = s.ep0Stage := rfl
@[simp] theorem State.setSel_secondary : (s.setSel c).secondary = s.secondary := rfl
@[simp] theorem State.setSel_dma : (s.setSel c).dma = { s.dma with sel := c } := rfl
@[simp] theorem State.setSel_ep0 : (s.setSel c).ep0 = s.ep0 := rfl
@[simp] theorem State.setSel_ep : (s.setSel c).ep = s.ep := rfl
@[simp] theorem State.setSel_async : (s.setSel c).async = s.async := rfl
@[simp] theorem State.setSel_mem : (s.setSel c).mem = s.mem := rfl
@[simp] theorem State.setSel_alloc : (s.setSel c).alloc = s.alloc := rfl
@[simp] theorem State.setSel_trbStore : (s.setSel c).trbStore = s.trbStore := rfl
@[simp] theorem State.setSel_seq : (s.setSel c).seq = s.seq := rfl
@[simp] theorem State.setSel_args : (s.setSel c).args = s.args := rfl
@[simp] theorem State.setSel_regtrace : (s.setSel c).regtrace = s.regtrace := rfl
@[simp] theorem State.setSel_trace : (s.setSel c).trace = s.trace := rfl
@[simp] theorem State.setSel_fault : (s.setSel c).fault = s.fault := rfl
@[simp] theorem State.setSel_refused : (s.setSel c).refused = s.refused := rfl
@[simp] theorem State.setSel_cfg : (s.setSel c).cfg = s.cfg := rfl
@[simp] theorem State.setSel_hostQueue : (s.setSel c).hostQueue = s.hostQueue := rfl
@[simp] theorem State.setSel_oracle : (s.setSel c).oracle = s.oracle := rfl
end setSel

section setBurst
variable (s : State) (m : BurstMode)
@[simp] theorem State.setBurst_otg : (s.setBurst m).otg = s.otg := rfl
@[simp] theorem State.setBurst_port : (s.setBurst m).port = s.port := rfl
@[simp] theorem State.setBurst_hcState : (s.setBurst m).hcState = s.hcState := rfl
@[simp] theorem State.setBurst_ep0Stage : (s.setBurst m).ep0Stage = s.ep0Stage := rfl
@[simp] theorem State.setBurst_secondary : (s.setBurst m).secondary = s.secondary := rfl
@[simp] theorem State.setBurst_dma : (s.setBurst m).dma = { s.dma with burstMode := m } := rfl
@[simp] theorem State.setBurst_ep0 : (s.setBurst m).ep0 = s.ep0 := rfl
@[simp] theorem State.setBurst_ep : (s.setBurst m).ep = s.ep := rfl
@[simp] theorem State.setBurst_async : (s.setBurst m).async = s.async := rfl
@[simp] theorem State.setBurst_mem : (s.setBurst m).mem = s.mem := rfl
@[simp] theorem State.setBurst_alloc : (s.setBurst m).alloc = s.alloc := rfl
@[simp] theorem State.setBurst_trbStore : (s.setBurst m).trbStore = s.trbStore := rfl
@[simp] theorem State.setBurst_seq : (s.setBurst m).seq = s.seq := rfl
@[simp] theorem State.setBurst_args : (s.setBurst m).args = s.args := rfl
@[simp] theorem State.setBurst_regtrace : (s.setBurst m).regtrace = s.regtrace := rfl
@[simp] theorem State.setBurst_trace : (s.setBurst m).trace = s.trace := rfl
@[simp] theorem State.setBurst_fault : (s.setBurst m).fault = s.fault := rfl
@[simp] theorem State.setBurst_refused : (s.setBurst m).refused = s.refused := rfl
@[simp] theorem State.setBurst_cfg : (s.setBurst m).cfg = s.cfg := rfl
@[simp] theorem State.setBurst_hostQueue : (s.setBurst m).hostQueue = s.hostQueue := rfl
@[simp] theorem State.setBurst_oracle : (s.setBurst m).oracle = s.oracle := rfl
end setBurst

section setEndpoint
variable (s : State) (c : Chan) (x : Endpoint)
@[simp] theorem State.setEndpoint_otg : (s.setEndpoint c x).otg = s.otg := rfl
@[simp] theorem State.setEndpoint_port : (s.setEndpoint c x).port = s.port := rfl
@[simp] theorem State.setEndpoint_hcState : (s.setEndpoint c x).hcState = s.hcState := rfl
@[simp] theorem State.setEndpoint_ep0Stage : (s.setEndpoint c x).ep0Stage = s.ep0Stage := rfl
@[simp] theorem State.setEndpoint_secondary : (s.setEndpoint c x).secondary = s.secondary := rfl
@[simp] theorem State.setEndpoint_dma : (s.setEndpoint c x).dma = s.dma := rfl
@[simp] theorem State.setEndpoint_ep0 : (s.setEndpoint c x).ep0 = s.ep0 := rfl
@[simp] theorem State.setEndpoint_async : (s.setEndpoint c x).async = s.async := rfl
@[simp] theorem State.setEndpoint_mem : (s.setEndpoint c x).mem = s.mem := rfl
@[simp] theorem State.setEndpoint_alloc : (s.setEndpoint c x).alloc = s.alloc := rfl
@[simp] theorem State.setEndpoint_trbStore : (s.setEndpoint c x).trbStore = s.trbStore := rfl
@[simp] theorem State.setEndpoint_seq : (s.setEndpoint c x).seq = s.seq := rfl
@[simp] theorem State.setEndpoint_args : (s.setEndpoint c x).args = s.args := rfl
@[simp] theorem State.setEndpoint_regtrace : (s.setEndpoint c x).regtrace = s.regtrace := rfl
@[simp] theorem State.setEndpoint_trace : (s.setEndpoint c x).trace = s.trace := rfl
@[simp] theorem State.setEndpoint_fault : (s.setEndpoint c x).fault = s.fault := rfl
@[simp] theorem State.setEndpoint_refused : (s.setEndpoint c x).refused = s.refused := rfl
@[simp] theorem State.setEndpoint_cfg : (s.setEndpoint c x).cfg = s.cfg := rfl
@[simp] theorem State.setEndpoint_hostQueue : (s.setEndpoint c x).hostQueue = s.hostQueue := rfl
@[simp] theorem State.setEndpoint_oracle : (s.setEndpoint c x).oracle = s.oracle := rfl
end setEndpoint

section setPos
variable (s : State) (p : Pos)
@[simp] theorem State.setPos_otg : (s.setPos p).otg = s.otg := rfl
@[simp] theorem State.setPos_port : (s.setPos p).port = s.port := rfl
@[simp] theorem State.setPos_hcState : (s.setPos p).hcState = s.hcState := rfl
@[simp] theorem State.setPos_ep0Stage : (s.setPos p).ep0Stage = s.ep0Stage := rfl
@[simp] theorem State.setPos_secondary : (s.setPos p).secondary = s.secondary := rfl
@[simp] theorem State.setPos_dma : (s.setPos p).dma = s.dma := rfl
@[simp] theorem State.setPos_ep0 : (s.setPos p).ep0 = s.ep0 := rfl
@[simp] theorem State.setPos_ep : (s.setPos p).ep = s.ep := rfl
@[simp] theorem State.setPos_async : (s.setPos p).async = s.async := rfl
@[simp] theorem State.setPos_mem : (s.setPos p).mem = s.mem := rfl
@[simp] theorem State.setPos_alloc : (s.setPos p).alloc = s.alloc := rfl
@[simp] theorem State.setPos_trbStore : (s.setPos p).trbStore = s.trbStore := rfl
@[simp] theorem State.setPos_seq : (s.setPos p).seq = { s.seq with cmd := s.seq.cmd.map fun r => { r with pos := p } } := rfl
@[simp] theorem State.setPos_args : (s.setPos p).args = s.args := rfl
@[simp] theorem State.setPos_regtrace : (s.setPos p).regtrace = s.regtrace := rfl
@[simp] theorem State.setPos_trace : (s.setPos p).trace = s.trace := rfl
@[simp] theorem State.setPos_fault : (s.setPos p).fault = s.fault := rfl
@[simp] theorem State.setPos_refused : (s.setPos p).refused = s.refused := rfl
@[simp] theorem State.setPos_cfg : (s.setPos p).cfg = s.cfg := rfl
@[simp] theorem State.setPos_hostQueue : (s.setPos p).hostQueue = s.hostQueue := rfl
@[simp] theorem State.setPos_oracle : (s.setPos p).oracle = s.oracle := rfl
end setPos

section setRound
variable (s : State) (n : Nat)
@[simp] theorem State.setRound_otg : (s.setRound n).otg = s.otg := rfl
@[simp] theorem State.setRound_port : (s.setRound n).port = s.port := rfl
@[simp] theorem State.setRound_hcState : (s.setRound n).hcState = s.hcState := rfl
@[simp] theorem State.setRound_ep0Stage : (s.setRound n).ep0Stage = s.ep0Stage := rfl
@[simp] theorem State.setRound_secondary : (s.setRound n).secondary = s.secondary := rfl
@[simp] theorem State.setRound_dma : (s.setRound n).dma = s.dma := rfl
@[simp] theorem State.setRound_ep0 : (s.setRound n).ep0 = s.ep0 := rfl
@[simp] theorem State.setRound_ep : (s.setRound n).ep = s.ep := rfl
@[simp] theorem State.setRound_async : (s.setRound n).async = s.async := rfl
@[simp] theorem State.setRound_mem : (s.setRound n).mem = s.mem := rfl
@[simp] theorem State.setRound_alloc : (s.setRound n).alloc = s.alloc := rfl
@[simp] theorem State.setRound_trbStore : (s.setRound n).trbStore = s.trbStore := rfl
@[simp] theorem State.setRound_seq : (s.setRound n).seq = { s.seq with cmd := s.seq.cmd.map fun r => { r with round := n } } := rfl
@[simp] theorem State.setRound_args : (s.setRound n).args = s.args := rfl
@[simp] theorem State.setRound_regtrace : (s.setRound n).regtrace = s.regtrace := rfl
@[simp] theorem State.setRound_trace : (s.setRound n).trace = s.trace := rfl
@[simp] theorem State.setRound_fault : (s.setRound n).fault = s.fault := rfl
@[simp] theorem State.setRound_refused : (s.setRound n).refused = s.refused := rfl
@[simp] theorem State.setRound_cfg : (s.setRound n).cfg = s.cfg := rfl
@[simp] theorem State.setRound_hostQueue : (s.setRound n).hostQueue = s.hostQueue := rfl
@[simp] theorem State.setRound_oracle : (s.setRound n).oracle = s.oracle := rfl
end setRound

section begin
variable (s : State) (i : Instr)
@[simp] theorem State.begin_otg : (s.begin i).otg = s.otg := rfl
@[simp] theorem State.begin_port : (s.begin i).port = s.port := rfl
@[simp] theorem State.begin_hcState : (s.begin i).hcState = s.hcState := rfl
@[simp] theorem State.begin_ep0Stage : (s.begin i).ep0Stage = s.ep0Stage := rfl
@[simp] theorem State.begin_secondary : (s.begin i).secondary = s.secondary := rfl
@[simp] theorem State.begin_dma : (s.begin i).dma = s.dma := rfl
@[simp] theorem State.begin_ep0 : (s.begin i).ep0 = s.ep0 := rfl
@[simp] theorem State.begin_ep : (s.begin i).ep = s.ep := rfl
@[simp] theorem State.begin_async : (s.begin i).async = s.async := rfl
@[simp] theorem State.begin_mem : (s.begin i).mem = s.mem := rfl
@[simp] theorem State.begin_alloc : (s.begin i).alloc = s.alloc := rfl
@[simp] theorem State.begin_trbStore : (s.begin i).trbStore = s.trbStore := rfl
@[simp] theorem State.begin_seq : (s.begin i).seq =
    { busy := true, cmd := some { instr := i, round := 0, pos := .line .start }, inTick := false, deferred := [] } := rfl
@[simp] theorem State.begin_args : (s.begin i).args = s.args := rfl
@[simp] theorem State.begin_regtrace : (s.begin i).regtrace = s.regtrace := rfl
@[simp] theorem State.begin_trace : (s.begin i).trace = s.trace := rfl
@[simp] theorem State.begin_fault : (s.begin i).fault = s.fault := rfl
@[simp] theorem State.begin_refused : (s.begin i).refused = s.refused := rfl
@[simp] theorem State.begin_cfg : (s.begin i).cfg = s.cfg := rfl
@[simp] theorem State.begin_hostQueue : (s.begin i).hostQueue = s.hostQueue := rfl
@[simp] theorem State.begin_oracle : (s.begin i).oracle = s.oracle := rfl
end begin

section finishOp
variable (s : State) (op : BitVec 8) (st : Status) (o : Outs)
@[simp] theorem State.finishOp_otg : (s.finishOp op st o).otg = s.otg := rfl
@[simp] theorem State.finishOp_port : (s.finishOp op st o).port = s.port := rfl
@[simp] theorem State.finishOp_hcState : (s.finishOp op st o).hcState = s.hcState := rfl
@[simp] theorem State.finishOp_ep0Stage : (s.finishOp op st o).ep0Stage = s.ep0Stage := rfl
@[simp] theorem State.finishOp_secondary : (s.finishOp op st o).secondary = s.secondary := rfl
@[simp] theorem State.finishOp_dma : (s.finishOp op st o).dma = s.dma := rfl
@[simp] theorem State.finishOp_ep0 : (s.finishOp op st o).ep0 = s.ep0 := rfl
@[simp] theorem State.finishOp_ep : (s.finishOp op st o).ep = s.ep := rfl
@[simp] theorem State.finishOp_async : (s.finishOp op st o).async = s.async := rfl
@[simp] theorem State.finishOp_mem : (s.finishOp op st o).mem = s.mem := rfl
@[simp] theorem State.finishOp_alloc : (s.finishOp op st o).alloc = s.alloc := rfl
@[simp] theorem State.finishOp_trbStore : (s.finishOp op st o).trbStore = s.trbStore := rfl
@[simp] theorem State.finishOp_seq : (s.finishOp op st o).seq = Seq.idle := rfl
@[simp] theorem State.finishOp_args : (s.finishOp op st o).args = s.args := rfl
@[simp] theorem State.finishOp_regtrace : (s.finishOp op st o).regtrace = s.regtrace := rfl
@[simp] theorem State.finishOp_trace : (s.finishOp op st o).trace = s.trace ++ [.result op st o] := rfl
@[simp] theorem State.finishOp_fault : (s.finishOp op st o).fault = s.fault := rfl
@[simp] theorem State.finishOp_refused : (s.finishOp op st o).refused = s.refused := rfl
@[simp] theorem State.finishOp_cfg : (s.finishOp op st o).cfg = s.cfg := rfl
@[simp] theorem State.finishOp_hostQueue : (s.finishOp op st o).hostQueue = s.hostQueue := rfl
@[simp] theorem State.finishOp_oracle : (s.finishOp op st o).oracle = s.oracle := rfl
end finishOp

section finish
variable (s : State) (i : Instr) (st : Status) (o : Outs)
@[simp] theorem State.finish_otg : (s.finish i st o).otg = s.otg := rfl
@[simp] theorem State.finish_port : (s.finish i st o).port = s.port := rfl
@[simp] theorem State.finish_hcState : (s.finish i st o).hcState = s.hcState := rfl
@[simp] theorem State.finish_ep0Stage : (s.finish i st o).ep0Stage = s.ep0Stage := rfl
@[simp] theorem State.finish_secondary : (s.finish i st o).secondary = s.secondary := rfl
@[simp] theorem State.finish_dma : (s.finish i st o).dma = s.dma := rfl
@[simp] theorem State.finish_ep0 : (s.finish i st o).ep0 = s.ep0 := rfl
@[simp] theorem State.finish_ep : (s.finish i st o).ep = s.ep := rfl
@[simp] theorem State.finish_async : (s.finish i st o).async = s.async := rfl
@[simp] theorem State.finish_mem : (s.finish i st o).mem = s.mem := rfl
@[simp] theorem State.finish_alloc : (s.finish i st o).alloc = s.alloc := rfl
@[simp] theorem State.finish_trbStore : (s.finish i st o).trbStore = s.trbStore := rfl
@[simp] theorem State.finish_seq : (s.finish i st o).seq = Seq.idle := rfl
@[simp] theorem State.finish_args : (s.finish i st o).args = s.args := rfl
@[simp] theorem State.finish_regtrace : (s.finish i st o).regtrace = s.regtrace := rfl
@[simp] theorem State.finish_trace : (s.finish i st o).trace = s.trace ++ [.result i.opcode st o] := rfl
@[simp] theorem State.finish_fault : (s.finish i st o).fault = s.fault := rfl
@[simp] theorem State.finish_refused : (s.finish i st o).refused = s.refused := rfl
@[simp] theorem State.finish_cfg : (s.finish i st o).cfg = s.cfg := rfl
@[simp] theorem State.finish_hostQueue : (s.finish i st o).hostQueue = s.hostQueue := rfl
@[simp] theorem State.finish_oracle : (s.finish i st o).oracle = s.oracle := rfl
end finish

section markFault
variable (s : State) (r : FaultReason)
@[simp] theorem State.markFault_otg : (s.markFault r).otg = s.otg := rfl
@[simp] theorem State.markFault_port : (s.markFault r).port = s.port := rfl
@[simp] theorem State.markFault_hcState : (s.markFault r).hcState = s.hcState := rfl
@[simp] theorem State.markFault_ep0Stage : (s.markFault r).ep0Stage = s.ep0Stage := rfl
@[simp] theorem State.markFault_secondary : (s.markFault r).secondary = s.secondary := rfl
@[simp] theorem State.markFault_dma : (s.markFault r).dma = s.dma := rfl
@[simp] theorem State.markFault_ep0 : (s.markFault r).ep0 = s.ep0 := rfl
@[simp] theorem State.markFault_ep : (s.markFault r).ep = s.ep := rfl
@[simp] theorem State.markFault_async : (s.markFault r).async = s.async := rfl
@[simp] theorem State.markFault_mem : (s.markFault r).mem = s.mem := rfl
@[simp] theorem State.markFault_alloc : (s.markFault r).alloc = s.alloc := rfl
@[simp] theorem State.markFault_trbStore : (s.markFault r).trbStore = s.trbStore := rfl
@[simp] theorem State.markFault_seq : (s.markFault r).seq = Seq.idle := rfl
@[simp] theorem State.markFault_args : (s.markFault r).args = s.args := rfl
@[simp] theorem State.markFault_regtrace : (s.markFault r).regtrace = s.regtrace := rfl
@[simp] theorem State.markFault_trace : (s.markFault r).trace = s.trace := rfl
@[simp] theorem State.markFault_fault : (s.markFault r).fault = some r := rfl
@[simp] theorem State.markFault_refused : (s.markFault r).refused = s.refused := rfl
@[simp] theorem State.markFault_cfg : (s.markFault r).cfg = s.cfg := rfl
@[simp] theorem State.markFault_hostQueue : (s.markFault r).hostQueue = s.hostQueue := rfl
@[simp] theorem State.markFault_oracle : (s.markFault r).oracle = s.oracle := rfl
end markFault

section setStatus
variable (s : State) (i : Nat)
@[simp] theorem State.setStatus_otg : (s.setStatus i).otg = s.otg := rfl
@[simp] theorem State.setStatus_port : (s.setStatus i).port = { s.port with status := setBit s.port.status i } := rfl
@[simp] theorem State.setStatus_hcState : (s.setStatus i).hcState = s.hcState := rfl
@[simp] theorem State.setStatus_ep0Stage : (s.setStatus i).ep0Stage = s.ep0Stage := rfl
@[simp] theorem State.setStatus_secondary : (s.setStatus i).secondary = s.secondary := rfl
@[simp] theorem State.setStatus_dma : (s.setStatus i).dma = s.dma := rfl
@[simp] theorem State.setStatus_ep0 : (s.setStatus i).ep0 = s.ep0 := rfl
@[simp] theorem State.setStatus_ep : (s.setStatus i).ep = s.ep := rfl
@[simp] theorem State.setStatus_async : (s.setStatus i).async = s.async := rfl
@[simp] theorem State.setStatus_mem : (s.setStatus i).mem = s.mem := rfl
@[simp] theorem State.setStatus_alloc : (s.setStatus i).alloc = s.alloc := rfl
@[simp] theorem State.setStatus_trbStore : (s.setStatus i).trbStore = s.trbStore := rfl
@[simp] theorem State.setStatus_seq : (s.setStatus i).seq = s.seq := rfl
@[simp] theorem State.setStatus_args : (s.setStatus i).args = s.args := rfl
@[simp] theorem State.setStatus_regtrace : (s.setStatus i).regtrace = s.regtrace := rfl
@[simp] theorem State.setStatus_trace : (s.setStatus i).trace = s.trace := rfl
@[simp] theorem State.setStatus_fault : (s.setStatus i).fault = s.fault := rfl
@[simp] theorem State.setStatus_refused : (s.setStatus i).refused = s.refused := rfl
@[simp] theorem State.setStatus_cfg : (s.setStatus i).cfg = s.cfg := rfl
@[simp] theorem State.setStatus_hostQueue : (s.setStatus i).hostQueue = s.hostQueue := rfl
@[simp] theorem State.setStatus_oracle : (s.setStatus i).oracle = s.oracle := rfl
end setStatus

section clearStatus
variable (s : State) (i : Nat)
@[simp] theorem State.clearStatus_otg : (s.clearStatus i).otg = s.otg := rfl
@[simp] theorem State.clearStatus_port : (s.clearStatus i).port = { s.port with status := clearBit s.port.status i } := rfl
@[simp] theorem State.clearStatus_hcState : (s.clearStatus i).hcState = s.hcState := rfl
@[simp] theorem State.clearStatus_ep0Stage : (s.clearStatus i).ep0Stage = s.ep0Stage := rfl
@[simp] theorem State.clearStatus_secondary : (s.clearStatus i).secondary = s.secondary := rfl
@[simp] theorem State.clearStatus_dma : (s.clearStatus i).dma = s.dma := rfl
@[simp] theorem State.clearStatus_ep0 : (s.clearStatus i).ep0 = s.ep0 := rfl
@[simp] theorem State.clearStatus_ep : (s.clearStatus i).ep = s.ep := rfl
@[simp] theorem State.clearStatus_async : (s.clearStatus i).async = s.async := rfl
@[simp] theorem State.clearStatus_mem : (s.clearStatus i).mem = s.mem := rfl
@[simp] theorem State.clearStatus_alloc : (s.clearStatus i).alloc = s.alloc := rfl
@[simp] theorem State.clearStatus_trbStore : (s.clearStatus i).trbStore = s.trbStore := rfl
@[simp] theorem State.clearStatus_seq : (s.clearStatus i).seq = s.seq := rfl
@[simp] theorem State.clearStatus_args : (s.clearStatus i).args = s.args := rfl
@[simp] theorem State.clearStatus_regtrace : (s.clearStatus i).regtrace = s.regtrace := rfl
@[simp] theorem State.clearStatus_trace : (s.clearStatus i).trace = s.trace := rfl
@[simp] theorem State.clearStatus_fault : (s.clearStatus i).fault = s.fault := rfl
@[simp] theorem State.clearStatus_refused : (s.clearStatus i).refused = s.refused := rfl
@[simp] theorem State.clearStatus_cfg : (s.clearStatus i).cfg = s.cfg := rfl
@[simp] theorem State.clearStatus_hostQueue : (s.clearStatus i).hostQueue = s.hostQueue := rfl
@[simp] theorem State.clearStatus_oracle : (s.clearStatus i).oracle = s.oracle := rfl
end clearStatus

section setChange
variable (s : State) (i : Nat)
@[simp] theorem State.setChange_otg : (s.setChange i).otg = s.otg := rfl
@[simp] theorem State.setChange_port : (s.setChange i).port = { s.port with change := setBit s.port.change i } := rfl
@[simp] theorem State.setChange_hcState : (s.setChange i).hcState = s.hcState := rfl
@[simp] theorem State.setChange_ep0Stage : (s.setChange i).ep0Stage = s.ep0Stage := rfl
@[simp] theorem State.setChange_secondary : (s.setChange i).secondary = s.secondary := rfl
@[simp] theorem State.setChange_dma : (s.setChange i).dma = s.dma := rfl
@[simp] theorem State.setChange_ep0 : (s.setChange i).ep0 = s.ep0 := rfl
@[simp] theorem State.setChange_ep : (s.setChange i).ep = s.ep := rfl
@[simp] theorem State.setChange_async : (s.setChange i).async = s.async := rfl
@[simp] theorem State.setChange_mem : (s.setChange i).mem = s.mem := rfl
@[simp] theorem State.setChange_alloc : (s.setChange i).alloc = s.alloc := rfl
@[simp] theorem State.setChange_trbStore : (s.setChange i).trbStore = s.trbStore := rfl
@[simp] theorem State.setChange_seq : (s.setChange i).seq = s.seq := rfl
@[simp] theorem State.setChange_args : (s.setChange i).args = s.args := rfl
@[simp] theorem State.setChange_regtrace : (s.setChange i).regtrace = s.regtrace := rfl
@[simp] theorem State.setChange_trace : (s.setChange i).trace = s.trace := rfl
@[simp] theorem State.setChange_fault : (s.setChange i).fault = s.fault := rfl
@[simp] theorem State.setChange_refused : (s.setChange i).refused = s.refused := rfl
@[simp] theorem State.setChange_cfg : (s.setChange i).cfg = s.cfg := rfl
@[simp] theorem State.setChange_hostQueue : (s.setChange i).hostQueue = s.hostQueue := rfl
@[simp] theorem State.setChange_oracle : (s.setChange i).oracle = s.oracle := rfl
end setChange

section clearChange
variable (s : State) (i : Nat)
@[simp] theorem State.clearChange_otg : (s.clearChange i).otg = s.otg := rfl
@[simp] theorem State.clearChange_port : (s.clearChange i).port = { s.port with change := clearBit s.port.change i } := rfl
@[simp] theorem State.clearChange_hcState : (s.clearChange i).hcState = s.hcState := rfl
@[simp] theorem State.clearChange_ep0Stage : (s.clearChange i).ep0Stage = s.ep0Stage := rfl
@[simp] theorem State.clearChange_secondary : (s.clearChange i).secondary = s.secondary := rfl
@[simp] theorem State.clearChange_dma : (s.clearChange i).dma = s.dma := rfl
@[simp] theorem State.clearChange_ep0 : (s.clearChange i).ep0 = s.ep0 := rfl
@[simp] theorem State.clearChange_ep : (s.clearChange i).ep = s.ep := rfl
@[simp] theorem State.clearChange_async : (s.clearChange i).async = s.async := rfl
@[simp] theorem State.clearChange_mem : (s.clearChange i).mem = s.mem := rfl
@[simp] theorem State.clearChange_alloc : (s.clearChange i).alloc = s.alloc := rfl
@[simp] theorem State.clearChange_trbStore : (s.clearChange i).trbStore = s.trbStore := rfl
@[simp] theorem State.clearChange_seq : (s.clearChange i).seq = s.seq := rfl
@[simp] theorem State.clearChange_args : (s.clearChange i).args = s.args := rfl
@[simp] theorem State.clearChange_regtrace : (s.clearChange i).regtrace = s.regtrace := rfl
@[simp] theorem State.clearChange_trace : (s.clearChange i).trace = s.trace := rfl
@[simp] theorem State.clearChange_fault : (s.clearChange i).fault = s.fault := rfl
@[simp] theorem State.clearChange_refused : (s.clearChange i).refused = s.refused := rfl
@[simp] theorem State.clearChange_cfg : (s.clearChange i).cfg = s.cfg := rfl
@[simp] theorem State.clearChange_hostQueue : (s.clearChange i).hostQueue = s.hostQueue := rfl
@[simp] theorem State.clearChange_oracle : (s.clearChange i).oracle = s.oracle := rfl
end clearChange

section setFlags
variable (s : State) (f : OtgFlags)
@[simp] theorem State.setFlags_otg : (s.setFlags f).otg = { s.otg with flags := f } := rfl
@[simp] theorem State.setFlags_port : (s.setFlags f).port = s.port := rfl
@[simp] theorem State.setFlags_hcState : (s.setFlags f).hcState = s.hcState := rfl
@[simp] theorem State.setFlags_ep0Stage : (s.setFlags f).ep0Stage = s.ep0Stage := rfl
@[simp] theorem State.setFlags_secondary : (s.setFlags f).secondary = s.secondary := rfl
@[simp] theorem State.setFlags_dma : (s.setFlags f).dma = s.dma := rfl
@[simp] theorem State.setFlags_ep0 : (s.setFlags f).ep0 = s.ep0 := rfl
@[simp] theorem State.setFlags_ep : (s.setFlags f).ep = s.ep := rfl
@[simp] theorem State.setFlags_async : (s.setFlags f).async = s.async := rfl
@[simp] theorem State.setFlags_mem : (s.setFlags f).mem = s.mem := rfl
@[simp] theorem State.setFlags_alloc : (s.setFlags f).alloc = s.alloc := rfl
@[simp] theorem State.setFlags_trbStore : (s.setFlags f).trbStore = s.trbStore := rfl
@[simp] theorem State.setFlags_seq : (s.setFlags f).seq = s.seq := rfl
@[simp] theorem State.setFlags_args : (s.setFlags f).args = s.args := rfl
@[simp] theorem State.setFlags_regtrace : (s.setFlags f).regtrace = s.regtrace := rfl
@[simp] theorem State.setFlags_trace : (s.setFlags f).trace = s.trace := rfl
@[simp] theorem State.setFlags_fault : (s.setFlags f).fault = s.fault := rfl
@[simp] theorem State.setFlags_refused : (s.setFlags f).refused = s.refused := rfl
@[simp] theorem State.setFlags_cfg : (s.setFlags f).cfg = s.cfg := rfl
@[simp] theorem State.setFlags_hostQueue : (s.setFlags f).hostQueue = s.hostQueue := rfl
@[simp] theorem State.setFlags_oracle : (s.setFlags f).oracle = s.oracle := rfl
end setFlags

section freeRegion
variable (s : State) (a : Nat)
@[simp] theorem State.freeRegion_otg : (s.freeRegion a).otg = s.otg := rfl
@[simp] theorem State.freeRegion_port : (s.freeRegion a).port = s.port := rfl
@[simp] theorem State.freeRegion_hcState : (s.freeRegion a).hcState = s.hcState := rfl
@[simp] theorem State.freeRegion_ep0Stage : (s.freeRegion a).ep0Stage = s.ep0Stage := rfl
@[simp] theorem State.freeRegion_secondary : (s.freeRegion a).secondary = s.secondary := rfl
@[simp] theorem State.freeRegion_dma : (s.freeRegion a).dma = s.dma := rfl
@[simp] theorem State.freeRegion_ep0 : (s.freeRegion a).ep0 = s.ep0 := rfl
@[simp] theorem State.freeRegion_ep : (s.freeRegion a).ep = s.ep := rfl
@[simp] theorem State.freeRegion_async : (s.freeRegion a).async = s.async := rfl
@[simp] theorem State.freeRegion_mem : (s.freeRegion a).mem = s.mem := rfl
@[simp] theorem State.freeRegion_alloc : (s.freeRegion a).alloc = tabDrop s.alloc a := rfl
@[simp] theorem State.freeRegion_trbStore : (s.freeRegion a).trbStore = s.trbStore := rfl
@[simp] theorem State.freeRegion_seq : (s.freeRegion a).seq = s.seq := rfl
@[simp] theorem State.freeRegion_args : (s.freeRegion a).args = s.args := rfl
@[simp] theorem State.freeRegion_regtrace : (s.freeRegion a).regtrace = s.regtrace := rfl
@[simp] theorem State.freeRegion_trace : (s.freeRegion a).trace = s.trace := rfl
@[simp] theorem State.freeRegion_fault : (s.freeRegion a).fault = s.fault := rfl
@[simp] theorem State.freeRegion_refused : (s.freeRegion a).refused = s.refused := rfl
@[simp] theorem State.freeRegion_cfg : (s.freeRegion a).cfg = s.cfg := rfl
@[simp] theorem State.freeRegion_hostQueue : (s.freeRegion a).hostQueue = s.hostQueue := rfl
@[simp] theorem State.freeRegion_oracle : (s.freeRegion a).oracle = s.oracle := rfl
end freeRegion

section freeTrb
variable (s : State) (a : Nat)
@[simp] theorem State.freeTrb_otg : (s.freeTrb a).otg = s.otg := rfl
@[simp] theorem State.freeTrb_port : (s.freeTrb a).port = s.port := rfl
@[simp] theorem State.freeTrb_hcState : (s.freeTrb a).hcState = s.hcState := rfl
@[simp] theorem State.freeTrb_ep0Stage : (s.freeTrb a).ep0Stage = s.ep0Stage := rfl
@[simp] theorem State.freeTrb_secondary : (s.freeTrb a).secondary = s.secondary := rfl
@[simp] theorem State.freeTrb_dma : (s.freeTrb a).dma = s.dma := rfl
@[simp] theorem State.freeTrb_ep0 : (s.freeTrb a).ep0 = s.ep0 := rfl
@[simp] theorem State.freeTrb_ep : (s.freeTrb a).ep = s.ep := rfl
@[simp] theorem State.freeTrb_async : (s.freeTrb a).async = s.async := rfl
@[simp] theorem State.freeTrb_mem : (s.freeTrb a).mem = s.mem := rfl
@[simp] theorem State.freeTrb_alloc : (s.freeTrb a).alloc = tabDrop s.alloc a := rfl
@[simp] theorem State.freeTrb_trbStore : (s.freeTrb a).trbStore = tabDrop s.trbStore a := rfl
@[simp] theorem State.freeTrb_seq : (s.freeTrb a).seq = s.seq := rfl
@[simp] theorem State.freeTrb_args : (s.freeTrb a).args = s.args := rfl
@[simp] theorem State.freeTrb_regtrace : (s.freeTrb a).regtrace = s.regtrace := rfl
@[simp] theorem State.freeTrb_trace : (s.freeTrb a).trace = s.trace := rfl
@[simp] theorem State.freeTrb_fault : (s.freeTrb a).fault = s.fault := rfl
@[simp] theorem State.freeTrb_refused : (s.freeTrb a).refused = s.refused := rfl
@[simp] theorem State.freeTrb_cfg : (s.freeTrb a).cfg = s.cfg := rfl
@[simp] theorem State.freeTrb_hostQueue : (s.freeTrb a).hostQueue = s.hostQueue := rfl
@[simp] theorem State.freeTrb_oracle : (s.freeTrb a).oracle = s.oracle := rfl
end freeTrb

section putTrb
variable (s : State) (a : Nat) (t : Trb)
@[simp] theorem State.putTrb_otg : (s.putTrb a t).otg = s.otg := rfl
@[simp] theorem State.putTrb_port : (s.putTrb a t).port = s.port := rfl
@[simp] theorem State.putTrb_hcState : (s.putTrb a t).hcState = s.hcState := rfl
@[simp] theorem State.putTrb_ep0Stage : (s.putTrb a t).ep0Stage = s.ep0Stage := rfl
@[simp] theorem State.putTrb_secondary : (s.putTrb a t).secondary = s.secondary := rfl
@[simp] theorem State.putTrb_dma : (s.putTrb a t).dma = s.dma := rfl
@[simp] theorem State.putTrb_ep0 : (s.putTrb a t).ep0 = s.ep0 := rfl
@[simp] theorem State.putTrb_ep : (s.putTrb a t).ep = s.ep := rfl
@[simp] theorem State.putTrb_async : (s.putTrb a t).async = s.async := rfl
@[simp] theorem State.putTrb_mem : (s.putTrb a t).mem = s.mem := rfl
@[simp] theorem State.putTrb_alloc : (s.putTrb a t).alloc = s.alloc := rfl
@[simp] theorem State.putTrb_trbStore : (s.putTrb a t).trbStore = tabPut s.trbStore a t := rfl
@[simp] theorem State.putTrb_seq : (s.putTrb a t).seq = s.seq := rfl
@[simp] theorem State.putTrb_args : (s.putTrb a t).args = s.args := rfl
@[simp] theorem State.putTrb_regtrace : (s.putTrb a t).regtrace = s.regtrace := rfl
@[simp] theorem State.putTrb_trace : (s.putTrb a t).trace = s.trace := rfl
@[simp] theorem State.putTrb_fault : (s.putTrb a t).fault = s.fault := rfl
@[simp] theorem State.putTrb_refused : (s.putTrb a t).refused = s.refused := rfl
@[simp] theorem State.putTrb_cfg : (s.putTrb a t).cfg = s.cfg := rfl
@[simp] theorem State.putTrb_hostQueue : (s.putTrb a t).hostQueue = s.hostQueue := rfl
@[simp] theorem State.putTrb_oracle : (s.putTrb a t).oracle = s.oracle := rfl
end putTrb

section setToggle
variable (s : State) (c : Chan) (t : Bool)
@[simp] theorem State.setToggle_otg : (s.setToggle c t).otg = s.otg := by unfold State.setToggle; split <;> rfl
@[simp] theorem State.setToggle_port : (s.setToggle c t).port = s.port := by unfold State.setToggle; split <;> rfl
@[simp] theorem State.setToggle_hcState : (s.setToggle c t).hcState = s.hcState := by unfold State.setToggle; split <;> rfl
@[simp] theorem State.setToggle_ep0Stage : (s.setToggle c t).ep0Stage = s.ep0Stage := by unfold State.setToggle; split <;> rfl
@[simp] theorem State.setToggle_secondary : (s.setToggle c t).secondary = s.secondary := by unfold State.setToggle; split <;> rfl
@[simp] theorem State.setToggle_dma : (s.setToggle c t).dma = s.dma := by unfold State.setToggle; split <;> rfl
@[simp] theorem State.setToggle_async : (s.setToggle c t).async = s.async := by unfold State.setToggle; split <;> rfl
@[simp] theorem State.setToggle_mem : (s.setToggle c t).mem = s.mem := by unfold State.setToggle; split <;> rfl
@[simp] theorem State.setToggle_alloc : (s.setToggle c t).alloc = s.alloc := by unfold State.setToggle; split <;> rfl
@[simp] theorem State.setToggle_trbStore : (s.setToggle c t).trbStore = s.trbStore := by unfold State.setToggle; split <;> rfl
@[simp] theorem State.setToggle_seq : (s.setToggle c t).seq = s.seq := by unfold State.setToggle; split <;> rfl
@[simp] theorem State.setToggle_args : (s.setToggle c t).args = s.args := by unfold State.setToggle; split <;> rfl
@[simp] theorem State.setToggle_regtrace : (s.setToggle c t).regtrace = s.regtrace := by unfold State.setToggle; split <;> rfl
@[simp] theorem State.setToggle_trace : (s.setToggle c t).trace = s.trace := by unfold State.setToggle; split <;> rfl
@[simp] theorem State.setToggle_fault : (s.setToggle c t).fault = s.fault := by unfold State.setToggle; split <;> rfl
@[simp] theorem State.setToggle_refused : (s.setToggle c t).refused = s.refused := by unfold State.setToggle; split <;> rfl
@[simp] theorem State.setToggle_cfg : (s.setToggle c t).cfg = s.cfg := by unfold State.setToggle; split <;> rfl
@[simp] theorem State.setToggle_hostQueue : (s.setToggle c t).hostQueue = s.hostQueue := by unfold State.setToggle; split <;> rfl
@[simp] theorem State.setToggle_oracle : (s.setToggle c t).oracle = s.oracle := by unfold State.setToggle; split <;> rfl
end setToggle

end Sys2Proof.Machine
end

