-- ==== Sys2Proof/Laws/Fields.lean ====
section
/-! SUPPORT. Reading back one channel, one endpoint, one toggle after an update of the state. -/

namespace Sys2Proof.Machine

/-! ### One direction of a pair -/

section pair
variable {α : Type} (p : PerDir α) (x : α)

@[simp] theorem PerDir.get_set_same (d : Dir) : (p.set d x).get d = x := by cases d <;> rfl

theorem PerDir.get_set_ne {d e : Dir} (h : e ≠ d) : (p.set d x).get e = p.get e := by
  cases d <;> cases e <;> first | rfl | exact absurd rfl h

@[simp] theorem PerDir.set_get (d : Dir) : p.set d (p.get d) = p := by cases d <;> rfl

end pair

/-! ### A table of pairs indexed by a channel -/

section cell
variable {α : Type} (v : Vector (PerDir α) 16) (c b : Chan) (x : α)

theorem get_eq_getElem (e : EpNum) : v.get e = v[e.val] := rfl

/-- Reading one cell after writing one. -/
theorem cell_set : ((v.set c.ep.val ((v.get c.ep).set c.dir x) c.ep.isLt).get b.ep).get b.dir =
    if b = c then x else (v.get b.ep).get b.dir := by
  obtain ⟨e, d⟩ := c
  obtain ⟨e', d'⟩ := b
  simp only [get_eq_getElem, Vector.getElem_set, Chan.mk.injEq]
  by_cases he : e' = e
  · subst he
    by_cases hd : d' = d
    · subst hd; simp
    · simp [hd, PerDir.get_set_ne]
  · have hne : e.val ≠ e'.val := fun h => he (Fin.ext h.symm)
    simp [hne, he]

/-- Writing a cell with what it holds changes nothing. -/
theorem cell_set_self : v.set c.ep.val ((v.get c.ep).set c.dir ((v.get c.ep).get c.dir)) c.ep.isLt = v := by
  rw [PerDir.set_get, get_eq_getElem, Vector.set_getElem_self]

/-- Two tables that agree at every cell are equal. -/
theorem cell_ext {v w : Vector (PerDir α) 16} (h : ∀ c : Chan, (v.get c.ep).get c.dir = (w.get c.ep).get c.dir) : v = w := by
  apply Vector.ext
  intro i hi
  have ho : (v[i]).out = (w[i]).out := h ⟨⟨i, hi⟩, .out⟩
  have hn : (v[i]).in_ = (w[i]).in_ := h ⟨⟨i, hi⟩, .in_⟩
  generalize v[i] = a at *
  generalize w[i] = b at *
  cases a
  cases b
  simp_all

end cell

/-! ### Channels -/

theorem State.chan_setChan (s : State) (c b : Chan) (x : Channel) :
    (s.setChan c x).chan b = if b = c then x else s.chan b := cell_set s.dma.ch c b x

@[simp] theorem State.chan_setChan_same (s : State) (c : Chan) (x : Channel) : (s.setChan c x).chan c = x := by
  simp [State.chan_setChan]

theorem State.chan_setChan_ne (s : State) {c b : Chan} (x : Channel) (h : b ≠ c) : (s.setChan c x).chan b = s.chan b := by
  simp [State.chan_setChan, h]

@[simp] theorem State.setChan_sel (s : State) (c : Chan) (x : Channel) : (s.setChan c x).dma.sel = s.dma.sel := rfl

@[simp] theorem State.setChan_burst (s : State) (c : Chan) (x : Channel) :
    (s.setChan c x).dma.burstMode = s.dma.burstMode := rfl

@[simp] theorem State.chan_setSel (s : State) (c b : Chan) : (s.setSel c).chan b = s.chan b := rfl

@[simp] theorem State.chan_setBurst (s : State) (m : BurstMode) (b : Chan) : (s.setBurst m).chan b = s.chan b := rfl

/-- A channel is read from the DMA part alone. -/
theorem State.chan_of_dma {s t : State} (h : t.dma.ch = s.dma.ch) (c : Chan) : t.chan c = s.chan c := by
  simp [State.chan, h]

/-! ### Endpoints and toggles -/

theorem State.endpoint_setEndpoint (s : State) (c b : Chan) (x : Endpoint) :
    (s.setEndpoint c x).endpoint b = if b = c then x else s.endpoint b := cell_set s.ep c b x

@[simp] theorem State.endpoint_setEndpoint_same (s : State) (c : Chan) (x : Endpoint) :
    (s.setEndpoint c x).endpoint c = x := by
  simp [State.endpoint_setEndpoint]

theorem State.endpoint_of_ep {s t : State} (h : t.ep = s.ep) (c : Chan) : t.endpoint c = s.endpoint c := by
  simp [State.endpoint, h]

/-- An endpoint after a toggle is written: only the toggle of that endpoint and direction, and only for endpoints 1..15. -/
theorem State.endpoint_setToggle (s : State) (c b : Chan) (t : Bool) :
    (s.setToggle c t).endpoint b = if b = c ∧ c.ep ≠ 0 then { s.endpoint c with toggle := t } else s.endpoint b := by
  unfold State.setToggle
  by_cases h : c.ep = 0
  · simp [h, State.endpoint]
  · simp only [h, if_false, State.endpoint_setEndpoint, ne_eq, not_false_eq_true, and_true]

theorem State.ep0_setToggle (s : State) (c : Chan) (t : Bool) :
    (s.setToggle c t).ep0 = if c.ep = 0 then { s.ep0 with toggle := s.ep0.toggle.set c.dir t } else s.ep0 := by
  unfold State.setToggle
  split <;> rfl

/-- The toggle written is the toggle read (R51). -/
@[simp] theorem State.toggle_setToggle_same (s : State) (c : Chan) (t : Bool) : (s.setToggle c t).toggle c = t := by
  unfold State.toggle
  by_cases h : c.ep = 0
  · simp [h, State.ep0_setToggle]
  · simp [h, State.endpoint_setToggle]

theorem State.toggle_setToggle_ne (s : State) {c b : Chan} (t : Bool) (h : b ≠ c) :
    (s.setToggle c t).toggle b = s.toggle b := by
  unfold State.toggle
  by_cases hb : b.ep = 0
  · simp only [hb, if_true, State.ep0_setToggle]
    split
    · rename_i hc
      refine PerDir.get_set_ne _ _ fun hd => h ?_
      cases b; cases c; simp_all
    · rfl
  · simp [hb, State.endpoint_setToggle, h]

@[simp] theorem State.chan_setToggle (s : State) (c b : Chan) (t : Bool) : (s.setToggle c t).chan b = s.chan b :=
  State.chan_of_dma (by simp) b

end Sys2Proof.Machine
end

