-- ==== Sys2Proof/Laws/Table.lean ====
section
/-! SUPPORT. Sorted tables and system memory: read after write, an untouched key reads as before, the order of the keys and
the canonical form of memory are kept. -/

namespace Sys2Proof.Machine

section tables
variable {α : Type}

@[simp] theorem tabFind_nil (a : Nat) : tabFind ([] : List (Nat × α)) a = none := rfl

theorem tabFind_put (t : List (Nat × α)) (a b : Nat) (v : α) :
    tabFind (tabPut t a v) b = if b = a then some v else tabFind t b := by
  induction t with
  | nil => rfl
  | cons e t ih =>
    obtain ⟨k, w⟩ := e
    simp only [tabPut]
    split
    · rfl
    · split
      · subst a; simp only [tabFind]; split <;> rfl
      · simp only [tabFind, ih]
        split
        · rename_i hb; subst hb; rw [if_neg (fun h => by omega)]
        · rfl

@[simp] theorem tabFind_put_same (t : List (Nat × α)) (a : Nat) (v : α) : tabFind (tabPut t a v) a = some v := by
  simp [tabFind_put]

theorem tabFind_put_ne (t : List (Nat × α)) {a b : Nat} (v : α) (h : b ≠ a) : tabFind (tabPut t a v) b = tabFind t b := by
  simp [tabFind_put, h]

theorem tabFind_drop (t : List (Nat × α)) (a b : Nat) :
    tabFind (tabDrop t a) b = if b = a then none else tabFind t b := by
  induction t with
  | nil => simp [tabDrop]
  | cons e t ih =>
    obtain ⟨k, w⟩ := e
    simp only [tabDrop]
    split
    · subst a
      simp only [ih, tabFind]
      split <;> rfl
    · simp only [tabFind, ih]
      split
      · rename_i hb; subst hb; rw [if_neg (fun h => by omega)]
      · rfl

/-- The entries after a write: the written one and old ones of other keys. -/
theorem mem_tabPut {t : List (Nat × α)} {a : Nat} {v : α} {e : Nat × α} (h : e ∈ tabPut t a v) : e = (a, v) ∨ e ∈ t := by
  induction t with
  | nil => simpa [tabPut] using h
  | cons f t ih =>
    obtain ⟨k, w⟩ := f
    simp only [tabPut] at h
    split at h
    · simpa using h
    · split at h
      · rcases List.mem_cons.1 h with h | h
        · exact .inl h
        · exact .inr (List.mem_cons_of_mem _ h)
      · rcases List.mem_cons.1 h with h | h
        · exact .inr (by simp [h])
        · exact (ih h).imp id (List.mem_cons_of_mem _)

/-- A written entry is there, and an entry of another key stays. -/
theorem tabPut_mem (t : List (Nat × α)) (a : Nat) (v : α) : (a, v) ∈ tabPut t a v := by
  induction t with
  | nil => simp [tabPut]
  | cons f t ih =>
    obtain ⟨k, w⟩ := f
    simp only [tabPut]
    split
    · simp
    · split <;> simp [ih]

theorem tabPut_mem_of_ne {t : List (Nat × α)} {a : Nat} {v : α} {e : Nat × α} (h : e ∈ t) (hne : e.1 ≠ a) :
    e ∈ tabPut t a v := by
  induction t with
  | nil => simp at h
  | cons f t ih =>
    obtain ⟨k, w⟩ := f
    simp only [tabPut]
    split
    · exact List.mem_cons_of_mem _ h
    · split
      · rcases List.mem_cons.1 h with h | h
        · subst h; omega
        · exact List.mem_cons_of_mem _ h
      · rcases List.mem_cons.1 h with h | h
        · simp [h]
        · exact List.mem_cons_of_mem _ (ih h)

theorem mem_tabDrop {t : List (Nat × α)} {a : Nat} {e : Nat × α} : e ∈ tabDrop t a ↔ e ∈ t ∧ e.1 ≠ a := by
  induction t with
  | nil => simp [tabDrop]
  | cons f t ih =>
    obtain ⟨k, w⟩ := f
    simp only [tabDrop]
    split
    · subst a
      rw [ih, List.mem_cons]
      constructor
      · rintro ⟨h, hn⟩; exact ⟨.inr h, hn⟩
      · rintro ⟨h | h, hn⟩
        · subst h; exact absurd rfl hn
        · exact ⟨h, hn⟩
    · rw [List.mem_cons, ih, List.mem_cons]
      constructor
      · rintro (h | ⟨h, hn⟩)
        · subst h; exact ⟨.inl rfl, fun e => by simp at e; omega⟩
        · exact ⟨.inr h, hn⟩
      · rintro ⟨h | h, hn⟩
        · exact .inl h
        · exact .inr ⟨h, hn⟩

/-- Dropping a key that is not there changes nothing. -/
theorem tabDrop_of_not_key {t : List (Nat × α)} {a : Nat} (h : ∀ e ∈ t, e.1 ≠ a) : tabDrop t a = t := by
  induction t with
  | nil => rfl
  | cons f t ih =>
    obtain ⟨k, w⟩ := f
    have hk : a ≠ k := fun e => h (k, w) (by simp) e.symm
    simp only [tabDrop, if_neg hk]
    rw [ih fun e he => h e (List.mem_cons_of_mem _ he)]

/-- Dropping a key just written gives what dropping it before would have given. -/
theorem tabDrop_put (t : List (Nat × α)) (a : Nat) (v : α) : tabDrop (tabPut t a v) a = tabDrop t a := by
  induction t with
  | nil => simp [tabPut, tabDrop]
  | cons f t ih =>
    obtain ⟨k, w⟩ := f
    simp only [tabPut]
    split
    · simp [tabDrop]
    · split
      · simp [tabDrop, *]
      · simp [tabDrop, *]

/-- Drops of two keys commute. -/
theorem tabDrop_comm (t : List (Nat × α)) (a b : Nat) : tabDrop (tabDrop t a) b = tabDrop (tabDrop t b) a := by
  induction t with
  | nil => rfl
  | cons f t ih =>
    obtain ⟨k, w⟩ := f
    by_cases ha : a = k <;> by_cases hb : b = k
    · subst ha; subst hb; rfl
    · subst ha; simp [tabDrop, hb, ih]
    · subst hb; simp [tabDrop, ha, ih]
    · simp [tabDrop, ha, hb, ih]

/-- A write and a drop of another key commute on a sorted table. -/
theorem tabDrop_put_ne {t : List (Nat × α)} {a b : Nat} (v : α) (h : b ≠ a) (hs : tabSorted t) :
    tabDrop (tabPut t a v) b = tabPut (tabDrop t b) a v := by
  induction t with
  | nil => simp [tabPut, tabDrop, h]
  | cons f t ih =>
    obtain ⟨k, w⟩ := f
    have hs' : tabSorted t := (List.pairwise_cons.1 hs).2
    have hlt : ∀ e ∈ t, k < e.1 := fun e he => (List.pairwise_cons.1 hs).1 _ (List.mem_map_of_mem he)
    simp only [tabPut]
    split
    · rename_i hak
      by_cases hb : b = k
      · subst hb
        have hput : tabPut (tabDrop t b) a v = (a, v) :: tabDrop t b := by
          cases hd : tabDrop t b with
          | nil => rfl
          | cons g u =>
            have : g ∈ tabDrop t b := by rw [hd]; simp
            have := hlt g (mem_tabDrop.1 this).1
            simp only [tabPut]
            rw [if_pos (by omega)]
        simp [tabDrop, h, hput]
      · simp [tabDrop, h, hb, tabPut, hak]
    · split
      · rename_i h1 h2
        subst h2
        simp [tabDrop, h, tabPut]
      · rename_i h1 h2
        by_cases hb : b = k
        · subst hb; simp [tabDrop, ih hs']
        · simp [tabDrop, hb, tabPut, h1, h2, ih hs']

theorem tabSorted_nil : tabSorted ([] : List (Nat × α)) := List.Pairwise.nil

theorem tabSorted_put {t : List (Nat × α)} (a : Nat) (v : α) (h : tabSorted t) : tabSorted (tabPut t a v) := by
  induction t with
  | nil => simp [tabPut, tabSorted]
  | cons f t ih =>
    obtain ⟨k, w⟩ := f
    have hs : tabSorted t := (List.pairwise_cons.1 h).2
    have hlt : ∀ e ∈ t, k < e.1 := fun e he => (List.pairwise_cons.1 h).1 _ (List.mem_map_of_mem he)
    simp only [tabPut]
    split
    · rename_i hak
      refine List.pairwise_cons.2 ⟨?_, h⟩
      intro b hb
      simp only [List.map_cons, List.mem_cons, List.mem_map] at hb
      rcases hb with rfl | ⟨e, he, rfl⟩
      · exact hak
      · exact lt_trans hak (hlt e he)
    · split
      · rename_i h1 h2
        subst h2
        exact List.pairwise_cons.2 ⟨(List.pairwise_cons.1 h).1, hs⟩
      · refine List.pairwise_cons.2 ⟨?_, ih hs⟩
        intro b hb
        obtain ⟨e, he, rfl⟩ := List.mem_map.1 hb
        rcases mem_tabPut he with rfl | he
        · show k < a; omega
        · exact hlt e he

theorem tabSorted_drop {t : List (Nat × α)} (a : Nat) (h : tabSorted t) : tabSorted (tabDrop t a) := by
  induction t with
  | nil => exact h
  | cons f t ih =>
    obtain ⟨k, w⟩ := f
    have hs : tabSorted t := (List.pairwise_cons.1 h).2
    have hlt : ∀ e ∈ t, k < e.1 := fun e he => (List.pairwise_cons.1 h).1 _ (List.mem_map_of_mem he)
    simp only [tabDrop]
    split
    · exact ih hs
    · refine List.pairwise_cons.2 ⟨?_, ih hs⟩
      intro b hb
      obtain ⟨e, he, rfl⟩ := List.mem_map.1 hb
      exact hlt e (mem_tabDrop.1 he).1

end tables

/-! ### System memory -/

theorem memWf_nil : memWf [] := ⟨tabSorted_nil, by simp⟩

@[simp] theorem readByte_writeByte_same (m : Memory) (a : Nat) (v : Byte) : readByte (writeByte m a v) a = v := by
  unfold readByte writeByte
  split
  · subst v; simp [tabFind_drop]
  · simp

theorem readByte_writeByte_ne (m : Memory) {a b : Nat} (v : Byte) (h : b ≠ a) :
    readByte (writeByte m a v) b = readByte m b := by
  unfold readByte writeByte
  split
  · simp [tabFind_drop, h]
  · simp [tabFind_put_ne _ _ h]

theorem memWf_writeByte {m : Memory} (a : Nat) (v : Byte) (h : memWf m) : memWf (writeByte m a v) := by
  unfold writeByte
  split
  · exact ⟨tabSorted_drop a h.1, fun c hc => h.2 c (mem_tabDrop.1 hc).1⟩
  · rename_i hv
    refine ⟨tabSorted_put a v h.1, fun c hc => ?_⟩
    rcases mem_tabPut hc with rfl | hc
    · exact hv
    · exact h.2 c hc

theorem memWf_writeBytes {m : Memory} (a : Nat) (bs : List Byte) (h : memWf m) : memWf (writeBytes m a bs) := by
  induction bs generalizing m a with
  | nil => exact h
  | cons b bs ih => exact ih _ (memWf_writeByte a b h)

/-- A byte outside the written range reads as before. -/
theorem readByte_writeBytes_out (m : Memory) (a b : Nat) (bs : List Byte) (h : b < a ∨ a + bs.length ≤ b) :
    readByte (writeBytes m a bs) b = readByte m b := by
  induction bs generalizing m a with
  | nil => rfl
  | cons x bs ih =>
    simp only [List.length_cons] at h
    have h1 : b < a + 1 ∨ a + 1 + bs.length ≤ b := by omega
    have h2 : b ≠ a := by omega
    rw [writeBytes, ih _ _ h1, readByte_writeByte_ne _ _ h2]

/-- A byte of the written range reads as written. -/
theorem readByte_writeBytes_in (m : Memory) (a : Nat) (bs : List Byte) (i : Nat) (h : i < bs.length) :
    readByte (writeBytes m a bs) (a + i) = bs[i] := by
  induction bs generalizing m a i with
  | nil => simp at h
  | cons x bs ih =>
    rw [writeBytes]
    cases i with
    | zero =>
      have h1 : a + 0 < a + 1 ∨ a + 1 + bs.length ≤ a + 0 := .inl (by omega)
      rw [readByte_writeBytes_out _ _ _ _ h1]; simp
    | succ i =>
      have := ih (writeByte m a x) (a + 1) i (by simpa using h)
      simpa [Nat.add_assoc, Nat.add_comm 1 i] using this

@[simp] theorem length_readBytes (m : Memory) (a n : Nat) : (readBytes m a n).length = n := by
  induction n generalizing a with
  | zero => rfl
  | succ n ih => simp [readBytes, ih]

theorem getElem_readBytes (m : Memory) (a n i : Nat) (h : i < n) :
    (readBytes m a n)[i]'(by simpa using h) = readByte m (a + i) := by
  induction n generalizing a i with
  | zero => omega
  | succ n ih =>
    cases i with
    | zero => simp [readBytes]
    | succ i =>
      simp only [readBytes, List.getElem_cons_succ]
      rw [ih (a + 1) i (Nat.lt_of_succ_lt_succ h), Nat.add_assoc, Nat.add_comm 1 i]

/-- What was written is read back. -/
theorem readBytes_writeBytes (m : Memory) (a : Nat) (bs : List Byte) :
    readBytes (writeBytes m a bs) a bs.length = bs := by
  apply List.ext_getElem (by simp)
  intro i h1 h2
  rw [getElem_readBytes _ _ _ _ h2, readByte_writeBytes_in _ _ _ _ h2]

end Sys2Proof.Machine
end

