-- ==== Sys2Proof/Laws/Agents.lean ====
section
/-! SUPPORT. What the steps of the other agents can do, said once: `AgentFrame`. Every agent step and every interleaving
point meets it, and it composes. -/

namespace Sys2Proof.Machine

@[simp] theorem andThen_done {α β : Type} (a : α) (s : State) (f : α → State → Part β) : andThen (.done a s) f = f a s := rfl
@[simp] theorem andThen_hold {α β : Type} (s : State) (f : α → State → Part β) : andThen (.hold s) f = .hold s := rfl
@[simp] theorem andThen_fault {α β : Type} (r : FaultReason) (s : State) (f : α → State → Part β) :
    andThen (.fault r s) f = .fault r s := rfl

/-- A sequence that is done has both parts done. -/
theorem andThen_eq_done {α β : Type} {x : Part α} {f : α → State → Part β} {b : β} {u : State} (h : andThen x f = .done b u) :
    ∃ a t, x = .done a t ∧ f a t = .done b u := by
  cases x with
  | done a t => exact ⟨a, t, rfl, h⟩
  | hold t => simp at h
  | fault r t => simp at h

@[simp] theorem conclude_done (s : State) : conclude (.done () s) = .next s := rfl
@[simp] theorem conclude_hold (s : State) : conclude (.hold s) = .next s := rfl
@[simp] theorem conclude_fault (r : FaultReason) (s : State) : conclude (.fault r s) = .fault (faultOf r (s.markFault r)) := rfl

/-- A command that answers a next state is done or held there. -/
theorem conclude_eq_next {x : Part Unit} {t : State} (h : conclude x = .next t) : x = .done () t ∨ x = .hold t := by
  cases x with
  | done a s => cases h; exact .inl rfl
  | hold s => cases h; exact .inr rfl
  | fault r s => cases h

/-- What an agent can do to a channel: nothing, or complete the transfer its latched TRB describes (R158, R159, R160). -/
def ChanFrame (x y : Channel) : Prop :=
  y = x ∨ (x.enabled = true ∧ x.pending = true ∧ (∃ t, x.trb = some t ∧ y.actual ≤ t.size) ∧
    y = { x with pending := false, done := true, actual := y.actual, err := y.err, errCode := y.errCode } ∧
    (x.err = true → y.err = true))

theorem ChanFrame.refl (x : Channel) : ChanFrame x x := .inl rfl

theorem ChanFrame.trans {x y z : Channel} (h : ChanFrame x y) (k : ChanFrame y z) : ChanFrame x z := by
  rcases h with rfl | h
  · exact k
  · rcases k with rfl | k
    · exact .inr h
    · exact absurd k.2.1 (by rw [h.2.2.2.1]; simp)

theorem ChanFrame.enabled {x y : Channel} (h : ChanFrame x y) : y.enabled = x.enabled := by
  rcases h with rfl | ⟨-, -, -, h, -⟩ <;> [rfl; (rw [h])]

theorem ChanFrame.programmed {x y : Channel} (h : ChanFrame x y) : y.programmed = x.programmed := by
  rcases h with rfl | ⟨-, -, -, h, -⟩ <;> [rfl; (rw [h])]

theorem ChanFrame.trb {x y : Channel} (h : ChanFrame x y) : y.trb = x.trb := by
  rcases h with rfl | ⟨-, -, -, h, -⟩ <;> [rfl; (rw [h])]

theorem ChanFrame.pending {x y : Channel} (h : ChanFrame x y) (hp : y.pending = true) : x.pending = true := by
  rcases h with rfl | h
  · exact hp
  · exact h.2.1

/-- A channel with no agent step is left as it is (R160). -/
theorem ChanFrame.eq_of_idle {x y : Channel} (h : ChanFrame x y) (hx : x.enabled = false ∨ x.pending = false) : y = x := by
  rcases h with rfl | h
  · rfl
  · rcases hx with e | e <;> simp [e] at h

/-- What the other agents can change between two states (R7, R95, R158 to R162). -/
structure AgentFrame (s t : State) : Prop where
  otg : t.otg = { s.otg with flags := t.otg.flags, inputs := t.otg.inputs, wakeDisable := t.otg.wakeDisable }
  flags : orFlags s.otg.flags t.otg.flags = t.otg.flags
  wake : s.seq.busy = true → t.otg.wakeDisable = s.otg.wakeDisable
  port : t.port = s.port
  hcState : t.hcState = s.hcState
  ep0Stage : t.ep0Stage = s.ep0Stage
  secondary : t.secondary = s.secondary
  sel : t.dma.sel = s.dma.sel
  burst : t.dma.burstMode = s.dma.burstMode
  chan : ∀ c, ChanFrame (s.chan c) (t.chan c)
  sent : ∀ c x, c.dir = .out → s.agentTrb c = some x → (t.chan c).err = false →
    t.chan c = s.chan c ∨ (t.chan c).actual = x.size
  ep0 : t.ep0 = { s.ep0 with toggle := t.ep0.toggle }
  endpoint : ∀ c, t.endpoint c = { s.endpoint c with toggle := (t.endpoint c).toggle }
  endpoint0 : ∀ d, t.endpoint ⟨0, d⟩ = s.endpoint ⟨0, d⟩
  toggle : ∀ c, s.agentTrb c = none → t.toggle c = s.toggle c
  async : t.async = s.async
  memWf : memWf s.mem → memWf t.mem
  mem : s.seq.busy = true → ∀ a, (∀ c t', c.dir = .in_ → s.agentTrb c = some t' → a < t'.addr ∨ t'.addr + t'.size ≤ a) →
    readByte t.mem a = readByte s.mem a
  alloc : s.seq.busy = true → t.alloc = s.alloc
  allocMono : ∀ r ∈ s.alloc, r ∈ t.alloc
  allocSorted : tabSorted s.alloc → tabSorted t.alloc
  trbStore : t.trbStore = s.trbStore
  busy : t.seq.busy = s.seq.busy
  cmd : t.seq.cmd = s.seq.cmd
  inTick : t.seq.inTick = s.seq.inTick
  deferred : s.seq.inTick = false → t.seq.deferred = s.seq.deferred
  args : t.args = s.args
  regtrace : t.regtrace = s.regtrace
  trace : t.trace = s.trace
  fault : t.fault = s.fault
  refused : s.refused = true → t.refused = true
  cfg : t.cfg = s.cfg
  hostQueue : s.seq.busy = true → t.hostQueue = s.hostQueue

theorem orFlags_self (f : OtgFlags) : orFlags f f = f := by cases f; simp [orFlags]

theorem orFlags_trans {f g h : OtgFlags} (a : orFlags f g = g) (b : orFlags g h = h) : orFlags f h = h := by
  rw [← b, ← a]
  simp [orFlags, ← Bool.or_assoc]

theorem AgentFrame.refl (s : State) : AgentFrame s s where
  otg := rfl
  flags := orFlags_self _
  wake _ := rfl
  port := rfl
  hcState := rfl
  ep0Stage := rfl
  secondary := rfl
  sel := rfl
  burst := rfl
  chan _ := .refl _
  sent _ _ _ _ _ := .inl rfl
  ep0 := rfl
  endpoint _ := rfl
  endpoint0 _ := rfl
  toggle _ _ := rfl
  async := rfl
  memWf h := h
  mem _ _ _ := rfl
  alloc _ := rfl
  allocMono _ h := h
  allocSorted h := h
  trbStore := rfl
  busy := rfl
  cmd := rfl
  inTick := rfl
  deferred _ := rfl
  args := rfl
  regtrace := rfl
  trace := rfl
  fault := rfl
  refused h := h
  cfg := rfl
  hostQueue _ := rfl

/-- An agent step that stands after some agent steps stood before them too. -/
theorem AgentFrame.agentTrb {s t : State} (h : AgentFrame s t) {c : Chan} {x : Trb} (hx : t.agentTrb c = some x) :
    s.agentTrb c = some x := by
  unfold State.agentTrb at hx ⊢
  have hc := h.chan c
  rw [hc.enabled, hc.trb] at hx
  split at hx
  · rename_i he
    simp only [Bool.and_eq_true] at he
    rw [if_pos (by simp [he.1, hc.pending he.2])]
    exact hx
  · cases hx

theorem AgentFrame.trans {s t u : State} (h : AgentFrame s t) (k : AgentFrame t u) : AgentFrame s u where
  otg := by rw [k.otg, h.otg]
  flags := orFlags_trans h.flags k.flags
  wake hb := (k.wake (h.busy.trans hb)).trans (h.wake hb)
  port := k.port.trans h.port
  hcState := k.hcState.trans h.hcState
  ep0Stage := k.ep0Stage.trans h.ep0Stage
  secondary := k.secondary.trans h.secondary
  sel := k.sel.trans h.sel
  burst := k.burst.trans h.burst
  chan c := (h.chan c).trans (k.chan c)
  sent c x hd hx he := by
    by_cases hc : t.chan c = s.chan c
    · rw [← hc]
      exact k.sent c x hd (by unfold State.agentTrb at *; rw [hc]; exact hx) he
    · have ht : (t.chan c).err = false := by
        rcases k.chan c with e | ⟨-, -, -, -, e⟩
        · rw [e] at he; exact he
        · cases hte : (t.chan c).err with
          | false => rfl
          | true => rw [e hte] at he; cases he
      have hp : (t.chan c).pending = false := by
        rcases h.chan c with e | ⟨-, -, -, e, -⟩
        · exact absurd e hc
        · rw [e]
      rw [(k.chan c).eq_of_idle (.inr hp)]
      exact h.sent c x hd hx ht
  ep0 := by rw [k.ep0, h.ep0]
  endpoint c := by rw [k.endpoint c, h.endpoint c]
  endpoint0 d := (k.endpoint0 d).trans (h.endpoint0 d)
  toggle c hc := by
    refine (k.toggle c ?_).trans (h.toggle c hc)
    cases ht : t.agentTrb c with
    | none => rfl
    | some x => rw [h.agentTrb ht] at hc; cases hc
  async := k.async.trans h.async
  memWf w := k.memWf (h.memWf w)
  mem hb a ha := (k.mem (h.busy.trans hb) a fun c x hd hx => ha c x hd (h.agentTrb hx)).trans (h.mem hb a ha)
  alloc hb := (k.alloc (h.busy.trans hb)).trans (h.alloc hb)
  allocMono r hr := k.allocMono r (h.allocMono r hr)
  allocSorted hs := k.allocSorted (h.allocSorted hs)
  trbStore := k.trbStore.trans h.trbStore
  busy := k.busy.trans h.busy
  cmd := k.cmd.trans h.cmd
  inTick := k.inTick.trans h.inTick
  deferred hi := (k.deferred (h.inTick.trans hi)).trans (h.deferred hi)
  args := k.args.trans h.args
  regtrace := k.regtrace.trans h.regtrace
  trace := k.trace.trans h.trace
  fault := k.fault.trans h.fault
  refused hr := k.refused (h.refused hr)
  cfg := k.cfg.trans h.cfg
  hostQueue hb := (k.hostQueue (h.busy.trans hb)).trans (h.hostQueue hb)

/-! ### Each agent step -/

/-- The state an agent leaves after its transfer: its channel, its toggle and, for IN, the memory it wrote. -/
theorem agentFrame_transfer {s : State} {c : Chan} {x : Trb} (hx : s.agentTrb c = some x) (bs : List Byte) (w : Bool)
    (hw : w = true → c.dir = .in_ ∧ bs.length ≤ x.size) (tg : Bool) (y : Channel) (hy : ChanFrame (s.chan c) y)
    (hs : c.dir = .out → y.err = false → y.actual = x.size) :
    AgentFrame s (((if w then s.withMem (writeBytes s.mem x.addr bs) else s).setToggle c tg).setChan c y) where
  otg := by split <;> simp
  flags := by split <;> simp [orFlags_self]
  wake _ := by split <;> simp
  port := by split <;> simp
  hcState := by split <;> simp
  ep0Stage := by split <;> simp
  secondary := by split <;> simp
  sel := by split <;> simp
  burst := by split <;> simp
  chan b := by
    rw [State.chan_setChan]
    split
    · subst b; exact hy
    · split <;> simp [State.chan, ChanFrame.refl]
  sent b z hd hz he := by
    rw [State.chan_setChan] at he ⊢
    split at he
    · subst b
      rw [hx] at hz
      cases hz
      rw [if_pos rfl]
      exact .inr (hs hd he)
    · rw [if_neg ‹_›]
      exact .inl (by split <;> simp [State.chan])
  ep0 := by
    simp only [State.setChan_ep0, State.ep0_setToggle]
    split <;> split <;> simp
  endpoint b := by
    rw [State.endpoint_of_ep (State.setChan_ep _ _ _), State.endpoint_setToggle]
    split
    · rename_i h; rw [h.1]; split <;> rfl
    · split <;> rfl
  endpoint0 d := by
    rw [State.endpoint_of_ep (State.setChan_ep _ _ _), State.endpoint_setToggle, if_neg]
    · split <;> rfl
    · rintro ⟨h, h0⟩; exact h0 (by rw [← h])
  toggle b hb := by
    have hne : b ≠ c := by rintro rfl; rw [hx] at hb; cases hb
    have h1 : ∀ u : State, (u.setChan c y).toggle b = u.toggle b := fun _ => rfl
    rw [h1, State.toggle_setToggle_ne _ _ hne]
    split <;> rfl
  async := by split <;> simp
  memWf h := by
    split
    · simpa using memWf_writeBytes _ _ h
    · simpa using h
  mem _ a ha := by
    split
    · rename_i hw'
      obtain ⟨hd, hl⟩ := hw hw'
      simp only [State.setChan_mem, State.setToggle_mem, State.withMem_mem]
      refine readByte_writeBytes_out _ _ _ _ ?_
      have := ha c x hd hx
      omega
    · simp
  alloc _ := by split <;> simp
  allocMono r h := by split <;> simpa using h
  allocSorted h := by split <;> simpa using h
  trbStore := by split <;> simp
  busy := by split <;> simp
  cmd := by split <;> simp
  inTick := by split <;> simp
  deferred _ := by split <;> simp
  args := by split <;> simp
  regtrace := by split <;> simp
  trace := by split <;> simp
  fault := by split <;> simp
  refused h := by split <;> simpa using h
  cfg := by split <;> simp
  hostQueue _ := by split <;> simp

/-- A channel whose agent has a step is enabled and pending, with that TRB latched. -/
theorem State.agentTrb_eq_some {s : State} {c : Chan} {x : Trb} (h : s.agentTrb c = some x) :
    (s.chan c).enabled = true ∧ (s.chan c).pending = true ∧ (s.chan c).trb = some x := by
  unfold State.agentTrb at h
  split at h
  · rename_i he; simp only [Bool.and_eq_true] at he; exact ⟨he.1, he.2, h⟩
  · cases h

theorem agentFrame_complete (c : Chan) (bs : List Byte) (tg : Bool) (s : State) :
    AgentFrame s (agentComplete c bs tg s) := by
  unfold agentComplete
  split
  · exact .refl s
  · rename_i x hx
    obtain ⟨he, hp, ht⟩ := State.agentTrb_eq_some hx
    split
    · split
      · exact agentFrame_transfer hx bs false (by simp) tg _ (.inr ⟨he, hp, ⟨x, ht, le_refl _⟩, rfl, id⟩) fun _ _ => rfl
      · exact .refl s
    · rename_i hd
      split
      · rename_i hc
        simp only [Bool.and_eq_true, decide_eq_true_eq] at hc
        exact agentFrame_transfer hx bs true (fun _ => ⟨hd, hc.1⟩) tg _ (.inr ⟨he, hp, ⟨x, ht, hc.1⟩, rfl, id⟩)
          fun h => absurd (hd.symm.trans h) (by decide)
      · exact .refl s

theorem agentFrame_fail (c : Chan) (code : BitVec 3) (moved : Nat) (bs : List Byte) (tg : Bool) (s : State) :
    AgentFrame s (agentFail c code moved bs tg s) := by
  unfold agentFail
  split
  · exact .refl s
  · rename_i x hx
    obtain ⟨he, hp, ht⟩ := State.agentTrb_eq_some hx
    split
    · split
      · exact agentFrame_transfer hx bs false (by simp) tg _ (.inr ⟨he, hp, ⟨x, ht, ‹_›⟩, rfl, fun _ => rfl⟩)
          fun _ h => Bool.noConfusion h
      · exact .refl s
    · rename_i hd
      split
      · rename_i hc
        simp only [Bool.and_eq_true, decide_eq_true_eq] at hc
        exact agentFrame_transfer hx bs true (fun _ => ⟨hd, hc.1⟩) tg _ (.inr ⟨he, hp, ⟨x, ht, hc.1⟩, rfl, fun _ => rfl⟩)
          fun _ h => Bool.noConfusion h
      · exact .refl s

theorem agentFrame_issue (cmd : HostCmd) (s : State) : AgentFrame s (hostIssue cmd s) := by
  unfold hostIssue
  split
  · rename_i hb
    simp only [Bool.not_eq_true'] at hb
    exact { AgentFrame.refl s with hostQueue := fun h => by simp [hb] at h }
  · split
    · rename_i ht
      split
      · exact { AgentFrame.refl s with
          deferred := fun h => by simp [ht] at h
          busy := rfl, cmd := rfl, inTick := rfl }
      · exact { AgentFrame.refl s with refused := fun _ => rfl }
    · exact { AgentFrame.refl s with refused := fun _ => rfl }

theorem agentFrame_declare (r : Region) (s : State) : AgentFrame s (hostDeclare r s) := by
  unfold hostDeclare
  split
  · rename_i h
    simp only [Bool.and_eq_true, Bool.not_eq_true'] at h
    exact { AgentFrame.refl s with
      alloc := fun hb => by simp [h.1] at hb
      allocMono := fun e he => by
        refine tabPut_mem_of_ne he ?_
        have := h.2
        simp only [State.apart, Bool.and_eq_true, List.all_eq_true] at this
        simpa using (this.2 e he).1
      allocSorted := fun hs => tabSorted_put _ _ hs }
  · exact .refl s

theorem agentFrame_poke (a : Nat) (bs : List Byte) (s : State) : AgentFrame s (hostPoke a bs s) := by
  unfold hostPoke
  split
  · rename_i h
    simp only [Bool.and_eq_true, Bool.not_eq_true'] at h
    exact { AgentFrame.refl s with
      memWf := fun w => memWf_writeBytes _ _ w
      mem := fun hb => by simp [h.1] at hb }
  · exact .refl s

/-- Every step of another agent meets the frame. -/
theorem agentFrame_step (s : State) (e : AgentEvent) : AgentFrame s (agentStep s e) := by
  cases e with
  | complete c bs tg => exact agentFrame_complete c bs tg s
  | fail c code moved bs tg => exact agentFrame_fail c code moved bs tg s
  | assertFlags f =>
    exact { AgentFrame.refl s with
      otg := rfl
      flags := by
        show orFlags s.otg.flags (orFlags s.otg.flags f) = orFlags s.otg.flags f
        simp [orFlags]
      wake := fun _ => rfl }
  | drive inp => exact { AgentFrame.refl s with otg := rfl, flags := orFlags_self _, wake := fun _ => rfl }
  | issue cmd => exact agentFrame_issue cmd s
  | declare r => exact agentFrame_declare r s
  | poke a bs => exact agentFrame_poke a bs s
  | clearWake =>
    by_cases hb : s.seq.busy = true
    · have : agentStep s .clearWake = s := by simp [agentStep, hb]
      rw [this]
      exact .refl s
    · have : agentStep s .clearWake = s.withOtg { s.otg with wakeDisable := false } := by simp [agentStep, hb]
      rw [this]
      exact { AgentFrame.refl s with
        otg := rfl
        flags := orFlags_self _
        wake := fun h => absurd h hb }

theorem agentFrame_withOracle (s : State) (o : Oracle) : AgentFrame s (s.withOracle o) := { AgentFrame.refl s with }

theorem agentFrame_drawBatch (s : State) : AgentFrame s s.drawBatch.2 := by
  unfold State.drawBatch
  split <;> exact agentFrame_withOracle s _

theorem agentFrame_foldl (es : List AgentEvent) (s : State) : AgentFrame s (es.foldl agentStep s) := by
  induction es generalizing s with
  | nil => exact .refl s
  | cons e es ih => exact (agentFrame_step s e).trans (ih _)

/-- What can happen at an interleaving point. -/
theorem agentFrame_interleave (s : State) : AgentFrame s s.interleave :=
  (agentFrame_drawBatch s).trans (agentFrame_foldl _ _)

/-! ### What the other agents do not look at -/

/-- The state with another command executing, or none. -/
def State.withCmd (s : State) (r : Option Running) : State := s.withSeq { s.seq with cmd := r }

/-- The other agents do not look at the command that executes: in any other they do the same. -/
theorem agentStep_cmd (s : State) (r : Option Running) (e : AgentEvent) :
    agentStep (s.withCmd r) e = (agentStep s e).withCmd r := by
  have ht (c : Chan) : (s.withCmd r).agentTrb c = s.agentTrb c := rfl
  have ha (own : List Owner) (a n : Nat) : (s.withCmd r).admits own a n = s.admits own a n := rfl
  have hp (a n : Nat) : (s.withCmd r).apart a n = s.apart a n := rfl
  have hb : (s.withCmd r).seq.busy = s.seq.busy := rfl
  have hi : (s.withCmd r).seq.inTick = s.seq.inTick := rfl
  cases e <;>
    simp only [agentStep, agentComplete, agentFail, hostIssue, hostDeclare, hostPoke, ht, ha, hp, hb, hi] <;>
    (repeat' split) <;> first | rfl | (simp only [State.setToggle]; split <;> rfl)

theorem drawBatch_cmd (s : State) (r : Option Running) :
    (s.withCmd r).drawBatch = (s.drawBatch.1, s.drawBatch.2.withCmd r) := by
  have ho : (s.withCmd r).oracle = s.oracle := rfl
  simp only [State.drawBatch, ho]
  split <;> rfl

theorem interleave_cmd (s : State) (r : Option Running) :
    (s.withCmd r).interleave = s.interleave.withCmd r := by
  unfold State.interleave
  rw [drawBatch_cmd]
  generalize s.drawBatch.1 = es
  generalize s.drawBatch.2 = u
  induction es generalizing u with
  | nil => rfl
  | cons e es ih => rw [List.foldl_cons, List.foldl_cons, agentStep_cmd, ih]

/-- The inputs a batch leaves. -/
theorem foldl_inputs (es : List AgentEvent) {s t : State} (h : t.otg.inputs = s.otg.inputs) :
    (es.foldl agentStep t).otg.inputs = (es.foldl agentStep s).otg.inputs := by
  induction es generalizing s t with
  | nil => exact h
  | cons e es ih =>
    refine ih ?_
    have hin (u : State) :
        (agentStep u e).otg.inputs = (match e with | .drive inp => inp | _ => u.otg.inputs) := by
      cases e <;> simp only [agentStep, agentComplete, agentFail, hostIssue, hostDeclare, hostPoke] <;>
        (repeat' split) <;> first | rfl | simp
    rw [hin, hin]
    cases e <;> first | rfl | exact h

/-- The inputs after a point depend on the inputs before it and on the draws alone. -/
theorem interleave_inputs {s t : State} (ho : t.oracle = s.oracle) (hi : t.otg.inputs = s.otg.inputs) :
    t.interleave.otg.inputs = s.interleave.otg.inputs := by
  have h : t.drawBatch.1 = s.drawBatch.1 := by simp only [State.drawBatch, ho]; split <;> rfl
  unfold State.interleave
  rw [h]
  refine foldl_inputs _ ?_
  have hd (u : State) : u.drawBatch.2.otg.inputs = u.otg.inputs := by unfold State.drawBatch; split <;> rfl
  rw [hd, hd]
  exact hi

/-! ### What a point of a command leaves alone -/

section points
variable (s : State) (p : Pos) (i : Instr)
@[simp] theorem State.atPos_port : (s.atPos p).port = s.port := (agentFrame_interleave _).port
@[simp] theorem State.atPos_hcState : (s.atPos p).hcState = s.hcState := (agentFrame_interleave _).hcState
@[simp] theorem State.atPos_ep0Stage : (s.atPos p).ep0Stage = s.ep0Stage := (agentFrame_interleave _).ep0Stage
@[simp] theorem State.atPos_secondary : (s.atPos p).secondary = s.secondary := (agentFrame_interleave _).secondary
@[simp] theorem State.atPos_async : (s.atPos p).async = s.async := (agentFrame_interleave _).async
@[simp] theorem State.atPos_trbStore : (s.atPos p).trbStore = s.trbStore := (agentFrame_interleave _).trbStore
@[simp] theorem State.atPos_args : (s.atPos p).args = s.args := (agentFrame_interleave _).args
@[simp] theorem State.atPos_regtrace : (s.atPos p).regtrace = s.regtrace := (agentFrame_interleave _).regtrace
@[simp] theorem State.atPos_trace : (s.atPos p).trace = s.trace := (agentFrame_interleave _).trace
@[simp] theorem State.atPos_fault : (s.atPos p).fault = s.fault := (agentFrame_interleave _).fault
@[simp] theorem State.atPos_cfg : (s.atPos p).cfg = s.cfg := (agentFrame_interleave _).cfg
@[simp] theorem State.started_port : (s.started i).port = s.port := (agentFrame_interleave _).port
@[simp] theorem State.started_hcState : (s.started i).hcState = s.hcState := (agentFrame_interleave _).hcState
@[simp] theorem State.started_ep0Stage : (s.started i).ep0Stage = s.ep0Stage := (agentFrame_interleave _).ep0Stage
@[simp] theorem State.started_secondary : (s.started i).secondary = s.secondary := (agentFrame_interleave _).secondary
@[simp] theorem State.started_async : (s.started i).async = s.async := (agentFrame_interleave _).async
@[simp] theorem State.started_trbStore : (s.started i).trbStore = s.trbStore := (agentFrame_interleave _).trbStore
@[simp] theorem State.started_args : (s.started i).args = s.args := (agentFrame_interleave _).args
@[simp] theorem State.started_regtrace : (s.started i).regtrace = s.regtrace := (agentFrame_interleave _).regtrace
@[simp] theorem State.started_trace : (s.started i).trace = s.trace := (agentFrame_interleave _).trace
@[simp] theorem State.started_fault : (s.started i).fault = s.fault := (agentFrame_interleave _).fault
@[simp] theorem State.started_cfg : (s.started i).cfg = s.cfg := (agentFrame_interleave _).cfg
@[simp] theorem State.started_busy : (s.started i).seq.busy = true := (agentFrame_interleave _).busy
@[simp] theorem State.started_sel : (s.started i).dma.sel = s.dma.sel := (agentFrame_interleave _).sel
@[simp] theorem State.started_burst : (s.started i).dma.burstMode = s.dma.burstMode := (agentFrame_interleave _).burst
@[simp] theorem State.started_alloc : (s.started i).alloc = s.alloc := (agentFrame_interleave _).alloc rfl
@[simp] theorem State.started_hostQueue : (s.started i).hostQueue = s.hostQueue := (agentFrame_interleave _).hostQueue rfl
end points

end Sys2Proof.Machine
end

