-- ==== Sys2Proof/Laws/Dma.lean ====
section
/-! SUPPORT. The DMA primitives and the endpoint programmer, each as one update of the state, and what each does to one
channel or endpoint (spec 41, 42). -/

namespace Sys2Proof.Machine

/-- DMA_CHECK writes the selector and logs its two operations (R152). -/
theorem dmaCheck_eq (c : Chan) (s : State) :
    dmaCheck c s = { s with dma := { s.dma with sel := c }, regtrace := s.regtrace ++ sampleTrace c } := by
  simp [dmaCheck, selectChan, State.logOp, State.logW, State.setSel, State.withDma, sampleTrace]

@[simp] theorem chan_dmaCheck (c b : Chan) (s : State) : (dmaCheck c s).chan b = s.chan b := rfl

/-- DMA_CLEAR changes the DMA part and the register trace alone (R153). -/
theorem dmaClear_eq (c : Chan) (s : State) :
    dmaClear c s = { s with
      dma := (dmaClear c s).dma, regtrace := s.regtrace ++ [.W .dmaSel (.chan c), .W .dmaStatusClr (.chan c)] } := by
  simp [dmaClear, selectChan, State.logOp, State.logW, State.setSel, State.setChan, State.withDma]

theorem dmaClear_sel (c : Chan) (s : State) : (dmaClear c s).dma.sel = c := rfl

/-- DMA_CLEAR clears done, err and err_code of its channel (R153). -/
theorem chan_dmaClear (c b : Chan) (s : State) :
    (dmaClear c s).chan b = if b = c then { s.chan c with done := false, err := false, errCode := 0 } else s.chan b :=
  State.chan_setChan _ _ _ _

/-- DMA_RELEASE changes the DMA part and the register trace alone (R154). -/
theorem dmaRelease_eq (c : Chan) (s : State) :
    dmaRelease c s = { s with
      dma := (dmaRelease c s).dma, regtrace := s.regtrace ++ [.W .dmaSel (.chan c), .W .dmaChEnable (.num 0)] } := by
  simp [dmaRelease, selectChan, State.logOp, State.logW, State.setSel, State.setChan, State.withDma]

theorem dmaRelease_sel (c : Chan) (s : State) : (dmaRelease c s).dma.sel = c := rfl

/-- DMA_RELEASE disables its channel and cancels its transfer (R154). -/
theorem chan_dmaRelease (c b : Chan) (s : State) :
    (dmaRelease c s).chan b =
      if b = c then { s.chan c with enabled := false, programmed := false, pending := false, trb := none } else s.chan b :=
  State.chan_setChan _ _ _ _

@[simp] theorem idleChans_seq (cs : List Chan) (s : State) : (idleChans cs s).seq = s.seq := by
  unfold idleChans
  induction cs generalizing s with
  | nil => rfl
  | cons c cs ih => rw [List.foldl_cons, ih]; rfl

theorem drawReset_eq (s : State) : s.drawReset.2 = s.withOracle s.drawReset.2.oracle := by
  unfold State.drawReset; split <;> rfl

theorem drawAlloc_eq (s : State) : s.drawAlloc.2 = s.withOracle s.drawAlloc.2.oracle := by
  unfold State.drawAlloc; split <;> rfl

/-- Channels idled: only the DMA part differs, and only those channels. -/
theorem idleChans_eq (cs : List Chan) (s : State) : idleChans cs s = s.withDma { s.dma with ch := (idleChans cs s).dma.ch } := by
  unfold idleChans
  induction cs generalizing s with
  | nil => rfl
  | cons c cs ih => rw [List.foldl_cons, ih]; rfl

theorem chan_idleChans (cs : List Chan) (s : State) (b : Chan) :
    (idleChans cs s).chan b = if b ∈ cs then Channel.idle else s.chan b := by
  unfold idleChans
  induction cs generalizing s with
  | nil => rfl
  | cons c cs ih =>
    rw [List.foldl_cons, ih, State.chan_setChan]
    by_cases h1 : b ∈ cs <;> by_cases h2 : b = c <;> simp [h1, h2]

/-- DMA_RESET (R155): it logs its operation, draws, and changes the DMA part alone. -/
theorem dmaReset_eq (s : State) :
    dmaReset s = { s with dma := (dmaReset s).dma, oracle := (dmaReset s).oracle, regtrace := s.regtrace ++ [.softReset] } := by
  unfold dmaReset
  simp only []
  rw [idleChans_eq, drawReset_eq]
  split <;> rfl

theorem dmaReset_sel (s : State) : (dmaReset s).dma.sel = s.dma.sel := by
  unfold dmaReset
  simp only []
  rw [idleChans_eq, drawReset_eq]
  split <;> rfl

theorem dmaReset_burst (s : State) :
    (dmaReset s).dma.burstMode = s.dma.burstMode ∨ (dmaReset s).dma.burstMode = .other := by
  unfold dmaReset
  simp only []
  rw [idleChans_eq, drawReset_eq]
  split
  · exact .inl rfl
  · exact .inr rfl

/-- DMA_RESET idles the selected channel, and each other channel is kept or idled (R155). -/
theorem chan_dmaReset (s : State) (b : Chan) :
    (b = s.dma.sel → (dmaReset s).chan b = Channel.idle) ∧
      ((dmaReset s).chan b = s.chan b ∨ (dmaReset s).chan b = Channel.idle) := by
  have key : (dmaReset s).chan b =
      if b ∈ s.dma.sel :: (s.logOp .softReset).drawReset.1.dropped then Channel.idle else s.chan b := by
    unfold dmaReset
    have h := chan_idleChans (s.dma.sel :: (s.logOp .softReset).drawReset.1.dropped) (s.logOp .softReset).drawReset.2 b
    have h2 : (s.logOp .softReset).drawReset.2.chan b = s.chan b := by rw [drawReset_eq]; rfl
    rw [h2] at h
    simp only []
    split
    · exact h
    · rw [State.chan_setBurst]; exact h
  rw [key]
  constructor
  · intro h; simp [h]
  · split
    · exact .inr rfl
    · exact .inl rfl

/-- DMA_PROGRAM's operations change the register trace alone (R151). -/
theorem programOps_eq (c : Chan) (desc : Nat) (s : State) :
    programOps c desc s = { s with regtrace := s.regtrace ++ programTrace c desc } := by
  simp [programOps, programTrace, State.logOp, State.logW, List.append_assoc]

/-- DMA_PROGRAM changes the DMA part and the register trace alone (R151). -/
theorem programmed_eq (c : Chan) (desc : Nat) (x : Trb) (s : State) :
    programmed c desc x s =
      { s with dma := (programmed c desc x s).dma, regtrace := s.regtrace ++ programTrace c desc } := by
  unfold programmed
  rw [programOps_eq]
  rfl

theorem programmed_sel (c : Chan) (desc : Nat) (x : Trb) (s : State) : (programmed c desc x s).dma.sel = c := rfl
theorem programmed_burst (c : Chan) (desc : Nat) (x : Trb) (s : State) :
    (programmed c desc x s).dma.burstMode = .single := rfl

/-- DMA_PROGRAM arms its channel and no other (R151). -/
theorem chan_programmed (c b : Chan) (desc : Nat) (x : Trb) (s : State) :
    (programmed c desc x s).chan b = if b = c then programmedChan (s.chan c) desc x else s.chan b := by
  unfold programmed
  rw [programOps_eq]
  exact State.chan_setChan _ _ _ _

/-- What DMA_PROGRAM comes to (R151): one of its three faults, in their order, or the channel is armed with the TRB at the
descriptor. -/
theorem dmaProgram_cases (c : Chan) (desc : Nat) (s : State) :
    ((s.chan c).programmed = true ∧ dmaProgram c desc s = .fault .programUnreleased s) ∨
    ((s.chan c).programmed = false ∧ tabFind s.trbStore desc = none ∧ dmaProgram c desc s = .fault .noDescriptor s) ∨
    ∃ x, (s.chan c).programmed = false ∧ tabFind s.trbStore desc = some x ∧
      ((desc % s.cfg.dmaAlign ≠ 0 ∨ x.addr % s.cfg.dmaAlign ≠ 0) ∧ dmaProgram c desc s = .fault .misalignedDma s ∨
        desc % s.cfg.dmaAlign = 0 ∧ x.addr % s.cfg.dmaAlign = 0 ∧ dmaProgram c desc s = .done () (programmed c desc x s)) := by
  unfold dmaProgram programCheck
  cases hp : (s.chan c).programmed with
  | true => exact .inl ⟨rfl, by simp⟩
  | false =>
    cases hx : tabFind s.trbStore desc with
    | none => exact .inr (.inl ⟨rfl, rfl, by simp⟩)
    | some x =>
      refine .inr (.inr ⟨x, rfl, rfl, ?_⟩)
      by_cases h : desc % s.cfg.dmaAlign = 0 ∧ x.addr % s.cfg.dmaAlign = 0
      · exact .inr ⟨h.1, h.2, by simp [h.1, h.2]⟩
      · have h' : desc % s.cfg.dmaAlign ≠ 0 ∨ x.addr % s.cfg.dmaAlign ≠ 0 := by tauto
        refine .inl ⟨h', ?_⟩
        rw [if_neg (by simp)]
        simp only []
        rw [if_pos (by simpa using h')]
        rfl

/-- DMA_PROGRAM is done only where its checks pass (R151). -/
theorem dmaProgram_eq_done {c : Chan} {desc : Nat} {s t : State} {u : Unit} (h : dmaProgram c desc s = .done u t) :
    ∃ x, (s.chan c).programmed = false ∧ tabFind s.trbStore desc = some x ∧ desc % s.cfg.dmaAlign = 0 ∧
      x.addr % s.cfg.dmaAlign = 0 ∧ t = programmed c desc x s := by
  rcases dmaProgram_cases c desc s with ⟨-, e⟩ | ⟨-, -, e⟩ | ⟨x, hp, hx, ⟨-, e⟩ | ⟨hd, ha, e⟩⟩ <;> rw [e] at h <;> cases h
  exact ⟨x, hp, hx, hd, ha, rfl⟩

/-- DMA_PROGRAM is done where its checks pass (R151). -/
theorem dmaProgram_done {c : Chan} {desc : Nat} {s : State} {x : Trb} (hp : (s.chan c).programmed = false)
    (hx : tabFind s.trbStore desc = some x) (hd : desc % s.cfg.dmaAlign = 0) (ha : x.addr % s.cfg.dmaAlign = 0) :
    dmaProgram c desc s = .done () (programmed c desc x s) := by
  simp [dmaProgram, programCheck, hp, hx, hd, ha]

/-! ### The endpoint programmer -/

/-- EP_CONFIGURE for endpoint 0 changes endpoint 0 and the register trace alone (R170). -/
theorem configureEp0_eq (dir : Dir) (st : CtrlStage) (addr : DevAddr) (mps : Nat) (s : State) :
    configureEp0 dir st addr mps s = { s with
      ep0 := { mps := mps, devAddr := addr,
               toggle := if st = .data && dir = .in_ then s.ep0.toggle.set .in_ true else s.ep0.toggle }
      regtrace := s.regtrace ++ configureEp0Trace dir st addr mps } := by
  unfold configureEp0 configureEp0Trace
  cases st <;> cases dir <;> simp [State.logOp, State.logW, State.withEp0]

/-- EP_CONFIGURE for an endpoint 1..15 changes that endpoint and the register trace alone (R171). -/
theorem configureEp_eq (c : Chan) (ty : EpType) (tg : Bool) (addr : DevAddr) (mps interval : Nat) (s : State) :
    configureEp c ty tg addr mps interval s = { s with
      ep := (configureEp c ty tg addr mps interval s).ep
      regtrace := s.regtrace ++ (configureTrace c ty tg addr mps ++
        if ty = .interrupt && interval ≠ 0 then [.W .epTimer (.chanVal c (intTimerValue s.cfg interval))] else []) } := by
  unfold configureEp configureOps configureTrace
  generalize (decide (ty = .interrupt) && decide (interval ≠ 0)) = b
  cases b <;> simp [State.logOp, State.logW, State.setEndpoint, State.withEp]

theorem endpoint_configureEp (c b : Chan) (ty : EpType) (tg : Bool) (addr : DevAddr) (mps interval : Nat) (s : State) :
    (configureEp c ty tg addr mps interval s).endpoint b =
      if b = c then configuredEndpoint s.cfg (s.endpoint c) ty tg addr mps interval else s.endpoint b := by
  unfold configureEp
  generalize (decide (ty = .interrupt) && decide (interval ≠ 0)) = k
  simp only [State.endpoint_setEndpoint]
  split
  · rfl
  · exact State.endpoint_of_ep (by cases k <;> simp [configureOps]) b

end Sys2Proof.Machine
end

