-- ==== Sys2Proof/Laws/Micro.lean ====
section
/-! SUPPORT. What a command can do, said once: the micro-steps it is made of (`Micro`), what a part of a command that is done,
held or faulted has gone through (`Goes`), and for every command that drives the engines, that its meaning is a sequence of
micro-steps that its Result ends, or that stops before an access the Sequencer cannot make (`Ends`). The invariants and frames
of those commands follow by cases on one micro-step. -/

namespace Sys2Proof.Machine

/-- The command writes endpoint 0's registers. -/
def UsesEp0 (i : Instr) : Prop := (∃ a sp dd, i = .xferControl a sp dd) ∨ ∃ e d tg a st, i = .epConfigure e d tg a (.stage st)

/-- One micro-step of the begun command `i`, or the steps of the other agents between two of them; the region set and the
tick's mark change only where `al` is true. -/
inductive Micro (i : Instr) (al : Bool) : State → State → Prop where
  | agents (s : State) (h : s.seq.busy = true) : Micro i al s s.interleave
  | pos (s : State) (p : Pos) : Micro i al s (s.setPos p)
  | round (s : State) (n : Nat) : Micro i al s (s.setRound n)
  | tickFlag (s : State) (b : Bool) (h : i = .asyncTick) (ha : al = true) : Micro i al s (s.withSeq { s.seq with inTick := b })
  | log (s : State) (op : RegOp) : Micro i al s (s.logOp op)
  | select (s : State) (c : Chan) : Micro i al s (s.setSel c)
  | program (s : State) (c : Chan) (desc : Nat) (x : Trb) (hp : (s.chan c).programmed = false)
      (hx : tabFind s.trbStore desc = some x) : Micro i al s (programmed c desc x s)
  | clear (s : State) (c : Chan) : Micro i al s (dmaClear c s)
  | release (s : State) (c : Chan) : Micro i al s (dmaRelease c s)
  | reset (s : State) : Micro i al s (dmaReset s)
  | ep0 (s : State) (x : Ep0) (h : UsesEp0 i) : Micro i al s (s.withEp0 x)
  | endpoint (s : State) (c : Chan) (x : Endpoint) : Micro i al s (s.setEndpoint c x)
  | store (s : State) (a : Nat) (bs : List Byte) (h : IsSyncTransfer i) : Micro i al s (s.withMem (writeBytes s.mem a bs))
  | putTrb (s : State) (p : Nat) (x : Trb) (hs : s.cfg.wf = true → x.size ≤ s.cfg.maxTrbSize)
      (hp : p < addrSpace s.cfg.addrWidth) (ha : x.addr < addrSpace s.cfg.addrWidth) : Micro i al s (s.putTrb p x)
  | alloc (s : State) (n : Nat) (own : Owner) (h : al = true) : Micro i al s (s.allocRegion n own).2
  | free (s : State) (a : Nat) (h : al = true) : Micro i al s (s.freeRegion a)
  | freeTrb (s : State) (p : Nat) (h : al = true) : Micro i al s (s.freeTrb p)
  | stage (s : State) (x : Ep0Stage) (h : ∃ a sp dd, i = .xferControl a sp dd) : Micro i al s (s.withEp0Stage x)
  | enqueue (s : State) (x : AsyncEntry) (hl : s.cfg.wf = true → EntryLegal s.cfg x)
      (hn : ∀ y ∈ s.async, y.ep ≠ x.ep) (h : ∃ e d tg a sp, i = .asyncRegister e d tg a sp) :
      Micro i al s (s.withAsync (s.async ++ [x]))
  | dequeue (s : State) (ep : EpNum) (addr : DevAddr) (h : (∃ e a, i = .asyncCancel e a) ∨ i = .asyncTick) :
      Micro i al s (s.withAsync (removeEntry s.async ep addr))
  | service (s : State) (x : AsyncEntry) (before after : List AsyncEntry) (tg : Bool) (n : Nat)
      (hq : s.async = before ++ x :: after) (hn : n = x.index ∨ n = (x.index + 1) % s.cfg.asyncIter) (h : i = .asyncTick) :
      Micro i al s (s.withAsync (before ++ { x with toggle := tg, index := n } :: after))
  | emit (s : State) (e : Event) (h : i = .asyncTick) : Micro i al s (s.emit e)

/-- A sequence of micro-steps. -/
abbrev Runs (i : Instr) (al : Bool) : State → State → Prop := Relation.ReflTransGen (Micro i al)

theorem Micro.run {i : Instr} {al : Bool} {s t : State} (h : Micro i al s t) : Runs i al s t := .single h

/-- An allocation changes the region set and the oracle alone. -/
theorem allocRegion_eq (s : State) (n : Nat) (own : Owner) :
    (s.allocRegion n own).2 =
      { s with alloc := (s.allocRegion n own).2.alloc, oracle := (s.allocRegion n own).2.oracle } := by
  have key : s.drawAlloc.2 = s.withOracle s.drawAlloc.2.oracle := drawAlloc_eq s
  unfold State.allocRegion
  split
  · rename_i a t h
    have ht : t = s.withOracle t.oracle := by
      have : t = s.drawAlloc.2 := by rw [h]
      rw [this]; exact key
    split <;> (rw [ht]; rfl)
  · rename_i t h
    have ht : t = s.withOracle t.oracle := by
      have : t = s.drawAlloc.2 := by rw [h]
      rw [this]; exact key
    rw [ht]; rfl

/-! ### The Sequencer's own state -/

/-- The Sequencer executes `i`: it is busy with it, in a tick only if it is one, and only a tick has deferred commands. -/
def Executing (i : Instr) (s : State) : Prop :=
  s.seq.busy = true ∧ (∃ k p, s.seq.cmd = some ⟨i, k, p⟩) ∧
    (i ≠ .asyncTick → s.seq.inTick = false ∧ s.seq.deferred = [])

theorem executing_begin (i : Instr) (s : State) : Executing i (s.begin i) := ⟨rfl, ⟨0, _, rfl⟩, fun _ => ⟨rfl, rfl⟩⟩

theorem Executing.of_seq {i : Instr} {s t : State} (h : Executing i s) (e : t.seq = s.seq) : Executing i t := by
  unfold Executing at *
  rw [e]
  exact h

/-- No micro-step ends the command. -/
theorem Micro.executing {i : Instr} {al : Bool} {s t : State} (h : Micro i al s t) (hb : Executing i s) : Executing i t := by
  obtain ⟨h1, ⟨k, p, h2⟩, h3⟩ := hb
  cases h with
  | agents h =>
    have f := agentFrame_interleave s
    exact ⟨f.busy.trans h1, ⟨k, p, f.cmd.trans h2⟩, fun hi =>
      ⟨f.inTick.trans (h3 hi).1, (f.deferred (h3 hi).1).trans (h3 hi).2⟩⟩
  | pos q => exact ⟨h1, ⟨k, q, by simp [h2]⟩, h3⟩
  | round n => exact ⟨h1, ⟨n, p, by simp [h2]⟩, h3⟩
  | tickFlag b h ha => exact ⟨h1, ⟨k, p, h2⟩, fun hi => absurd h hi⟩
  | program c desc x hp hx => exact Executing.of_seq ⟨h1, ⟨k, p, h2⟩, h3⟩ (by rw [programmed_eq])
  | reset => exact Executing.of_seq ⟨h1, ⟨k, p, h2⟩, h3⟩ (by rw [dmaReset_eq])
  | alloc n own => exact Executing.of_seq ⟨h1, ⟨k, p, h2⟩, h3⟩ (by rw [allocRegion_eq])
  | _ => exact ⟨h1, ⟨k, p, h2⟩, h3⟩

theorem Runs.executing {i : Instr} {al : Bool} {s t : State} (h : Runs i al s t) (hb : Executing i s) : Executing i t := by
  induction h with
  | refl => exact hb
  | tail _ h ih => exact h.executing ih

theorem Micro.busy {i : Instr} {al : Bool} {s t : State} (h : Micro i al s t) (hb : s.seq.busy = true) : t.seq.busy = true := by
  cases h with
  | agents h => exact (agentFrame_interleave s).busy.trans hb
  | program c desc x hp hx => rw [programmed_eq]; exact hb
  | reset => rw [dmaReset_eq]; exact hb
  | alloc n own => rw [allocRegion_eq]; exact hb
  | _ => exact hb

theorem Runs.busy {i : Instr} {al : Bool} {s t : State} (h : Runs i al s t) (hb : s.seq.busy = true) : t.seq.busy = true := by
  induction h with
  | refl => exact hb
  | tail _ h ih => exact h.busy ih

/-! ### What no engine command changes -/

/-- What no engine command changes, and what only some do (R31, R44, R52, R54). -/
structure RunFrame (i : Instr) (al : Bool) (s t : State) : Prop where
  alloc : al = false → t.alloc = s.alloc
  inTick : al = false → t.seq.inTick = s.seq.inTick
  otg : t.otg = { s.otg with flags := t.otg.flags, inputs := t.otg.inputs }
  flags : orFlags s.otg.flags t.otg.flags = t.otg.flags
  port : t.port = s.port
  hcState : t.hcState = s.hcState
  secondary : t.secondary = s.secondary
  args : t.args = s.args
  cfg : t.cfg = s.cfg
  fault : t.fault = s.fault
  hostQueue : t.hostQueue = s.hostQueue
  regtrace : s.regtrace <+: t.regtrace
  trace : i ≠ .asyncTick → t.trace = s.trace
  tracePrefix : s.trace <+: t.trace
  stage : (∀ a sp dd, i ≠ .xferControl a sp dd) → t.ep0Stage = s.ep0Stage
  async : (∀ e d tg a sp, i ≠ .asyncRegister e d tg a sp) → (∀ e a, i ≠ .asyncCancel e a) → i ≠ .asyncTick →
    t.async = s.async
  ep0 : ¬UsesEp0 i → t.ep0 = { s.ep0 with toggle := t.ep0.toggle }

theorem RunFrame.refl (i : Instr) (al : Bool) (s : State) : RunFrame i al s s where
  alloc _ := rfl
  inTick _ := rfl
  otg := rfl
  flags := orFlags_self _
  port := rfl
  hcState := rfl
  secondary := rfl
  args := rfl
  cfg := rfl
  fault := rfl
  hostQueue := rfl
  regtrace := List.prefix_rfl
  trace _ := rfl
  tracePrefix := List.prefix_rfl
  stage _ := rfl
  async _ _ _ := rfl
  ep0 _ := rfl

theorem RunFrame.trans {i : Instr} {al : Bool} {s t u : State} (h : RunFrame i al s t) (k : RunFrame i al t u) :
    RunFrame i al s u where
  alloc ha := (k.alloc ha).trans (h.alloc ha)
  inTick ha := (k.inTick ha).trans (h.inTick ha)
  otg := by rw [k.otg, h.otg]
  flags := orFlags_trans h.flags k.flags
  port := k.port.trans h.port
  hcState := k.hcState.trans h.hcState
  secondary := k.secondary.trans h.secondary
  args := k.args.trans h.args
  cfg := k.cfg.trans h.cfg
  fault := k.fault.trans h.fault
  hostQueue := k.hostQueue.trans h.hostQueue
  regtrace := h.regtrace.trans k.regtrace
  trace hi := (k.trace hi).trans (h.trace hi)
  tracePrefix := h.tracePrefix.trans k.tracePrefix
  stage hi := (k.stage hi).trans (h.stage hi)
  async h1 h2 h3 := (k.async h1 h2 h3).trans (h.async h1 h2 h3)
  ep0 hi := by rw [k.ep0 hi, h.ep0 hi]

/-- What the other agents leave of a busy machine is what an engine command leaves. -/
theorem AgentFrame.runFrame {s t : State} (f : AgentFrame s t) (h : s.seq.busy = true) (i : Instr) (al : Bool) :
    RunFrame i al s t where
  alloc _ := f.alloc h
  inTick _ := f.inTick
  otg := by rw [f.otg, f.wake h]
  flags := f.flags
  port := f.port
  hcState := f.hcState
  secondary := f.secondary
  args := f.args
  cfg := f.cfg
  fault := f.fault
  hostQueue := f.hostQueue h
  regtrace := by rw [f.regtrace]
  trace _ := f.trace
  tracePrefix := by rw [f.trace]
  stage _ := f.ep0Stage
  async _ _ _ := f.async
  ep0 _ := f.ep0

/-- An operation of the DMA engine changes the DMA part, the oracle and the register trace alone. -/
theorem RunFrame.engine (i : Instr) (al : Bool) (s : State) (d : Dma) (o : Oracle) (l : List RegOp) :
    RunFrame i al s { s with dma := d, oracle := o, regtrace := s.regtrace ++ l } :=
  { RunFrame.refl i al s with regtrace := List.prefix_append s.regtrace l }

theorem Micro.frame {i : Instr} {al : Bool} {s t : State} (h : Micro i al s t) : RunFrame i al s t := by
  cases h with
  | agents h => exact (agentFrame_interleave s).runFrame h i al
  | program c desc x =>
    rw [programmed_eq]
    exact .engine i al s _ s.oracle _
  | pos p => exact { RunFrame.refl i al s with }
  | round n => exact { RunFrame.refl i al s with }
  | tickFlag b h ha => exact { RunFrame.refl i al s with inTick := fun hn => by rw [ha] at hn; cases hn }
  | select c => exact { RunFrame.refl i al s with }
  | endpoint c x => exact { RunFrame.refl i al s with }
  | store a bs h => exact { RunFrame.refl i al s with }
  | putTrb p x => exact { RunFrame.refl i al s with }
  | reset =>
    rw [dmaReset_eq]
    exact .engine i al s _ _ _
  | alloc n own h =>
    rw [allocRegion_eq]
    exact { RunFrame.refl i al s with alloc := fun ha => by rw [h] at ha; cases ha }
  | free a h => exact { RunFrame.refl i al s with alloc := fun ha => by rw [h] at ha; cases ha }
  | freeTrb p h => exact { RunFrame.refl i al s with alloc := fun ha => by rw [h] at ha; cases ha }
  | log op => exact { RunFrame.refl i al s with regtrace := List.prefix_append _ _ }
  | clear c => exact { RunFrame.refl i al s with regtrace := by simp [dmaClear, selectChan, State.logW, State.logOp] }
  | release c => exact { RunFrame.refl i al s with regtrace := by simp [dmaRelease, selectChan, State.logW, State.logOp] }
  | ep0 x h => exact { RunFrame.refl i al s with ep0 := fun hn => absurd h hn }
  | stage x h =>
    obtain ⟨a, sp, dd, rfl⟩ := h
    exact { RunFrame.refl _ al s with stage := fun hn => absurd rfl (hn a sp dd) }
  | enqueue x hl hn h =>
    obtain ⟨e, d, tg, a, sp, rfl⟩ := h
    exact { RunFrame.refl _ al s with async := fun hn _ _ => absurd rfl (hn e d tg a sp) }
  | dequeue ep addr h =>
    exact { RunFrame.refl i al s with
            async := fun _ h1 h2 => by
              rcases h with ⟨e, a, rfl⟩ | rfl
              · exact absurd rfl (h1 e a)
              · exact absurd rfl h2 }
  | service x before after tg n hq hn h => exact { RunFrame.refl i al s with async := fun _ _ h2 => absurd h h2 }
  | emit e h => exact { RunFrame.refl i al s with trace := fun hn => absurd h hn, tracePrefix := List.prefix_append _ _ }

theorem Runs.frame {i : Instr} {al : Bool} {s t : State} (h : Runs i al s t) : RunFrame i al s t := by
  induction h with
  | refl => exact .refl i al _
  | tail _ h ih => exact ih.trans h.frame

/-! ### Parts of a command -/

/-- The Sequencer gets from `s` to `t` within command `i`. -/
def Does (i : Instr) (al : Bool) (s t : State) : Prop := s.seq.busy = true → Runs i al s t

theorem Does.refl (i : Instr) {al : Bool} (s : State) : Does i al s s := fun _ => .refl

theorem Does.trans {i : Instr} {al : Bool} {s t u : State} (h : Does i al s t) (k : Does i al t u) : Does i al s u := fun hb =>
  (h hb).trans (k ((h hb).busy hb))

theorem Runs.does {i : Instr} {al : Bool} {s t : State} (h : Runs i al s t) : Does i al s t := fun _ => h

theorem Micro.does {i : Instr} {al : Bool} {s t : State} (h : Micro i al s t) : Does i al s t := fun _ => .single h

theorem does_interleave (i : Instr) {al : Bool} (s : State) : Does i al s s.interleave := fun hb => .single (.agents s hb)

theorem does_atLine (i : Instr) {al : Bool} (l : Line) (s : State) : Does i al s (s.atLine l) :=
  (Micro.pos s _).does.trans (does_interleave i _)

/-- The Sequencer stands before an access of `i`. -/
def AtAccess (i : Instr) (t : State) : Prop := ∃ (v : State) (l : Line), t = v.setPos (.line l) ∧ accessLine i l = true

/-- A part of command `i` run from `s`: wherever it ends it went there by micro-steps, and where it is held it stands before
an access. -/
def Goes {α : Type} (i : Instr) (al : Bool) (s : State) (x : Part α) : Prop :=
  s.seq.busy = true → Runs i al s x.state ∧ ∀ t, x = .hold t → AtAccess i t

section goes
variable {α β : Type} {i : Instr} {al : Bool} {s t : State}

theorem Goes.andThen {x : Part α} {f : α → State → Part β} (hx : Goes i al s x)
    (hf : ∀ a t, x = .done a t → Runs i al s t → Goes i al t (f a t)) : Goes i al s (andThen x f) := fun hb => by
  obtain ⟨hr, hh⟩ := hx hb
  cases x with
  | done a t =>
    obtain ⟨hr2, hh2⟩ := hf a t rfl hr (hr.busy hb)
    exact ⟨hr.trans hr2, hh2⟩
  | hold t => exact ⟨hr, fun u hu => by cases hu; exact hh t rfl⟩
  | fault r t => exact ⟨hr, fun u hu => by cases hu⟩

theorem Does.goes {x : Part α} (h : Does i al s t) (k : Goes i al t x) : Goes i al s x := fun hb =>
  ⟨(h hb).trans (k ((h hb).busy hb)).1, (k ((h hb).busy hb)).2⟩

theorem goes_done (a : α) (s : State) : Goes i al s (.done a s) := fun _ => ⟨.refl, fun _ h => by cases h⟩

theorem goes_fault (r : FaultReason) (s : State) : Goes i al s (.fault r s : Part α) := fun _ => ⟨.refl, fun _ h => by cases h⟩

theorem goes_stuck {l : Line} (hl : accessLine i l = true) (s : State) : Goes i al s (stuckAt l s : Part α) := fun _ =>
  ⟨(Micro.pos s _).run, fun t h => by cases h; exact ⟨s, l, rfl, hl⟩⟩

/-- Where a part is done, the Sequencer got there. -/
theorem Goes.does {x : Part α} {a : α} (h : Goes i al s x) (hx : x = .done a t) : Does i al s t := fun hb => by
  have := (h hb).1
  rw [hx] at this
  exact this

end goes

/-! ### The parts of the commands -/

section parts
variable {i : Instr} {al : Bool}

theorem runs_logW (s : State) (r : Reg) (v : RegVal) : Runs i al s (s.logW r v) := .single (.log s _)

theorem runs_check (c : Chan) (s : State) : Runs i al s (dmaCheck c s) :=
  ((runs_logW s _ _).trans (.single (.select _ c))).trans (.single (.log _ _))

theorem goes_program (c : Chan) (desc : Nat) (s : State) : Goes i al s (dmaProgram c desc s) := by
  rcases dmaProgram_cases c desc s with ⟨-, e⟩ | ⟨-, -, e⟩ | ⟨x, hp, hx, ⟨-, e⟩ | ⟨-, -, e⟩⟩ <;> rw [e]
  · exact goes_fault _ s
  · exact goes_fault _ s
  · exact goes_fault _ s
  · exact (Micro.program s c desc x hp hx).does.goes (goes_done _ _)

theorem does_waitLoop (c : Chan) (n : Nat) (s : State) : Does i al s (waitLoop c n s).2 := by
  induction n generalizing s with
  | zero => exact .refl i s
  | succ n ih =>
    have h : Does i al s (dmaCheck c (s.atPos (.waiting c (n + 1)))) :=
      ((Micro.pos s _).does.trans (does_interleave i _)).trans (runs_check c _).does
    unfold waitLoop
    simp only []
    split
    · exact h
    · exact h.trans (ih _)

theorem goes_stageComplete (c : Chan) (s : State) : Goes i al s (stageComplete c s) := by
  unfold stageComplete
  have h : Does i al s (dmaClear c (((s.atLine .translate).atLine .capture).atLine .clear)) :=
    (((does_atLine i _ s).trans (does_atLine i _ _)).trans (does_atLine i _ _)).trans (Micro.clear _ c).does
  simp only []
  refine Does.goes ?_ (goes_done _ _)
  split
  · exact (h.trans (does_atLine i _ _)).trans (Micro.release _ c).does
  · exact (((h.trans (does_atLine i _ _)).trans (Micro.reset _).does).trans (does_atLine i _ _)).trans
      (Micro.release _ c).does

theorem goes_stageTimeout (c : Chan) (s : State) : Goes i al s (stageTimeout c s) :=
  ((((does_atLine i _ s).trans (Micro.reset _).does).trans (does_atLine i _ _)).trans (Micro.release _ c).does).goes
    (goes_done _ _)

theorem goes_stageCycle (c : Chan) (trb : Nat) (kind : XferKind) (s : State) : Goes i al s (stageCycle c trb kind s) := by
  refine (does_atLine i _ s).goes ((goes_program c trb _).andThen fun _ t _ _ => ?_)
  refine (does_waitLoop c (waitBudget t.cfg kind t.args.timeout) t).goes ?_
  simp only []
  split
  · exact goes_stageComplete c _
  · exact goes_stageTimeout c _

theorem goes_writeTrb {p : Nat} {x : Trb} {s : State} (hl : accessLine i .writeTrb = true)
    (hs : s.cfg.wf = true → x.size ≤ s.cfg.maxTrbSize) : Goes i al s (writeTrb p x s) := by
  unfold writeTrb
  split
  · rename_i h
    simp only [Bool.and_eq_true, decide_eq_true_eq] at h
    exact (Micro.putTrb s p x hs h.1 h.2).does.goes (goes_done _ _)
  · exact goes_stuck hl s

theorem goes_seqRead {l : Line} (hl : accessLine i l = true) (own : List Owner) (a n : Nat) (s : State) :
    Goes i al s (seqRead l own a n s) := by
  unfold seqRead
  split
  · exact goes_done _ _
  · exact goes_stuck hl s

theorem goes_seqWrite (hi : IsSyncTransfer i) {l : Line} (hl : accessLine i l = true) (own : List Owner) (a : Nat)
    (bs : List Byte) (s : State) : Goes i al s (seqWrite l own a bs s) := by
  unfold seqWrite
  split
  · exact (Micro.store _ _ _ hi).does.goes (goes_done _ _)
  · exact goes_stuck hl s

theorem goes_copy (hi : IsSyncTransfer i) {l : Line} (hl : accessLine i l = true) (src : List Owner) (a : Nat)
    (dst : List Owner) (b n : Nat) (s : State) : Goes i al s (copyBytes l src a dst b n s) :=
  (goes_seqRead hl src a n s).andThen fun bs t _ _ => goes_seqWrite hi hl dst b bs t

theorem IsSyncTransfer.access {l : Line} (hi : IsSyncTransfer i) (hl : l = .fill ∨ l = .writeTrb ∨ l = .deliver) :
    accessLine i l = true := by
  rcases hi with ⟨_, _, _, rfl⟩ | ⟨_, _, _, _, _, rfl⟩ | ⟨_, _, _, _, _, rfl⟩ <;> rcases hl with rfl | rfl | rfl <;> rfl

theorem goes_fillOut (hi : IsSyncTransfer i) (dir : Dir) (src dst n : Nat) (s : State) :
    Goes i al s (fillOut dir src dst n s) := by
  unfold fillOut
  split
  · exact (does_atLine i _ s).goes (goes_copy hi (hi.access (.inl rfl)) _ _ _ _ _ _)
  · exact goes_done _ s

theorem goes_deliverIn (hi : IsSyncTransfer i) (dir : Dir) (src dst n : Nat) (s : State) :
    Goes i al s (deliverIn dir src dst n s) := by
  unfold deliverIn
  split
  · exact (does_atLine i _ s).goes (goes_copy hi (hi.access (.inr (.inr rfl))) _ _ _ _ _ _)
  · exact goes_done _ s

theorem goes_trbCycle (hi : IsSyncTransfer i) (c : Chan) (trb : Nat) {x : Trb} (kind : XferKind) {s : State}
    (hs : s.cfg.wf = true → x.size ≤ s.cfg.maxTrbSize) : Goes i al s (trbCycle c trb x kind s) := by
  have hc : (s.atLine .writeTrb).cfg = s.cfg := (agentFrame_interleave _).cfg
  refine (does_atLine i _ s).goes ((goes_writeTrb (hi.access (.inr (.inl rfl))) (by rw [hc]; exact hs)).andThen
    fun _ t _ _ => goes_stageCycle c trb kind t)

theorem runs_configureEp0 (hi : UsesEp0 i) (dir : Dir) (st : CtrlStage) (addr : DevAddr) (mps : Nat) (s : State) :
    Runs i al s (configureEp0 dir st addr mps s) := by
  have h : Runs i al s ((((s.logW .ep0Mps (.num mps)).logW .ep0Addr (.num addr.toNat)).logOp (.fifoReset ⟨0, dir⟩)).withEp0
      { s.ep0 with mps := mps, devAddr := addr }) :=
    (((runs_logW s _ _).trans (runs_logW _ _ _)).trans (.single (.log _ _))).trans (.single (.ep0 _ _ hi))
  unfold configureEp0
  simp only []
  split
  · exact (h.trans (runs_logW _ _ _)).trans (.single (.ep0 _ _ hi))
  · exact h

theorem runs_configureOps (c : Chan) (ty : EpType) (tg : Bool) (addr : DevAddr) (mps : Nat) (s : State) :
    Runs i al s (configureOps c ty tg addr mps s) :=
  (((((((runs_logW s _ _).trans (runs_logW _ _ _)).trans (runs_logW _ _ _)).trans (runs_logW _ _ _)).trans
    (runs_logW _ _ _)).trans (.single (.log _ _))).trans (runs_logW _ _ _)).trans (runs_logW _ _ _)

theorem runs_configureEp (c : Chan) (ty : EpType) (tg : Bool) (addr : DevAddr) (mps interval : Nat) (s : State) :
    Runs i al s (configureEp c ty tg addr mps interval s) := by
  unfold configureEp
  simp only []
  split
  · exact ((runs_configureOps c ty tg addr mps s).trans (runs_logW _ _ _)).trans (.single (.endpoint _ _ _))
  · exact (runs_configureOps c ty tg addr mps s).trans (.single (.endpoint _ _ _))

theorem runs_foldl {α : Type} {f : State → α → State} (h : ∀ s x, Runs i al s (f s x)) (l : List α) (s : State) :
    Runs i al s (l.foldl f s) := by
  induction l generalizing s with
  | nil => exact .refl
  | cons x l ih => exact (h s x).trans (ih _)

theorem does_releaseAll (trb : Nat) (stg : List Nat) (s : State) : Does i true s (releaseAll trb stg s) :=
  (does_atLine i _ s).trans ((Micro.freeTrb _ trb rfl).does.trans (runs_foldl (fun s a => .single (.free s a rfl)) stg _).does)

theorem does_acquire (reqs : List (Nat × Owner)) (s : State) : Does i true s (acquire reqs s).2 := by
  induction reqs generalizing s with
  | nil => exact .refl i s
  | cons r reqs ih =>
    obtain ⟨n, own⟩ := r
    have h : Does i true s ((s.atLine (.alloc (reqs.length + 1))).allocRegion n own).2 :=
      (does_atLine i _ s).trans (Micro.alloc _ n own rfl).does
    unfold acquire
    split
    · rename_i t ht
      rw [ht] at h; exact h
    · rename_i a t ht
      rw [ht] at h
      have h2 := h.trans (ih t)
      split
      · rename_i u hu
        rw [hu] at h2
        exact h2.trans (Micro.free _ _ rfl).does
      · rename_i as u hu
        rw [hu] at h2
        exact h2

theorem goes_arm {c : Chan} {tg : Bool} {addr : DevAddr} {mps interval trb data len : Nat}
    (hl : accessLine i .writeTrb = true) (s : State) :
    Goes i al s (armInterrupt c tg addr mps interval trb data len s) := by
  unfold armInterrupt
  split
  · exact goes_done _ s
  · rename_i h
    simp only [Bool.or_eq_true, decide_eq_true_eq, not_or, Nat.not_lt] at h
    refine ((does_atLine i _ s).trans (runs_configureEp c .interrupt tg addr mps interval _).does).goes
      ((does_atLine i _ _).goes ((goes_writeTrb hl fun _ => ?_).andThen fun _ t _ _ =>
        (does_atLine i _ t).goes ((goes_program c trb _).andThen fun _ u _ _ => goes_done _ u)))
    rw [State.atPos_cfg, configureEp_eq, State.atPos_cfg]
    exact h.2

end parts

/-! ### Transfers -/

theorem ceilDiv_mul_ge (a : Nat) {b : Nat} (h : 0 < b) : a ≤ ceilDiv a b * b := by
  unfold ceilDiv
  have := Nat.div_add_mod (a + b - 1) b
  have := Nat.mod_lt (a + b - 1) h
  have := Nat.mul_comm b ((a + b - 1) / b)
  omega

/-- No chunk is longer than a burst (R190). -/
theorem chunkSize_le (len i : Nat) {burst : Nat} (h : 0 < burst) : chunkSize len burst i ≤ burst := by
  unfold chunkSize chunkCount
  split
  · exact le_refl _
  · have h1 := ceilDiv_mul_ge len h
    cases hc : ceilDiv len burst with
    | zero => rw [hc] at h1; omega
    | succ n => rw [hc, Nat.succ_mul] at h1; simp only [Nat.add_sub_cancel]; omega

section xfer
variable {i : Instr} {al : Bool}

theorem does_controlBegin (hi : ∃ a sp dd, i = .xferControl a sp dd) (round : Nat) (stage : Ep0Stage) (dir : Dir)
    (st : CtrlStage) (addr : DevAddr) (s : State) : Does i al s (controlBegin round stage dir st addr s) :=
  (((Micro.round s round).does.trans (does_atLine i _ _)).trans (Micro.stage _ stage hi).does).trans
    (runs_configureEp0 (.inl hi) dir st addr s.args.mps _).does

theorem goes_controlSetup (hi : ∃ a sp dd, i = .xferControl a sp dd) (addr : DevAddr) (trb sb : Nat) (s : State) :
    Goes i al s (controlSetup addr trb sb s) := by
  have hs : IsSyncTransfer i := .inl hi
  refine (does_controlBegin hi 0 .setup .out .setup addr s).goes ((does_atLine i _ _).goes
    ((goes_seqWrite hs (hs.access (.inl rfl)) _ _ _ _).andThen fun _ t _ _ => goes_trbCycle hs _ _ _ fun hw => ?_))
  simp only [Params.wf, Bool.and_eq_true, decide_eq_true_eq] at hw
  exact hw.1.1.1.1.2

theorem goes_controlData (hi : ∃ a sp dd, i = .xferControl a sp dd) (addr : DevAddr) (dir : Dir) (trb db : Nat) {s : State}
    (hlen : s.args.len ≤ s.cfg.maxTrbSize) : Goes i al s (controlData addr dir trb db s) := by
  intro hb
  have hs : IsSyncTransfer i := .inl hi
  have h0 := does_controlBegin (al := al) hi 1 .data dir .data addr s
  have hf := (h0 hb).frame
  refine h0.goes ((goes_fillOut hs dir _ _ _ _).andThen fun _ t _ hr => (goes_trbCycle hs _ _ _ fun _ => ?_).andThen
    fun e u _ _ => ?_) hb
  · simp only []
    rw [hr.frame.args, hr.frame.cfg, hf.args, hf.cfg]
    exact hlen
  · split
    · exact (goes_deliverIn hs dir _ _ _ u).andThen fun _ v _ _ => goes_done _ v
    · exact goes_done _ u

theorem goes_controlStatus (hi : ∃ a sp dd, i = .xferControl a sp dd) (addr : DevAddr) (dd : DataDir) (trb sb len : Nat)
    (s : State) : Goes i al s (controlStatus addr dd trb sb len s) :=
  (does_controlBegin hi 2 .status (statusDir dd) .status addr s).goes
    ((goes_trbCycle (.inl hi) _ _ _ fun _ => Nat.zero_le _).andThen fun _ t _ _ => goes_done _ t)

theorem goes_controlStages (hi : ∃ a sp dd, i = .xferControl a sp dd) (addr : DevAddr) (dd : DataDir) (trb sb db : Nat)
    {s : State} (hlen : s.args.len ≤ s.cfg.maxTrbSize) : Goes i al s (controlStages addr dd trb sb db s) := by
  refine (goes_controlSetup hi addr trb sb s).andThen fun e t _ hr => ?_
  split
  · refine Goes.andThen ?_ fun d u _ _ => ?_
    · unfold controlMiddle
      split
      · exact goes_controlData hi addr _ trb db (by rw [hr.frame.args, hr.frame.cfg]; exact hlen)
      · exact goes_done _ t
    · split
      · exact goes_controlStatus hi addr dd trb sb _ u
      · exact goes_done _ u
  · exact goes_done _ t

theorem goes_bulkChunk (hi : IsSyncTransfer i) (c : Chan) (trb stg k : Nat) (s : State) :
    Goes i al s (bulkChunk c trb stg k s) := by
  intro hb
  refine (Micro.round s k).does.goes ((goes_fillOut hi c.dir _ _ _ _).andThen fun _ t _ hr =>
    (goes_trbCycle hi c trb _ fun hw => ?_).andThen fun e u _ _ => ?_) hb
  · have hc : t.cfg = s.cfg := hr.frame.cfg
    rw [hc] at hw ⊢
    simp only [Params.wf, Bool.and_eq_true, decide_eq_true_eq] at hw
    exact (chunkSize_le _ _ hw.1.1.1.1.1.1).trans hw.1.1.1.1.1.2
  · split
    · exact (goes_deliverIn hi c.dir _ _ _ u).andThen fun _ v _ _ => goes_done _ v
    · exact goes_done _ u

theorem goes_bulkLoop (hi : IsSyncTransfer i) (c : Chan) (trb stg n k len : Nat) (s : State) :
    Goes i al s (bulkLoop c trb stg n k len s) := by
  induction n generalizing s k len with
  | zero => exact goes_done _ s
  | succ n ih =>
    refine (goes_bulkChunk hi c trb stg k s).andThen fun e t _ _ => ?_
    split
    · exact ih _ _ t
    · exact goes_done _ t

theorem goes_intSync (hi : IsSyncTransfer i) (c : Chan) (trb stg : Nat) {s : State}
    (hlen : s.args.len ≤ s.cfg.maxTrbSize) : Goes i al s (intSyncCycle c trb stg s) := by
  refine (goes_fillOut hi c.dir _ _ _ s).andThen fun _ t _ hr => (goes_trbCycle hi c trb _ fun _ => ?_).andThen
    fun e u _ _ => ?_
  · simp only []
    rw [hr.frame.args, hr.frame.cfg]
    exact hlen
  · split
    · exact (goes_deliverIn hi c.dir _ _ _ u).andThen fun _ v _ _ => goes_done _ v
    · exact goes_done _ u

theorem does_finishTransfer (j : Instr) (c : Chan) (trb stg : Nat) (e : XferEnd) (s : State) :
    ∃ u st o, Does i true s u ∧ finishTransfer j c trb stg e s = u.finish j st o :=
  ⟨_, _, _, ((does_atLine i _ s).trans (Micro.log _ _).does).trans (does_releaseAll trb [stg] _), rfl⟩

end xfer

/-! ### How a command ends -/

/-- A begun command answers: it returns by its Result, or it is stuck before an access of its own. -/
inductive Ends (i : Instr) (s : State) : State → Prop where
  | returned {u : State} (st : Status) (o : Outs) (h : Runs i true (s.begin i) u) : Ends i s (u.finish i st o)
  | stuck {t : State} (h : Runs i true (s.begin i) t) (ha : AtAccess i t) (ht : t.seq.inTick = decide (i = .asyncTick)) :
      Ends i s t

theorem runs_started (i : Instr) (s : State) {al : Bool} : Runs i al (s.begin i) (s.started i) := .single (.agents _ rfl)

theorem ends_started (i : Instr) (s : State) {u : State} (st : Status) (o : Outs) (h : Does i true (s.started i) u) :
    Ends i s (u.finish i st o) := .returned st o ((runs_started i s).trans (h (State.started_busy s i)))

/-- A command, not a tick, that is a part followed by its return. -/
theorem ends_conclude {α : Type} {i : Instr} (hi : i ≠ .asyncTick) {s v t : State} {x : Part α} {f : α → State → Part Unit}
    (h0 : Does i true (s.started i) v) (hx : Goes i true v x)
    (hf : ∀ a u, x = .done a u → Runs i true v u → ∃ w st o, f a u = .done () (w.finish i st o) ∧ Does i true u w)
    (h : conclude (andThen x f) = .next t) : Ends i s t := by
  have hv : Runs i true (s.begin i) v := (runs_started i s).trans (h0 (State.started_busy s i))
  obtain ⟨hr, hh⟩ := hx (hv.busy rfl)
  cases x with
  | done a u =>
    have hr : Runs i true v u := hr
    obtain ⟨w, st, o, e, hw⟩ := hf a u rfl hr
    rw [andThen_done, e] at h
    cases h
    have hu : Runs i true (s.begin i) u := hv.trans hr
    exact .returned st o (hu.trans (hw (hu.busy rfl)))
  | hold u =>
    cases h
    have hu : Runs i true (s.begin i) t := hv.trans hr
    exact .stuck hu (hh _ rfl) (by
      rw [((hu.executing (executing_begin i s)).2.2 hi).1]
      simp [hi])
  | fault r u => cases h

/-- A synchronous transfer that answers. -/
theorem sync_ends {i : Instr} {s t : State} (hi : IsSyncTransfer i) (h : exec i s = .next t) : Ends i s t := by
  have hacq : ∀ reqs u r, acquire reqs (s.started i) = (r, u) → Does i true (s.started i) u := fun reqs u r e => by
    have := does_acquire (i := i) reqs (s.started i)
    rwa [e] at this
  have hfr : ∀ u, Does i true (s.started i) u → u.args = s.args ∧ u.cfg = s.cfg := fun u hu => by
    have f := (hu (State.started_busy s i)).frame
    exact ⟨f.args.trans (State.started_args s i), f.cfg.trans (State.started_cfg s i)⟩
  rcases hi with ⟨a, sp, dd, rfl⟩ | ⟨e, d, tg, a, sp, rfl⟩ | ⟨e, d, tg, a, sp, rfl⟩
  · simp only [exec, execXferControl] at h
    split at h
    · rename_i hok
      split at h
      · rename_i trb sb db u hu
        have hd := hacq _ _ _ hu
        simp only [controlOk, Bool.and_eq_true, decide_eq_true_eq] at hok
        refine ends_conclude (by simp) hd (goes_controlStages ⟨a, sp, dd, rfl⟩ a dd trb sb (db.headD 0) ?_) (fun e v _ _ => ?_) h
        · rw [(hfr u hd).1, (hfr u hd).2, ← State.started_args s (.xferControl a sp dd), ← State.started_cfg s (.xferControl a sp dd)]
          exact hok.1.2
        · exact ⟨_, _, _, rfl, (Micro.stage _ .idle ⟨a, sp, dd, rfl⟩).does.trans (does_releaseAll _ _ _)⟩
      · rename_i w _ hw
        cases h
        exact ends_started _ s _ _ (hacq _ _ _ hw)
    · cases h
      exact ends_started _ s _ _ (.refl _ _)
  · have hi : IsSyncTransfer (.xferBulk e d tg a sp) := .inr (.inl ⟨e, d, tg, a, sp, rfl⟩)
    simp only [exec, execXferBulk] at h
    split at h
    · split at h
      · rename_i trb stg u hu
        refine ends_conclude (by simp) ((hacq _ _ _ hu).trans ((does_atLine _ _ _).trans (runs_configureEp _ _ _ _ _ _ _).does))
          (goes_bulkLoop hi _ _ _ _ _ _ _) (fun e v _ _ => ?_) h
        obtain ⟨w, st, o, hw, he⟩ := does_finishTransfer (i := .xferBulk _ d tg a sp) _ _ trb stg e v
        exact ⟨w, st, o, by rw [he], hw⟩
      · rename_i w _ hw
        cases h
        exact ends_started _ s _ _ (hacq _ _ _ hw)
    · cases h
      exact ends_started _ s _ _ (.refl _ _)
  · have hi : IsSyncTransfer (.xferIntSync e d tg a sp) := .inr (.inr ⟨e, d, tg, a, sp, rfl⟩)
    simp only [exec, execXferIntSync] at h
    split at h
    · rename_i hok
      split at h
      · rename_i trb stg u hu
        have hd := (hacq _ _ _ hu).trans ((does_atLine (al := true) (.xferIntSync e d tg a sp) .configure _).trans
          (runs_configureEp ⟨e, d⟩ .interrupt tg a u.args.mps u.args.interval _).does)
        simp only [intSyncOk, Bool.and_eq_true, decide_eq_true_eq] at hok
        refine ends_conclude (by simp) hd (goes_intSync hi _ _ _ ?_) (fun e v _ _ => ?_) h
        · rw [(hfr _ hd).1, (hfr _ hd).2, ← State.started_args s (.xferIntSync e d tg a sp),
            ← State.started_cfg s (.xferIntSync e d tg a sp)]
          exact hok.1.2
        · obtain ⟨w, st, o, hw, he⟩ := does_finishTransfer (i := .xferIntSync _ d tg a sp) _ _ trb stg e v
          exact ⟨w, st, o, by rw [he], hw⟩
      · rename_i w _ hw
        cases h
        exact ends_started _ s _ _ (hacq _ _ _ hw)
    · cases h
      exact ends_started _ s _ _ (.refl _ _)

/-! ### The queue -/

section queue
variable {i : Instr} {al : Bool}

theorem does_cancelChannel (x : AsyncEntry) (s : State) : Does i al s (cancelChannel x s) := by
  unfold cancelChannel
  split
  · exact (((does_atLine i _ s).trans (Micro.clear _ _).does).trans (does_atLine i _ _)).trans (Micro.release _ _).does
  · exact .refl i s

theorem does_cancelFree (x : AsyncEntry) (s : State) : Does i true s (cancelFree x s) :=
  ((does_atLine i _ s).trans (Micro.free _ x.buf rfl).does).trans
    (runs_foldl (fun s p => .single (.freeTrb s p rfl)) x.pool _).does

theorem does_cancelEntry (hi : (∃ e a, i = .asyncCancel e a) ∨ i = .asyncTick) (ep : EpNum) (addr : DevAddr)
    (s : State) : Does i true s (cancelEntry ep addr s).2 := by
  unfold cancelEntry
  split
  · exact .refl i s
  · exact ((does_cancelChannel _ s).trans (does_cancelFree _ _)).trans (Micro.dequeue _ ep addr hi).does

theorem does_finishDeferred (k : Nat) (reqs : List CancelReq) (s : State) : Does .asyncTick true s (runDeferred k reqs s) := by
  induction reqs generalizing s k with
  | nil => exact .refl _ _
  | cons q reqs ih =>
    exact (((Micro.round s k).does.trans (does_cancelEntry (.inr rfl) q.ep q.addr _)).trans
      (Micro.emit _ _ rfl).does).trans (ih _ _)

theorem does_tickEnd (s : State) : Does .asyncTick true s (tickEnd s) :=
  (Micro.tickFlag s false rfl rfl).does.trans (does_finishDeferred 0 _ _)

/-- An entry in place replaced. -/
theorem setEntry_append {s : State} {before after : List AsyncEntry} {x : AsyncEntry} (y : AsyncEntry)
    (h : s.async = before ++ x :: after) : s.setEntry before.length y = s.withAsync (before ++ y :: after) := by
  unfold State.setEntry
  rw [h]
  simp

/-- The visit of the entry that stands after `before`, up to its arm: skipped, or completed, its toggle and index written. -/
theorem tickEntry_parts {x : AsyncEntry} {before after : List AsyncEntry} {s : State} (hq : s.async = before ++ x :: after) :
    (∃ u, Does .asyncTick al s u ∧ u.async = s.async ∧ tickEntry before.length x s = .done () u) ∨
    ∃ u y a r, Does .asyncTick al s u ∧ u.async = before ++ y :: after ∧
      y = { x with toggle := y.toggle, index := (x.index + 1) % s.cfg.asyncIter } ∧
      tickEntry before.length x s = andThen (armSlice y u) fun _ v =>
        andThen (seqRead .callback [.async] (x.buf + x.index * sliceBytes v.cfg x.len) a
          (v.atLine .callback)) fun data w => .done () (w.emit (.callback x.callback x.ctx data a r)) := by
  have h0 : Does .asyncTick al s (dmaCheck (entryChan x) (s.atLine .check)) :=
    (does_atLine _ _ s).trans (runs_check _ _).does
  have hc0 : (dmaCheck (entryChan x) (s.atLine .check)).cfg = s.cfg := State.atPos_cfg s _
  have ha0 : (dmaCheck (entryChan x) (s.atLine .check)).async = s.async := State.atPos_async s _
  unfold tickEntry
  simp only []
  split
  · right
    generalize dmaCheck (entryChan x) (s.atLine .check) = u at h0 hc0 ha0
    have h1 := (((h0.trans (does_atLine _ .translate _)).trans (does_atLine _ .capture _)).trans
      (does_atLine _ .readToggle _)).trans (Micro.log _ (.R .epToggle)).does
    have hc1 : ((((u.atLine .translate).atLine .capture).atLine .readToggle).logOp (.R .epToggle)).cfg = s.cfg := by
      simp [hc0]
    have ha1 : ((((u.atLine .translate).atLine .capture).atLine .readToggle).logOp (.R .epToggle)).async =
        before ++ x :: after := by simp [ha0, hq]
    unfold tickComplete
    simp only []
    generalize (((u.atLine .translate).atLine .capture).atLine .readToggle).logOp (.R .epToggle) = u4 at *
    generalize translate (u.atLine .translate) (entryChan x) = r
    generalize (((u.atLine .translate).atLine .capture).chan (entryChan x)).actual = a
    -- the toggle written, then clear and reset
    rw [setEntry_append _ ha1]
    have h2 := ((h1.trans (Micro.service u4 x before after (u4.toggle (entryChan x)) x.index ha1 (.inl rfl) rfl).does).trans
      (does_atLine _ .clear _)).trans (Micro.clear _ (entryChan x)).does
    have hc2 : (dmaClear (entryChan x) ((u4.withAsync (before ++ { x with toggle := u4.toggle (entryChan x) } ::
        after)).atLine .clear)).cfg = s.cfg := (State.atPos_cfg _ _).trans hc1
    have ha2 : (dmaClear (entryChan x) ((u4.withAsync (before ++ { x with toggle := u4.toggle (entryChan x) } ::
        after)).atLine .clear)).async = before ++ { x with toggle := u4.toggle (entryChan x) } :: after :=
      State.atPos_async _ _
    generalize dmaClear (entryChan x) ((u4.withAsync (before ++ { x with toggle := u4.toggle (entryChan x) } ::
        after)).atLine .clear) = u6 at *
    generalize u4.toggle (entryChan x) = tg at *
    have h3 : Does .asyncTick al s (if r.1 = .success then u6 else dmaReset (u6.atLine .reset)) := by
      split
      · exact h2
      · exact (h2.trans (does_atLine _ _ _)).trans (Micro.reset _).does
    have hc3 : (if r.1 = .success then u6 else dmaReset (u6.atLine .reset)).cfg = s.cfg := by
      split
      · exact hc2
      · rw [dmaReset_eq]; exact (State.atPos_cfg _ _).trans hc2
    have ha3 : (if r.1 = .success then u6 else dmaReset (u6.atLine .reset)).async =
        before ++ { x with toggle := tg } :: after := by
      split
      · exact ha2
      · rw [dmaReset_eq]; exact (State.atPos_async _ _).trans ha2
    generalize (if r.1 = .success then u6 else dmaReset (u6.atLine .reset)) = u7 at *
    -- the release, and the index written
    have h4 := (h3.trans (does_atLine _ .release _)).trans (Micro.release _ (entryChan x)).does
    have hc4 : (dmaRelease (entryChan x) (u7.atLine .release)).cfg = s.cfg := (State.atPos_cfg _ _).trans hc3
    have ha4 : (dmaRelease (entryChan x) (u7.atLine .release)).async = before ++ { x with toggle := tg } :: after :=
      (State.atPos_async _ _).trans ha3
    generalize dmaRelease (entryChan x) (u7.atLine .release) = u8 at *
    rw [setEntry_append _ ha4, hc4]
    refine ⟨_, _, a, r.2, h4.trans (Micro.service u8 _ before after tg ((x.index + 1) % s.cfg.asyncIter) ha4
      (.inr (by rw [hc4])) rfl).does, rfl, rfl, rfl⟩
  · exact .inl ⟨_, h0, ha0, rfl⟩

theorem goes_armSlice {x : AsyncEntry} (hl : accessLine i .writeTrb = true) (s : State) : Goes i al s (armSlice x s) :=
  goes_arm hl s

/-- The visit of one entry. -/
theorem goes_tickEntry {x : AsyncEntry} {before after : List AsyncEntry} {s : State} (hq : s.async = before ++ x :: after) :
    Goes .asyncTick al s (tickEntry before.length x s) := by
  rcases tickEntry_parts (al := al) hq with ⟨u, hu, -, e⟩ | ⟨u, y, a, r, hu, -, -, e⟩ <;> rw [e]
  · exact hu.goes (goes_done _ _)
  · refine hu.goes ((goes_armSlice rfl u).andThen fun _ v _ _ => (does_atLine _ _ v).goes
      ((goes_seqRead rfl _ _ _ _).andThen fun _ w _ _ => (Micro.emit w _ rfl).does.goes (goes_done _ _)))

theorem seqRead_eq_done {l : Line} {own : List Owner} {a n : Nat} {s t : State} {bs : List Byte}
    (h : seqRead l own a n s = .done bs t) : s.admits own a n = true ∧ bs = readBytes s.mem a n ∧ t = s := by
  unfold seqRead at h
  split at h
  · cases h; exact ⟨‹_›, rfl, rfl⟩
  · cases h

/-- An arm changes nothing of the queue. -/
theorem armInterrupt_async {c : Chan} {tg : Bool} {addr : DevAddr} {mps interval trb data len : Nat} {s t : State} {st : Status}
    (hb : s.seq.busy = true) (h : armInterrupt c tg addr mps interval trb data len s = .done st t) : t.async = s.async :=
  ((goes_arm (i := .xferIntAsyncArm 0 .out false 0 .full) (al := true) rfl _).does h hb).frame.async nofun nofun nofun

/-- Where the visit of an entry is done: the entry's toggle and index alone differ, and so does nothing else of the queue. -/
theorem tickEntry_done {x : AsyncEntry} {before after : List AsyncEntry} {s t : State} (hq : s.async = before ++ x :: after)
    (hb : s.seq.busy = true) (h : tickEntry before.length x s = .done () t) :
    ∃ y, t.async = before ++ y :: after ∧ y = { x with toggle := y.toggle, index := y.index } := by
  rcases tickEntry_parts (al := true) hq with ⟨u, hu, hau, e⟩ | ⟨u, y, a, r, hu, hau, hy, e⟩ <;> rw [e] at h
  · cases h
    exact ⟨x, hau.trans hq, rfl⟩
  · obtain ⟨st, v, hv, h⟩ := andThen_eq_done h
    obtain ⟨bs, w, hw, h⟩ := andThen_eq_done h
    obtain ⟨-, -, rfl⟩ := seqRead_eq_done hw
    cases h
    refine ⟨y, ?_, by rw [hy]⟩
    show (v.atLine .callback).async = _
    rw [State.atPos_async, armInterrupt_async ((hu hb).busy hb) hv, hau]

theorem goes_tickLoop {before rest : List AsyncEntry} {s : State} (hq : s.async = before ++ rest) :
    Goes .asyncTick al s (tickLoop before.length rest s) := by
  induction rest generalizing before s with
  | nil => exact goes_done _ s
  | cons x rest ih =>
    unfold tickLoop
    intro hb
    refine (Micro.round s before.length).does.goes ((goes_tickEntry (s := s.setRound before.length) hq).andThen
      fun _ v hv _ => ?_) hb
    obtain ⟨y, h1, -⟩ := tickEntry_done (s := s.setRound before.length) hq hb hv
    have := ih (before := before ++ [y]) (s := v) (by simp [h1])
    rwa [List.length_append] at this

theorem Runs.mono {s t : State} (h : Runs i false s t) : Runs i al s t := by
  cases al with
  | false => exact h
  | true =>
    refine Relation.ReflTransGen.mono ?_ _ _ h
    intro s t h
    cases h with
    | agents h => exact .agents s h
    | pos p => exact .pos s p
    | round n => exact .round s n
    | tickFlag b h ha => cases ha
    | log op => exact .log s op
    | select c => exact .select s c
    | program c desc x hp hx => exact .program s c desc x hp hx
    | clear c => exact .clear s c
    | release c => exact .release s c
    | reset => exact .reset s
    | ep0 x h => exact .ep0 s x h
    | endpoint c x => exact .endpoint s c x
    | store a bs h => exact .store s a bs h
    | putTrb p x hs hp ha => exact .putTrb s p x hs hp ha
    | alloc n own h => cases h
    | free a h => cases h
    | freeTrb p h => cases h
    | stage x h => exact .stage s x h
    | enqueue x hl hn h => exact .enqueue s x hl hn h
    | dequeue ep addr h => exact .dequeue s ep addr h
    | service x before after tg n hq hn h => exact .service s x before after tg n hq hn h
    | emit e h => exact .emit s e h

end queue

theorem runs_tickBegin (s : State) : Runs .asyncTick true (s.begin .asyncTick) (tickBegin s) :=
  (runs_started .asyncTick s).trans (Micro.tickFlag _ true rfl rfl).run

/-- A tick that answers. -/
theorem tick_ends {s t : State} (h : exec .asyncTick s = .next t) : Ends .asyncTick s t := by
  simp only [exec, execAsyncTick] at h
  have h0 := runs_tickBegin s
  have hb : (tickBegin s).seq.busy = true := h0.busy rfl
  have hg : Goes .asyncTick false (tickBegin s) (tickLoop 0 (tickBegin s).async (tickBegin s)) :=
    goes_tickLoop (before := []) rfl
  obtain ⟨hr, hh⟩ := hg hb
  cases hx : tickLoop 0 (tickBegin s).async (tickBegin s) with
  | done a u =>
    rw [hx] at h hr
    cases h
    have hu : Runs .asyncTick true (s.begin .asyncTick) u := h0.trans hr.mono
    have hv := (does_atLine (al := true) .asyncTick .tickEnd u).trans (does_tickEnd _)
    exact .returned _ _ (hu.trans (hv (hu.busy rfl)))
  | hold u =>
    rw [hx] at h hr
    cases h
    refine .stuck (h0.trans hr.mono) (hh _ hx) ?_
    have : t.seq.inTick = (tickBegin s).seq.inTick := hr.frame.inTick rfl
    rw [this]
    rfl
  | fault r u => rw [hx] at h; cases h

/-! ### Every engine command -/

/-- The commands of the DMA engine, the endpoint programmer, the transfer sequencer and the async queue. -/
def EngineCmd : Instr → Bool
  | .dmaProgram .. | .dmaCheck .. | .dmaClear .. | .dmaRelease .. | .dmaReset | .epConfigure .. | .xferControl ..
  | .xferBulk .. | .xferIntSync .. | .xferIntAsyncArm .. | .xferIsoch .. | .asyncRegister .. | .asyncCancel ..
  | .asyncTick => true
  | .otgPoll | .portSuspend .. | .portReset .. | .hcGetCapability | .hcReset | .hcGetState | .hcSetState ..
  | .rhGetPortStatus | .rhSetPortFeature .. | .rhClearPortFeature .. => false

theorem acquire_length {reqs : List (Nat × Owner)} {s u : State} {as : List Nat} (h : acquire reqs s = (some as, u)) :
    as.length = reqs.length := by
  induction reqs generalizing s as u with
  | nil => cases h; rfl
  | cons r reqs ih =>
    obtain ⟨n, own⟩ := r
    unfold acquire at h
    split at h
    · cases h
    · split at h
      · cases h
      · rename_i hu
        cases h
        simp [ih hu]

/-- An arm returns success, or rejects its operands and does nothing (R196). -/
theorem armInterrupt_status {c : Chan} {tg : Bool} {addr : DevAddr} {mps interval trb data len : Nat} {s t : State} {st : Status}
    (h : armInterrupt c tg addr mps interval trb data len s = .done st t) :
    (st = .invalidParameter ∧ t = s ∧ (c.ep = 0 ∨ s.cfg.maxTrbSize < len)) ∨
      (st = .success ∧ c.ep ≠ 0 ∧ len ≤ s.cfg.maxTrbSize) := by
  unfold armInterrupt at h
  split at h
  · rename_i hc
    cases h
    exact .inl ⟨rfl, rfl, by simpa using hc⟩
  · rename_i hc
    simp only [Bool.or_eq_true, decide_eq_true_eq, not_or, Nat.not_lt] at hc
    obtain ⟨-, u, -, h⟩ := andThen_eq_done h
    obtain ⟨-, v, -, h⟩ := andThen_eq_done h
    cases h
    exact .inr ⟨rfl, hc.1, hc.2⟩

theorem register_ends {ep : EpNum} {dir : Dir} {tg : Bool} {addr : DevAddr} {sp : Speed} {s t : State}
    (h : exec (.asyncRegister ep dir tg addr sp) s = .next t) : Ends (.asyncRegister ep dir tg addr sp) s t := by
  simp only [exec, execAsyncRegister] at h
  split at h
  · rename_i hok
    split at h
    · rename_i buf pool u hu
      have hd : Does (.asyncRegister ep dir tg addr sp) true (s.started (.asyncRegister ep dir tg addr sp)) u := by
        have := does_acquire (i := .asyncRegister ep dir tg addr sp)
          (registerRequests (s.started (.asyncRegister ep dir tg addr sp)).cfg
            (s.started (.asyncRegister ep dir tg addr sp)).args.len) (s.started (.asyncRegister ep dir tg addr sp))
        rwa [hu] at this
      replace hd := hd.trans (does_atLine (.asyncRegister ep dir tg addr sp) .shared u)
      generalize u.atLine .shared = u at h hd
      have hfr := (hd (State.started_busy s _)).frame
      have hub : u.seq.busy = true := (hd (State.started_busy s _)).busy (State.started_busy s _)
      have hcfg : u.cfg = s.cfg := hfr.cfg.trans (State.started_cfg s _)
      have hargs : u.args = s.args := hfr.args.trans (State.started_args s _)
      split at h
      · cases h
      · rename_i hany
        refine ends_conclude (by simp) hd (goes_arm rfl _) (fun st v hv hr => ?_) h
        refine ⟨_, _, _, rfl, (Micro.enqueue v _ (fun hw => ?_) (fun y hy => ?_) ⟨_, _, _, _, _, rfl⟩).does⟩
        · have hvc : v.cfg = s.cfg := hr.frame.cfg.trans hcfg
          have hva : v.args = s.args := hr.frame.args.trans hargs
          simp only [registerOk, Bool.and_eq_true, decide_eq_true_eq, State.started_args, State.started_cfg] at hok
          obtain ⟨⟨⟨⟨⟨⟨-, h1⟩, h2⟩, h3⟩, h4⟩, h5⟩, -⟩ := hok
          rw [hvc] at hw ⊢
          simp only [Params.wf, Bool.and_eq_true, decide_eq_true_eq] at hw
          simp only [EntryLegal, newEntry, hva]
          refine ⟨h1, h2, h3, h4, h5, hw.1.1.1.2, ?_⟩
          simpa [registerRequests] using acquire_length hu
        · rw [armInterrupt_async hub hv] at hy
          simp only [Bool.not_eq_true, List.any_eq_false, decide_eq_true_eq] at hany
          exact hany y hy
    · rename_i v _ hv
      cases h
      refine ends_started _ s _ _ ?_
      have := does_acquire (i := .asyncRegister ep dir tg addr sp)
        (registerRequests (s.started (.asyncRegister ep dir tg addr sp)).cfg
          (s.started (.asyncRegister ep dir tg addr sp)).args.len) (s.started (.asyncRegister ep dir tg addr sp))
      rwa [hv] at this
  · cases h
    exact ends_started _ s _ _ (.refl _ _)

/-- An engine command that answers. -/
theorem engine_ends {i : Instr} {s t : State} (hi : EngineCmd i = true) (h : exec i s = .next t) : Ends i s t := by
  cases i with
  | xferControl a sp dd => exact sync_ends (.inl ⟨a, sp, dd, rfl⟩) h
  | xferBulk e d tg a sp => exact sync_ends (.inr (.inl ⟨e, d, tg, a, sp, rfl⟩)) h
  | xferIntSync e d tg a sp => exact sync_ends (.inr (.inr ⟨e, d, tg, a, sp, rfl⟩)) h
  | asyncTick => exact tick_ends h
  | asyncRegister ep dir tg addr sp => exact register_ends h
  | asyncCancel ep addr => cases h; exact ends_started _ s _ _ (does_cancelEntry (.inl ⟨_, _, rfl⟩) ep addr _)
  | dmaProgram ep dir =>
    exact ends_conclude (by simp) (.refl _ _) (goes_program _ _ _) (fun _ u _ _ => ⟨u, _, _, rfl, .refl _ u⟩) h
  | dmaCheck ep dir => cases h; exact ends_started _ s _ _ (runs_check _ _).does
  | dmaClear ep dir => cases h; exact ends_started _ s _ _ (Micro.clear _ _).does
  | dmaRelease ep dir => cases h; exact ends_started _ s _ _ (Micro.release _ _).does
  | dmaReset => cases h; exact ends_started _ s _ _ (Micro.reset _).does
  | epConfigure ep dir tg addr sub =>
    simp only [exec, execEpConfigure] at h
    split at h
    · split at h
      · cases h
        exact ends_started _ s _ _ (runs_configureEp0 (.inr ⟨_, _, _, _, _, rfl⟩) _ _ _ _ _).does
      · cases h
        exact ends_started _ s _ _ (runs_configureEp _ _ _ _ _ _ _).does
    · cases h
      exact ends_started _ s _ _ (.refl _ _)
  | xferIntAsyncArm ep dir tg addr sp =>
    exact ends_conclude (by simp) (.refl _ _) (goes_arm rfl _) (fun st u _ _ => ⟨u, _, _, rfl, .refl _ u⟩) h
  | xferIsoch ep dir addr sp => cases h; exact ends_started _ s _ _ (.refl _ _)
  | _ => cases hi

end Sys2Proof.Machine
end

