-- ==== Sys2Proof/Laws/Alloc.lean ====
section
/-! SUPPORT. Allocation and admission: what a list of allocations leaves, that freeing all of it restores the region set, and
when a part of an admitted access is admitted (spec 00_scope R13, R15; 43 R185). -/

namespace Sys2Proof.Machine

/-! ### Drops as filters -/

section tables
variable {α : Type}

theorem tabDrop_eq_filter (t : List (Nat × α)) (a : Nat) : tabDrop t a = t.filter fun e => e.1 ≠ a := by
  induction t with
  | nil => rfl
  | cons e t ih =>
    obtain ⟨k, w⟩ := e
    by_cases h : a = k
    · subst h; simp [tabDrop, ih]
    · simp [tabDrop, ih, h, Ne.symm h]

/-- All keys of a list dropped. -/
theorem foldl_tabDrop (l : List Nat) (t : List (Nat × α)) : l.foldl tabDrop t = t.filter fun e => e.1 ∉ l := by
  induction l generalizing t with
  | nil => simp
  | cons a l ih =>
    rw [List.foldl_cons, ih, tabDrop_eq_filter, List.filter_filter]
    congr 1
    funext e
    simp only [List.mem_cons, not_or]
    by_cases h : e.1 = a <;> by_cases k : e.1 ∈ l <;> simp [h, k]

/-- A write of a key that a filter rejects is not seen through it. -/
theorem filter_tabPut (p : Nat → Bool) (t : List (Nat × α)) (a : Nat) (v : α) (h : p a = false) :
    (tabPut t a v).filter (fun e => p e.1) = t.filter fun e => p e.1 := by
  induction t with
  | nil => simp [tabPut, h]
  | cons e t ih =>
    obtain ⟨k, w⟩ := e
    simp only [tabPut]
    split
    · simp [h]
    · split
      · rename_i hk; subst hk; simp [h]
      · simp [List.filter_cons, ih]

theorem tabFind_mem {t : List (Nat × α)} {a : Nat} {v : α} (h : tabFind t a = some v) : (a, v) ∈ t := by
  induction t with
  | nil => cases h
  | cons e t ih =>
    obtain ⟨k, w⟩ := e
    simp only [tabFind] at h
    split at h
    · cases h; subst_vars; simp
    · exact List.mem_cons_of_mem _ (ih h)

/-- A written entry is found by filtering for anything it meets. -/
theorem mem_tabPut_iff {t : List (Nat × α)} {a : Nat} {v : α} (ha : ∀ e ∈ t, e.1 ≠ a) {e : Nat × α} :
    e ∈ tabPut t a v ↔ e = (a, v) ∨ e ∈ t :=
  ⟨mem_tabPut, fun h => h.elim (fun h => h ▸ tabPut_mem t a v) fun h => tabPut_mem_of_ne h (ha e h)⟩

end tables

/-! ### Admission -/

/-- A part of an admitted access is admitted (R13). -/
theorem State.admits_sub {s : State} {own : List Owner} {a n b m : Nat} (h : s.admits own a n = true) (ha : a ≤ b)
    (hn : b + m ≤ a + n) : s.admits own b m = true := by
  unfold State.admits at *
  by_cases hm : m = 0
  · simp [hm]
  · simp only [Bool.or_eq_true, decide_eq_true_eq, Bool.and_eq_true, List.any_eq_true] at h ⊢
    rcases h with h | ⟨h1, r, hr, ⟨h2, h3⟩, h4⟩
    · omega
    · exact .inr ⟨by omega, r, hr, ⟨h2, by omega⟩, by omega⟩

/-- Admission depends on the region set and the address width alone, and more regions admit more. -/
theorem State.admits_mono {s t : State} {own : List Owner} {a n : Nat} (hc : t.cfg = s.cfg) (hal : ∀ r ∈ s.alloc, r ∈ t.alloc)
    (h : s.admits own a n = true) : t.admits own a n = true := by
  unfold State.admits at *
  simp only [Bool.or_eq_true, decide_eq_true_eq, Bool.and_eq_true, List.any_eq_true, hc] at h ⊢
  rcases h with h | ⟨h1, r, hr, h2⟩
  · exact .inl h
  · exact .inr ⟨h1, r, hal r hr, h2⟩

theorem State.admits_congr {s t : State} (hc : t.cfg = s.cfg) (hal : t.alloc = s.alloc) (own : List Owner) (a n : Nat) :
    t.admits own a n = s.admits own a n := by
  unfold State.admits; rw [hc, hal]

/-- A region of the set, inside the address space, admits accesses inside it by its owner. -/
theorem State.admits_region {s : State} {own : List Owner} {a : Nat} {r : Alloc} (hr : (a, r) ∈ s.alloc)
    (hs : a + r.len ≤ addrSpace s.cfg.addrWidth) (ho : r.owner ∈ own) : s.admits own a r.len = true := by
  unfold State.admits
  simp only [Bool.or_eq_true, decide_eq_true_eq, Bool.and_eq_true, List.any_eq_true, List.contains_iff_mem]
  exact .inr ⟨hs, _, hr, ⟨ho, le_refl _⟩, le_refl _⟩

/-- An access some owners admit, any owner admits. -/
theorem State.admits_any {s : State} {own : List Owner} {a n : Nat} (h : s.admits own a n = true) :
    s.admits anyOwner a n = true := by
  unfold State.admits at *
  simp only [Bool.or_eq_true, decide_eq_true_eq, Bool.and_eq_true, List.any_eq_true] at h ⊢
  rcases h with h | ⟨h1, r, hr, ⟨-, h3⟩, h4⟩
  · exact .inl h
  · exact .inr ⟨h1, r, hr, ⟨by cases r.2.owner <;> decide, h3⟩, h4⟩

/-! ### Stretches of a command in which only the other agents, the allocator and the position move -/

/-- Between `s` and `t` only the other agents stepped; the Sequencer moved its position and changed the region set. -/
structure Passed (s t : State) : Prop where
  frame : AgentFrame s { t with alloc := s.alloc, seq := { t.seq with cmd := s.seq.cmd } }

/-- The frame of the other agents does not read the region set or the position. -/
theorem AgentFrame.replace {s t : State} (f : AgentFrame s t) (l : List (Nat × Alloc)) (c : Option Running) :
    AgentFrame { s with alloc := l, seq := { s.seq with cmd := c } } { t with alloc := l, seq := { t.seq with cmd := c } } where
  otg := f.otg
  flags := f.flags
  wake := f.wake
  port := f.port
  hcState := f.hcState
  ep0Stage := f.ep0Stage
  secondary := f.secondary
  sel := f.sel
  burst := f.burst
  chan := f.chan
  sent := f.sent
  ep0 := f.ep0
  endpoint := f.endpoint
  endpoint0 := f.endpoint0
  toggle := f.toggle
  async := f.async
  memWf := f.memWf
  mem := f.mem
  alloc _ := rfl
  allocMono _ h := h
  allocSorted h := h
  trbStore := f.trbStore
  busy := f.busy
  cmd := rfl
  inTick := f.inTick
  deferred := f.deferred
  args := f.args
  regtrace := f.regtrace
  trace := f.trace
  fault := f.fault
  refused := f.refused
  cfg := f.cfg
  hostQueue := f.hostQueue

theorem Passed.refl (s : State) : Passed s s := ⟨AgentFrame.refl s⟩

theorem Passed.trans {s t u : State} (h : Passed s t) (k : Passed t u) : Passed s u :=
  ⟨h.frame.trans (k.frame.replace s.alloc s.seq.cmd)⟩

theorem Passed.busy {s t : State} (h : Passed s t) (hb : s.seq.busy = true) : t.seq.busy = true := h.frame.busy.trans hb

theorem passed_interleave (s : State) (hb : s.seq.busy = true) : Passed s s.interleave := by
  have f := agentFrame_interleave s
  have e : ({ s.interleave with alloc := s.alloc, seq := { s.interleave.seq with cmd := s.seq.cmd } } : State) = s.interleave := by
    rw [← f.alloc hb, ← f.cmd]
  exact ⟨by rw [e]; exact f⟩

theorem passed_atLine (s : State) (l : Line) (hb : s.seq.busy = true) : Passed s (s.atLine l) :=
  Passed.trans (t := s.setPos (.line l)) ⟨AgentFrame.refl s⟩ (passed_interleave _ hb)

/-- An update of the region set and the draws. -/
theorem passed_alloc (s : State) (l : List (Nat × Alloc)) (o : Oracle) : Passed s { s with alloc := l, oracle := o } :=
  ⟨agentFrame_withOracle s o⟩

theorem passed_free (s : State) (a : Nat) : Passed s (s.freeRegion a) := passed_alloc s _ s.oracle

theorem passed_round (s : State) (n : Nat) : Passed s (s.setRound n) := ⟨AgentFrame.refl s⟩

/-! ### Allocation -/

/-- What a successful Alloc gives (R15): an aligned region inside the address space and apart from every other. -/
theorem allocRegion_some {s t : State} {n a : Nat} {own : Owner} (h : s.allocRegion n own = (some a, t)) :
    a % s.cfg.dmaAlign = 0 ∧ a < addrSpace s.cfg.addrWidth ∧ a + n ≤ addrSpace s.cfg.addrWidth ∧
      (∀ r ∈ s.alloc, r.1 ≠ a ∧ (a + n ≤ r.1 ∨ r.1 + r.2.len ≤ a)) ∧
      t = { s with alloc := tabPut s.alloc a { len := n, owner := own }, oracle := t.oracle } := by
  have key := drawAlloc_eq s
  unfold State.allocRegion at h
  split at h
  · rename_i b u hd
    have hu : u = s.withOracle u.oracle := by
      have : u = s.drawAlloc.2 := by rw [hd]
      rw [this]; exact key
    split at h
    · rename_i hf
      simp only [Prod.mk.injEq, Option.some.injEq] at h
      obtain ⟨rfl, rfl⟩ := h
      rw [hu] at hf ⊢
      simp only [State.fresh, State.apart, Bool.and_eq_true, decide_eq_true_eq, List.all_eq_true, Bool.or_eq_true] at hf
      exact ⟨hf.1, hf.2.1.1, hf.2.1.2, hf.2.2, rfl⟩
    · simp at h
  · simp at h

/-- A failed Alloc changes nothing but the draws. -/
theorem allocRegion_none {s t : State} {n : Nat} {own : Owner} (h : s.allocRegion n own = (none, t)) :
    t = s.withOracle t.oracle := by
  have key := drawAlloc_eq s
  unfold State.allocRegion at h
  split at h
  · rename_i b u hd
    have hu : u = s.withOracle u.oracle := by
      have : u = s.drawAlloc.2 := by rw [hd]
      rw [this]; exact key
    split at h
    · simp at h
    · simp only [Prod.mk.injEq, true_and] at h; subst h; exact hu
  · rename_i u hd
    simp only [Prod.mk.injEq, true_and] at h
    subst h
    have : u = s.drawAlloc.2 := by rw [hd]
    rw [this]; exact key

/-- What a successful list of allocations leaves (R15, R185). -/
structure Acquired (reqs : List (Nat × Owner)) (s : State) (as : List Nat) (t : State) : Prop where
  passed : Passed s t
  length : as.length = reqs.length
  keep : ∀ r ∈ s.alloc, r ∈ t.alloc
  region : ∀ q ∈ as.zip reqs, (q.1, { len := q.2.1, owner := q.2.2 : Alloc }) ∈ t.alloc ∧
    q.1 % s.cfg.dmaAlign = 0 ∧ q.1 < addrSpace s.cfg.addrWidth ∧ q.1 + q.2.1 ≤ addrSpace s.cfg.addrWidth
  newKey : ∀ a ∈ as, ∀ r ∈ s.alloc, r.1 ≠ a
  back : ∀ l : List Nat, (∀ a ∈ as, a ∈ l) → (t.alloc.filter fun e => e.1 ∉ l) = s.alloc.filter fun e => e.1 ∉ l

theorem acquire_some {reqs : List (Nat × Owner)} {s t : State} {as : List Nat} (hb : s.seq.busy = true)
    (h : acquire reqs s = (some as, t)) : Acquired reqs s as t := by
  induction reqs generalizing s t as with
  | nil =>
    cases h
    exact ⟨.refl _, rfl, fun _ h => h, by simp, by simp, fun _ _ => rfl⟩
  | cons q reqs ih =>
    obtain ⟨n, own⟩ := q
    unfold acquire at h
    have hp := passed_atLine s (.alloc (reqs.length + 1)) hb
    have hal : (s.atLine (.alloc (reqs.length + 1))).alloc = s.alloc := (agentFrame_interleave _).alloc hb
    have hcf : (s.atLine (.alloc (reqs.length + 1))).cfg = s.cfg := State.atPos_cfg s _
    generalize s.atLine (.alloc (reqs.length + 1)) = p at *
    split at h
    · cases h
    · rename_i a u hu
      split at h
      · cases h
      · rename_i bs v hv
        cases h
        obtain ⟨h1, h2, h2', h3, h4⟩ := allocRegion_some hu
        have hpu : Passed s u := by rw [h4]; exact hp.trans (passed_alloc p _ _)
        have k := ih (hpu.busy hb) hv
        have hcfg : u.cfg = s.cfg := by rw [h4]; exact hcf
        have hual : u.alloc = tabPut s.alloc a { len := n, owner := own } := by rw [h4, hal]
        rw [hcf] at h1 h2 h2'
        rw [hal] at h3
        have hsub : ∀ r ∈ s.alloc, r ∈ u.alloc := fun r hr => by rw [hual]; exact tabPut_mem_of_ne hr (h3 r hr).1
        refine ⟨hpu.trans k.passed, by simp [k.length], fun r hr => k.keep r (hsub r hr), ?_, ?_, fun l hl => ?_⟩
        · intro q hq
          simp only [List.zip_cons_cons, List.mem_cons] at hq
          rcases hq with rfl | hq
          · exact ⟨k.keep _ (by rw [hual]; exact tabPut_mem _ _ _), h1, h2, h2'⟩
          · have := k.region q hq
            rw [hcfg] at this
            exact this
        · intro b hb r hr
          rcases List.mem_cons.1 hb with rfl | hb
          · exact (h3 r hr).1
          · exact k.newKey b hb r (hsub r hr)
        · rw [k.back l fun b hb => hl b (List.mem_cons_of_mem _ hb), hual]
          exact filter_tabPut (fun x => decide (x ∉ l)) _ _ _ (by simp [hl a (by simp)])

/-- Freeing the acquired regions, in any order, gives back the set they were taken from (R185). -/
theorem Acquired.free {reqs : List (Nat × Owner)} {s t : State} {as l : List Nat} (h : Acquired reqs s as t)
    (hl : ∀ a, a ∈ l ↔ a ∈ as) : l.foldl tabDrop t.alloc = s.alloc := by
  rw [foldl_tabDrop, h.back l fun a ha => (hl a).2 ha]
  rw [List.filter_eq_self]
  intro r hr
  simp only [decide_eq_true_eq]
  intro hm
  exact h.newKey r.1 ((hl _).1 hm) r hr rfl

/-- A failed list of allocations keeps nothing (R185). -/
theorem acquire_none {reqs : List (Nat × Owner)} {s t : State} (hb : s.seq.busy = true) (h : acquire reqs s = (none, t)) :
    Passed s t ∧ t.alloc = s.alloc := by
  induction reqs generalizing s t with
  | nil => cases h
  | cons q reqs ih =>
    obtain ⟨n, own⟩ := q
    unfold acquire at h
    have hp := passed_atLine s (.alloc (reqs.length + 1)) hb
    have hal : (s.atLine (.alloc (reqs.length + 1))).alloc = s.alloc := (agentFrame_interleave _).alloc hb
    generalize s.atLine (.alloc (reqs.length + 1)) = p at *
    split at h
    · rename_i u hu
      cases h
      rw [allocRegion_none hu]
      exact ⟨hp.trans (passed_alloc p p.alloc _), hal⟩
    · rename_i a u hu
      split at h
      · rename_i v hv
        cases h
        obtain ⟨-, -, -, h3, h4⟩ := allocRegion_some hu
        have hpu : Passed s u := by rw [h4]; exact hp.trans (passed_alloc p _ _)
        obtain ⟨k1, k2⟩ := ih (hpu.busy hb) hv
        refine ⟨(hpu.trans k1).trans (passed_free v a), ?_⟩
        show tabDrop v.alloc a = s.alloc
        rw [k2, h4]
        show tabDrop (tabPut p.alloc a _) a = s.alloc
        rw [hal, tabDrop_put]
        exact tabDrop_of_not_key fun e he => (h3 e (by rw [hal]; exact he)).1
      · cases h

end Sys2Proof.Machine
end

