-- ==== Sys2Proof/Laws/Bits.lean ====
section
/-! SUPPORT. One bit of a port register after a bit is set or cleared (spec 10_state R40, R41). -/

namespace Sys2Proof.Machine

/-- A bit after bit `i` is set. -/
theorem getLsbD_setBit (v : BitVec 16) (i j : Nat) (hi : i < 16) :
    (setBit v i).getLsbD j = (v.getLsbD j || decide (j = i)) := by
  unfold setBit
  rw [BitVec.getLsbD_or, BitVec.getLsbD_twoPow]
  by_cases h : j = i
  · subst h; simp [hi]
  · have h' : i ≠ j := fun e => h e.symm
    simp [h, h']

/-- A bit after bit `i` is cleared. -/
theorem getLsbD_clearBit (v : BitVec 16) (i j : Nat) : (clearBit v i).getLsbD j = (v.getLsbD j && decide (j ≠ i)) := by
  unfold clearBit
  rw [BitVec.getLsbD_and, BitVec.getLsbD_not, BitVec.getLsbD_twoPow]
  by_cases hj : j < 16
  · by_cases h : j = i
    · subst h; simp [hj]
    · have h' : i ≠ j := fun e => h e.symm
      simp [h, h', hj]
  · have : v.getLsbD j = false := BitVec.getLsbD_of_ge v j (by omega)
    simp [this]

/-- Bits outside a mask stay clear when a bit of the mask is set. -/
theorem setBit_masked {v m : BitVec 16} {i : Nat} (hv : v &&& ~~~m = 0) (hi : BitVec.twoPow 16 i &&& ~~~m = 0) :
    setBit v i &&& ~~~m = 0 := by
  have hor : ∀ a b c : BitVec 16, (a ||| b) &&& c = (a &&& c) ||| (b &&& c) := fun a b c => by
    ext j hj; simp [Bool.and_or_distrib_right]
  rw [setBit, hor, hv, hi]; rfl

/-- Bits outside a mask stay clear when a bit is cleared. -/
theorem clearBit_masked {v m : BitVec 16} (i : Nat) (hv : v &&& ~~~m = 0) : clearBit v i &&& ~~~m = 0 := by
  rw [clearBit, BitVec.and_assoc, BitVec.and_comm (~~~ BitVec.twoPow 16 i), ← BitVec.and_assoc, hv]; simp

end Sys2Proof.Machine
end

