-- ==== Sys2Proof/Laws/Decode.lean ====
section
/-! SUPPORT. The fields of a command word and their codes: a word and its fields are the same data, each operand's code read
back is the operand, and what the checks of the decoder say where they pass (spec 30_encoding R80 to R86). -/

namespace Sys2Proof

/-! ### Words and fields -/

/-- The fields of the word with these fields (R80). -/
theorem ofWord_toWord (g : Fields) : Fields.ofWord g.toWord = g := by
  obtain ⟨r, x, s, a, t, f, d, e, o⟩ := g
  simp only [Fields.ofWord, Fields.toWord, Fields.mk.injEq]
  refine ⟨?_, ?_, ?_, ?_, ?_, ?_, ?_, ?_, ?_⟩ <;>
  · ext i hi
    simp only [BitVec.getElem_extractLsb', BitVec.getLsbD_append]
    interval_cases i <;> simp

/-- The word with the fields of this word (R80). -/
theorem toWord_ofWord (w : Word) : (Fields.ofWord w).toWord = w := by
  simp only [Fields.ofWord, Fields.toWord]
  ext i hi
  simp only [← BitVec.getLsbD_eq_getElem, BitVec.getLsbD_append, BitVec.getLsbD_extractLsb']
  interval_cases i <;> simp

theorem toWord_inj {g h : Fields} : g.toWord = h.toWord ↔ g = h :=
  ⟨fun e => by rw [← ofWord_toWord g, e, ofWord_toWord], fun e => by rw [e]⟩

/-- Field by field AND, as a mask of the opcode table takes it. -/
def Fields.and (g h : Fields) : Fields :=
  ⟨g.r &&& h.r, g.x &&& h.x, g.s &&& h.s, g.a &&& h.a, g.t &&& h.t, g.f &&& h.f, g.d &&& h.d, g.e &&& h.e, g.o &&& h.o⟩

theorem toWord_and (g h : Fields) : g.toWord &&& h.toWord = (Fields.and g h).toWord := by
  simp only [Fields.toWord, Fields.and]
  ext i hi
  simp only [← BitVec.getLsbD_eq_getElem, BitVec.getLsbD_and, BitVec.getLsbD_append]
  interval_cases i <;> simp

/-- A word under a mask, field by field. -/
theorem mask_iff (w : Word) (m p : Fields) : w &&& m.toWord = p.toWord ↔ Fields.and (Fields.ofWord w) m = p := by
  conv_lhs => rw [← toWord_ofWord w]
  rw [toWord_and, toWord_inj]

/-! ### The decoder's checks -/

theorem zeroAt_of_clean {g : Fields} {used : List Letter} (h : g.cleanBut used = true) (l : Letter) (hl : l ∉ used) :
    g.zeroAt l = true := by
  have := List.all_eq_true.1 h l (by cases l <;> simp [Letter.all])
  simpa [hl] using this

theorem cleanBut_iff (g : Fields) (used : List Letter) : g.cleanBut used = true ↔ ∀ l, l ∉ used → g.zeroAt l = true := by
  refine ⟨fun h l hl => zeroAt_of_clean h l hl, fun h => List.all_eq_true.2 fun l _ => ?_⟩
  by_cases hl : l ∈ used
  · simp [hl]
  · simp [hl, h l hl]

theorem only_eq_ok {g : Fields} {used : List Letter} {r : Except Illegal Instr} {i : Instr} (h : g.only used r = .ok i) :
    g.cleanBut used = true ∧ r = .ok i := by
  unfold Fields.only at h
  split at h
  · exact ⟨‹_›, h⟩
  · cases h

theorem only_iff (g : Fields) (used : List Letter) (r : Except Illegal Instr) :
    (∃ i, g.only used r = .ok i) ↔ g.cleanBut used = true ∧ ∃ i, r = .ok i := by
  unfold Fields.only; split <;> simp_all

theorem withSub_ok {α : Type} {v : Option α} {k : α → Instr} {i : Instr} (h : withSub v k = .ok i) :
    ∃ x, v = some x ∧ i = k x := by
  cases v with
  | none => cases h
  | some x => cases h; exact ⟨x, rfl, rfl⟩

theorem withSub_iff {α : Type} (v : Option α) (k : α → Instr) : (∃ i, withSub v k = .ok i) ↔ ∃ x, v = some x := by
  cases v <;> simp [withSub]

theorem withSpeed_ok {g : Fields} {k : Speed → Instr} {i : Instr} (h : g.withSpeed k = .ok i) :
    ∃ x, speedOf g.s = some x ∧ i = k x := by
  unfold Fields.withSpeed at h
  split at h
  · cases h; exact ⟨_, ‹_›, rfl⟩
  · cases h

/-! ### Codes read back -/

theorem dir_bits (d : BitVec 1) : Dir.bits (if d = 1#1 then .in_ else .out) = d := by revert d; decide

theorem bit1_eq (t : BitVec 1) : bit1 (decide (t = 1#1)) = t := by revert t; decide

theorem speed_bits {s : BitVec 2} {v : Speed} (h : speedOf s = some v) : v.bits = s := by revert s v; decide

theorem dataDir_bits {x : BitVec 4} {v : DataDir} (h : dataDirOf x = some v) : v.bits = x := by revert x v; decide

theorem stage_bits {x : BitVec 4} {v : CtrlStage} (h : ctrlStageOf x = some v) : EpSub.bits (.stage v) = x := by
  revert x v; decide

theorem type_bits {x : BitVec 4} {v : EpType} (h : epTypeOf x = some v) : EpSub.bits (.type v) = x ∧ v ≠ .isoch := by
  revert x v; decide

theorem hcState_bits {x : BitVec 4} {v : HcState} (h : hcStateOf x = some v) : v.bits = x := by revert x v; decide

theorem feature_bits {x : BitVec 4} {v : Feature} (h : featureOf x = some v) : v.bits = x := by revert x v; decide

theorem epSub_bits {ep : EpNum} {x : BitVec 4} {v : EpSub} (h : epSubOf ep x = some v) :
    v.bits = x ∧ v.legalFor ep = true := by
  unfold epSubOf at h
  split at h
  · obtain ⟨st, h1, rfl⟩ := Option.map_eq_some_iff.1 h
    exact ⟨stage_bits h1, by simpa [EpSub.legalFor]⟩
  · obtain ⟨ty, h1, rfl⟩ := Option.map_eq_some_iff.1 h
    obtain ⟨h2, h3⟩ := type_bits h1
    exact ⟨h2, by cases ty <;> simp_all [EpSub.legalFor]⟩

/-! ### Which codes have a meaning -/

theorem speedOf_some (s : BitVec 2) : (∃ v, speedOf s = some v) ↔ s ≠ 3 := by
  rw [← Option.isSome_iff_exists]; revert s; decide

theorem dataDirOf_some (x : BitVec 4) : (∃ v, dataDirOf x = some v) ↔ x.toNat ≤ 2 := by
  rw [← Option.isSome_iff_exists]; revert x; decide

theorem hcStateOf_some (x : BitVec 4) : (∃ v, hcStateOf x = some v) ↔ x.toNat ≤ 2 := by
  rw [← Option.isSome_iff_exists]; revert x; decide

theorem featureOf_some (x : BitVec 4) : (∃ v, featureOf x = some v) ↔ x.toNat ≤ 9 := by
  rw [← Option.isSome_iff_exists]; revert x; decide

theorem epSubOf_some (e x : BitVec 4) : (∃ v, epSubOf e.toFin x = some v) ↔ Machine.xLegal 8 e x = true := by
  rw [← Option.isSome_iff_exists]; revert e x; decide

theorem withSpeed_iff (g : Fields) (k : Speed → Instr) : (∃ i, g.withSpeed k = .ok i) ↔ g.s ≠ 3 := by
  rw [← speedOf_some]; unfold Fields.withSpeed; cases speedOf g.s <;> simp

end Sys2Proof
end

