-- ==== Sys2Proof/Laws/HostCmd.lean ====
section
/-! SUPPORT. What the OTG, root-hub and controller commands can do, said once: the actions they are made of (`Act`), that the
meaning of each such command is a sequence of them, and what none of them changes (`HostFrame`). -/

namespace Sys2Proof.Machine

/-- The command is a poll. -/
def IsPoll (i : Instr) : Prop := i = .otgPoll ∨ i = .rhGetPortStatus

/-- One action of an OTG, root-hub or controller command, with what must hold where it stands; or the steps of the other
agents before the first sample of a poll's spin. -/
inductive Act (i : Instr) : State → State → Prop where
  | agents (s : State) (h : s.seq.busy = true) (hp : IsPoll i) : Act i s s.interleave
  | seq (s : State) (x : Seq) : Act i s (s.withSeq x)
  | emit (s : State) (e : Event) : Act i s (s.emit e)
  | transitional (s : State) (f : OtgFlags) (h : IsPoll i) : Act i s (transitionalClear f s)
  | vbusError (s : State) (h : IsPoll i) : Act i s (vbusErrorAction s)
  | connect (s : State) (h : IsPoll i) : Act i s (connect s)
  | disconnectBegin (s : State) (h : IsPoll i) (hr : hostOrSuspend s.otg.state = true) : Act i s (disconnectBegin s)
  | disconnectEnd (s : State) (prior : OtgState) (h : IsPoll i) : Act i s (disconnectEnd prior s)
  | idleChange (s : State) (h : IsPoll i) : Act i s (idleChangeAction s)
  | suspend (s : State) (en : Bool)
      (h : i = .portSuspend en ∨ (i = .rhSetPortFeature .suspend ∧ en = true) ∨
        (i = .rhClearPortFeature .suspend ∧ en = false)) : Act i s (portSuspend en s)
  | reset (s : State) (en : Bool)
      (h : i = .portReset en ∨ i = .rhSetPortFeature .reset ∨ i = .rhClearPortFeature .reset) : Act i s (portReset en s)
  | setStatus (s : State) (b : Nat) (hb : b = bitEnable ∨ b = bitPower ∨ b = bitOwner) (h : ∃ f, i = .rhSetPortFeature f) :
      Act i s (s.setStatus b)
  | clearStatus (s : State) (b : Nat) (hb : b = bitEnable ∨ b = bitPower ∨ b = bitOwner)
      (h : ∃ f, i = .rhClearPortFeature f) : Act i s (s.clearStatus b)
  | clearChange (s : State) (b : Nat) (h : ∃ f, i = .rhClearPortFeature f) : Act i s (s.clearChange b)
  | power (s : State) (x : HcState) (h : i = .hcSetState x) : Act i s (s.withHcState x)

/-- A sequence of actions. -/
abbrev Acts (i : Instr) : State → State → Prop := Relation.ReflTransGen (Act i)

section parts
variable {i : Instr}

theorem Act.run {s t : State} (h : Act i s t) : Acts i s t := .single h

theorem acts_finish (j : Instr) (st : Status) (o : Outs) (s : State) : Acts i s (s.finish j st o) :=
  (Act.seq s Seq.idle).run.trans (.single (.emit _ _))

theorem acts_pollHead (h : IsPoll i) (f : OtgFlags) (s : State) : Acts i s (pollHead f s) := by
  unfold pollHead
  have h0 : Acts i s (if f.srpDet || f.bSessEnd then transitionalClear f s else s) := by
    split
    · exact .single (.transitional s f h)
    · exact .refl
  simp only []
  split
  · exact h0.trans (.single (.vbusError _ h))
  · exact h0

theorem acts_pollTail (h : IsPoll i) (b : Bool) (s : State) : Acts i s (pollTail b s) := by
  unfold pollTail
  split
  · exact .single (.idleChange s h)
  · exact .refl

theorem acts_spinSample (h : IsPoll i) {prior : OtgState} {n : Nat} {b : Bool} {ret : State → State}
    (hret : ∀ u, Acts i u (ret u)) {s t : State} (hs : conclude (spinSample prior n b ret s) = .next t) : Acts i s t := by
  unfold spinSample at hs
  split at hs
  · split at hs
    · cases hs
    · cases hs; exact .single (.seq s _)
  · cases hs
    exact ((Act.disconnectEnd s prior h).run.trans (acts_pollTail h b _)).trans (hret _)

theorem pollHead_seq (f : OtgFlags) (s : State) : (pollHead f s).seq = s.seq := by
  have h (u : State) : (vbusErrorAction u).seq = u.seq := by simp only [vbusErrorAction]; split <;> rfl
  simp only [pollHead]
  split <;> split <;> first | rfl | exact h _

theorem acts_disconnectSpin (h : IsPoll i) {prior : OtgState} {b : Bool} {s : State} (hb : s.seq.busy = true)
    (hr : hostOrSuspend s.otg.state = true) : Acts i s (disconnectSpin prior b s) :=
  ((Act.disconnectBegin s h hr).run.trans (Act.seq _ _).run).trans (.single (.agents _ hb h))

theorem acts_otgPoll (h : IsPoll i) {ret : State → State} (hret : ∀ u, Acts i u (ret u)) {s t : State}
    (hb : s.seq.busy = true) (hs : conclude (otgPoll ret s) = .next t) : Acts i s t := by
  unfold otgPoll at hs
  have h0 := acts_pollHead h (unmasked s.otg.flags s.otg.mask) s
  simp only [] at hs
  split at hs
  · split at hs
    · rename_i hr
      split at hs
      · exact (h0.trans (acts_disconnectSpin h (by rw [pollHead_seq]; exact hb) hr)).trans (acts_spinSample h hret hs)
      · cases hs
        exact (h0.trans (Act.emit _ _).run).trans ((acts_pollTail h _ _).trans (hret _))
    · cases hs
      exact (h0.trans (Act.connect _ h).run).trans ((acts_pollTail h _ _).trans (hret _))
  · cases hs
    exact h0.trans ((acts_pollTail h _ _).trans (hret _))

end parts

/-- An OTG, root-hub or controller command that answers is a sequence of actions, after the steps the other agents take
before its first. -/
theorem host_acts {i : Instr} {s t : State} (hi : EngineCmd i = false) (h : exec i s = .next t) : Acts i (s.started i) t := by
  cases i with
  | otgPoll => exact acts_otgPoll (.inl rfl) (ret := endOtgPoll) (fun u => acts_finish _ _ _ u) (State.started_busy s _) h
  | rhGetPortStatus =>
    exact acts_otgPoll (.inr rfl) (ret := endRhGetPortStatus) (fun u => acts_finish _ _ _ u) (State.started_busy s _) h
  | portSuspend en => cases h; exact (Act.suspend _ en (.inl rfl)).run.trans (acts_finish _ _ _ _)
  | portReset en => cases h; exact (Act.reset _ en (.inl rfl)).run.trans (acts_finish _ _ _ _)
  | hcGetCapability => cases h; exact acts_finish _ _ _ _
  | hcReset => cases h; exact acts_finish _ _ _ _
  | hcGetState => cases h; exact acts_finish _ _ _ _
  | hcSetState st => cases h; exact (Act.power _ st rfl).run.trans (acts_finish _ _ _ _)
  | rhSetPortFeature f =>
    cases h
    refine Relation.ReflTransGen.trans ?_ (acts_finish _ _ _ _)
    cases f with
    | enable => exact .single (.setStatus _ _ (.inl rfl) ⟨_, rfl⟩)
    | power => exact .single (.setStatus _ _ (.inr (.inl rfl)) ⟨_, rfl⟩)
    | owner => exact .single (.setStatus _ _ (.inr (.inr rfl)) ⟨_, rfl⟩)
    | suspend => exact .single (.suspend _ true (.inr (.inl ⟨rfl, rfl⟩)))
    | reset => exact .single (.reset _ true (.inr (.inl rfl)))
    | _ => exact .refl
  | rhClearPortFeature f =>
    cases h
    refine Relation.ReflTransGen.trans ?_ (acts_finish _ _ _ _)
    cases f with
    | enable => exact .single (.clearStatus _ _ (.inl rfl) ⟨_, rfl⟩)
    | power => exact .single (.clearStatus _ _ (.inr (.inl rfl)) ⟨_, rfl⟩)
    | owner => exact .single (.clearStatus _ _ (.inr (.inr rfl)) ⟨_, rfl⟩)
    | suspend => exact .single (.suspend _ false (.inr (.inr ⟨rfl, rfl⟩)))
    | reset => exact .single (.reset _ false (.inr (.inr rfl)))
    | _ => exact .single (.clearChange _ _ ⟨_, rfl⟩)
  | _ => cases hi

/-- `t` with the OTG part but its inputs, the port, the power state and the outputs as at `s`, and a Sequencer that executes. -/
def aside (s t : State) : State :=
  { t with
    otg := { s.otg with inputs := t.otg.inputs }, port := s.port, hcState := s.hcState, regtrace := s.regtrace
    trace := s.trace, seq := { busy := true, cmd := none, inTick := false, deferred := [] } }

/-- The frame of the other agents does not read what `aside` sets. -/
theorem AgentFrame.aside {s t : State} (f : AgentFrame s t) (hb : s.seq.busy = true) (r : State) :
    AgentFrame (aside r s) (aside r t) where
  otg := rfl
  flags := orFlags_self _
  wake _ := rfl
  port := rfl
  hcState := rfl
  ep0Stage := f.ep0Stage
  secondary := f.secondary
  sel := f.sel
  burst := f.burst
  chan := f.chan
  sent := f.sent
  ep0 := f.ep0
  endpoint := f.endpoint
  endpoint0 := f.endpoint0
  toggle := f.toggle
  async := f.async
  memWf := f.memWf
  mem _ := f.mem hb
  alloc _ := f.alloc hb
  allocMono := f.allocMono
  allocSorted := f.allocSorted
  trbStore := f.trbStore
  busy := rfl
  cmd := rfl
  inTick := rfl
  deferred _ := rfl
  args := f.args
  regtrace := rfl
  trace := rfl
  fault := f.fault
  refused := f.refused
  cfg := f.cfg
  hostQueue _ := f.hostQueue hb

/-- An OTG, root-hub or controller command changes the OTG part, the port, the power state and the outputs alone, and keeps
the mask; beside that, only the other agents step. -/
structure HostFrame (s t : State) : Prop where
  frame : AgentFrame (aside s s) (aside s t)
  mask : t.otg.mask = s.otg.mask

theorem HostFrame.refl (s : State) : HostFrame s s := ⟨AgentFrame.refl _, rfl⟩

theorem HostFrame.trans {s t u : State} (h : HostFrame s t) (k : HostFrame t u) : HostFrame s u :=
  ⟨h.frame.trans (k.frame.aside rfl s), k.mask.trans h.mask⟩

theorem HostFrame.of_aside {s t : State} (h : aside s t = aside s s) (hm : t.otg.mask = s.otg.mask) : HostFrame s t :=
  ⟨by rw [h]; exact AgentFrame.refl _, hm⟩

theorem vbusErrorAction_cases (s : State) :
    vbusErrorAction s = { s with
      otg := { s.otg with flags := { s.otg.flags with vbusErr := false }, vbusOn := true, state := .aVbusErr,
                          vbusErrCount := s.otg.vbusErrCount + 1 } } ∧ s.otg.vbusErrCount + 1 < vbusErrLimit ∨
    vbusErrorAction s = { s with
      otg := { s.otg with flags := { s.otg.flags with vbusErr := false }, vbusOn := false, state := .aVbusErr,
                          vbusErrCount := 0 }
      port := { status := setBit s.port.status bitOvercurrent, change := setBit s.port.change bitOvercurrent } } ∧
      vbusErrLimit ≤ s.otg.vbusErrCount + 1 := by
  unfold vbusErrorAction
  simp only []
  split
  · exact .inr ⟨rfl, ‹_›⟩
  · exact .inl ⟨rfl, Nat.lt_of_not_le ‹_›⟩

theorem idleChangeAction_cases (s : State) :
    ∃ on st, idleChangeAction s = { s with
      otg := { s.otg with flags := { s.otg.flags with idleChange := false }, srpEnable := false, vbusOn := on, state := st } } ∧
      (st = .aIdle ∨ st = .bIdle) := by
  unfold idleChangeAction
  simp only []
  split
  · exact ⟨true, .aIdle, rfl, .inl rfl⟩
  · exact ⟨false, .bIdle, rfl, .inr rfl⟩

theorem portSuspend_cases (en : Bool) (s : State) :
    portSuspend en s = { s with
      otg := { s.otg with vbusOn := false, state := .aSuspend }
      port := { s.port with status := setBit s.port.status bitSuspend } } ∨
    portSuspend en s = { s with
      otg := { s.otg with vbusOn := true, state := .aHost }
      port := { s.port with status := clearBit s.port.status bitSuspend } } ∨
    portSuspend en s = s.emit (.babble s.otg.state) := by
  unfold portSuspend
  split <;> split
  · exact .inl rfl
  · exact .inr (.inr rfl)
  · exact .inr (.inl rfl)
  · exact .inr (.inr rfl)

theorem Act.frame {i : Instr} {s t : State} (h : Act i s t) : HostFrame s t := by
  cases h with
  | agents hb h => exact ⟨(agentFrame_interleave s).aside hb s, by rw [(agentFrame_interleave s).otg]⟩
  | vbusError h => rcases vbusErrorAction_cases s with ⟨e, -⟩ | ⟨e, -⟩ <;> (rw [e]; exact .of_aside rfl rfl)
  | idleChange h => obtain ⟨on, st, e, -⟩ := idleChangeAction_cases s; rw [e]; exact .of_aside rfl rfl
  | suspend en h => rcases portSuspend_cases en s with e | e | e <;> (rw [e]; exact .of_aside rfl rfl)
  | reset en h => cases en <;> exact .of_aside rfl rfl
  | _ => exact .of_aside rfl rfl

theorem Acts.frame {i : Instr} {s t : State} (h : Acts i s t) : HostFrame s t := by
  induction h with
  | refl => exact .refl _
  | tail _ h ih => exact ih.trans h.frame

end Sys2Proof.Machine
end

