-- ==== Sys2Proof/Laws/PerInstr.lean ====
section
/-! SUPPORT. A statement about every instruction, instruction by instruction: its word carries its opcode in the low byte
and its reserved bits are 0 (spec 30_encoding R80, R82). -/

namespace Sys2Proof.Laws.EncodeOpcode

/-- The word of an instruction carries its opcode in bits 7:0, and 0 in bits 31:28 (R80, R82). -/
def Statement (i : Instr) : Prop := (encode i).extractLsb' 0 8 = i.opcode ∧ (encode i).extractLsb' 28 4 = 0

/-- The two fields of a word are read from its fields. -/
theorem of_fields {i : Instr} (ho : i.fields.o = i.opcode) (hr : i.fields.r = 0) : Statement i := by
  have h := ofWord_toWord i.fields
  exact ⟨(congrArg Fields.o h).trans ho, (congrArg Fields.r h).trans hr⟩

theorem dmaProgram (ep : EpNum) (dir : Dir) : Statement (.dmaProgram ep dir) := of_fields rfl rfl

theorem dmaCheck (ep : EpNum) (dir : Dir) : Statement (.dmaCheck ep dir) := of_fields rfl rfl

theorem dmaClear (ep : EpNum) (dir : Dir) : Statement (.dmaClear ep dir) := of_fields rfl rfl

theorem dmaRelease (ep : EpNum) (dir : Dir) : Statement (.dmaRelease ep dir) := of_fields rfl rfl

theorem dmaReset : Statement (.dmaReset) := of_fields rfl rfl

theorem epConfigure (ep : EpNum) (dir : Dir) (toggle : Bool) (addr : DevAddr) (sub : EpSub) :
    Statement (.epConfigure ep dir toggle addr sub) := of_fields rfl rfl

theorem otgPoll : Statement (.otgPoll) := of_fields rfl rfl

theorem portSuspend (enable : Bool) : Statement (.portSuspend enable) := of_fields rfl rfl

theorem portReset (enable : Bool) : Statement (.portReset enable) := of_fields rfl rfl

theorem xferControl (addr : DevAddr) (speed : Speed) (dataDir : DataDir) :
    Statement (.xferControl addr speed dataDir) := of_fields rfl rfl

theorem xferBulk (ep : EpNum) (dir : Dir) (toggle : Bool) (addr : DevAddr) (speed : Speed) :
    Statement (.xferBulk ep dir toggle addr speed) := of_fields rfl rfl

theorem xferIntSync (ep : EpNum) (dir : Dir) (toggle : Bool) (addr : DevAddr) (speed : Speed) :
    Statement (.xferIntSync ep dir toggle addr speed) := of_fields rfl rfl

theorem xferIntAsyncArm (ep : EpNum) (dir : Dir) (toggle : Bool) (addr : DevAddr) (speed : Speed) :
    Statement (.xferIntAsyncArm ep dir toggle addr speed) := of_fields rfl rfl

theorem xferIsoch (ep : EpNum) (dir : Dir) (addr : DevAddr) (speed : Speed) :
    Statement (.xferIsoch ep dir addr speed) := of_fields rfl rfl

theorem asyncRegister (ep : EpNum) (dir : Dir) (toggle : Bool) (addr : DevAddr) (speed : Speed) :
    Statement (.asyncRegister ep dir toggle addr speed) := of_fields rfl rfl

theorem asyncCancel (ep : EpNum) (addr : DevAddr) : Statement (.asyncCancel ep addr) := of_fields rfl rfl

theorem asyncTick : Statement (.asyncTick) := of_fields rfl rfl

theorem hcGetCapability : Statement (.hcGetCapability) := of_fields rfl rfl

theorem hcReset : Statement (.hcReset) := of_fields rfl rfl

theorem hcGetState : Statement (.hcGetState) := of_fields rfl rfl

theorem hcSetState (st : HcState) : Statement (.hcSetState st) := of_fields rfl rfl

theorem rhGetPortStatus : Statement (.rhGetPortStatus) := of_fields rfl rfl

theorem rhSetPortFeature (feature : Feature) : Statement (.rhSetPortFeature feature) := of_fields rfl rfl

theorem rhClearPortFeature (feature : Feature) : Statement (.rhClearPortFeature feature) := of_fields rfl rfl

end Sys2Proof.Laws.EncodeOpcode
end

