-- ==== Sys2Proof/Laws/Transfer.lean ====
section
/-! SUPPORT. The stage cycle: that it completes on every behaviour of the other agents, what it answers, what it leaves of
its channel, and what it does not touch (spec 43_transfer_protocol R179 to R184, R198, R200). -/

namespace Sys2Proof.Machine

/-! ### What a transfer on some channels does not touch -/

/-- A DMA_RESET stands in the register trace between two states (R155). -/
abbrev ResetBetween (s t : State) : Prop := RegOp.softReset ∈ t.regtrace.drop s.regtrace.length

theorem ResetBetween.later {s t u : State} (h : ResetBetween s t) (k : t.regtrace <+: u.regtrace) : ResetBetween s u := by
  obtain ⟨l, hl⟩ := k
  have : s.regtrace.length ≤ t.regtrace.length := by
    by_contra hc
    rw [ResetBetween, List.drop_eq_nil_of_le (by omega)] at h
    cases h
  rw [ResetBetween, ← hl, List.drop_append_of_le_length this]
  exact List.mem_append_left _ h

theorem ResetBetween.earlier {s t u : State} (h : ResetBetween t u) (k : s.regtrace <+: t.regtrace) : ResetBetween s u := by
  obtain ⟨l, hl⟩ := k
  have : t.regtrace.length = s.regtrace.length + l.length := by rw [← hl, List.length_append]
  rw [ResetBetween, this, ← List.drop_drop] at h
  exact List.mem_of_mem_drop h

/-- What a transfer on the channels `cs` leaves alone while other agents step. -/
structure XferFrame (cs : List Chan) (s t : State) : Prop where
  chanOrReset : ∀ b, b ∉ cs → ChanFrame (s.chan b) (t.chan b) ∨ t.chan b = Channel.idle ∧ ResetBetween s t
  log : s.regtrace <+: t.regtrace
  toggle : ∀ b, b ∉ cs → s.agentTrb b = none → t.toggle b = s.toggle b
  endpoint : ∀ b, b ∉ cs → t.endpoint b = { s.endpoint b with toggle := (t.endpoint b).toggle }
  alloc : t.alloc = s.alloc
  busy : t.seq.busy = true
  args : t.args = s.args
  cfg : t.cfg = s.cfg

theorem XferFrame.chan {cs : List Chan} {s t : State} (h : XferFrame cs s t) (b : Chan) (hb : b ∉ cs) :
    ChanFrame (s.chan b) (t.chan b) ∨ t.chan b = Channel.idle := (h.chanOrReset b hb).imp_right And.left

theorem chanFrame_idle {x : Channel} (h : ChanFrame Channel.idle x) : x = Channel.idle := h.eq_of_idle (.inl rfl)

/-- An agent that can step after a transfer on other channels could step before it. -/
theorem agentTrb_of_chan {s t : State} {b : Chan} (h : ChanFrame (s.chan b) (t.chan b) ∨ t.chan b = Channel.idle) {x : Trb}
    (hx : t.agentTrb b = some x) : s.agentTrb b = some x := by
  obtain ⟨h1, h2, h3⟩ := State.agentTrb_eq_some hx
  rcases h with h | h
  · unfold State.agentTrb
    rw [if_pos (by rw [← h.enabled, h1, h.pending h2]; rfl), ← h.trb, h3]
  · rw [h] at h1; cases h1

theorem XferFrame.refl (cs : List Chan) {s : State} (hb : s.seq.busy = true) : XferFrame cs s s :=
  ⟨fun _ _ => .inl (.refl _), List.prefix_rfl, fun _ _ _ => rfl, fun _ _ => rfl, rfl, hb, rfl, rfl⟩

theorem XferFrame.trans {cs : List Chan} {s t u : State} (h : XferFrame cs s t) (k : XferFrame cs t u) :
    XferFrame cs s u where
  chanOrReset b hb := by
    rcases h.chanOrReset b hb with h1 | ⟨h1, h2⟩
    · rcases k.chanOrReset b hb with k1 | ⟨k1, k2⟩
      · exact .inl (h1.trans k1)
      · exact .inr ⟨k1, k2.earlier h.log⟩
    · refine .inr ⟨?_, h2.later k.log⟩
      rcases k.chan b hb with k1 | k1
      · rw [h1] at k1; exact chanFrame_idle k1
      · exact k1
  log := h.log.trans k.log
  toggle b hb hn := by
    refine (k.toggle b hb ?_).trans (h.toggle b hb hn)
    cases ht : t.agentTrb b with
    | none => rfl
    | some x => rw [agentTrb_of_chan (h.chan b hb) ht] at hn; cases hn
  endpoint b hb := by rw [k.endpoint b hb, h.endpoint b hb]
  alloc := k.alloc.trans h.alloc
  busy := k.busy
  args := k.args.trans h.args
  cfg := k.cfg.trans h.cfg

theorem XferFrame.mono {cs ds : List Chan} {s t : State} (h : XferFrame cs s t) (hc : ∀ c ∈ cs, c ∈ ds) :
    XferFrame ds s t where
  chanOrReset b hb := h.chanOrReset b fun hm => hb (hc b hm)
  log := h.log
  toggle b hb := h.toggle b fun hm => hb (hc b hm)
  endpoint b hb := h.endpoint b fun hm => hb (hc b hm)
  alloc := h.alloc
  busy := h.busy
  args := h.args
  cfg := h.cfg

theorem xferFrame_interleave (cs : List Chan) {s : State} (hb : s.seq.busy = true) : XferFrame cs s s.interleave := by
  have f := agentFrame_interleave s
  exact ⟨fun b _ => .inl (f.chan b), f.regtrace ▸ List.prefix_rfl, fun b _ => f.toggle b,
    fun b _ => f.endpoint b, f.alloc hb, f.busy.trans hb, f.args, f.cfg⟩

theorem xferFrame_atLine (cs : List Chan) {s : State} (l : Line) (hb : s.seq.busy = true) : XferFrame cs s (s.atLine l) := by
  have f := agentFrame_interleave (s.setPos (.line l))
  exact ⟨fun b _ => .inl (f.chan b), (show (s.atLine l).regtrace = s.regtrace from f.regtrace) ▸ List.prefix_rfl, fun b _ => f.toggle b,
    fun b _ => f.endpoint b, f.alloc hb, f.busy.trans hb, f.args, f.cfg⟩

/-- A stretch of the other agents' steps that leaves the region set. -/
theorem Passed.xferFrame {s t : State} (f : Passed s t) (cs : List Chan) (hb : s.seq.busy = true) (ha : t.alloc = s.alloc) :
    XferFrame cs s t :=
  ⟨fun b _ => .inl (f.frame.chan b), f.frame.regtrace ▸ List.prefix_rfl, fun b _ => f.frame.toggle b,
    fun b _ => f.frame.endpoint b, ha, f.busy hb, f.frame.args, f.frame.cfg⟩

/-- An update that keeps the channels, the endpoints' registers, the region set and the arguments. -/
theorem xferFrame_of_eq (cs : List Chan) {s t : State} (hb : s.seq.busy = true) (h : t.seq.busy = s.seq.busy)
    (h1 : ∀ b, b ∉ cs → t.chan b = s.chan b) (h2 : t.ep = s.ep) (h3 : t.ep0 = s.ep0) (h4 : t.alloc = s.alloc)
    (h5 : t.args = s.args) (h6 : t.cfg = s.cfg) (h7 : s.regtrace <+: t.regtrace) : XferFrame cs s t :=
  ⟨fun b hb => .inl (by rw [h1 b hb]; exact .refl _), h7, fun b _ _ => by simp [State.toggle, State.endpoint, h2, h3],
    fun b _ => by simp [State.endpoint, h2], h4, h.trans hb, h5, h6⟩

theorem logged_twice (l : List RegOp) (a b : RegOp) : l <+: l ++ [a] ++ [b] :=
  (List.prefix_append _ _).trans (List.prefix_append _ _)

theorem xferFrame_check (cs : List Chan) (c : Chan) {s : State} (hb : s.seq.busy = true) :
    XferFrame cs s (dmaCheck c s) := xferFrame_of_eq cs hb rfl (fun _ _ => rfl) rfl rfl rfl rfl rfl (logged_twice _ _ _)

theorem xferFrame_clear {cs : List Chan} {c : Chan} (hc : c ∈ cs) {s : State} (hb : s.seq.busy = true) :
    XferFrame cs s (dmaClear c s) :=
  xferFrame_of_eq cs hb rfl (fun b hn => by rw [chan_dmaClear, if_neg (by rintro rfl; exact hn hc)]) rfl rfl rfl rfl rfl
    (logged_twice _ _ _)

theorem xferFrame_release {cs : List Chan} {c : Chan} (hc : c ∈ cs) {s : State} (hb : s.seq.busy = true) :
    XferFrame cs s (dmaRelease c s) :=
  xferFrame_of_eq cs hb rfl (fun b hn => by rw [chan_dmaRelease, if_neg (by rintro rfl; exact hn hc)]) rfl rfl rfl rfl rfl
    (logged_twice _ _ _)

theorem xferFrame_reset (cs : List Chan) {s : State} (hb : s.seq.busy = true) : XferFrame cs s (dmaReset s) := by
  have h := dmaReset_eq s
  have hl : (dmaReset s).regtrace = s.regtrace ++ [.softReset] := by rw [h]
  refine ⟨fun b _ => ?_, ⟨_, hl.symm⟩, fun b _ _ => ?_, fun b _ => ?_, ?_, ?_, ?_, ?_⟩
  · rcases (chan_dmaReset s b).2 with e | e
    · exact .inl (by rw [e]; exact .refl _)
    · exact .inr ⟨e, by rw [ResetBetween, hl, List.drop_left]; simp⟩
  · rw [h]; rfl
  · rw [h]; rfl
  · rw [h]
  · rw [h]; exact hb
  · rw [h]
  · rw [h]

theorem xferFrame_programmed {cs : List Chan} {c : Chan} (hc : c ∈ cs) (desc : Nat) (x : Trb) {s : State}
    (hb : s.seq.busy = true) : XferFrame cs s (programmed c desc x s) := by
  have h := programmed_eq c desc x s
  exact xferFrame_of_eq cs hb (by rw [h])
    (fun b hn => by rw [chan_programmed, if_neg (by rintro rfl; exact hn hc)]) (by rw [h]) (by rw [h]) (by rw [h]) (by rw [h])
    (by rw [h]) (by rw [h]; exact List.prefix_append _ _)

/-! ### One byte of memory that a transfer does not reach -/

/-- The byte at `a` is `v`, and no agent can write it. -/
structure Shield (a : Nat) (v : Byte) (s : State) : Prop where
  byte : readByte s.mem a = v
  out : OutsideAgents s a

theorem shield_interleave {a : Nat} {v : Byte} {s : State} (hb : s.seq.busy = true) (h : Shield a v s) :
    Shield a v s.interleave := by
  have f := agentFrame_interleave s
  exact ⟨(f.mem hb a h.out).trans h.byte, fun c x hd hx => h.out c x hd (f.agentTrb hx)⟩

theorem shield_atLine {a : Nat} {v : Byte} {s : State} (l : Line) (hb : s.seq.busy = true) (h : Shield a v s) :
    Shield a v (s.atLine l) := shield_interleave (s := s.setPos (.line l)) hb ⟨h.byte, h.out⟩

theorem Passed.shield {a : Nat} {v : Byte} {s t : State} (f : Passed s t) (hb : s.seq.busy = true) (h : Shield a v s) :
    Shield a v t :=
  ⟨(f.frame.mem hb a h.out).trans h.byte, fun c x hd hx => h.out c x hd (f.frame.agentTrb hx)⟩

/-- An update that keeps memory, and under which no agent gains a transfer, keeps the byte. -/
theorem shield_of_agents {a : Nat} {v : Byte} {s t : State} (hm : t.mem = s.mem)
    (hag : ∀ c x, t.agentTrb c = some x → s.agentTrb c = some x) (h : Shield a v s) : Shield a v t :=
  ⟨by rw [hm]; exact h.byte, fun c x hd hx => h.out c x hd (hag c x hx)⟩

theorem shield_of_dma {a : Nat} {v : Byte} {s t : State} (hm : t.mem = s.mem) (hd : t.dma.ch = s.dma.ch)
    (h : Shield a v s) : Shield a v t :=
  shield_of_agents hm (fun c x hx => by unfold State.agentTrb at *; rw [State.chan_of_dma hd] at hx; exact hx) h

theorem shield_clear {a : Nat} {v : Byte} {s : State} (c : Chan) (h : Shield a v s) : Shield a v (dmaClear c s) := by
  refine shield_of_agents (s := s) rfl (fun b x hx => ?_) h
  obtain ⟨h1, h2, h3⟩ := State.agentTrb_eq_some hx
  have e : ∀ y : Channel → Prop, y ((dmaClear c s).chan b) → (∀ z : Channel, y { z with done := false, err := false, errCode := 0 } → y z) →
      y (s.chan b) := fun y h k => by
    rw [chan_dmaClear] at h
    split at h
    · subst b; exact k _ h
    · exact h
  unfold State.agentTrb
  rw [e (fun z => z.enabled = true) h1 fun _ h => h, e (fun z => z.pending = true) h2 fun _ h => h,
    e (fun z => z.trb = some x) h3 fun _ h => h]
  rfl

theorem shield_release {a : Nat} {v : Byte} {s : State} (c : Chan) (h : Shield a v s) : Shield a v (dmaRelease c s) := by
  refine shield_of_agents (s := s) rfl (fun b x hx => ?_) h
  obtain ⟨h1, h2, h3⟩ := State.agentTrb_eq_some hx
  rw [chan_dmaRelease] at h1 h2 h3
  split at h1
  · cases h1
  · rename_i hn
    rw [if_neg hn] at h2 h3
    unfold State.agentTrb; rw [h1, h2, h3]; rfl

theorem shield_reset {a : Nat} {v : Byte} {s : State} (h : Shield a v s) : Shield a v (dmaReset s) := by
  refine shield_of_agents (s := s) (by rw [dmaReset_eq]) (fun b x hx => ?_) h
  obtain ⟨h1, h2, h3⟩ := State.agentTrb_eq_some hx
  rcases (chan_dmaReset s b).2 with e | e
  · rw [e] at h1 h2 h3
    unfold State.agentTrb; rw [h1, h2, h3]; rfl
  · rw [e] at h1; cases h1

/-- The agent of a channel just programmed can write its buffer, and no other byte. -/
theorem shield_programmed {a : Nat} {v : Byte} {s : State} {c : Chan} {desc : Nat} {x : Trb}
    (ha : c.dir = .in_ → a < x.addr ∨ x.addr + x.size ≤ a) (h : Shield a v s) : Shield a v (programmed c desc x s) := by
  refine ⟨by rw [programmed_eq]; exact h.byte, fun b z hd hz => ?_⟩
  obtain ⟨h1, h2, h3⟩ := State.agentTrb_eq_some hz
  rw [chan_programmed] at h1 h2 h3
  by_cases hb : b = c
  · rw [if_pos hb] at h3
    cases h3
    exact ha (hb ▸ hd)
  · rw [if_neg hb] at h1 h2 h3
    exact h.out b z hd (by unfold State.agentTrb; rw [h1, h2, h3]; rfl)

theorem shield_write {a : Nat} {v : Byte} {s : State} {b : Nat} {bs : List Byte} (ha : a < b ∨ b + bs.length ≤ a)
    (h : Shield a v s) : Shield a v (s.withMem (writeBytes s.mem b bs)) :=
  ⟨(readByte_writeBytes_out _ _ _ _ ha).trans h.byte, fun c x hd hx => h.out c x hd hx⟩

/-! ### The wait loop -/

/-- What a predicate must be kept by, to be kept by the waiting and the release of a stage cycle on channel `c`. -/
structure CycleClosed (c : Chan) (P : State → Prop) : Prop where
  interleave : ∀ s, P s → P s.interleave
  seq : ∀ s x, x.busy = s.seq.busy → P s → P (s.withSeq x)
  check : ∀ s, P s → P (dmaCheck c s)
  clear : ∀ s, P s → P (dmaClear c s)
  release : ∀ s, P s → P (dmaRelease c s)
  reset : ∀ s, P s → P (dmaReset s)

theorem CycleClosed.atLine {c : Chan} {P : State → Prop} (k : CycleClosed c P) {s : State} (l : Line) (h : P s) :
    P (s.atLine l) := k.interleave _ (k.seq _ _ rfl h)

theorem CycleClosed.wait {c : Chan} {P : State → Prop} (k : CycleClosed c P) (n : Nat) {s : State} (h : P s) :
    P (waitLoop c n s).2 := by
  induction n generalizing s with
  | zero => exact h
  | succ n ih =>
    have h1 : P (dmaCheck c (s.atPos (.waiting c (n + 1)))) :=
      k.check _ (k.interleave _ (k.seq _ _ rfl h))
    unfold waitLoop
    simp only []
    split
    · exact h1
    · exact ih h1

theorem CycleClosed.complete {c : Chan} {P : State → Prop} (k : CycleClosed c P) {s : State} (h : P s) :
    P (stageComplete c s).state := by
  unfold stageComplete
  have h1 : P (dmaClear c (((s.atLine .translate).atLine .capture).atLine .clear)) :=
    k.clear _ (k.atLine _ (k.atLine _ (k.atLine _ h)))
  simp only [Part.state]
  split
  · exact k.release _ (k.atLine _ h1)
  · exact k.release _ (k.atLine _ (k.reset _ (k.atLine _ h1)))

theorem CycleClosed.timeout {c : Chan} {P : State → Prop} (k : CycleClosed c P) {s : State} (h : P s) :
    P (stageTimeout c s).state := k.release _ (k.atLine _ (k.reset _ (k.atLine _ h)))

theorem CycleClosed.and {c : Chan} {P Q : State → Prop} (k : CycleClosed c P) (l : CycleClosed c Q) :
    CycleClosed c fun s => P s ∧ Q s :=
  ⟨fun s h => ⟨k.interleave s h.1, l.interleave s h.2⟩, fun s x hx h => ⟨k.seq s x hx h.1, l.seq s x hx h.2⟩,
    fun s h => ⟨k.check s h.1, l.check s h.2⟩, fun s h => ⟨k.clear s h.1, l.clear s h.2⟩,
    fun s h => ⟨k.release s h.1, l.release s h.2⟩, fun s h => ⟨k.reset s h.1, l.reset s h.2⟩⟩

theorem closed_frame {cs : List Chan} {c : Chan} (hc : c ∈ cs) (s : State) : CycleClosed c (XferFrame cs s) where
  interleave _ h := h.trans (xferFrame_interleave cs h.busy)
  seq _ _ hx h := h.trans (xferFrame_of_eq cs h.busy hx (fun _ _ => rfl) rfl rfl rfl rfl rfl List.prefix_rfl)
  check _ h := h.trans (xferFrame_check cs c h.busy)
  clear _ h := h.trans (xferFrame_clear hc h.busy)
  release _ h := h.trans (xferFrame_release hc h.busy)
  reset _ h := h.trans (xferFrame_reset cs h.busy)

theorem closed_trbStore (c : Chan) (l : List (Nat × Trb)) : CycleClosed c fun s => s.trbStore = l where
  interleave s h := (agentFrame_interleave s).trbStore.trans h
  seq _ _ _ h := h
  check _ h := h
  clear _ h := h
  release _ h := h
  reset s h := by rw [dmaReset_eq]; exact h

theorem closed_shield (c : Chan) (a : Nat) (v : Byte) : CycleClosed c fun s => s.seq.busy = true ∧ Shield a v s where
  interleave s h := ⟨(agentFrame_interleave s).busy.trans h.1, shield_interleave h.1 h.2⟩
  seq s _ hx h := ⟨hx.trans h.1, shield_of_dma (s := s) rfl rfl h.2⟩
  check s h := ⟨h.1, shield_of_dma (s := s) rfl rfl h.2⟩
  clear _ h := ⟨h.1, shield_clear c h.2⟩
  release _ h := ⟨h.1, shield_release c h.2⟩
  reset s h := ⟨by rw [dmaReset_eq]; exact h.1, shield_reset h.2⟩

/-! ### The channel through a cycle -/

/-- What a channel of direction `d` that was programmed with TRB `x` can have become: it waits, or its agent has ended the
transfer; one that sent without an error sent the whole TRB (R158). -/
def Waits (d : Dir) (x : Trb) (y : Channel) : Prop :=
  y.programmed = true ∧ y.enabled = true ∧ y.trb = some x ∧
    (y.pending = true ∧ y.done = false ∧ y.err = false ∨
      y.pending = false ∧ y.done = true ∧ y.actual ≤ x.size ∧ (d = .out → y.err = false → y.actual = x.size))

theorem Waits.interleave {x : Trb} {c : Chan} {s : State} (h : Waits c.dir x (s.chan c)) :
    Waits c.dir x (s.interleave.chan c) := by
  have f := agentFrame_interleave s
  refine ⟨(f.chan c).programmed.trans h.1, (f.chan c).enabled.trans h.2.1, (f.chan c).trb.trans h.2.2.1, ?_⟩
  rcases f.chan c with e | ⟨-, hp, ⟨t, ht, ha⟩, hz, -⟩
  · rw [e]; exact h.2.2.2
  · rw [h.2.2.1] at ht
    cases ht
    refine .inr ⟨by rw [hz], by rw [hz], ha, fun hd he => ?_⟩
    refine (f.sent c x hd (by unfold State.agentTrb; rw [h.2.1, hp]; exact h.2.2.1) he).resolve_left fun e => ?_
    rw [← e, hz] at hp
    cases hp

/-- A cycle's end leaves its channel clean, with nothing pending. -/
def Released (s : State) (c : Chan) : Prop :=
  ChanClean s c ∧ (s.chan c).pending = false ∧ (s.chan c).trb = none ∧ s.dma.sel = c

theorem chan_interleave (s : State) (c : Chan) : ChanFrame (s.chan c) (s.interleave.chan c) :=
  (agentFrame_interleave s).chan c

theorem chan_atLine (s : State) (l : Line) (c : Chan) : ChanFrame (s.chan c) ((s.atLine l).chan c) :=
  chan_interleave (s.setPos (.line l)) c

theorem sel_atLine (s : State) (l : Line) : (s.atLine l).dma.sel = s.dma.sel := (agentFrame_interleave _).sel

/-- A channel with nothing pending passes a point unchanged. -/
theorem chan_atLine_eq {s : State} {c : Chan} (l : Line) (h : (s.chan c).pending = false) : (s.atLine l).chan c = s.chan c :=
  (chan_atLine s l c).eq_of_idle (.inr h)

/-- The wait loop keeps the channel waiting or complete, and the selector on it; it answers COMPLETE only when complete. -/
theorem waitLoop_waits {x : Trb} {c : Chan} (n : Nat) {s : State} (h : Waits c.dir x (s.chan c)) (hs : s.dma.sel = c) :
    Waits c.dir x ((waitLoop c n s).2.chan c) ∧ (waitLoop c n s).2.dma.sel = c ∧
      ((waitLoop c n s).1 = true → ((waitLoop c n s).2.chan c).done = true ∧ ((waitLoop c n s).2.chan c).pending = false) := by
  induction n generalizing s with
  | zero => exact ⟨h, hs, nofun⟩
  | succ n ih =>
    have h1 : Waits c.dir x ((dmaCheck c (s.atPos (.waiting c (n + 1)))).chan c) :=
      Waits.interleave (s := s.setPos (.waiting c (n + 1))) h
    unfold waitLoop
    simp only []
    split
    · rename_i hd
      refine ⟨h1, rfl, fun _ => ?_⟩
      rcases h1.2.2.2 with ⟨-, h2, h3⟩ | ⟨h2, h3, -, -⟩
      · rw [h2, h3] at hd; cases hd
      · exact ⟨h3, h2⟩
    · exact ih h1 rfl

/-- A release leaves its channel clean where nothing of the transfer stands any more. -/
theorem released_release {c : Chan} {s : State} (h2 : (s.chan c).done = false) (h3 : (s.chan c).err = false) :
    Released (dmaRelease c s) c := by
  have : (dmaRelease c s).chan c = { s.chan c with enabled := false, programmed := false, pending := false, trb := none } := by
    rw [chan_dmaRelease, if_pos rfl]
  exact ⟨⟨by rw [this], by rw [this], by rw [this]; exact h2, by rw [this]; exact h3⟩, by rw [this], by rw [this], rfl⟩

/-- A reset with the channel selected, then its release, leaves it clean. -/
theorem released_reset {c : Chan} {s : State} (hs : s.dma.sel = c) :
    Released (dmaRelease c ((dmaReset (s.atLine .reset)).atLine .release)) c := by
  have hi : (dmaReset (s.atLine .reset)).chan c = Channel.idle := (chan_dmaReset _ c).1 (by rw [sel_atLine, hs])
  have hj : ((dmaReset (s.atLine .reset)).atLine .release).chan c = Channel.idle := by
    rw [chan_atLine_eq _ (by rw [hi]; rfl), hi]
  exact released_release (by rw [hj]; rfl) (by rw [hj]; rfl)

/-- The end of a completed cycle: its status is the translation, its length the captured one, the channel is released. -/
theorem stageComplete_spec {c : Chan} {s : State} (hp : (s.chan c).pending = false) :
    ∃ e t, stageComplete c s = .done e t ∧ Released t c ∧ e.status = (translate s c).1 ∧ e.res = (translate s c).2 ∧
      e.actual = (s.chan c).actual := by
  have c1 : (s.atLine .translate).chan c = s.chan c := chan_atLine_eq _ hp
  have c2 : ((s.atLine .translate).atLine .capture).chan c = s.chan c := by rw [chan_atLine_eq _ (by rw [c1]; exact hp), c1]
  have c3 : (((s.atLine .translate).atLine .capture).atLine .clear).chan c = s.chan c := by
    rw [chan_atLine_eq _ (by rw [c2]; exact hp), c2]
  have ht : translate (s.atLine .translate) c = translate s c := by
    unfold translate; rw [c1, State.atPos_cfg]
  unfold stageComplete
  simp only [ht, c2]
  refine ⟨_, _, rfl, ?_, rfl, rfl, rfl⟩
  have hk : (dmaClear c (((s.atLine .translate).atLine .capture).atLine .clear)).chan c =
      { s.chan c with done := false, err := false, errCode := 0 } := by rw [chan_dmaClear, if_pos rfl, c3]
  split
  · refine released_release ?_ ?_ <;> rw [chan_atLine_eq _ (by rw [hk]; exact hp), hk]
  · exact released_reset (dmaClear_sel c _)

/-- The end of a cycle that timed out: the channel is reset and released. -/
theorem stageTimeout_released {c : Chan} {s : State} (hs : s.dma.sel = c) : Released (stageTimeout c s).state c :=
  released_reset hs

/-- The answers a stage cycle in direction `d` gives (R158, R184). -/
def StageAnswer (d : Dir) (e : StageEnd) (size : Nat) : Prop :=
  e.status = .success ∧ e.res = .none ∧ e.actual ≤ size ∧ (d = .out → e.actual = size) ∨ e.status = .deviceError ∧ e.res ≠ .none ∨
    e.status = .timeout ∧ e.res = .timeout ∧ e.actual = 0

theorem translate_answer (s : State) (c : Chan) :
    (s.chan c).err = false ∧ translate s c = (.success, .none) ∨ (translate s c).1 = .deviceError ∧ (translate s c).2 ≠ .none := by
  unfold translate
  split
  · split
    · exact .inr ⟨rfl, by decide⟩
    · rename_i hk
      refine .inr ⟨rfl, ?_⟩
      generalize errClassOf s.cfg (s.chan c).errCode = k at *
      cases k
      · exact absurd rfl hk
      all_goals decide
  · exact .inl ⟨by simpa using ‹¬(s.chan c).err = true›, rfl⟩

/-- A stage cycle on a clean channel with an aligned TRB completes on every behaviour of the other agents: it releases its
channel and answers within the TRB, and it keeps whatever the wait, the resets and the release keep (R184, R198, R200). -/
theorem stageCycle_spec {c : Chan} {trb : Nat} (kind : XferKind) {s : State} {x : Trb} (hcl : ChanClean s c)
    (hx : tabFind s.trbStore trb = some x) (h1 : trb % s.cfg.dmaAlign = 0) (h2 : x.addr % s.cfg.dmaAlign = 0) :
    ∃ e t, stageCycle c trb kind s = .done e t ∧ Released t c ∧ StageAnswer c.dir e x.size ∧
      ∀ P, CycleClosed c P → P (programmed c trb x (s.atLine .program)) → P t := by
  have hc0 : (s.atLine .program).chan c = s.chan c := (chan_atLine s _ c).eq_of_idle (.inl hcl.1)
  have hp : dmaProgram c trb (s.atLine .program) = .done () (programmed c trb x (s.atLine .program)) :=
    dmaProgram_done (by rw [hc0]; exact hcl.2.1) (by rw [State.atPos_trbStore]; exact hx) (by rw [State.atPos_cfg]; exact h1)
      (by rw [State.atPos_cfg]; exact h2)
  have hw : Waits c.dir x ((programmed c trb x (s.atLine .program)).chan c) := by
    rw [chan_programmed, if_pos rfl, hc0]
    exact ⟨rfl, rfl, rfl, .inl ⟨rfl, hcl.2.2.1, hcl.2.2.2⟩⟩
  have hsel : (programmed c trb x (s.atLine .program)).dma.sel = c := programmed_sel _ _ _ _
  unfold stageCycle
  rw [hp, andThen_done]
  generalize programmed c trb x (s.atLine .program) = u at *
  obtain ⟨w1, w2, w3⟩ := waitLoop_waits (waitBudget u.cfg kind u.args.timeout) hw hsel
  simp only []
  cases hb : (waitLoop c (waitBudget u.cfg kind u.args.timeout) u).1 with
  | true =>
    obtain ⟨w4, w5⟩ := w3 hb
    obtain ⟨e, t, he, r1, r2, r3, r4⟩ := stageComplete_spec w5
    refine ⟨e, t, by rw [if_pos rfl]; exact he, r1, ?_, fun P k h => ?_⟩
    · rcases translate_answer (waitLoop c (waitBudget u.cfg kind u.args.timeout) u).2 c with
        ⟨hn, ht⟩ | ⟨ht1, ht2⟩
      · rcases w1.2.2.2 with ⟨h, -, -⟩ | ⟨-, -, h, h'⟩
        · rw [w5] at h; cases h
        · exact .inl ⟨by rw [r2, ht], by rw [r3, ht], by rw [r4]; exact h, fun hd => by rw [r4]; exact h' hd hn⟩
      · exact .inr (.inl ⟨by rw [r2, ht1], by rw [r3]; exact ht2⟩)
    · have := k.complete (k.wait (waitBudget u.cfg kind u.args.timeout) h)
      rw [he] at this
      exact this
  | false =>
    exact ⟨_, _, by rw [if_neg (by simp)]; rfl, stageTimeout_released w2, .inr (.inr ⟨rfl, rfl, rfl⟩), fun P k h =>
      k.timeout (k.wait _ h)⟩

/-- What a stage cycle on a slot just written gives: the form in which the transfers use it. -/
structure CycleEnd (cs : List Chan) (c : Chan) (x : Trb) (s : State) (e : StageEnd) (t : State) : Prop where
  released : Released t c
  answer : StageAnswer c.dir e x.size
  frame : XferFrame cs s t
  shield : ∀ a v, (c.dir = .in_ → a < x.addr ∨ x.addr + x.size ≤ a) → Shield a v s → Shield a v t
  clean : ∀ b, b ≠ c → ChanClean s b → ChanClean t b

/-- A clean channel that no part of the transfer touches stays clean: its agent has no step, and a reset can only idle it. -/
theorem chanClean_of_frame {s t : State} {b : Chan} (h : ChanFrame (s.chan b) (t.chan b) ∨ t.chan b = Channel.idle)
    (hc : ChanClean s b) : ChanClean t b := by
  unfold ChanClean at *
  rcases h with h | h
  · rw [h.eq_of_idle (.inl hc.1)]; exact hc
  · rw [h]; exact ⟨rfl, rfl, rfl, rfl⟩

/-- The TRB of a cycle written at admissible addresses. -/
theorem writeTrb_done {p : Nat} {x : Trb} {s : State} (h1 : p < addrSpace s.cfg.addrWidth)
    (h2 : x.addr < addrSpace s.cfg.addrWidth) : writeTrb p x s = .done () (s.putTrb p x) := by
  unfold writeTrb
  rw [if_pos (by simp [h1, h2])]

/-- An address a TRB slot or a buffer of a transfer may have (R62, R66). -/
def AddrOk (p : Params) (a : Nat) : Prop := a % p.dmaAlign = 0 ∧ a < addrSpace p.addrWidth

theorem trbCycle_spec {cs : List Chan} {c : Chan} (hc : c ∈ cs) {trb : Nat} (kind : XferKind) {s : State} (x : Trb)
    (hb : s.seq.busy = true) (hcl : ChanClean s c) (h1 : AddrOk s.cfg trb) (h2 : AddrOk s.cfg x.addr) :
    ∃ e t, trbCycle c trb x kind s = .done e t ∧ CycleEnd cs c x s e t := by
  have f0 := xferFrame_atLine cs .writeTrb hb
  have hcl0 : ChanClean (s.atLine .writeTrb) c := chanClean_of_frame (.inl (chan_atLine s _ c)) hcl
  have hw : writeTrb trb x (s.atLine .writeTrb) = .done () ((s.atLine .writeTrb).putTrb trb x) :=
    writeTrb_done (by rw [State.atPos_cfg]; exact h1.2) (by rw [State.atPos_cfg]; exact h2.2)
  have s0 : ∀ a v, Shield a v s → Shield a v (s.atLine .writeTrb) := fun a v h => shield_atLine _ hb h
  have k0 : ∀ b, ChanClean s b → ChanClean (s.atLine .writeTrb) b := fun b h =>
    chanClean_of_frame (.inl (chan_atLine s _ b)) h
  unfold trbCycle
  rw [hw, andThen_done]
  generalize s.atLine .writeTrb = u at *
  have hx : tabFind (u.putTrb trb x).trbStore trb = some x := by simp [State.putTrb]
  obtain ⟨e, t, he, hr, ha, hk⟩ := stageCycle_spec (s := u.putTrb trb x) kind hcl0 hx (by rw [← f0.cfg] at h1; exact h1.1)
    (by rw [← f0.cfg] at h2; exact h2.1)
  have hpb : (u.putTrb trb x).seq.busy = true := f0.busy
  have g1 : ∀ ds, XferFrame ds u (u.putTrb trb x) := fun ds =>
    xferFrame_of_eq ds f0.busy rfl (fun _ _ => rfl) rfl rfl rfl rfl rfl List.prefix_rfl
  have g : ∀ ds, c ∈ ds → XferFrame ds u t := fun ds hd =>
    hk _ (closed_frame hd u) (((g1 ds).trans (xferFrame_atLine ds .program hpb)).trans
      (xferFrame_programmed hd trb x (xferFrame_atLine ds .program hpb).busy))
  refine ⟨e, t, he, hr, ha, f0.trans (g cs hc), fun a v hi hs => ?_, fun b hbc hcb => ?_⟩
  · refine (hk _ (closed_shield c a v) ⟨?_, shield_programmed hi (shield_atLine _ hpb ?_)⟩).2
    · rw [programmed_eq]; exact (xferFrame_atLine cs .program hpb).busy
    · exact shield_of_dma (s := u) rfl rfl (s0 a v hs)
  · exact chanClean_of_frame ((g [c] (by simp)).chan b (by simpa using hbc)) (k0 b hcb)

/-! ### The copies between the caller's region and the staging regions -/

/-- A copy between two admitted places answers, and writes its destination alone. -/
theorem copyBytes_done {l : Line} {src dst : List Owner} {a b n : Nat} {s : State} (h1 : s.admits src a n = true)
    (h2 : s.admits dst b n = true) :
    copyBytes l src a dst b n s = .done () (s.withMem (writeBytes s.mem b (readBytes s.mem a n))) := by
  unfold copyBytes seqRead seqWrite
  rw [if_pos h1, andThen_done, length_readBytes, if_pos h2]

/-- An optional copy, with the interleaving point before it. -/
theorem optCopy_done (cs : List Chan) (p : Prop) [Decidable p] {l : Line} {src dst : List Owner} {a b n : Nat} {s : State}
    (hb : s.seq.busy = true) (h1 : p → s.admits src a n = true) (h2 : p → s.admits dst b n = true) :
    ∃ t, (if p then copyBytes l src a dst b n (s.atLine l) else .done () s) = .done () t ∧ XferFrame cs s t ∧
      (∀ c, ChanClean s c → ChanClean t c) ∧ ∀ d v, (p → d < b ∨ b + n ≤ d) → Shield d v s → Shield d v t := by
  have f := xferFrame_atLine cs l hb
  by_cases hp : p
  · rw [if_pos hp, copyBytes_done (by rw [State.admits_congr f.cfg f.alloc]; exact h1 hp)
      (by rw [State.admits_congr f.cfg f.alloc]; exact h2 hp)]
    refine ⟨_, rfl, f.trans (xferFrame_of_eq cs f.busy rfl (fun _ _ => rfl) rfl rfl rfl rfl rfl List.prefix_rfl), fun c hc => ?_,
      fun d v hd hs => ?_⟩
    · exact chanClean_of_frame (.inl (chan_atLine s l c)) hc
    · exact shield_write (by rw [length_readBytes]; exact hd hp) (shield_atLine l hb hs)
  · rw [if_neg hp]
    exact ⟨s, rfl, .refl cs hb, fun _ h => h, fun _ _ _ h => h⟩

/-- The staging region filled for an OUT cycle (R77). -/
theorem fillOut_done (cs : List Chan) (dir : Dir) {src dst n : Nat} {s : State} (hb : s.seq.busy = true)
    (h1 : dir = .out → s.admits [.caller] src n = true) (h2 : dir = .out → s.admits [.staging] dst n = true) :
    ∃ t, fillOut dir src dst n s = .done () t ∧ XferFrame cs s t ∧ (∀ c, ChanClean s c → ChanClean t c) ∧
      ∀ d v, (dir = .out → d < dst ∨ dst + n ≤ d) → Shield d v s → Shield d v t :=
  optCopy_done cs (dir = .out) hb h1 h2

/-- The bytes of an IN cycle delivered (R77). -/
theorem deliverIn_done (cs : List Chan) (dir : Dir) {src dst n : Nat} {s : State} (hb : s.seq.busy = true)
    (h1 : dir = .in_ → s.admits [.staging] src n = true) (h2 : dir = .in_ → s.admits [.caller] dst n = true) :
    ∃ t, deliverIn dir src dst n s = .done () t ∧ XferFrame cs s t ∧ (∀ c, ChanClean s c → ChanClean t c) ∧
      ∀ d v, (dir = .in_ → d < dst ∨ dst + n ≤ d) → Shield d v s → Shield d v t :=
  optCopy_done cs (dir = .in_) hb h1 h2

/-! ### The transfers -/

/-- What the stages of a transfer come to (R184, R247). -/
def EndAnswer (st : Status) (res : XferResult) : Prop :=
  st ∈ [Status.success, .deviceError, .timeout] ∧ ResultFits st res

theorem StageAnswer.endAnswer {d : Dir} {e : StageEnd} {n : Nat} (h : StageAnswer d e n) : EndAnswer e.status e.res := by
  rcases h with ⟨h1, h2, -⟩ | ⟨h1, h2⟩ | ⟨h1, h2, -⟩ <;> exact ⟨by simp [h1], by simp [ResultFits, h1, h2]⟩

theorem StageAnswer.actual_le {d : Dir} {e : StageEnd} {n : Nat} (h : StageAnswer d e n) (hs : e.status = .success) :
    e.actual ≤ n ∧ (d = .out → e.actual = n) := by
  rcases h with ⟨-, -, h⟩ | ⟨h, -⟩ | ⟨h, -, -⟩
  · exact h
  · rw [hs] at h; cases h
  · rw [hs] at h; cases h

/-- One data-moving cycle of a transfer on channel `c` completes: `n` bytes between the staging region at `stg` and the
caller's place `p` (R77, R184). -/
theorem dataCycle_spec {cs : List Chan} {c : Chan} (hc : c ∈ cs) {trb stg p n : Nat} (kind : XferKind) (fl : Params → Nat)
    {s : State} (hb : s.seq.busy = true) (hcl : ChanClean s c) (hp : s.admits [.caller] p n = true)
    (hs : s.admits [.staging] stg n = true) (h1 : AddrOk s.cfg trb) (h2 : AddrOk s.cfg stg) :
    ∃ u e t w, fillOut c.dir p stg n s = .done () u ∧
      trbCycle c trb { addr := stg, size := n, flags := fl u.cfg } kind u = .done e t ∧ StageAnswer c.dir e n ∧
      XferFrame cs s u ∧ XferFrame cs s t ∧ (∀ b, ChanClean s b → ChanClean t b) ∧
      (∀ a v, (a < stg ∨ stg + n ≤ a) → Shield a v s → Shield a v t) ∧
      (e.status = .success → deliverIn c.dir stg p e.actual t = .done () w ∧ XferFrame cs s w ∧
        (∀ b, ChanClean s b → ChanClean w b) ∧
        ∀ a v, (a < stg ∨ stg + n ≤ a) → (c.dir = .out ∨ a < p ∨ p + e.actual ≤ a) → Shield a v s → Shield a v w) := by
  obtain ⟨u, hu, fu, cu, su⟩ := fillOut_done cs c.dir (src := p) (dst := stg) (n := n) hb (fun _ => hp) (fun _ => hs)
  obtain ⟨e, t, he, k⟩ := trbCycle_spec hc (trb := trb) kind (s := u) { addr := stg, size := n, flags := fl u.cfg } fu.busy
    (cu c hcl) (by rw [fu.cfg]; exact h1) (by rw [fu.cfg]; exact h2)
  have ft := fu.trans k.frame
  have ct : ∀ b, ChanClean s b → ChanClean t b := fun b h => by
    by_cases hbc : b = c
    · rw [hbc]; exact k.released.1
    · exact k.clean b hbc (cu b h)
  have st : ∀ a v, (a < stg ∨ stg + n ≤ a) → Shield a v s → Shield a v t := fun a v ha h =>
    k.shield a v (fun _ => ha) (su a v (fun _ => ha) h)
  by_cases hst : e.status = .success
  · have hlen : e.actual ≤ n := (k.answer.actual_le hst).1
    obtain ⟨w, hw, fw, cw, sw⟩ := deliverIn_done cs c.dir (src := stg) (dst := p) (n := e.actual) ft.busy
      (fun _ => by rw [State.admits_congr ft.cfg ft.alloc]; exact State.admits_sub hs (le_refl _) (by omega))
      (fun _ => by rw [State.admits_congr ft.cfg ft.alloc]; exact State.admits_sub hp (le_refl _) (by omega))
    refine ⟨u, e, t, w, hu, he, k.answer, fu, ft, ct, st, fun _ => ⟨hw, ft.trans fw, fun b h => cw b (ct b h),
      fun a v ha hd h => sw a v (fun hi => ?_) (st a v ha h)⟩⟩
    rcases hd with hd | hd
    · rw [hd] at hi; cases hi
    · exact hd
  · exact ⟨u, e, t, t, hu, he, k.answer, fu, ft, ct, st, fun h => absurd h hst⟩

/-- The cycle of XFER_INT_SYNC with its copies completes (R194). -/
theorem intSyncCycle_spec {c : Chan} {trb stg : Nat} {s : State} (hb : s.seq.busy = true) (hcl : ChanClean s c)
    (hbuf : CallerBuf s) (hl : s.args.len ≤ s.args.buf.len) (hs : s.admits [.staging] stg s.args.len = true)
    (h1 : AddrOk s.cfg trb) (h2 : AddrOk s.cfg stg) :
    ∃ e t, intSyncCycle c trb stg s = .done e t ∧ XferFrame [c] s t ∧ ChanClean t c ∧ EndAnswer e.status e.res ∧
      e.len ≤ s.args.len ∧ (e.status ≠ .success → e.len = 0) ∧ (e.status = .success → c.dir = .out → e.len = s.args.len) ∧
      ∀ a v, (a < stg ∨ stg + s.args.len ≤ a) →
        (c.dir = .out ∨ a < s.args.buf.base ∨ s.args.buf.base + e.len ≤ a) → Shield a v s → Shield a v t := by
  have hcb : s.admits [.caller] s.args.buf.base s.args.len = true := State.admits_sub hbuf (le_refl _) (by omega)
  obtain ⟨u, e, t, w, hu, he, ka, fu, ft, ct, st, hw⟩ := dataCycle_spec (cs := [c]) (c := c) (by simp) (trb := trb) .interrupt
    (fun p => trbFlags p .interrupt) hb hcl hcb hs h1 h2
  have hargs : ∀ v, XferFrame [c] s v → v.args = s.args := fun v f => f.args
  unfold intSyncCycle
  rw [hu, andThen_done]
  simp only [fu.args]
  rw [he, andThen_done]
  by_cases hst : e.status = .success
  · obtain ⟨hw, fw, cw, sw⟩ := hw hst
    rw [if_pos hst, ft.args, hw, andThen_done]
    exact ⟨_, w, rfl, fw, cw c hcl, ka.endAnswer, (ka.actual_le hst).1, fun h => absurd hst h, fun _ => (ka.actual_le hst).2, sw⟩
  · rw [if_neg hst]
    exact ⟨_, t, rfl, ft, ct c hcl, ka.endAnswer, Nat.zero_le _, fun _ => rfl, fun h => absurd h hst,
      fun a v ha _ h => st a v ha h⟩

/-! ### Chunks (R190) -/

/-- Chunk `i` of the payload lies inside it, and is no longer than a burst. -/
theorem chunk_bounds {len burst i : Nat} (hb : 0 < burst) (hi : i < chunkCount len burst) :
    i * burst + chunkSize len burst i ≤ len ∧ chunkSize len burst i ≤ burst ∧ 0 < chunkSize len burst i := by
  unfold chunkSize chunkCount ceilDiv at *
  have hd := Nat.div_add_mod (len + burst - 1) burst
  have hm := Nat.mod_lt (len + burst - 1) hb
  generalize hq : (len + burst - 1) / burst = q at *
  have hlen : 0 < len := by
    rcases Nat.eq_zero_or_pos len with rfl | h
    · have : (0 + burst - 1) / burst = 0 := Nat.div_eq_of_lt (by omega)
      omega
    · exact h
  obtain ⟨p, rfl⟩ : ∃ p, q = p + 1 := ⟨q - 1, by omega⟩
  have e1 : burst * (p + 1) = p * burst + burst := by rw [Nat.mul_comm, Nat.succ_mul]
  split
  · rename_i h
    have : (i + 1) * burst ≤ p * burst := Nat.mul_le_mul_right _ (by omega)
    rw [Nat.succ_mul] at this
    omega
  · have : i = p := by omega
    subst this
    simp only [Nat.add_sub_cancel]
    omega

/-- Another round of the command. -/
theorem xferFrame_round (cs : List Chan) {s : State} (n : Nat) (hb : s.seq.busy = true) : XferFrame cs s (s.setRound n) :=
  xferFrame_of_eq cs hb rfl (fun _ _ => rfl) rfl rfl rfl rfl rfl List.prefix_rfl

/-- One chunk completes; it stores into the staging region and, where it succeeds, the bytes it received at the chunk's place
of the caller's buffer (R191). -/
theorem bulkChunk_spec {c : Chan} {trb stg i : Nat} {s : State} (hb : s.seq.busy = true) (hcl : ChanClean s c)
    (hbuf : CallerBuf s) (hl : s.args.len ≤ s.args.buf.len) (hs : s.admits [.staging] stg s.cfg.burstSize = true)
    (hbu : 0 < s.cfg.burstSize) (h1 : AddrOk s.cfg trb) (h2 : AddrOk s.cfg stg)
    (hi : i < chunkCount s.args.len s.cfg.burstSize) :
    ∃ e w, bulkChunk c trb stg i s = .done e w ∧ StageAnswer c.dir e (chunkSize s.args.len s.cfg.burstSize i) ∧
      XferFrame [c] s w ∧ ChanClean w c ∧ ∀ a v, (a < stg ∨ stg + s.cfg.burstSize ≤ a) →
        (c.dir = .out ∨ e.status ≠ .success ∨ a < s.args.buf.base + i * s.cfg.burstSize ∨
          s.args.buf.base + i * s.cfg.burstSize + e.actual ≤ a) → Shield a v s → Shield a v w := by
  obtain ⟨b1, b2, b3⟩ := chunk_bounds (i := i) hbu (len := s.args.len) hi
  have hcb : s.admits [.caller] (s.args.buf.base + i * s.cfg.burstSize) (chunkSize s.args.len s.cfg.burstSize i) = true :=
    State.admits_sub hbuf (by omega) (by omega)
  have hst : s.admits [.staging] stg (chunkSize s.args.len s.cfg.burstSize i) = true :=
    State.admits_sub hs (le_refl _) (by omega)
  have f0 := xferFrame_round [c] i hb
  obtain ⟨u, e, t, w, hu, he, ka, fu, ft, ct, sh, hw⟩ := dataCycle_spec (cs := [c]) (c := c) (by simp) (trb := trb) .bulk
    (fun p => trbFlags p .bulk) (s := s.setRound i) hb hcl hcb hst h1 h2
  unfold bulkChunk
  simp only []
  rw [hu, andThen_done, he, andThen_done]
  by_cases hok : e.status = .success
  · obtain ⟨hw, fw, cw, sw⟩ := hw hok
    rw [if_pos hok, hw, andThen_done]
    exact ⟨e, w, rfl, ka, f0.trans fw, cw c hcl, fun a v ha hd h =>
      sw a v (by omega) (hd.imp_right fun k => k.resolve_left fun n => n hok) ⟨h.byte, h.out⟩⟩
  · rw [if_neg hok]
    exact ⟨e, t, rfl, ka, f0.trans ft, ct c hcl, fun a v ha _ h => sh a v (by omega) ⟨h.byte, h.out⟩⟩

/-- What the chunk loop from chunk `i`, with `n` chunks to go and `len` bytes moved, comes to: the chunks `ends` succeed, up to
state `v`, and the length is their bytes; the next one fails, or there is none. Of the caller's buffer it writes the bytes the
chunks that succeeded received, at their places (R191, R193). -/
structure ChunksEnd (c : Chan) (trb stg i n len : Nat) (s : State) (e : XferEnd) (t : State) (ends : List StageEnd)
    (v : State) : Prop where
  moved : ChunksMoved c trb stg i ends s v
  len : e.len = len + (ends.map fun x => x.actual).sum
  ok : e.status = .success → ends.length = n ∧ t = v
  failed : e.status ≠ .success →
    ends.length < n ∧ ∃ x, bulkChunk c trb stg (i + ends.length) v = .done x t ∧ x.status = e.status ∧ x.res = e.res
  actual : ∀ j x, ends[j]? = some x → x.actual ≤ chunkSize s.args.len s.cfg.burstSize (i + j) ∧
    (c.dir = .out → x.actual = chunkSize s.args.len s.cfg.burstSize (i + j))
  shield : ∀ a b, (a < stg ∨ stg + s.cfg.burstSize ≤ a) →
    (c.dir = .out ∨ ∀ j x, ends[j]? = some x → a < s.args.buf.base + (i + j) * s.cfg.burstSize ∨
      s.args.buf.base + (i + j) * s.cfg.burstSize + x.actual ≤ a) → Shield a b s → Shield a b t

/-- The chunk loop completes (R191, R193). -/
theorem bulkLoop_spec {c : Chan} {trb stg : Nat} (n : Nat) : ∀ (i len : Nat) {s : State}, s.seq.busy = true → ChanClean s c →
    CallerBuf s → s.args.len ≤ s.args.buf.len → s.admits [.staging] stg s.cfg.burstSize = true → 0 < s.cfg.burstSize →
    AddrOk s.cfg trb → AddrOk s.cfg stg → i + n = chunkCount s.args.len s.cfg.burstSize →
    len ≤ i * s.cfg.burstSize → (n = 0 → len ≤ s.args.len) →
    ∃ e t ends v, bulkLoop c trb stg n i len s = .done e t ∧ XferFrame [c] s t ∧ ChanClean t c ∧
      EndAnswer e.status e.res ∧ e.len ≤ s.args.len ∧ ChunksEnd c trb stg i n len s e t ends v := by
  induction n with
  | zero =>
    intro i len s hb hcl _ _ _ _ _ _ _ _ hlen
    exact ⟨_, s, [], s, rfl, .refl [c] hb, hcl, ⟨by simp, by simp [ResultFits]⟩, hlen rfl, rfl, by simp, by simp, by simp,
      by simp, fun _ _ _ _ h => h⟩
  | succ n ih =>
    intro i len s hb hcl hbuf hl hs hbu h1 h2 hi hlen _
    have hic : i < chunkCount s.args.len s.cfg.burstSize := by omega
    obtain ⟨b1, b2, b3⟩ := chunk_bounds (i := i) hbu (len := s.args.len) hic
    obtain ⟨e, w, hw, ka, fw, cw, sw⟩ := bulkChunk_spec hb hcl hbuf hl hs hbu h1 h2 hic
    unfold bulkLoop
    rw [hw, andThen_done]
    by_cases hok : e.status = .success
    · rw [if_pos hok]
      obtain ⟨hact, hout⟩ := ka.actual_le hok
      obtain ⟨e', t', ends, v, h3, f3, c3, a3, l3, k⟩ := ih (i + 1) (len + e.actual) (s := w) fw.busy cw
        (by unfold CallerBuf; rw [State.admits_congr fw.cfg fw.alloc, fw.args]; exact hbuf) (by rw [fw.args]; exact hl)
        (by rw [State.admits_congr fw.cfg fw.alloc, fw.cfg]; exact hs) (by rw [fw.cfg]; exact hbu) (by rw [fw.cfg]; exact h1)
        (by rw [fw.cfg]; exact h2) (by rw [fw.args, fw.cfg]; omega) (by rw [fw.cfg, Nat.succ_mul]; omega)
        (fun _ => by rw [fw.args]; omega)
      have hadd : ∀ j, i + 1 + j = i + (j + 1) := fun j => by omega
      obtain ⟨k1, k2, k3, k4, k5, k6⟩ := k
      simp only [fw.args, fw.cfg, hadd] at l3 k5 k6
      refine ⟨e', t', e :: ends, v, h3, fw.trans f3, c3, a3, l3, ⟨w, hw, hok, k1⟩, ?_, fun h => ?_, fun h => ?_,
        fun j x hj => ?_, fun a b ha hd h => ?_⟩
      · rw [k2, List.map_cons, List.sum_cons, Nat.add_assoc]
      · exact ⟨by rw [List.length_cons, (k3 h).1], (k3 h).2⟩
      · rw [List.length_cons, ← hadd]
        exact ⟨Nat.succ_lt_succ (k4 h).1, (k4 h).2⟩
      · cases j with
        | zero => cases hj; exact ⟨hact, hout⟩
        | succ j => exact k5 j x hj
      · exact k6 a b ha (hd.imp_right fun g j x hj => g (j + 1) x hj)
          (sw a b ha (hd.imp_right fun g => .inr (g 0 e rfl)) h)
    · rw [if_neg hok]
      refine ⟨_, w, [], s, rfl, fw, cw, ka.endAnswer, ?_, rfl, rfl, fun h => absurd h hok, fun _ => ⟨Nat.succ_pos n, e, hw, rfl, rfl⟩,
        by simp, fun a b ha _ h => sw a b ha (.inr (.inl hok)) h⟩
      show len ≤ s.args.len
      omega

/-- Releasing everything a command acquired: the other agents step first, then the region set and the TRB store alone change
(R185). -/
theorem releaseAll_eq (trb : Nat) (stg : List Nat) (s : State) :
    releaseAll trb stg s =
      { s.atLine .free with
        alloc := (trb :: stg).foldl tabDrop (s.atLine .free).alloc, trbStore := tabDrop (s.atLine .free).trbStore trb } := by
  have h : ∀ (l : List Nat) (u : State), l.foldl State.freeRegion u = { u with alloc := l.foldl tabDrop u.alloc } := by
    intro l
    induction l with
    | nil => intro u; rfl
    | cons a l ih => intro u; rw [List.foldl_cons, ih]; rfl
  unfold releaseAll
  rw [h]
  rfl

end Sys2Proof.Machine
end

