-- ==== Sys2Proof/Laws/Sync.lean ====
section
/-! SUPPORT. The synchronous transfers: what they know after their allocations, the three stages of a control transfer, and
what their common return leaves (spec 43_transfer_protocol R185 to R194). -/

namespace Sys2Proof.Machine

/-- What a transfer command knows after it has acquired its regions. -/
structure Begun (reqs : List (Nat × Owner)) (i : Instr) (s : State) (as : List Nat) (t : State) : Prop where
  acq : Acquired reqs (s.started i) as t
  passed : Passed (s.begin i) t
  cfg : t.cfg = s.cfg
  args : t.args = s.args
  busy : t.seq.busy = true
  trace : t.trace = s.trace
  regtrace : t.regtrace = s.regtrace
  buf : CallerBuf s → CallerBuf t
  clean : ∀ c, ChanClean s c → ChanClean t c
  shield : ∀ a v, Shield a v s → Shield a v t
  region : ∀ q ∈ as.zip reqs, AddrOk t.cfg q.1 ∧ t.admits [q.2.2] q.1 q.2.1 = true

theorem passed_started (i : Instr) (s : State) : Passed (s.begin i) (s.started i) := passed_interleave _ rfl

theorem begun_of_acquire {reqs : List (Nat × Owner)} {i : Instr} {s t : State} {as : List Nat}
    (h : acquire reqs (s.started i) = (some as, t)) : Begun reqs i s as t := by
  have ha := acquire_some (State.started_busy s i) h
  have hp := (passed_started i s).trans ha.passed
  have e1 : t.cfg = s.cfg := hp.frame.cfg
  have e2 : t.args = s.args := hp.frame.args
  refine ⟨ha, hp, e1, e2, hp.busy rfl, hp.frame.trace, hp.frame.regtrace, fun hb => ?_, fun c hc => ?_, fun a v hs => ?_,
    fun q hq => ?_⟩
  · unfold CallerBuf at *
    rw [e2]
    exact State.admits_mono e1 (fun r hr => ha.keep r (by rw [State.started_alloc]; exact hr)) hb
  · exact chanClean_of_frame (s := s) (.inl (hp.frame.chan c)) hc
  · exact hp.shield rfl ⟨hs.byte, hs.out⟩
  · obtain ⟨h1, h2, h3, h4⟩ := ha.region q hq
    rw [State.started_cfg, ← e1] at h2 h3 h4
    exact ⟨⟨h2, h3⟩, State.admits_region h1 h4 (by simp)⟩

/-- What a command knows whose allocations failed (R185). -/
theorem begun_of_failed {reqs : List (Nat × Owner)} {i : Instr} {s t : State} (h : acquire reqs (s.started i) = (none, t)) :
    Passed (s.begin i) t ∧ t.alloc = s.alloc := by
  obtain ⟨h1, h2⟩ := acquire_none (State.started_busy s i) h
  exact ⟨(passed_started i s).trans h1, by rw [h2, State.started_alloc]⟩

/-- The endpoint programmed: nothing but the endpoints and the register trace differs (R171). -/
theorem configureEp_parts (c : Chan) (ty : EpType) (tg : Bool) (addr : DevAddr) (mps interval : Nat) (s : State) :
    ∃ e r, configureEp c ty tg addr mps interval s = { s with ep := e, regtrace := r } := by
  rw [configureEp_eq]; exact ⟨_, _, rfl⟩

/-- Endpoint 0 programmed: nothing but endpoint 0 and the register trace differs (R170). -/
theorem configureEp0_parts (dir : Dir) (st : CtrlStage) (addr : DevAddr) (mps : Nat) (s : State) :
    ∃ e r, configureEp0 dir st addr mps s = { s with ep0 := e, regtrace := s.regtrace ++ r } := by
  rw [configureEp0_eq]; exact ⟨_, _, rfl⟩

/-- The return of XFER_BULK and XFER_INT_SYNC (R185, R192). -/
theorem finishTransfer_eq (i : Instr) (c : Chan) (trb stg : Nat) (e : XferEnd) (w : State) :
    finishTransfer i c trb stg e w =
      (releaseAll trb [stg] ((w.atLine .readToggle).logOp (.R .epToggle))).finish i e.status
        (.transfer e.res e.len (some ((w.atLine .readToggle).toggle c))) := rfl

/-- Everything a transfer acquired is freed at its end (R185). -/
theorem releaseAll_alloc {reqs : List (Nat × Owner)} {s u w : State} {trb : Nat} {stg : List Nat}
    (h : Acquired reqs s (trb :: stg) u) (hb : w.seq.busy = true) (ha : w.alloc = u.alloc) :
    (releaseAll trb stg w).alloc = s.alloc := by
  rw [releaseAll_eq]
  show (trb :: stg).foldl tabDrop (w.atLine .free).alloc = _
  have hw : (w.atLine .free).alloc = w.alloc := (agentFrame_interleave _).alloc hb
  rw [hw, ha]
  exact h.free fun _ => Iff.rfl

/-! ### Control transfers -/

/-- The two channels of endpoint 0. -/
abbrev ep0Chans : List Chan := [⟨0, .out⟩, ⟨0, .in_⟩]

/-- Channels of endpoint 0 ready for a stage. -/
def Ep0Clean (s : State) : Prop := ChanClean s ⟨0, .out⟩ ∧ ChanClean s ⟨0, .in_⟩

/-- The opening of a control stage: endpoint 0 programmed for it, its channels untouched. -/
theorem controlBegin_spec {s : State} (hb : s.seq.busy = true) (k : Nat) (st : Ep0Stage) (dir : Dir) (cs : CtrlStage)
    (addr : DevAddr) :
    XferFrame ep0Chans s (controlBegin k st dir cs addr s) ∧
      (∀ c, ChanClean s c → ChanClean (controlBegin k st dir cs addr s) c) ∧
      ∀ a v, Shield a v s → Shield a v (controlBegin k st dir cs addr s) := by
  have f := (xferFrame_round ep0Chans k hb).trans (xferFrame_atLine ep0Chans .configure (s := s.setRound k) hb)
  have hc0 : ∀ c, ChanClean s c → ChanClean ((s.setRound k).atLine .configure) c := fun c hc =>
    chanClean_of_frame (s := s) (.inl (chan_atLine (s.setRound k) _ c)) hc
  have hs0 : ∀ a v, Shield a v s → Shield a v ((s.setRound k).atLine .configure) := fun a v h =>
    shield_atLine (s := s.setRound k) _ hb ⟨h.byte, h.out⟩
  unfold controlBegin
  obtain ⟨e, r, h⟩ := configureEp0_parts dir cs addr s.args.mps (((s.setRound k).atLine .configure).withEp0Stage st)
  rw [h]
  generalize (s.setRound k).atLine .configure = u at *
  refine ⟨f.trans ⟨fun b _ => .inl (.refl _), List.prefix_append _ _, fun b hb hn => ?_, fun _ _ => rfl, rfl, f.busy, rfl, rfl⟩, hc0,
    fun a v hs => ⟨(hs0 a v hs).byte, (hs0 a v hs).out⟩⟩
  have h0 : b.ep ≠ 0 := by
    intro h0
    apply hb
    obtain ⟨x, d⟩ := b
    cases d <;> simp_all
  unfold State.toggle
  rw [if_neg h0, if_neg h0]
  rfl

/-- Every channel of endpoint 0 is one of its two. -/
theorem mem_ep0Chans (d : Dir) : (⟨0, d⟩ : Chan) ∈ ep0Chans := by cases d <;> simp

theorem Ep0Clean.dir {s : State} (h : Ep0Clean s) (d : Dir) : ChanClean s ⟨0, d⟩ := by cases d; exact h.1; exact h.2

theorem ep0Clean_of {s t : State} (h : Ep0Clean s) (k : ∀ b, ChanClean s b → ChanClean t b) : Ep0Clean t :=
  ⟨k _ h.1, k _ h.2⟩

/-- The SETUP stage completes (R186 (1)). -/
theorem controlSetup_spec (addr : DevAddr) {trb sb : Nat} {s : State} (hb : s.seq.busy = true) (hcl : Ep0Clean s)
    (hs : s.admits [.staging] sb 8 = true) (h1 : AddrOk s.cfg trb) (h2 : AddrOk s.cfg sb) :
    ∃ e t, controlSetup addr trb sb s = .done e t ∧ XferFrame ep0Chans s t ∧ Ep0Clean t ∧ StageAnswer .out e 8 ∧
      ∀ a v, (a < sb ∨ sb + 8 ≤ a) → Shield a v s → Shield a v t := by
  obtain ⟨f0, c0, s0⟩ := controlBegin_spec hb 0 .setup .out .setup addr
  unfold controlSetup
  generalize controlBegin 0 .setup .out .setup addr s = u at *
  have fi := f0.trans (xferFrame_atLine ep0Chans .fill f0.busy)
  have ci : ∀ c, ChanClean s c → ChanClean (u.atLine .fill) c := fun c hc =>
    chanClean_of_frame (.inl (chan_atLine u _ c)) (c0 c hc)
  have si : ∀ a v, Shield a v s → Shield a v (u.atLine .fill) := fun a v h => shield_atLine _ f0.busy (s0 a v h)
  simp only [f0.args]
  generalize u.atLine .fill = v at *
  have hw : seqWrite .fill [.staging] sb s.args.setup.toList v =
      .done () (v.withMem (writeBytes v.mem sb s.args.setup.toList)) := by
    unfold seqWrite
    rw [if_pos]
    rw [State.admits_congr fi.cfg fi.alloc]
    simpa using hs
  rw [hw, andThen_done]
  have fv : XferFrame ep0Chans s (v.withMem (writeBytes v.mem sb s.args.setup.toList)) :=
    fi.trans (xferFrame_of_eq _ fi.busy rfl (fun _ _ => rfl) rfl rfl rfl rfl rfl List.prefix_rfl)
  obtain ⟨e, t, he, k⟩ := trbCycle_spec (cs := ep0Chans) (c := ⟨0, .out⟩) (by simp) (trb := trb) .control
    (s := v.withMem (writeBytes v.mem sb s.args.setup.toList)) { addr := sb, size := 8, flags := trbFlags v.cfg .setup } fv.busy
    (ci _ hcl.1) (by rw [fv.cfg]; exact h1) (by rw [fv.cfg]; exact h2)
  refine ⟨e, t, he, fv.trans k.frame, ⟨k.released.1, k.clean _ (by decide) (ci _ hcl.2)⟩, k.answer, fun a b ha h => ?_⟩
  exact k.shield a b (fun _ => ha) (shield_write (by simpa using ha) (si a b h))

/-- The DATA stage completes (R186 (2)). -/
theorem controlData_spec (addr : DevAddr) {dir : Dir} {trb db : Nat} {s : State} (hb : s.seq.busy = true) (hcl : Ep0Clean s)
    (hbuf : CallerBuf s) (hl : s.args.len ≤ s.args.buf.len) (hs : s.admits [.staging] db s.args.len = true)
    (h1 : AddrOk s.cfg trb) (h2 : AddrOk s.cfg db) :
    ∃ e t, controlData addr dir trb db s = .done e t ∧ XferFrame ep0Chans s t ∧ Ep0Clean t ∧ EndAnswer e.status e.res ∧
      e.len ≤ s.args.len ∧ (e.status = .success → dir = .out → e.len = s.args.len) ∧ (e.status ≠ .success → e.len = 0) ∧
      ∀ a v, (a < db ∨ db + s.args.len ≤ a) →
        (dir = .out ∨ a < s.args.buf.base ∨ s.args.buf.base + e.len ≤ a) → Shield a v s → Shield a v t := by
  have hcb : s.admits [.caller] s.args.buf.base s.args.len = true := State.admits_sub hbuf (le_refl _) (by omega)
  obtain ⟨f0, c0, s0⟩ := controlBegin_spec hb 1 .data dir .data addr
  unfold controlData
  generalize controlBegin 1 .data dir .data addr s = o at *
  obtain ⟨u, e, t, w, hu, he, ka, fu, ft, ct, st, hw⟩ := dataCycle_spec (cs := ep0Chans) (c := ⟨0, dir⟩) (mem_ep0Chans dir)
    (trb := trb) (stg := db) (p := s.args.buf.base) (n := s.args.len) .control (fun p => trbFlags p .data) (s := o) f0.busy
    (c0 _ (hcl.dir dir)) (by rw [State.admits_congr f0.cfg f0.alloc]; exact hcb)
    (by rw [State.admits_congr f0.cfg f0.alloc]; exact hs) (by rw [f0.cfg]; exact h1) (by rw [f0.cfg]; exact h2)
  have hua : u.args = s.args := fu.args.trans f0.args
  have hta : t.args = s.args := ft.args.trans f0.args
  simp only [f0.args]
  rw [hu, andThen_done]
  simp only [hua]
  rw [he, andThen_done]
  by_cases hst : e.status = .success
  · obtain ⟨hw, fw, cw, sw⟩ := hw hst
    rw [if_pos hst, hta, hw, andThen_done]
    exact ⟨_, w, rfl, f0.trans fw, ep0Clean_of hcl fun b h => cw b (c0 b h), ka.endAnswer,
      (ka.actual_le hst).1, fun _ => (ka.actual_le hst).2, fun h => absurd hst h, fun a v ha hd h => sw a v ha hd (s0 a v h)⟩
  · rw [if_neg hst]
    exact ⟨_, t, rfl, f0.trans ft, ep0Clean_of hcl fun b h => ct b (c0 b h), ka.endAnswer, Nat.zero_le _,
      fun h => absurd h hst, fun _ => rfl, fun a v ha _ h => st a v ha (s0 a v h)⟩

/-- The STATUS stage completes (R186 (3), R187). -/
theorem controlStatus_spec (addr : DevAddr) (dd : DataDir) {trb sb : Nat} (len : Nat) {s : State} (hb : s.seq.busy = true)
    (hcl : Ep0Clean s) (h1 : AddrOk s.cfg trb) (h2 : AddrOk s.cfg sb) :
    ∃ e t, controlStatus addr dd trb sb len s = .done e t ∧ XferFrame ep0Chans s t ∧ Ep0Clean t ∧
      EndAnswer e.status e.res ∧ e.len = len ∧ ∀ a v, Shield a v s → Shield a v t := by
  obtain ⟨f0, c0, s0⟩ := controlBegin_spec hb 2 .status (statusDir dd) .status addr
  unfold controlStatus
  simp only []
  generalize controlBegin 2 .status (statusDir dd) .status addr s = u at *
  have hu : Ep0Clean u := ep0Clean_of hcl c0
  obtain ⟨e, t, he, k⟩ := trbCycle_spec (cs := ep0Chans) (mem_ep0Chans (statusDir dd)) (trb := trb) .control (s := u)
    { addr := sb, size := 0, flags := trbFlags u.cfg .status } f0.busy (hu.dir _) (by rw [f0.cfg]; exact h1)
    (by rw [f0.cfg]; exact h2)
  rw [he, andThen_done]
  have hcl' : ∀ d, ChanClean t ⟨0, d⟩ := fun d => by
    by_cases hd : d = statusDir dd
    · subst hd; exact k.released.1
    · exact k.clean _ (by simpa using hd) (hu.dir d)
  exact ⟨_, t, rfl, f0.trans k.frame, ⟨hcl' .out, hcl' .in_⟩, k.answer.endAnswer, rfl,
    fun a v h => k.shield a v (fun _ => by show a < sb ∨ sb + 0 ≤ a; omega) (s0 a v h)⟩

/-- The DATA stage, where there is one, completes. -/
theorem controlMiddle_spec (addr : DevAddr) (dd : DataDir) {trb db : Nat} {s : State} (hb : s.seq.busy = true)
    (hcl : Ep0Clean s) (hbuf : CallerBuf s) (hl : s.args.len ≤ s.args.buf.len)
    (hd : dd ≠ .noData → s.admits [.staging] db s.args.len = true ∧ AddrOk s.cfg db) (h1 : AddrOk s.cfg trb) :
    ∃ e t, controlMiddle addr dd trb db s = .done e t ∧ XferFrame ep0Chans s t ∧ Ep0Clean t ∧ EndAnswer e.status e.res ∧
      e.len ≤ s.args.len ∧ (e.status = .success → dd = .out → e.len = s.args.len) ∧ (e.status ≠ .success → e.len = 0) ∧
      ∀ a v, (dd ≠ .noData → a < db ∨ db + s.args.len ≤ a) →
        (dd ≠ .in_ ∨ a < s.args.buf.base ∨ s.args.buf.base + e.len ≤ a) → Shield a v s → Shield a v t := by
  cases dd with
  | noData => exact ⟨_, s, rfl, .refl _ hb, hcl, ⟨by simp, by simp [ResultFits]⟩, Nat.zero_le _, nofun, fun _ => rfl,
      fun _ _ _ _ h => h⟩
  | in_ =>
    obtain ⟨e, t, he, f, c, a, l, -, l0, sh⟩ := controlData_spec addr (dir := .in_) hb hcl hbuf hl (hd (by decide)).1 h1 (hd (by decide)).2
    exact ⟨e, t, he, f, c, a, l, nofun, l0, fun a v h k => sh a v (h (by decide)) (.inr (k.resolve_left (by decide)))⟩
  | out =>
    obtain ⟨e, t, he, f, c, a, l, lo, l0, sh⟩ := controlData_spec addr (dir := .out) hb hcl hbuf hl (hd (by decide)).1 h1 (hd (by decide)).2
    exact ⟨e, t, he, f, c, a, l, fun h _ => lo h rfl, l0, fun a v h _ => sh a v (h (by decide)) (.inl rfl)⟩

/-- The stages of a control transfer complete; of the caller's buffer they write the bytes a successful IN DATA stage
received, which the length counts (R186, R187, R188). -/
theorem controlStages_spec (addr : DevAddr) (dd : DataDir) {trb sb db : Nat} {s : State} (hb : s.seq.busy = true)
    (hcl : Ep0Clean s) (hbuf : CallerBuf s) (hl : s.args.len ≤ s.args.buf.len) (hs : s.admits [.staging] sb 8 = true)
    (hd : dd ≠ .noData → s.admits [.staging] db s.args.len = true ∧ AddrOk s.cfg db) (h1 : AddrOk s.cfg trb)
    (h2 : AddrOk s.cfg sb) :
    ∃ e t, controlStages addr dd trb sb db s = .done e t ∧ XferFrame ep0Chans s t ∧ Ep0Clean t ∧
      EndAnswer e.status e.res ∧ e.len ≤ s.args.len ∧
      ∀ a v, (a < sb ∨ sb + 8 ≤ a) → (dd ≠ .noData → a < db ∨ db + s.args.len ≤ a) →
        (dd ≠ .in_ ∨ a < s.args.buf.base ∨ s.args.buf.base + e.len ≤ a) → Shield a v s → Shield a v t := by
  obtain ⟨e, t, he, ft, ct, at_, st⟩ := controlSetup_spec addr hb hcl hs h1 h2
  unfold controlStages
  rw [he, andThen_done]
  by_cases hok : e.status = .success
  · rw [if_pos hok]
    obtain ⟨d, u, hu, fu, cu, au, lu, -, -, su⟩ := controlMiddle_spec addr dd (trb := trb) (db := db) (s := t) ft.busy ct
      (by unfold CallerBuf; rw [State.admits_congr ft.cfg ft.alloc, ft.args]; exact hbuf) (by rw [ft.args]; exact hl)
      (by rw [State.admits_congr ft.cfg ft.alloc, ft.args, ft.cfg]; exact hd) (by rw [ft.cfg]; exact h1)
    rw [ft.args] at lu su
    rw [hu, andThen_done]
    by_cases hok2 : d.status = .success
    · rw [if_pos hok2]
      have f2 := ft.trans fu
      obtain ⟨f, w, hw, fw, cw, aw, lw, sw⟩ := controlStatus_spec addr dd (trb := trb) (sb := sb) d.len (s := u) fu.busy cu
        (by rw [f2.cfg]; exact h1) (by rw [f2.cfg]; exact h2)
      exact ⟨f, w, hw, f2.trans fw, cw, aw, by rw [lw]; exact lu, fun a v ha hb hc h => sw a v (su a v hb (lw ▸ hc) (st a v ha h))⟩
    · rw [if_neg hok2]
      exact ⟨d, u, rfl, ft.trans fu, cu, au, lu, fun a v ha hb hc h => su a v hb hc (st a v ha h)⟩
  · rw [if_neg hok]
    exact ⟨_, t, rfl, ft, ct, at_.endAnswer, Nat.zero_le _, fun a v ha _ _ h => st a v ha h⟩

end Sys2Proof.Machine
end

