-- ==== Sys2Proof/Laws/Queue.lean ====
section
/-! SUPPORT. The async queue: what an arm leaves, and what a cancel leaves (spec 43_transfer_protocol R196, 44_async_queue
R209 to R214). -/

namespace Sys2Proof.Machine

/-! ### The arm -/

/-- The TRB an arm writes (R196). -/
def armTrb (p : Params) (data len : Nat) : Trb := { addr := data, size := len, flags := trbFlags p .interrupt }

/-- The state before the last line of an arm: the endpoint configured, the TRB written, the other agents having stepped before
each line (R196). -/
def armedBefore (c : Chan) (tg : Bool) (addr : DevAddr) (mps interval trb data len : Nat) (s : State) : State :=
  (((configureEp c .interrupt tg addr mps interval (s.atLine .configure)).atLine .writeTrb).putTrb trb
    (armTrb s.cfg data len)).atLine .program

section arm
variable {c : Chan} {tg : Bool} {addr : DevAddr} {mps interval trb data len : Nat} {s t : State}

/-- An arm that succeeds is its three lines (R196). -/
theorem armInterrupt_eq_done (h : armInterrupt c tg addr mps interval trb data len s = .done .success t) :
    c.ep ≠ 0 ∧ t = programmed c trb (armTrb s.cfg data len) (armedBefore c tg addr mps interval trb data len s) := by
  unfold armInterrupt at h
  split at h
  · cases h
  rename_i hc
  simp only [Bool.or_eq_true, decide_eq_true_eq, not_or, Nat.not_lt] at hc
  obtain ⟨_, v, hv, h⟩ := andThen_eq_done h
  obtain ⟨_, w, hw, h⟩ := andThen_eq_done h
  cases h
  have hcfg : (configureEp c .interrupt tg addr mps interval (s.atLine .configure)).cfg = s.cfg := by
    rw [configureEp_eq]; exact State.atPos_cfg _ _
  have hvp : v = ((configureEp c .interrupt tg addr mps interval (s.atLine .configure)).atLine .writeTrb).putTrb trb
      (armTrb s.cfg data len) := by
    unfold writeTrb at hv
    rw [hcfg] at hv
    split at hv <;> cases hv
    rfl
  subst hvp
  obtain ⟨x, -, hx, -, -, rfl⟩ := dmaProgram_eq_done hw
  have : x = armTrb s.cfg data len := by
    rw [State.atPos_trbStore] at hx
    simpa [State.putTrb] using hx.symm
  subst this
  exact ⟨hc.1, rfl⟩

/-- The endpoint configured: no other channel, endpoint or toggle (R171). -/
theorem xferFrame_configureEp {cs : List Chan} (hc : c ∈ cs) (ty : EpType) (hb : s.seq.busy = true) :
    XferFrame cs s (configureEp c ty tg addr mps interval s) := by
  have he : ∀ b, b ∉ cs → (configureEp c ty tg addr mps interval s).endpoint b = s.endpoint b := fun b hn => by
    rw [endpoint_configureEp, if_neg (by rintro rfl; exact hn hc)]
  have h := configureEp_eq c ty tg addr mps interval s
  have hlog : s.regtrace <+: (configureEp c ty tg addr mps interval s).regtrace := by
    rw [h]; exact List.prefix_append _ _
  have hep0 : (configureEp c ty tg addr mps interval s).ep0 = s.ep0 := by rw [h]
  refine ⟨fun b _ => .inl ?_, hlog, fun b hn _ => ?_, fun b hn => by rw [he b hn], ?_, ?_, ?_, ?_⟩
  · rw [State.chan_of_dma (show (configureEp c ty tg addr mps interval s).dma.ch = s.dma.ch by rw [h]) b]; exact .refl _
  · unfold State.toggle
    rw [hep0, he b hn]
  all_goals rw [h]
  exact hb

/-- A point at which channel `c` has no agent step leaves its channel and its endpoint alone. -/
theorem quietChan_atLine (l : Line) (h0 : c.ep ≠ 0) (hn : s.agentTrb c = none) :
    (s.atLine l).chan c = s.chan c ∧ (s.atLine l).endpoint c = s.endpoint c ∧ (s.atLine l).agentTrb c = none := by
  have f := agentFrame_interleave (s.setPos (.line l))
  have hc : (s.atLine l).chan c = s.chan c := by
    rcases f.chan c with e | ⟨h1, h2, ⟨y, h3, -⟩, -⟩
    · exact e
    · have : s.agentTrb c = some y := by
        show (if (s.chan c).enabled && (s.chan c).pending then (s.chan c).trb else none) = _
        rw [show (s.chan c).enabled = true from h1, show (s.chan c).pending = true from h2]
        exact h3
      rw [hn] at this; cases this
  have ht : (s.atLine l).toggle c = s.toggle c := f.toggle c hn
  refine ⟨hc, ?_, by unfold State.agentTrb; rw [hc]; exact hn⟩
  have he := f.endpoint c
  unfold State.toggle at ht
  rw [if_neg h0, if_neg h0] at ht
  rw [show (s.atLine l).endpoint c = { s.endpoint c with toggle := ((s.atLine l).endpoint c).toggle } from he, ht]

/-- What an arm leaves (R196): the TRB in its slot, the channel programmed on it, the endpoint configured where no transfer of
its channel was pending, and beside those what a transfer on the channel leaves while other agents step. -/
structure Armed (c : Chan) (tg : Bool) (addr : DevAddr) (mps interval trb data len : Nat) (s t : State) : Prop where
  frame : XferFrame [c] s t
  shield : ∀ a v, (c.dir = .in_ → a < data ∨ data + len ≤ a) → Shield a v s → Shield a v t
  chan : s.agentTrb c = none → t.chan c = programmedChan (s.chan c) trb (armTrb s.cfg data len)
  endpoint : s.agentTrb c = none → t.endpoint c = configuredEndpoint s.cfg (s.endpoint c) .interrupt tg addr mps interval
  trbStore : t.trbStore = tabPut s.trbStore trb (armTrb s.cfg data len)
  burst : t.dma.burstMode = .single
  sel : t.dma.sel = c
  regtrace : t.regtrace = s.regtrace ++ configureTrace c .interrupt tg addr mps ++
    (if interval ≠ 0 then [.W .epTimer (.chanVal c (intTimerValue s.cfg interval))] else []) ++ programTrace c trb

/-- What an arm comes to where it succeeds (R196). -/
theorem armInterrupt_armed (hb : s.seq.busy = true) (h : armInterrupt c tg addr mps interval trb data len s = .done .success t) :
    Armed c tg addr mps interval trb data len s t := by
  obtain ⟨h0, rfl⟩ := armInterrupt_eq_done h
  have hm : c ∈ [c] := by simp
  -- configure
  have f1 := xferFrame_atLine [c] .configure hb
  have s1 : ∀ a v, Shield a v s → Shield a v (s.atLine .configure) := fun a v => shield_atLine _ hb
  have t1 : (s.atLine .configure).trbStore = s.trbStore := State.atPos_trbStore s _
  have r1 : (s.atLine .configure).regtrace = s.regtrace := State.atPos_regtrace s _
  have q1 := fun hn : s.agentTrb c = none => quietChan_atLine .configure h0 hn
  unfold armedBefore
  generalize s.atLine .configure = u1 at *
  have e2 := configureEp_eq c .interrupt tg addr mps interval u1
  have f2 := f1.trans (xferFrame_configureEp (tg := tg) (addr := addr) (mps := mps) (interval := interval) hm .interrupt f1.busy)
  have d2 : (configureEp c .interrupt tg addr mps interval u1).dma.ch = u1.dma.ch := by rw [e2]
  have s2 : ∀ a v, Shield a v s → Shield a v (configureEp c .interrupt tg addr mps interval u1) := fun a v k =>
    shield_of_dma (s := u1) (by rw [e2]) d2 (s1 a v k)
  have t2 : (configureEp c .interrupt tg addr mps interval u1).trbStore = s.trbStore := by rw [e2]; exact t1
  have r2 : (configureEp c .interrupt tg addr mps interval u1).regtrace = s.regtrace ++ configureTrace c .interrupt tg addr mps ++
      (if interval ≠ 0 then [.W .epTimer (.chanVal c (intTimerValue s.cfg interval))] else []) := by
    rw [e2, ← r1, ← f1.cfg]
    by_cases hi : interval = 0 <;> simp [hi]
  have q2 : s.agentTrb c = none → (configureEp c .interrupt tg addr mps interval u1).chan c = s.chan c ∧
      (configureEp c .interrupt tg addr mps interval u1).endpoint c =
        configuredEndpoint s.cfg (s.endpoint c) .interrupt tg addr mps interval ∧
      (configureEp c .interrupt tg addr mps interval u1).agentTrb c = none := fun hn => by
    obtain ⟨k1, k2, k3⟩ := q1 hn
    refine ⟨(State.chan_of_dma d2 c).trans k1, ?_, ?_⟩
    · rw [endpoint_configureEp, if_pos rfl, k2, f1.cfg]
    · unfold State.agentTrb at *
      rw [State.chan_of_dma d2]
      exact k3
  generalize configureEp c .interrupt tg addr mps interval u1 = u2 at *
  -- write the TRB
  have f3 := f2.trans (xferFrame_atLine [c] .writeTrb f2.busy)
  have s3 : ∀ a v, Shield a v s → Shield a v (u2.atLine .writeTrb) := fun a v k => shield_atLine _ f2.busy (s2 a v k)
  have t3 : (u2.atLine .writeTrb).trbStore = s.trbStore := (State.atPos_trbStore u2 _).trans t2
  have r3 : (u2.atLine .writeTrb).regtrace = u2.regtrace := State.atPos_regtrace u2 _
  have q3 := fun hn : s.agentTrb c = none => quietChan_atLine .writeTrb h0 (q2 hn).2.2
  generalize u2.atLine .writeTrb = u3 at *
  have f4 : XferFrame [c] s (u3.putTrb trb (armTrb s.cfg data len)) := f3.trans
    (xferFrame_of_eq [c] f3.busy rfl (fun _ _ => rfl) rfl rfl rfl rfl rfl List.prefix_rfl)
  have s4 : ∀ a v, Shield a v s → Shield a v (u3.putTrb trb (armTrb s.cfg data len)) := fun a v k =>
    shield_of_dma (s := u3) rfl rfl (s3 a v k)
  have t4 : (u3.putTrb trb (armTrb s.cfg data len)).trbStore = tabPut s.trbStore trb (armTrb s.cfg data len) := by
    show tabPut u3.trbStore trb _ = _
    rw [t3]
  have r4 : (u3.putTrb trb (armTrb s.cfg data len)).regtrace = u2.regtrace := r3
  have q4 : s.agentTrb c = none → (u3.putTrb trb (armTrb s.cfg data len)).chan c = s.chan c ∧
      (u3.putTrb trb (armTrb s.cfg data len)).endpoint c =
        configuredEndpoint s.cfg (s.endpoint c) .interrupt tg addr mps interval ∧
      (u3.putTrb trb (armTrb s.cfg data len)).agentTrb c = none := fun hn =>
    ⟨(q3 hn).1.trans (q2 hn).1, (q3 hn).2.1.trans (q2 hn).2.1, (q3 hn).2.2⟩
  generalize u3.putTrb trb (armTrb s.cfg data len) = u4 at *
  -- program
  have f5 := f4.trans (xferFrame_atLine [c] .program f4.busy)
  have s5 : ∀ a v, Shield a v s → Shield a v (u4.atLine .program) := fun a v k => shield_atLine _ f4.busy (s4 a v k)
  have t5 : (u4.atLine .program).trbStore = tabPut s.trbStore trb (armTrb s.cfg data len) := (State.atPos_trbStore u4 _).trans t4
  have r5 : (u4.atLine .program).regtrace = u2.regtrace := (State.atPos_regtrace u4 _).trans r4
  have q5 := fun hn : s.agentTrb c = none => quietChan_atLine .program h0 (q4 hn).2.2
  generalize u4.atLine .program = u5 at *
  have e6 := programmed_eq c trb (armTrb s.cfg data len) u5
  refine ⟨f5.trans (xferFrame_programmed hm _ _ f5.busy), fun a v ha k => shield_programmed ha (s5 a v k), fun hn => ?_,
    fun hn => ?_, by rw [e6]; exact t5, programmed_burst _ _ _ _, programmed_sel _ _ _ _, ?_⟩
  · rw [chan_programmed, if_pos rfl, (q5 hn).1, (q4 hn).1]
  · rw [State.endpoint_of_ep (show (programmed c trb (armTrb s.cfg data len) u5).ep = u5.ep by rw [e6]) c, (q5 hn).2.1,
      (q4 hn).2.1]
  · have hr : (programmed c trb (armTrb s.cfg data len) u5).regtrace = u5.regtrace ++ programTrace c trb := by
      rw [e6]
    rw [hr, r5, r2]

/-- An arm succeeds where its operands are legal, the channel is free and its addresses are good (R48, R62, R66, R163). -/
theorem armInterrupt_done (hc : c.ep ≠ 0) (hl : len ≤ s.cfg.maxTrbSize) (hp : (s.chan c).programmed = false)
    (h1 : AddrOk s.cfg trb) (h2 : AddrOk s.cfg data) :
    ∃ t, armInterrupt c tg addr mps interval trb data len s = .done .success t := by
  unfold armInterrupt
  rw [if_neg (by simp [hc, hl])]
  have hcfg : (configureEp c .interrupt tg addr mps interval (s.atLine .configure)).cfg = s.cfg := by
    rw [configureEp_eq]; exact State.atPos_cfg _ _
  have hch : ((configureEp c .interrupt tg addr mps interval (s.atLine .configure)).chan c).programmed = false := by
    rw [State.chan_of_dma (show (configureEp c .interrupt tg addr mps interval (s.atLine .configure)).dma.ch =
      (s.atLine .configure).dma.ch by rw [configureEp_eq]) c, (chan_atLine s _ c).programmed]
    exact hp
  generalize configureEp c .interrupt tg addr mps interval (s.atLine .configure) = u at *
  simp only []
  have hcu : (u.atLine .writeTrb).cfg = s.cfg := (State.atPos_cfg u _).trans hcfg
  have hpu : ((u.atLine .writeTrb).chan c).programmed = false := by rw [(chan_atLine u _ c).programmed]; exact hch
  rw [writeTrb_done (by rw [hcu]; exact h1.2) (by rw [hcu]; exact h2.2), andThen_done]
  generalize u.atLine .writeTrb = v at *
  have hpv : ((v.putTrb trb { addr := data, size := len, flags := trbFlags u.cfg .interrupt }).chan c).programmed = false := hpu
  rw [dmaProgram_done (x := { addr := data, size := len, flags := trbFlags u.cfg .interrupt })
      (by rw [(chan_atLine _ .program c).programmed]; exact hpv) (by simp [State.putTrb])
      (by rw [State.atPos_cfg]; show trb % v.cfg.dmaAlign = 0; rw [hcu]; exact h1.1)
      (by rw [State.atPos_cfg]; show data % v.cfg.dmaAlign = 0; rw [hcu]; exact h2.1)]
  exact ⟨_, rfl⟩

end arm

/-! ### Lookup in the tables after a cancel -/

theorem tabFind_filter {α : Type} (q : Nat → Bool) (t : List (Nat × α)) (a : Nat) :
    tabFind (t.filter fun e => q e.1) a = if q a then tabFind t a else none := by
  induction t with
  | nil => simp [tabFind]
  | cons e t ih =>
    obtain ⟨k, v⟩ := e
    by_cases hk : q k = true
    · by_cases ha : a = k
      · subst ha; simp [hk, tabFind]
      · simp [hk, tabFind, ha, ih]
    · by_cases ha : a = k
      · subst ha; simp [hk, ih]
      · simp [hk, tabFind, ha, ih]

/-- A list of TRB slots freed: the store and the region set lose exactly them (R212). -/
theorem foldl_freeTrb (l : List Nat) (s : State) :
    l.foldl State.freeTrb s = { s with trbStore := l.foldl tabDrop s.trbStore, alloc := l.foldl tabDrop s.alloc } := by
  induction l generalizing s with
  | nil => rfl
  | cons p l ih => rw [List.foldl_cons, ih]; rfl

/-- What the release of a cancelled entry's channel leaves (R212). -/
theorem cancelChannel_released {x : AsyncEntry} {s : State} (hc : s.cfg.cancelReleasesChannel = true) :
    ((cancelChannel x s).chan (entryChan x)).enabled = false ∧ ((cancelChannel x s).chan (entryChan x)).programmed = false ∧
      ((cancelChannel x s).chan (entryChan x)).pending = false ∧ ((cancelChannel x s).chan (entryChan x)).trb = none ∧
      (cancelChannel x s).dma.sel = entryChan x ∧
      (cancelChannel x s).regtrace = s.regtrace ++
        [.W .dmaSel (.chan (entryChan x)), .W .dmaStatusClr (.chan (entryChan x)), .W .dmaSel (.chan (entryChan x)),
         .W .dmaChEnable (.num 0)] := by
  unfold cancelChannel
  rw [if_pos hc, chan_dmaRelease, if_pos rfl]
  refine ⟨rfl, rfl, rfl, rfl, rfl, ?_⟩
  rw [dmaRelease_eq, State.atPos_regtrace, dmaClear_eq, State.atPos_regtrace]
  simp

/-- What a cancel leaves alone of everything but the cancelled entry's channel, whatever the other agents do meanwhile. -/
structure CancelFrame (x : AsyncEntry) (s t : State) : Prop where
  frame : XferFrame [entryChan x] s t
  shield : ∀ a v, Shield a v s → Shield a v t
  trbStore : t.trbStore = s.trbStore
  async : t.async = s.async
  ep0 : t.ep0 = { s.ep0 with toggle := t.ep0.toggle }
  endpoint : ∀ b, t.endpoint b = { s.endpoint b with toggle := (t.endpoint b).toggle }
  chan : ∀ b, b ≠ entryChan x → ChanFrame (s.chan b) (t.chan b)

theorem CancelFrame.refl (x : AsyncEntry) {s : State} (hb : s.seq.busy = true) : CancelFrame x s s :=
  ⟨.refl _ hb, fun _ _ h => h, rfl, rfl, rfl, fun _ => rfl, fun _ _ => .refl _⟩

theorem CancelFrame.trans {x : AsyncEntry} {s t u : State} (h : CancelFrame x s t) (k : CancelFrame x t u) :
    CancelFrame x s u :=
  ⟨h.frame.trans k.frame, fun a v hs => k.shield a v (h.shield a v hs), k.trbStore.trans h.trbStore, k.async.trans h.async,
    by rw [k.ep0, h.ep0], fun b => by rw [k.endpoint b, h.endpoint b], fun b hb => (h.chan b hb).trans (k.chan b hb)⟩

theorem cancelFrame_atLine (x : AsyncEntry) (l : Line) {s : State} (hb : s.seq.busy = true) : CancelFrame x s (s.atLine l) := by
  have f := agentFrame_interleave (s.setPos (.line l))
  exact ⟨xferFrame_atLine _ l hb, fun a v h => shield_atLine l hb h, f.trbStore, f.async, f.ep0, f.endpoint, fun b _ => f.chan b⟩

theorem cancelFrame_clear (x : AsyncEntry) {s : State} (hb : s.seq.busy = true) : CancelFrame x s (dmaClear (entryChan x) s) :=
  ⟨xferFrame_clear (by simp) hb, fun _ _ h => shield_clear _ h, rfl, rfl, rfl, fun _ => rfl,
    fun b hb => by rw [chan_dmaClear, if_neg hb]; exact .refl _⟩

theorem cancelFrame_release (x : AsyncEntry) {s : State} (hb : s.seq.busy = true) :
    CancelFrame x s (dmaRelease (entryChan x) s) :=
  ⟨xferFrame_release (by simp) hb, fun _ _ h => shield_release _ h, rfl, rfl, rfl, fun _ => rfl,
    fun b hb => by rw [chan_dmaRelease, if_neg hb]; exact .refl _⟩

theorem cancelChannel_frame (x : AsyncEntry) {s : State} (hb : s.seq.busy = true) : CancelFrame x s (cancelChannel x s) := by
  unfold cancelChannel
  split
  · have f1 := cancelFrame_atLine x .clear hb
    have f2 := f1.trans (cancelFrame_clear x f1.frame.busy)
    have f3 := f2.trans (cancelFrame_atLine x .release f2.frame.busy)
    exact f3.trans (cancelFrame_release x f3.frame.busy)
  · exact .refl x hb

/-- A cancelled entry's regions freed: the other agents step first, then the region set and the TRB store alone change
(R212). -/
theorem cancelFree_eq (x : AsyncEntry) (s : State) :
    cancelFree x s = { s.atLine .free with
      trbStore := x.pool.foldl tabDrop (s.atLine .free).trbStore
      alloc := x.pool.foldl tabDrop (tabDrop (s.atLine .free).alloc x.buf) } := by
  unfold cancelFree
  rw [foldl_freeTrb]
  rfl

end Sys2Proof.Machine
end

