-- ==== Sys2Proof/Laws/Step.lean ====
section
/-! SUPPORT. The induction over one step, packaged once: what every micro-step, every action and every step of the other
agents keeps, a step of the machine keeps. -/

namespace Sys2Proof.Machine

/-- What every micro-step and every action keeps, and the begin and the Result keep, each command keeps. -/
theorem exec_keeps {P : State → Prop} (hm : ∀ i al s t, Micro i al s t → P s → P t) (ha : ∀ i s t, Act i s t → P s → P t)
    (hb : ∀ s i, P s → P (s.begin i)) (hf : ∀ s op st o, P s → P (s.finishOp op st o)) {i : Instr} {s t : State}
    (h : exec i s = .next t) (hs : P s) : P t := by
  have run : ∀ {i al u v}, Runs i al u v → P u → P v := fun hr hu => by
    induction hr with
    | refl => exact hu
    | tail _ h ih => exact hm _ _ _ _ h ih
  cases hi : EngineCmd i with
  | true =>
    cases engine_ends hi h with
    | returned st o hr => exact hf _ _ _ _ (run hr (hb s i hs))
    | stuck hr => exact run hr (hb s i hs)
  | false =>
    have hr := host_acts hi h
    clear h
    induction hr with
    | refl => exact run (runs_started (al := true) i s) (hb s i hs)
    | tail _ h ih => exact ha _ _ _ h ih

/-- What every micro-step, every action and every interleaving point keeps, a step keeps. -/
theorem step_keeps {P : State → Prop} (hm : ∀ i al s t, Micro i al s t → P s → P t) (ha : ∀ i s t, Act i s t → P s → P t)
    (hag : ∀ s, P s → P s.interleave) (hq : ∀ s q a, P s → P ((s.withHostQueue q).withArgs a))
    (hb : ∀ s i, P s → P (s.begin i)) (hf : ∀ s op st o, P s → P (s.finishOp op st o)) {s t : State} (h : step s = .next t)
    (hs : P s) : P t := by
  unfold step at h
  split at h
  · cases h
  split at h
  · cases h
  split at h
  · rename_i u hu
    cases h
    refine hag u ?_
    unfold sequencerStep at hu
    split at hu
    · rename_i r hr
      unfold resume at hu
      split at hu
      · have hr : Acts .otgPoll s u := acts_spinSample (.inl rfl) (ret := endPollOf r.instr)
          (fun u => by unfold endPollOf; split <;> exact acts_finish _ _ _ _) hu
        clear hu
        induction hr with
        | refl => exact hs
        | tail _ h ih => exact ha _ _ _ h ih
      · cases hu; exact hs
      · cases hu; exact hs
    · split at hu
      · rename_i w v hv
        unfold State.takeCmd at hv
        split at hv
        · cases hv
        · cases hv
          unfold runWord at hu
          split at hu
          · exact exec_keeps hm ha hb hf hu (hq _ _ _ hs)
          · cases hu; exact hf _ _ _ _ (hq _ _ _ hs)
      · cases hu; exact hs
  · cases h
  · cases h

end Sys2Proof.Machine
end

