-- ==== Sys2Proof/Laws/Tick.lean ====
section
/-! SUPPORT. The dispatch tick: that an entry as ASYNC_REGISTER leaves it is visited without a fault on every behaviour of the
other agents, and what the visit leaves alone (spec 44_async_queue R215, R216, R218). -/

namespace Sys2Proof.Machine

/-! ### Interleaving points at which the other agents' steps are scripted -/

/-- At a point with a scripted batch the other agents take the steps of the batch. -/
theorem interleave_of_batches {s : State} {b : List AgentEvent} {bs : List (List AgentEvent)} (h : s.oracle.batches = b :: bs) :
    s.interleave = b.foldl agentStep (s.withOracle { s.oracle with batches := bs }) := by
  unfold State.interleave State.drawBatch
  rw [h]

/-- At a quiet point nothing but the draws differs. -/
theorem interleave_of_quiet {s : State} {n : Nat} (h : Quiet (n + 1) s) :
    ∃ o, s.interleave = s.withOracle o ∧ Quiet n (s.withOracle o) := by
  obtain ⟨rest, h⟩ := h
  rw [List.replicate_succ, List.cons_append] at h
  exact ⟨_, interleave_of_batches h, rest, rfl⟩

/-- Quietness is a matter of the scripted batches alone. -/
theorem quiet_of_batches {n : Nat} {s t : State} (h : Quiet n s) (e : t.oracle.batches = s.oracle.batches) : Quiet n t := by
  obtain ⟨r, h⟩ := h
  exact ⟨r, e.trans h⟩

/-! ### Readiness of an entry -/

/-- An entry stays ready while its channel is only completed or idled and no region changes. -/
theorem entryReady_of {s t : State} {x : AsyncEntry} (hc : t.cfg = s.cfg) (ha : t.alloc = s.alloc)
    (hf : ChanFrame (s.chan (entryChan x)) (t.chan (entryChan x)) ∨ t.chan (entryChan x) = Channel.idle)
    (h : EntryReady s x) : EntryReady t x := by
  obtain ⟨h1, h2, h3, h4⟩ := h
  have hag : ∀ y, t.agentTrb (entryChan x) = some y → s.agentTrb (entryChan x) = some y := fun y hy =>
    agentTrb_of_chan hf hy
  refine ⟨fun i hi => ?_, fun p hp => ?_, fun hd => ?_, fun y hy => ?_⟩
  · rw [hc] at hi ⊢
    rw [State.admits_congr hc ha]
    exact h1 i hi
  · rw [hc]
    exact h2 p hp
  · rw [hc]
    rcases hf with hf | hf
    · rcases hf with e | ⟨e1, e2, ⟨y, e3, e4⟩, -⟩
      · rw [e] at hd ⊢
        exact h3 hd
      · exact e4.trans (h4 y (by unfold State.agentTrb; rw [e1, e2, e3]; rfl))
    · rw [hf] at hd
      cases hd
  · rw [hc]
    exact h4 y (hag y hy)

/-- A transfer on other channels keeps an entry ready. -/
theorem entryReady_frame {cs : List Chan} {s t : State} {x : AsyncEntry} (f : XferFrame cs s t) (hn : entryChan x ∉ cs)
    (h : EntryReady s x) : EntryReady t x := entryReady_of f.cfg f.alloc (f.chan _ hn) h

theorem entryReady_interleave {s : State} {x : AsyncEntry} (hb : s.seq.busy = true) (h : EntryReady s x) :
    EntryReady s.interleave x :=
  entryReady_of (agentFrame_interleave s).cfg ((agentFrame_interleave s).alloc hb) (.inl (chan_interleave s _)) h

theorem entryReady_atLine {s : State} {x : AsyncEntry} (l : Line) (hb : s.seq.busy = true) (h : EntryReady s x) :
    EntryReady (s.atLine l) x := entryReady_frame (xferFrame_atLine [] l hb) (by simp) h

theorem done_atLine {s : State} {c : Chan} (l : Line) (h : (s.chan c).done = true) : ((s.atLine l).chan c).done = true := by
  rcases chan_atLine s l c with e | ⟨-, -, -, e, -⟩
  · rw [e]; exact h
  · rw [e]

theorem done_interleave {s : State} {c : Chan} (h : (s.chan c).done = true) : (s.interleave.chan c).done = true := by
  rcases chan_interleave s c with e | ⟨-, -, -, e, -⟩
  · rw [e]; exact h
  · rw [e]

/-! ### The visit of one entry -/

/-- Slice `i` of an entry's buffer lies inside the buffer. -/
theorem slice_out {a buf sl n i : Nat} (hi : i < n) (ha : a < buf ∨ buf + n * sl ≤ a) :
    a < buf + i * sl ∨ buf + i * sl + sl ≤ a := by
  have h : (i + 1) * sl ≤ n * sl := Nat.mul_le_mul_right _ hi
  rw [Nat.succ_mul] at h
  omega

/-- The visit of an entry answers, leaves the other channels to their agents, and stores only into the entry's buffer. -/
theorem tickEntry_spec (k : Nat) {x : AsyncEntry} {s : State} (hb : s.seq.busy = true) (hx : EntryReady s x)
    (hl : EntryLegal s.cfg x) :
    ∃ t, tickEntry k x s = .done () t ∧ XferFrame [entryChan x] s t ∧
      ∀ a v, (a < x.buf ∨ x.buf + s.cfg.asyncIter * sliceBytes s.cfg x.len ≤ a) → Shield a v s → Shield a v t := by
  have hm : entryChan x ∈ [entryChan x] := by simp
  have hi : x.index < s.cfg.asyncIter := hl.2.2.2.2.2.1
  have hp : x.pool.length = s.cfg.asyncIter := hl.2.2.2.2.2.2
  have fi := xferFrame_atLine [entryChan x] .check hb
  have f0 : XferFrame [entryChan x] s (dmaCheck (entryChan x) (s.atLine .check)) := fi.trans (xferFrame_check _ _ fi.busy)
  have r0 : EntryReady (dmaCheck (entryChan x) (s.atLine .check)) x :=
    entryReady_of (s := s.atLine .check) rfl rfl (.inl (.refl _)) (entryReady_atLine _ hb hx)
  have s0 : ∀ a v, Shield a v s → Shield a v (dmaCheck (entryChan x) (s.atLine .check)) := fun a v h =>
    shield_of_dma (s := s.atLine .check) rfl rfl (shield_atLine _ hb h)
  unfold tickEntry
  simp only []
  generalize dmaCheck (entryChan x) (s.atLine .check) = u0 at *
  split
  swap
  · exact ⟨_, rfl, f0, fun a v _ h => s0 a v h⟩
  rename_i hd
  unfold tickComplete
  simp only []
  -- the two reads and the toggle
  have f2 := f0.trans (xferFrame_atLine _ .translate f0.busy)
  have f3 := f2.trans (xferFrame_atLine _ .capture f2.busy)
  have r2 : EntryReady ((u0.atLine .translate).atLine .capture) x :=
    entryReady_atLine _ f2.busy (entryReady_atLine _ f0.busy r0)
  have ha := r2.2.2.1 (done_atLine _ (done_atLine _ hd))
  have s3 : ∀ a v, Shield a v s → Shield a v ((u0.atLine .translate).atLine .capture) := fun a v h =>
    shield_atLine _ f2.busy (shield_atLine _ f0.busy (s0 a v h))
  generalize translate (u0.atLine .translate) (entryChan x) = r at *
  generalize (u0.atLine .translate).atLine .capture = u3 at *
  generalize (u3.chan (entryChan x)).actual = n at *
  have f4 : XferFrame [entryChan x] s ((u3.atLine .readToggle).logOp (.R .epToggle)) :=
    (f3.trans (xferFrame_atLine _ .readToggle f3.busy)).trans
      (xferFrame_of_eq _ (xferFrame_atLine [entryChan x] .readToggle f3.busy).busy rfl (fun _ _ => rfl) rfl rfl rfl rfl rfl
        (List.prefix_append _ _))
  have s4 : ∀ a v, Shield a v s → Shield a v ((u3.atLine .readToggle).logOp (.R .epToggle)) := fun a v h =>
    shield_of_dma (s := u3.atLine .readToggle) rfl rfl (shield_atLine _ f3.busy (s3 a v h))
  have hcn : sliceBytes u3.cfg x.len = sliceBytes s.cfg x.len := by rw [f3.cfg]
  rw [hcn] at ha
  generalize (u3.atLine .readToggle).logOp (.R .epToggle) = u4 at *
  -- the toggle written, clear, reset, release
  have q4 : ∀ y, XferFrame [entryChan x] s (u4.setEntry k y) := fun y =>
    f4.trans (xferFrame_of_eq _ f4.busy rfl (fun _ _ => rfl) rfl rfl rfl rfl rfl List.prefix_rfl)
  have q4s : ∀ y a v, Shield a v s → Shield a v (u4.setEntry k y) := fun y a v h =>
    shield_of_dma (s := u4) rfl rfl (s4 a v h)
  generalize hy : ({ x with toggle := u4.toggle (entryChan x) } : AsyncEntry) = y
  have f5 := (q4 y).trans (xferFrame_atLine _ .clear (q4 y).busy)
  have f6 := f5.trans (xferFrame_clear hm f5.busy)
  have s6 : ∀ a v, Shield a v s → Shield a v (dmaClear (entryChan x) ((u4.setEntry k y).atLine .clear)) := fun a v h =>
    shield_clear _ (shield_atLine _ (q4 y).busy (q4s y a v h))
  generalize dmaClear (entryChan x) ((u4.setEntry k y).atLine .clear) = u6 at *
  have f7 : XferFrame [entryChan x] s (if r.1 = .success then u6 else dmaReset (u6.atLine .reset)) := by
    split
    · exact f6
    · have k := f6.trans (xferFrame_atLine _ .reset f6.busy)
      exact k.trans (xferFrame_reset _ k.busy)
  have s7 : ∀ a v, Shield a v s → Shield a v (if r.1 = .success then u6 else dmaReset (u6.atLine .reset)) := fun a v h => by
    split
    · exact s6 a v h
    · exact shield_reset (shield_atLine _ f6.busy (s6 a v h))
  generalize (if r.1 = .success then u6 else dmaReset (u6.atLine .reset)) = u7 at *
  have f8 := f7.trans (xferFrame_atLine _ .release f7.busy)
  have f9 := f8.trans (xferFrame_release hm f8.busy)
  have s9 : ∀ a v, Shield a v s → Shield a v (dmaRelease (entryChan x) (u7.atLine .release)) := fun a v h =>
    shield_release _ (shield_atLine _ f7.busy (s7 a v h))
  have p9 : ((dmaRelease (entryChan x) (u7.atLine .release)).chan (entryChan x)).programmed = false := by
    rw [chan_dmaRelease, if_pos rfl]
  generalize dmaRelease (entryChan x) (u7.atLine .release) = u9 at *
  -- the index written, and the arm
  have hpos : 0 < s.cfg.asyncIter := Nat.lt_of_le_of_lt (Nat.zero_le _) hi
  rw [f9.cfg]
  have hj : (x.index + 1) % s.cfg.asyncIter < s.cfg.asyncIter := Nat.mod_lt _ hpos
  generalize (x.index + 1) % s.cfg.asyncIter = j at *
  have hpool : x.pool.getD j 0 ∈ x.pool := by
    rw [List.getD_eq_getElem _ _ (by rw [hp]; exact hj)]
    exact List.getElem_mem _
  subst hy
  generalize hz : ({ x with toggle := u4.toggle (entryChan x), index := j } : AsyncEntry) = z
  have f10 : XferFrame [entryChan x] s (u9.setEntry k z) :=
    f9.trans (xferFrame_of_eq _ f9.busy rfl (fun _ _ => rfl) rfl rfl rfl rfl rfl List.prefix_rfl)
  have s10 : ∀ a v, Shield a v s → Shield a v (u9.setEntry k z) := fun a v h =>
    shield_of_dma (s := u9) rfl rfl (s9 a v h)
  have p10 : ((u9.setEntry k z).chan (entryChan x)).programmed = false := p9
  generalize u9.setEntry k z = u10 at *
  subst hz
  obtain ⟨t, ht⟩ : ∃ t, armSlice { x with toggle := u4.toggle (entryChan x), index := j } u10 = .done .success t := by
    unfold armSlice
    refine armInterrupt_done hl.1 ?_ p10 ?_ ?_
    · rw [f10.cfg]; exact hl.2.2.2.2.1
    · rw [f10.cfg]; exact hx.2.1 _ hpool
    · rw [f10.cfg]; exact ⟨(hx.1 j hj).1, (hx.1 j hj).2.1⟩
  have ka := armInterrupt_armed f10.busy ht
  have f11 : XferFrame [entryChan x] s t := f10.trans ka.frame
  have s11 : ∀ a v, (a < x.buf ∨ x.buf + s.cfg.asyncIter * sliceBytes s.cfg x.len ≤ a) → Shield a v s → Shield a v t :=
    fun a v h k => ka.shield a v (fun _ => by rw [f10.cfg]; exact slice_out hj h) (s10 a v k)
  rw [ht, andThen_done]
  -- the delivery
  have f12 := f11.trans (xferFrame_atLine _ .callback f11.busy)
  have hadm : (t.atLine .callback).admits [.async] (x.buf + x.index * sliceBytes t.cfg x.len) n = true := by
    rw [State.admits_congr f12.cfg f12.alloc, f11.cfg]
    exact State.admits_sub (hx.1 x.index hi).2.2 (le_refl _) (by omega)
  unfold seqRead
  rw [if_pos hadm, andThen_done]
  exact ⟨_, rfl, f12.trans (xferFrame_of_eq _ f12.busy rfl (fun _ _ => rfl) rfl rfl rfl rfl rfl List.prefix_rfl), fun a v h k =>
    shield_of_dma (s := t.atLine .callback) rfl rfl (shield_atLine _ f11.busy (s11 a v h k))⟩

end Sys2Proof.Machine
end

