-- ==== Sys2Proof/Tests/Slice0.lean ====
section
/-! SUPPORT. Tests of the model: expected values come from the spec's own vectors (95_test_vectors), named in each docstring,
or from a rule worked by hand. After the tests, for each statement of the certificates, a witness of its hypotheses. -/

namespace Sys2Proof.Tests

open Sys2Proof.Machine

set_option Elab.async false

/-! ### Well-formedness: an ill-formed term for each check, refused (R84) -/

/-- Endpoint 0 takes a stage, not a transfer type. -/
theorem test_wellFormed_endpoint0_refuses_a_type : (Instr.epConfigure 0 .out false 3 (.type .bulk)).wellFormed = false := by
  decide

/-- Endpoints 1..15 take a transfer type, not a stage. -/
theorem test_wellFormed_endpoint1_refuses_a_stage :
    (Instr.epConfigure 1 .out false 3 (.stage .setup)).wellFormed = false := by decide

/-- ISOCH is no operand of EP_CONFIGURE, on any endpoint. -/
theorem test_wellFormed_refuses_isoch :
    (Instr.epConfigure 0 .in_ false 3 (.type .isoch)).wellFormed = false ∧
      (Instr.epConfigure 15 .in_ false 3 (.type .isoch)).wellFormed = false := by decide

/-! ### Decoding: one word of each command, its fields written out: 31:28, X, S, A, T, F, D, E, O (R80) -/

theorem test_decode_dmaProgram : decode 0b0000_0000_00_0000000_0_0_1_0001_00000001 = .ok (.dmaProgram 1 .in_) := by decide
theorem test_decode_dmaCheck : decode 0b0000_0000_00_0000000_0_0_1_0000_00000010 = .ok (.dmaCheck 0 .in_) := by decide
theorem test_decode_dmaClear : decode 0b0000_0000_00_0000000_0_0_1_0001_00000011 = .ok (.dmaClear 1 .in_) := by decide
theorem test_decode_dmaRelease : decode 0b0000_0000_00_0000000_0_0_0_1111_00000100 = .ok (.dmaRelease 15 .out) := by decide
theorem test_decode_dmaReset : decode 0b0000_0000_00_0000000_0_0_0_0000_00000101 = .ok .dmaReset := by decide
theorem test_decode_epConfigure :
    decode 0b0000_0010_00_0000011_1_0_0_0010_00001000 = .ok (.epConfigure 2 .out true 3 (.type .bulk)) := by decide
theorem test_decode_epConfigure_status :
    decode 0b0000_0010_00_0000000_0_0_0_0000_00001000 = .ok (.epConfigure 0 .out false 0 (.stage .status)) := by decide
theorem test_decode_otgPoll : decode 0b0000_0000_00_0000000_0_0_0_0000_00010000 = .ok .otgPoll := by decide
theorem test_decode_portSuspend : decode 0b0000_0000_00_0000000_0_1_0_0000_00010001 = .ok (.portSuspend true) := by decide
theorem test_decode_portReset : decode 0b0000_0000_00_0000000_0_0_0_0000_00010010 = .ok (.portReset false) := by decide
theorem test_decode_xferControl :
    decode 0b0000_0001_10_0000101_0_0_0_0000_00100000 = .ok (.xferControl 5 .high .in_) := by decide
theorem test_decode_xferBulk :
    decode 0b0000_0000_10_0000011_1_0_1_0010_00100001 = .ok (.xferBulk 2 .in_ true 3 .high) := by decide
theorem test_decode_xferIntSync :
    decode 0b0000_0000_01_1111111_0_0_1_0011_00100010 = .ok (.xferIntSync 3 .in_ false 127 .low) := by decide
theorem test_decode_xferIntAsyncArm :
    decode 0b0000_0000_10_0000101_0_0_1_0001_00100011 = .ok (.xferIntAsyncArm 1 .in_ false 5 .high) := by decide
theorem test_decode_xferIsoch :
    decode 0b0000_0000_00_0000101_0_0_1_0100_00100100 = .ok (.xferIsoch 4 .in_ 5 .full) := by decide
theorem test_decode_asyncRegister :
    decode 0b0000_0000_10_0000101_0_0_1_0001_00110000 = .ok (.asyncRegister 1 .in_ false 5 .high) := by decide
theorem test_decode_asyncCancel :
    decode 0b0000_0000_00_0000101_0_0_0_0010_00110001 = .ok (.asyncCancel 2 5) := by decide
theorem test_decode_asyncTick : decode 0b0000_0000_00_0000000_0_0_0_0000_00110010 = .ok .asyncTick := by decide
theorem test_decode_hcGetCapability : decode 0b0000_0000_00_0000000_0_0_0_0000_01000000 = .ok .hcGetCapability := by decide
theorem test_decode_hcReset : decode 0b0000_0000_00_0000000_0_0_0_0000_01000001 = .ok .hcReset := by decide
theorem test_decode_hcGetState : decode 0b0000_0000_00_0000000_0_0_0_0000_01000010 = .ok .hcGetState := by decide
theorem test_decode_hcSetState : decode 0b0000_0010_00_0000000_0_0_0_0000_01000011 = .ok (.hcSetState .suspend) := by decide
theorem test_decode_rhGetPortStatus : decode 0b0000_0000_00_0000000_0_0_0_0000_01000100 = .ok .rhGetPortStatus := by decide
theorem test_decode_rhSetPortFeature :
    decode 0b0000_0011_00_0000000_0_0_0_0000_01000101 = .ok (.rhSetPortFeature .power) := by decide
theorem test_decode_rhClearPortFeature :
    decode 0b0000_1000_00_0000000_0_0_0_0000_01000110 = .ok (.rhClearPortFeature .overcurrentChange) := by decide

/-- T-ENC-5, 6, 7: reserved bits, reserved opcodes. -/
theorem test_decode_reserved :
    decode 0x10000010 = .error .reservedBits ∧ decode 0x00000006 = .error .reservedOpcode ∧
      decode 0x000000FF = .error .reservedOpcode := by decide

/-- T-ENC-8, 11, 17, 18, 19, 20: a field the command does not use. -/
theorem test_decode_unused :
    decode 0x00000110 = .error .unusedField ∧ decode 0x00000120 = .error .unusedField ∧
      decode 0x00029131 = .error .unusedField ∧ decode 0x00004024 = .error .unusedField ∧
      decode 0x00000105 = .error .unusedField ∧ decode 0x00004010 = .error .unusedField := by decide

/-- T-ENC-9, 10, 12, 13, 15, 16: the reserved speed and reserved X values. -/
theorem test_decode_reserved_operands :
    decode 0x00C18221 = .error .reservedSpeed ∧ decode 0x03000020 = .error .reservedSub ∧
      decode 0x01000108 = .error .reservedSub ∧ decode 0x03000008 = .error .reservedSub ∧
      decode 0x03000043 = .error .reservedSub ∧ decode 0x0A000045 = .error .reservedSub := by decide

/-- The word the table numbers is the word decoded (T-ENC-3), and its encoder gives it back. -/
theorem test_table_word :
    decodeTableWord 32 0x0201C208 = some (.epConfigure 2 .out true 3 (.type .bulk)) ∧
      encode (.epConfigure 2 .out true 3 (.type .bulk)) = 0x0201C208 := by decide

/-! ### Helpers: the fixture of the vectors, and small states -/

/-- The parameters of 95_test_vectors section 0. -/
def fixture : Params :=
  { burstSize := 512, maxTrbSize := 4096, asyncIter := 2, sliceBytes := ⟨[], none⟩, intTimerValue := ⟨[], none⟩, regMap := ⟨[], [], []⟩
    errMap := #v[.none, .crc, .stall, .timeout, .other, .other, .other, .other]
    timeoutControl := 1, timeoutBulk := 1, timeoutInterrupt := 1
    trbFlagsSetup := 0, trbFlagsData := 0, trbFlagsStatus := 0, trbFlagsBulk := 0, trbFlagsInterrupt := 0
    trbBytes := 16, disconnectSpinBound := none, is64BitCapable := false, addrWidth := .w32, dmaAlign := 1
    coreBase := 0, dmaBase := 0, secondaryVariant := .v0, numSrp := 1, otgIrqMaskReset := OtgFlags.none
    hcStateReset := .halt, cancelReleasesChannel := true, tickPeriod := 10 }

/-- The batches and allocations to come: the same batch at each of the next points; no reset drops a channel. -/
def script (s : State) (batch : List AgentEvent) (allocs : List (Option Nat)) : State :=
  s.withOracle { batches := List.replicate 64 batch, allocs := allocs, resets := List.replicate 4 ⟨[], true⟩, next := 0 }

/-- The state with these batches to come, and no step of another agent after them. -/
def scripted (s : State) (bs : List (List AgentEvent)) : State :=
  s.withOracle { s.oracle with batches := bs ++ List.replicate 32 [] }

/-- Attach with `id_a` = 1 and a caller region of 1024 bytes at 0x10000, the other agents taking no step. -/
def start : State :=
  script (State.attach fixture { idA := true, hwWait := false, hwHostRole := false, linkSpeed := .full }
    [(0x10000, { len := 1024, owner := .caller })] []) [] []

/-- The successor, where there is one. -/
def after (x : Out) : Option State :=
  match x with
  | .next s => some s
  | .fault _ | .refused _ => none

/-- The mark of the faulted state, where there is a fault (R57, R250). -/
def faultMark (x : Out) : Option FaultReason :=
  match x with
  | .fault (.programUnreleased s) | .fault (.noDescriptor s) | .fault (.misalignedDma s) | .fault (.disconnectSpinExceeded s)
  | .fault (.channelShared s) => s.fault
  | .next _ | .refused _ => none

/-- A step that the Sequencer's command ends by refusal. -/
def refusalOf (x : Out) : Option Refusal :=
  match x with
  | .refused r => some r
  | .next _ | .fault _ => none

/-- What a test looks at in a successor, where there is one. -/
def seen {α : Type} (x : Out) (f : State → α) : Option α := (after x).map f

/-- A TRB slot at 0x1000 with a TRB for 8 bytes at 0x2000. -/
def withTrb (s : State) : State :=
  (s.withTrbStore [(0x1000, { addr := 0x2000, size := 8, flags := 0 })]).withAlloc
    [(0x1000, { len := 16, owner := .trb }), (0x2000, { len := 8, owner := .staging })]

/-- The argument record with a descriptor address. -/
def descArgs (a : Nat) : Args := { Args.zero with desc := a }

/-- A channel programmed with a TRB for 8 bytes at 0x2000. -/
def armed : Channel :=
  { Channel.idle with enabled := true, programmed := true, errIrqEn := true, doneIrqEn := true, descAddr := 0x1000
                      trb := some { addr := 0x2000, size := 8, flags := 0 }, pending := true }

/-- The state with these flags set. -/
def flagged (f : OtgFlags) (s : State) : State := s.setFlags f

/-- The state in this OTG state. -/
def inRole (st : OtgState) (s : State) : State := s.withOtg { s.otg with state := st }

/-- The state with these inputs. -/
def driven (inp : Inputs) (s : State) : State := s.withOtg { s.otg with inputs := inp }

/-- The port status and change replaced. -/
def portIs (st ch : BitVec 16) (s : State) : State := s.withPort { status := st, change := ch }

/-! ### DMA channel engine -/

/-- T-DMA-1: the channel armed, in seven register operations. -/
theorem test_dmaProgram_arms :
    seen (exec (.dmaProgram 0 .out) ((withTrb start).withArgs (descArgs 0x1000)))
      (fun t => (t.chan ⟨0, .out⟩, t.dma.burstMode, t.dma.sel, t.regtrace)) =
    some (armed, .single, ⟨0, .out⟩,
      [.W .dmaConf (.burst .single), .W .dmaErrIrqEn (.chan ⟨0, .out⟩), .W .dmaSel (.chan ⟨0, .out⟩),
       .W .dmaDoneIrqEn (.num 1), .W .dmaDescAddr (.num 0x1000), .dfetch ⟨0, .out⟩, .W .dmaChEnable (.num 1)]) := by
  decide +kernel

/-- T-DMA-2, T-DMA-3, T-DMA-5: the three faults. -/
theorem test_dmaProgram_faults :
    faultMark (exec (.dmaProgram 0 .out) (((withTrb start).setChan ⟨0, .out⟩ armed).withArgs (descArgs 0x1000))) =
        some .programUnreleased ∧
      faultMark (exec (.dmaProgram 1 .in_) (start.withArgs (descArgs 0x1000))) = some .noDescriptor ∧
      faultMark (exec (.dmaProgram 0 .out)
        ({ start with cfg := { fixture with dmaAlign := 4 }, args := descArgs 0x1000
                      trbStore := [(0x1000, { addr := 0x2001, size := 8, flags := 0 })] })) = some .misalignedDma := by
  decide +kernel

/-- T-DMA-6: the check of a completed transfer answers 1 and keeps `done`. -/
theorem test_dmaCheck_answers :
    seen (exec (.dmaCheck 0 .out)
        (agentStep ((withTrb start).setChan ⟨0, .out⟩ armed) (.complete ⟨0, .out⟩ [] true)))
      (fun t => (t.trace, (t.chan ⟨0, .out⟩).done, (t.chan ⟨0, .out⟩).actual, t.toggle ⟨0, .out⟩)) =
    some ([.result 0x02 .success (.complete true)], true, 8, true) := by decide +kernel

/-- T-DMA-8: an error ends an IN transfer with `done`, the code and the bytes written. -/
theorem test_agent_error :
    let t := agentStep ((withTrb start).setChan ⟨1, .in_⟩ armed) (.fail ⟨1, .in_⟩ 2 0 [1, 2, 3] false)
    (t.chan ⟨1, .in_⟩).done = true ∧ (t.chan ⟨1, .in_⟩).err = true ∧ (t.chan ⟨1, .in_⟩).errCode = 2 ∧
      (t.chan ⟨1, .in_⟩).actual = 3 ∧ t.mem = [(0x2000, 1), (0x2001, 2), (0x2002, 3)] := by decide +kernel

/-- T-DMA-9: the clear keeps programmed and enabled. -/
theorem test_dmaClear_clears :
    seen (exec (.dmaClear 1 .in_) (start.setChan ⟨1, .in_⟩ { armed with done := true, err := true, errCode := 2 }))
      (fun t => t.chan ⟨1, .in_⟩) = some armed := by decide +kernel

/-- T-DMA-11: a released channel has no transfer; its agent has no step. -/
theorem test_dmaRelease_cancels :
    seen (exec (.dmaRelease 1 .in_) ((withTrb start).setChan ⟨1, .in_⟩ armed))
      (fun t => ((t.chan ⟨1, .in_⟩).pending, (t.chan ⟨1, .in_⟩).trb,
        decide (agentStep t (.complete ⟨1, .in_⟩ [7] true) = t))) = some (false, none, true) := by decide +kernel

/-- T-DMA-12: the selected channel idled, another kept by this draw. -/
theorem test_dmaReset_idles :
    seen (exec .dmaReset (script (((start.setChan ⟨1, .in_⟩ { armed with err := true }).setChan ⟨3, .in_⟩ armed).setSel
        ⟨1, .in_⟩) [] []))
      (fun t => (t.chan ⟨1, .in_⟩, t.chan ⟨3, .in_⟩, t.dma.sel, t.regtrace)) =
    some (Channel.idle, armed, ⟨1, .in_⟩, [.softReset]) := by decide +kernel

/-- T-DMA-14: an agent whose buffer is not allocated is stuck. -/
theorem test_agent_stuck :
    let s := start.setChan ⟨2, .out⟩ { armed with trb := some { addr := 0x9000, size := 16, flags := 0 } }
    agentStep s (.complete ⟨2, .out⟩ [] true) = s := by decide +kernel

/-! ### Endpoint request programmer -/

/-- T-EP-1: endpoint 0, the IN data stage. -/
theorem test_epConfigure_endpoint0 :
    seen (exec (.epConfigure 0 .in_ false 5 (.stage .data)) (start.withArgs { Args.zero with mps := 64 }))
      (fun t => (t.ep0.mps, t.ep0.devAddr, t.ep0.toggle.in_, t.regtrace)) =
    some (64, 5, true,
      [.W .ep0Mps (.num 64), .W .ep0Addr (.num 5), .fifoReset ⟨0, .in_⟩, .W .ep0ToggleSet (.dir .in_)]) := by decide +kernel

/-- T-EP-5: an interrupt endpoint, nine writes, the timer last. -/
theorem test_epConfigure_interrupt :
    seen (exec (.epConfigure 3 .in_ false 5 (.type .interrupt)) (start.withArgs { Args.zero with mps := 8, interval := 10 }))
      (fun t => ((t.endpoint ⟨3, .in_⟩).type, (t.endpoint ⟨3, .in_⟩).enabled, (t.endpoint ⟨3, .in_⟩).intTimer,
        t.regtrace.length, t.regtrace.getLast?)) =
    some (.interrupt, true, 10, 9, some (.W .epTimer (.chanVal ⟨3, .in_⟩ 10))) := by decide +kernel

/-! ### OTG state machine and port operations -/

/-- T-OTG-3: all five flags in one poll. -/
theorem test_otgPoll_all_flags :
    seen (exec .otgPoll (flagged ⟨true, true, true, true, true⟩ (driven ⟨true, false, false, .high⟩ start)))
      (fun t => (t.otg.state, t.otg.vbusOn, t.otg.vbusErrCount, t.otg.resetPending, t.otg.flags, t.port)) =
    some (.aIdle, true, 0, true, OtgFlags.none, { status := 0x0401, change := 0x0001 }) := by decide +kernel

/-- T-OTG-8: Disconnect out of a suspend. -/
theorem test_otgPoll_disconnect :
    seen (exec .otgPoll (flagged ⟨false, false, false, true, false⟩ (driven ⟨true, true, false, .full⟩
        (inRole .aSuspend start))))
      (fun t => (t.otg.state, t.otg.vbusOn, t.otg.wakeDisable, t.port)) =
    some (.aIdle, true, true, { status := 0x0100, change := 0x0001 }) := by decide +kernel

/-- T-PORT-1. -/
theorem test_portSuspend_suspends :
    seen (exec (.portSuspend true) (inRole .aHost start)) (fun t => (t.otg.state, t.otg.vbusOn, t.port.status)) =
      some (.aSuspend, false, 0x0004) := by decide +kernel

/-- T-PORT-5: a babble, nothing else. -/
theorem test_portSuspend_babbles :
    seen (exec (.portSuspend false) (inRole .aHost start)) (fun t => (t.otg.state, t.port, t.trace)) =
      some (.aHost, start.port, [.babble .aHost, .result 0x11 .success .none]) := by decide +kernel

/-- T-PORT-6. -/
theorem test_portReset_starts :
    seen (exec (.portReset true) (flagged ⟨false, false, false, true, false⟩ (portIs 0x0401 0x0001 start)))
      (fun t => (t.otg.flags, t.port)) = some (OtgFlags.none, { status := 0x0411, change := 0x0001 }) := by decide +kernel

/-- T-PORT-7. -/
theorem test_portReset_ends :
    seen (exec (.portReset false) (portIs 0x0411 0 (start.withOtg { start.otg with resetPending := true })))
      (fun t => (t.otg.resetPending, t.port.status)) = some (false, 0x0403) := by decide +kernel

/-! ### Transfers -/

/-- The completions of both directions of an endpoint, IN with these bytes, at every point. -/
def completes (ep : EpNum) (bs : List Byte) : List AgentEvent := [.complete ⟨ep, .out⟩ [] true, .complete ⟨ep, .in_⟩ bs true]

/-- Operands of a transfer with a buffer of `n` bytes at 0x10000. -/
def xferArgs (mps len n timeout interval : Nat) (setup : SetupPacket) : Args :=
  { Args.zero with mps := mps, len := len, buf := ⟨0x10000, n⟩, timeout := timeout, interval := interval, setup := setup }

/-- SET_ADDRESS 5. -/
def setAddress : SetupPacket := #v[0x00, 0x05, 0x05, 0, 0, 0, 0, 0]

/-- SET_ADDRESS to a device that answers every stage, before it runs. -/
def setAddressStart : State :=
  script (start.withArgs (xferArgs 8 0 8 10 0 setAddress)) (completes 0 []) [some 0x20000, some 0x30000]

/-- V1: SETUP and STATUS(IN) alone, 32 register operations, nothing left programmed. -/
theorem test_xferControl_noData :
    seen (exec (.xferControl 0 .full .noData) setAddressStart)
        (fun t => (t.trace, t.regtrace.length, t.dma.sel)) =
      some ([.result 0x20 .success (.control .none 0)], 32, ⟨0, .in_⟩) ∧
    seen (exec (.xferControl 0 .full .noData) setAddressStart)
        (fun t => (t.trbStore, t.ep0Stage, (t.chan ⟨0, .out⟩).programmed, (t.chan ⟨0, .in_⟩).programmed)) =
      some ([], .idle, false, false) := by
  decide +kernel

/-- T-CTL-5: a stall in the data stage; no STATUS stage, the caller's buffer unchanged. -/
theorem test_xferControl_stall :
    seen (exec (.xferControl 5 .high .in_) (script (start.withArgs (xferArgs 64 18 64 10 0 setAddress))
        [.complete ⟨0, .out⟩ [] true, .fail ⟨0, .in_⟩ 2 0 [1, 2, 3, 4, 5] false] [some 0x20000, some 0x30000, some 0x40000]))
      (fun t => (t.trace, (t.chan ⟨0, .in_⟩).programmed, readBytes t.mem 0x10000 5)) =
    some ([.result 0x20 .deviceError (.control .stall 0)], false, [0, 0, 0, 0, 0]) := by decide +kernel

/-- V3: 1000 bytes in two chunks, 35 register operations. -/
theorem test_xferBulk_chunks :
    seen (exec (.xferBulk 2 .out false 3 .high) (script (start.withArgs (xferArgs 64 1000 1000 10 0 setAddress)) (completes 2 [])
        [some 0x20000, some 0x30000]))
      (fun t => (t.trace, t.regtrace.length, (t.chan ⟨2, .out⟩).actual)) =
    some ([.result 0x21 .success (.transfer .none 1000 (some true))], 35, 488) := by decide +kernel

/-- T-BLK-1: an empty payload is configured only, and the toggle is the one just configured. -/
theorem test_xferBulk_empty :
    seen (exec (.xferBulk 2 .out false 3 .high) (script (start.withArgs (xferArgs 64 0 64 10 0 setAddress)) []
        [some 0x20000, some 0x30000]))
      (fun t => (t.trace, t.regtrace.length)) =
    some ([.result 0x21 .success (.transfer .none 0 (some false))], 9) := by decide +kernel

/-- T-INT-1: four bytes delivered, the toggle read back. -/
theorem test_xferIntSync_in :
    seen (exec (.xferIntSync 3 .in_ false 5 .high) (script (start.withArgs (xferArgs 8 8 8 10 10 setAddress))
        (completes 3 [0xA1, 0xA2, 0xA3, 0xA4]) [some 0x20000, some 0x30000]))
      (fun t => (t.trace, readBytes t.mem 0x10000 5, (t.endpoint ⟨3, .in_⟩).intTimer)) =
    some ([.result 0x22 .success (.transfer .none 4 (some true))], [0xA1, 0xA2, 0xA3, 0xA4, 0], 10) := by decide +kernel

/-- T-INT-4: two samples, a timeout, the channel released. -/
theorem test_xferIntSync_timeout :
    seen (exec (.xferIntSync 3 .in_ false 5 .high) (script (start.withArgs (xferArgs 8 8 8 2 10 setAddress)) []
        [some 0x20000, some 0x30000]))
      (fun t => (t.trace, (t.regtrace.filter (· = .R .dmaStatus)).length, (t.chan ⟨3, .in_⟩).programmed)) =
    some ([.result 0x22 .timeout (.transfer .timeout 0 (some false))], 2, false) := by decide +kernel

/-- The operands of T-INT-5. -/
def armArgs : Args := { Args.zero with mps := 8, interval := 10, trb := 0x5000, data := 0x6000, len := 8 }

/-- T-INT-5: armed, not waited for, not released. -/
theorem test_xferIntAsyncArm :
    seen (exec (.xferIntAsyncArm 1 .in_ false 5 .high) (start.withArgs armArgs))
      (fun t => (t.trbStore, (t.chan ⟨1, .in_⟩).programmed, (t.chan ⟨1, .in_⟩).pending, t.trace)) =
    some ([(0x5000, { addr := 0x6000, size := 8, flags := 0 })], true, true, [.result 0x23 .success .none]) := by
  decide +kernel

/-- T-INT-6: again without a release. -/
theorem test_xferIntAsyncArm_faults :
    faultMark (exec (.xferIntAsyncArm 1 .in_ false 5 .high) ((start.withArgs armArgs).setChan ⟨1, .in_⟩ armed)) =
      some .programUnreleased := by decide +kernel

/-- T-INT-8. -/
theorem test_xferIsoch_unsupported :
    seen (exec (.xferIsoch 4 .in_ 5 .high) start) (fun t => (t.trace, t.regtrace)) =
      some ([.result 0x24 .unsupported (.result .none)], []) := by decide +kernel

/-! ### Async queue -/

/-- The operands of the entry of 95_test_vectors 2.9. -/
def entryArgs : Args := { Args.zero with mps := 8, interval := 10, len := 8, callback := 7, ctx := 0x55 }

/-- That entry, its buffer at 0x20000 and its slots at 0x30000 and 0x30010. -/
def entry : AsyncEntry :=
  { devAddr := 5, ep := 1, speed := .high, mps := 8, interval := 10, len := 8, buf := 0x20000, pool := [0x30000, 0x30010]
    index := 0, toggle := false, callback := 7, ctx := 0x55 }

/-- The regions that entry holds, beside the caller's. -/
def entryRegions : List (Nat × Alloc) :=
  [(0x10000, { len := 1024, owner := .caller }), (0x20000, { len := 16, owner := .async }),
   (0x30000, { len := 16, owner := .trb }), (0x30010, { len := 16, owner := .trb })]

/-- Its channel, armed on slice 0. -/
def entryArmed : Channel :=
  { armed with descAddr := 0x30000, trb := some { addr := 0x20000, size := 8, flags := 0 } }

/-- The end state of T-ASY-1, with a channel state for (1, IN) and no step of another agent to come. -/
def registered (ch : Channel) : State :=
  script ((((start.withAsync [entry]).withAlloc entryRegions).withTrbStore
    [(0x30000, { addr := 0x20000, size := 8, flags := 0 })]).setChan ⟨1, .in_⟩ ch) [] []

/-- The start of T-ASY-1, its three allocations to come. -/
def registerStart : State := script (start.withArgs entryArgs) [] [some 0x20000, some 0x30000, some 0x30010]

/-- T-ASY-1: the entry queued, its first slice armed. -/
theorem test_asyncRegister :
    seen (exec (.asyncRegister 1 .in_ false 5 .high) registerStart)
        (fun t => (t.async, t.chan ⟨1, .in_⟩, (t.endpoint ⟨1, .in_⟩).intTimer)) = some ([entry], entryArmed, 10) ∧
      seen (exec (.asyncRegister 1 .in_ false 5 .high) registerStart) (fun t => (t.alloc, t.trbStore)) =
        some (entryRegions, [(0x30000, { addr := 0x20000, size := 8, flags := 0 })]) := by decide +kernel

/-- V5 and T-ASY-9: an interval out of range, and a failed allocation, change no region. -/
theorem test_asyncRegister_fails :
    seen (exec (.asyncRegister 1 .in_ false 5 .high) (start.withArgs { entryArgs with interval := 300 }))
        (fun t => (t.trace, t.alloc)) = some ([.result 0x30 .invalidParameter .none], start.alloc) ∧
      seen (exec (.asyncRegister 1 .in_ false 5 .high)
          (script (start.withArgs entryArgs) [] [some 0x20000, some 0x30000, none]))
        (fun t => (t.trace, t.alloc)) = some ([.result 0x30 .outOfResources .none], start.alloc) := by
  decide +kernel

/-- T-ASY-15: cancelled, released, freed; the stored toggle returned. -/
theorem test_asyncCancel :
    seen (exec (.asyncCancel 1 5) ((registered entryArmed).withAsync [{ entry with toggle := true, index := 1 }]))
        (fun t => (t.trace, t.async, (t.chan ⟨1, .in_⟩).programmed)) =
      some ([.result 0x31 .success (.toggle true)], [], false) ∧
    seen (exec (.asyncCancel 1 5) (registered entryArmed)) (fun t => (t.alloc, t.trbStore)) = some (start.alloc, []) := by
  decide +kernel

/-- V7: an absent entry. -/
theorem test_asyncCancel_absent :
    seen (exec (.asyncCancel 2 5) (registered entryArmed)) (fun t => (t.trace, t.async, t.regtrace)) =
      some ([.result 0x31 .invalidParameter .none], [entry], []) := by decide +kernel

/-- T-ASY-12: the callback, the next index, the second slice armed; 2 + 1 + 2 + 2 + 9 + 7 register operations. -/
theorem test_asyncTick_delivers :
    seen (exec .asyncTick ((registered { entryArmed with pending := false, done := true, actual := 4 }).withMem
        [(0x20000, 0xA1), (0x20001, 0xA2), (0x20002, 0xA3), (0x20003, 0xA4)]))
      (fun t => (t.trace, t.async.map (·.index), (t.chan ⟨1, .in_⟩).trb, t.regtrace.length)) =
    some ([.callback 7 0x55 [0xA1, 0xA2, 0xA3, 0xA4] 4 .none, .result 0x32 .success .none], [1],
      some { addr := 0x20008, size := 8, flags := 0 }, 23) := by decide +kernel

/-- T-ASY-17: a Cancel issued during the tick runs after its loop. -/
theorem test_asyncTick_deferred_cancel :
    seen (exec .asyncTick { registered { entryArmed with pending := false, done := true, actual := 0 } with
        oracle := { batches := [] :: [.issue { word := 0x00028131, args := Args.zero }] :: List.replicate 16 [], allocs := []
                    resets := [], next := 0 } })
      (fun t => (t.trace, t.async)) =
    some ([.callback 7 0x55 [] 0 .none, .result 0x31 .success (.toggle false), .result 0x32 .success .none], []) := by
  decide +kernel

/-! ### Controller and root hub -/

/-- T-HC-1. -/
theorem test_hcGetCapability :
    seen (exec .hcGetCapability start) (·.trace) = some [.result 0x40 .success (.capability .high 1 false)] := by
  decide +kernel

/-- T-HC-2: the entry is still live, its channel still programmed. -/
theorem test_hcReset :
    seen (exec .hcReset (registered entryArmed)) (fun t => (t.async, t.chan ⟨1, .in_⟩)) = some ([entry], entryArmed) := by
  decide +kernel

/-- T-HC-3. -/
theorem test_hcGetState : seen (exec .hcGetState start) (·.trace) = some [.result 0x42 .success (.hcState .halt)] := by
  decide +kernel

/-- T-HC-4. -/
theorem test_hcSetState : seen (exec (.hcSetState .operational) start) (·.hcState) = some .operational := by decide +kernel

/-- T-RH-1: the query runs the Connect it reports. -/
theorem test_rhGetPortStatus :
    seen (exec .rhGetPortStatus (flagged ⟨false, false, false, true, false⟩ (driven ⟨true, false, false, .high⟩ start)))
      (fun t => (t.trace, t.otg.state)) = some ([.result 0x44 .success (.port 0x0401 0x0001)], .aHost) := by decide +kernel

/-- T-RH-3 and T-RH-4. -/
theorem test_rhSetPortFeature :
    seen (exec (.rhSetPortFeature .enable) (portIs 0x0401 1 start)) (·.port.status) = some 0x0403 ∧
      seen (exec (.rhSetPortFeature .power) start) (fun t => (t.port.status, t.otg.vbusOn)) = some (0x0100, true) := by
  decide +kernel

/-- T-RH-9 and T-RH-8. -/
theorem test_rhClearPortFeature :
    seen (exec (.rhClearPortFeature .overcurrentChange) (portIs 0x0008 0x0008 start)) (·.port) =
        some { status := 0x0008, change := 0 } ∧
      seen (exec (.rhClearPortFeature .reset) (portIs 0x0411 1 start)) (·.port) =
        some { status := 0x0403, change := 1 } := by decide +kernel

/-! ### The step -/

/-- P1 command 6 as the next word after reset: stored, and its Result event appended. -/
theorem test_step_runs_the_word :
    (after (step (start.withFetchWord 32 0x01000043))).isSome = true ∧
      seen (step (script (start.withFetchWord 32 0x01000043) [] [])) (fun t => (t.hcState, t.trace, t.hostQueue)) =
        some (.operational, [.result 0x43 .success .none], []) := by decide +kernel

/-- T-ASY-18: an OTG_POLL issued during a tick; the step after it is refused. -/
theorem test_step_refuses_reentry :
    refusalOf (step ((agentStep ((registered entryArmed).withSeq { Seq.idle with busy := true, inTick := true })
      (.issue { word := 0x00000010, args := Args.zero })))) = some .reentrantCommand := by decide +kernel

/-! ### Witnesses: states and operands that meet the hypotheses of each statement -/

/-- The start state with this command issued. -/
def issued (w : Word) : State := start.withHostQueue [{ word := w, args := Args.zero }]

theorem test_witness_EncodeThenDecode :
    (Instr.epConfigure 0 .in_ true 127 (.stage .status)).wellFormed = true ∧
      (Instr.epConfigure 15 .out false 0 (.type .interrupt)).wellFormed = true := by decide

theorem test_witness_DecodeThenEncode : decode 0x09000046 = .ok (.rhClearPortFeature .resetChange) := by decide

/-- A legal word and an illegal one (T-ENC-3, T-ENC-9). -/
theorem test_witness_WordIsLegalExactlyByTheTable : LegalWord 0x0201C208 ∧ ¬LegalWord 0x00C18221 := by
  unfold LegalWord; decide

theorem test_witness_StepRunsTheIssuedCommand :
    Unmarked (issued 0x00000041) ∧ (issued 0x00000041).seq.cmd = none ∧
      (issued 0x00000041).hostQueue = { word := 0x00000041, args := Args.zero } :: [] ∧
      decode 0x00000041 = .ok .hcReset := ⟨⟨rfl, rfl⟩, rfl, rfl, by decide⟩

theorem test_witness_IllegalWordOnlyReturnsItsStatus :
    Unmarked (issued 0x10000010) ∧ (issued 0x10000010).seq = Seq.idle ∧
      (issued 0x10000010).hostQueue = { word := 0x10000010, args := Args.zero } :: [] ∧
      decode 0x10000010 = .error .reservedBits := ⟨⟨rfl, rfl⟩, rfl, rfl, by decide⟩

/-- One witness for each clause: an idle Sequencer, a Cancel in a tick, another command in a tick, a Cancel outside one. -/
theorem test_witness_HostIssueIsQueuedDeferredOrRefused :
    start.seq.busy = false ∧
      ((start.begin .asyncTick).withSeq { (start.begin .asyncTick).seq with inTick := true }).seq.busy = true ∧
      decode 0x00028131 = .ok (.asyncCancel 1 5) ∧ (∀ ep addr, decode 0x00000010 ≠ .ok (.asyncCancel ep addr)) ∧
      (start.begin .otgPoll).seq.inTick = false ∧
      (scripted start [[.issue ⟨0x00000010, Args.zero⟩]]).oracle.batches =
        [.issue ⟨0x00000010, Args.zero⟩] :: List.replicate 32 [] :=
  ⟨rfl, rfl, by decide, (fun _ _ h => nomatch (show decode 0x00000010 = .ok .otgPoll by decide).symm.trans h), rfl, rfl⟩

/-- R243, as T-ASY-18: an issue before the first micro-step of a command of one piece sets the mark; the command completes. -/
theorem test_refused_in_hcReset :
    seen (exec .hcReset (scripted start [[.issue ⟨0x00000010, Args.zero⟩]])) (fun t => (t.refused, t.hostQueue, t.trace)) =
      some (true, [], [.result 0x41 .success .none]) := by decide +kernel

/-- The canonical, legal and settled state the invariants start from, and a step of it. -/
theorem test_witness_StepKeepsMemoryCanonical_PortLegal_SequencerSettled :
    step State.reset = .next State.reset.interleave ∧ MemCanonical State.reset ∧ PortLegal State.reset ∧
      SequencerSettled State.reset :=
  ⟨rfl, by unfold MemCanonical; decide, by unfold PortLegal; decide, .inl rfl, fun _ => rfl⟩

theorem start_idle (c : Chan) : start.chan c = Channel.idle := by
  obtain ⟨e, d⟩ := c
  cases d <;> revert e <;> exact fun e => by fin_cases e <;> rfl

/-- Every channel of the start state is idle but one. -/
theorem start_coherent (ch : Channel)
    (h : ch.enabled = ch.programmed ∧ ch.trb.isSome = ch.programmed ∧ (ch.pending = true → ch.programmed = true)) :
    ChannelsCoherent (registered ch) := by
  rintro ⟨e, d⟩
  have hc : (registered ch).chan ⟨e, d⟩ = if e = 1 ∧ d = .in_ then ch else Channel.idle := by
    cases d
    · revert e; simp only [reduceCtorEq, and_false, if_false]; exact fun e => by fin_cases e <;> rfl
    · revert e; exact fun e => by fin_cases e <;> rfl
  rw [hc]
  split
  · exact h
  · exact ⟨rfl, rfl, fun h => h⟩

theorem test_witness_StepKeepsChannelsCoherent :
    step (registered entryArmed) = .next (registered entryArmed).interleave ∧ ChannelsCoherent (registered entryArmed) ∧
      fixture.wf = true ∧ TrbsFit start :=
  ⟨rfl, start_coherent _ ⟨rfl, rfl, fun _ => rfl⟩, by decide, (fun _ _ h => nomatch h), fun c t h => by
    rw [start_idle] at h
    cases h⟩

theorem registered_legal (ch : Channel) : QueueLegal (registered ch) := by
  refine ⟨fun x hx => ?_, List.nodup_singleton _⟩
  rw [List.mem_singleton.1 hx]
  exact ⟨by decide, by decide, by decide, by decide, (show 8 ≤ 4096 by decide), Nat.zero_lt_two, rfl⟩

theorem test_witness_StepKeepsQueueLegal :
    step (registered entryArmed) = .next (registered entryArmed).interleave ∧ fixture.wf = true ∧
      QueueLegal (registered entryArmed) := ⟨rfl, by decide, registered_legal _⟩

/-- One witness for each clause: it arms, it finds its channel programmed, no TRB, a misaligned descriptor. -/
theorem test_witness_DmaProgramArmsTheChannel :
    let s := { withTrb start with cfg := { fixture with dmaAlign := 4 }, args := descArgs 0x1000 }
    (s.chan ⟨15, .in_⟩).programmed = false ∧ tabFind s.trbStore s.args.desc = some ⟨0x2000, 8, 0⟩ ∧
      s.args.desc % s.cfg.dmaAlign = 0 ∧ 0x2000 % s.cfg.dmaAlign = 0 ∧
      ((s.setChan ⟨0, .out⟩ armed).chan ⟨0, .out⟩).programmed = true ∧
      tabFind s.trbStore 0x1001 = none ∧ 0x1001 % s.cfg.dmaAlign ≠ 0 := by decide +kernel

/-- IN, a full transfer and an empty one; OUT, complete and in error with nothing or everything moved; no transfer, a byte too
many, a buffer in no region. -/
theorem test_witness_AgentEndsItsTransfer :
    let s := ((withTrb start).setChan ⟨1, .in_⟩ armed).setChan ⟨1, .out⟩ armed
    let w := (start.setChan ⟨1, .in_⟩ armed).setChan ⟨1, .out⟩ armed
    s.agentTrb ⟨1, .in_⟩ = some ⟨0x2000, 8, 0⟩ ∧ s.agentTrb ⟨1, .out⟩ = some ⟨0x2000, 8, 0⟩ ∧
      s.admits anyOwner 0x2000 8 = true ∧ s.admits anyOwner 0x2000 0 = true ∧
      (List.replicate 8 (0 : Byte)).length ≤ 8 ∧ s.agentTrb ⟨2, .in_⟩ = none ∧
      8 < (List.replicate 9 (0 : Byte)).length ∧ w.agentTrb ⟨1, .in_⟩ = some ⟨0x2000, 8, 0⟩ ∧
      w.agentTrb ⟨1, .out⟩ = some ⟨0x2000, 8, 0⟩ ∧ w.admits anyOwner 0x2000 8 = false := by
  decide +kernel

/-- A channel not enabled, one enabled with nothing pending, and a busy Sequencer. -/
theorem test_witness_OtherAgentsFrame :
    (start.chan ⟨0, .out⟩).enabled = false ∧
      ((start.setChan ⟨0, .out⟩ { armed with pending := false }).chan ⟨0, .out⟩).pending = false ∧
      (start.begin .hcReset).seq.busy = true := by decide +kernel

theorem test_witness_EpConfigureProgramsItsEndpoint :
    (1 : EpNum) ≠ 0 ∧ (15 : EpNum) ≠ 0 ∧ EpType.control ≠ .isoch ∧ EpType.interrupt ≠ .isoch := by decide

/-- What a poll of this state samples. -/
def sampled (s : State) : OtgFlags := polled (s.started .otgPoll)

/-- The samples of the polls, all from the start state. -/
theorem test_witness_polls :
    (sampled (flagged ⟨true, true, false, false, false⟩ start)).vbusErr = false ∧
      sampled (flagged ⟨false, false, true, false, false⟩ start) = { OtgFlags.none with vbusErr := true } ∧
      sampled (flagged ⟨false, false, false, true, false⟩ start) = { OtgFlags.none with connChange := true } ∧
      sampled (flagged ⟨false, false, false, false, true⟩ start) = { OtgFlags.none with idleChange := true } ∧
      sampled (flagged ⟨true, true, true, true, true⟩ start) = ⟨true, true, true, true, true⟩ := by decide +kernel

/-- PollRunsConnect wants no host role; the other statement one, with the wait sub-state or not. -/
theorem test_witness_PollRunsConnect_PollRunsDisconnectOrLogsBabble :
    let s := flagged ⟨false, false, false, true, false⟩ start
    let d := driven ⟨true, true, false, .full⟩ (inRole .aHost s)
    sampled s = { OtgFlags.none with connChange := true } ∧ hostOrSuspend s.otg.state = false ∧
      sampled d = { OtgFlags.none with connChange := true } ∧ hostOrSuspend d.otg.state = true ∧
      (d.started .otgPoll).otg.inputs.hwWait = true ∧
      (disconnectSpin .aHost false (d.started .otgPoll)).otg.inputs.hwHostRole = false ∧
      ((inRole .aHost s).started .otgPoll).otg.inputs.hwWait = false ∧
      sampled (inRole .aHost s) = { OtgFlags.none with connChange := true } := by decide +kernel

/-- A poll that runs Disconnect, and one that runs none though the hardware reports a host role. -/
theorem test_witness_PollAndQueryComplete :
    let d := flagged ⟨false, false, false, true, false⟩ (driven ⟨true, true, false, .full⟩ (inRole .aHost start))
    (sampled d).connChange = true ∧ (d.started .otgPoll).interleave.otg.inputs.hwHostRole = false ∧
      (sampled (driven ⟨true, true, true, .full⟩ start)).connChange = false := by decide +kernel

/-- A Sequencer in the spin after `n` samples, under a bound of 3, with the hardware reporting a host role or not. -/
def spinning (n : Nat) (role : Bool) : State :=
  { driven ⟨true, true, role, .full⟩ start with
    cfg := { fixture with disconnectSpinBound := some 3 }
    seq := { busy := true, cmd := some ⟨.otgPoll, 0, .spin .aHost n false⟩, inTick := false, deferred := [] } }

/-- A poll, or a port-status query, that enters the spin, every other flag but a VBUS error set too, or none; and one whose
first sample is 0, the input falling after the sample of the wait sub-state. -/
theorem test_witness_SpinHoldsFaultsOrEnds_first :
    let s := flagged ⟨true, true, false, true, true⟩ (driven ⟨true, true, true, .full⟩ (inRole .aHost start))
    let w := flagged ⟨false, false, false, true, false⟩ (driven ⟨true, true, true, .full⟩ (inRole .aSuspend start))
    sampled s = ⟨true, true, false, true, true⟩ ∧ polled (w.started .rhGetPortStatus) = { OtgFlags.none with connChange := true } ∧
      hostOrSuspend s.otg.state = true ∧ hostOrSuspend w.otg.state = true ∧
      (s.started .otgPoll).otg.inputs.hwWait = true ∧ (w.started .rhGetPortStatus).otg.inputs.hwWait = true ∧
      (disconnectSpin .aHost true (s.started .otgPoll)).otg.inputs.hwHostRole = true ∧
      (disconnectSpin .aSuspend false (w.started .rhGetPortStatus)).otg.inputs.hwHostRole = true ∧
      (disconnectSpin .aSuspend false ((scripted w [[], [.drive ⟨true, true, false, .full⟩]]).started
        .rhGetPortStatus)).otg.inputs.hwHostRole = false ∧
      s.cfg.disconnectSpinBound = none ∧
      ({ s with cfg := { fixture with disconnectSpinBound := some 1 } } : State).cfg.disconnectSpinBound = some 1 := by
  decide +kernel

/-- One witness for each clause, at both sides of the bound. -/
theorem test_witness_SpinHoldsFaultsOrEnds :
    Unmarked (spinning 1 true) ∧ (spinning 1 true).seq.cmd = some ⟨.otgPoll, 0, .spin .aHost 1 false⟩ ∧
      (spinning 1 true).otg.inputs.hwHostRole = true ∧
      (∀ k, (spinning 1 true).cfg.disconnectSpinBound = some k → 1 + 1 < k) ∧
      (spinning 2 true).cfg.disconnectSpinBound = some 3 ∧ 3 ≤ 2 + 1 ∧
      (spinning 0 false).otg.inputs.hwHostRole = false :=
  ⟨⟨rfl, rfl⟩, rfl, rfl, fun k h => by cases h; decide, rfl, by decide, rfl⟩

/-- One witness for each clause. -/
theorem test_witness_PortSuspendAndPortReset :
    (inRole .aHost start).otg.state = .aHost ∧ (inRole .bHost start).otg.state = .bHost ∧
      (inRole .aSuspend start).otg.state = .aSuspend ∧ start.otg.state = .aIdle := ⟨rfl, rfl, rfl, rfl⟩

/-- A command that completes, and a poll that goes on with its spin and ends it. -/
theorem test_witness_OnlyOtgCommandsWriteTheOtgState :
    (∃ t, Executes .hcReset start t) ∧ ¬WritesOtgState .hcReset ∧ (∀ st, Instr.hcReset ≠ .hcSetState st) ∧
      ∃ t, Executes .otgPoll (inRole .aHost (spinning 1 false)) t :=
  ⟨⟨_, .inl rfl⟩, (by rintro (h | h | ⟨e, h⟩ | h | h) <;> cases h), (fun _ h => nomatch h),
    ⟨_, .inr ⟨0, _, rfl, ⟨.inr (.inl ⟨_, _, _, rfl, .inl rfl, rfl⟩), fun _ => rfl⟩, rfl⟩⟩⟩

/-- A babble of each port feature, its Diag event before the Result. -/
theorem test_portFeatures_babble :
    seen (exec (.rhSetPortFeature .suspend) start) (·.trace) = some [.babble .aIdle, .result 0x45 .success .none] ∧
      seen (exec (.rhClearPortFeature .suspend) start) (·.trace) = some [.babble .aIdle, .result 0x46 .success .none] := by
  decide +kernel

/-- A change bit that stands, and a command that keeps it. -/
theorem test_witness_ChangeBitsAreClearedOnlyByTheFeature :
    (∃ t, Executes .hcReset (portIs 0 0x001F start) t) ∧ (∀ f, Instr.hcReset ≠ .rhClearPortFeature f) ∧
      (portIs 0 0x001F start).port.change.getLsbD 4 = true :=
  ⟨⟨_, .inl rfl⟩, (fun _ h => nomatch h), by decide⟩

/-- A third VBUS error sets the bit; a Disconnect clears it, in the poll's first step or at the end of its spin. -/
theorem test_witness_OvercurrentIsSetAndClearedOnlyByThePoll :
    let e := (flagged ⟨false, false, true, false, false⟩ start).withOtg
      { (flagged ⟨false, false, true, false, false⟩ start).otg with vbusErrCount := 2 }
    let d := portIs 0x0009 0 (flagged ⟨false, false, false, true, false⟩ (driven ⟨true, true, false, .full⟩
      (inRole .aHost start)))
    let w := portIs 0x0009 0 (inRole .aHost (spinning 1 false))
    e.port.status.getLsbD 3 = false ∧ seen (exec .otgPoll e) (·.port.status.getLsbD 3) = some true ∧
      d.port.status.getLsbD 3 = true ∧ seen (exec .otgPoll d) (·.port.status.getLsbD 3) = some false ∧
      w.port.status.getLsbD 3 = true ∧
      seen (resume ⟨.otgPoll, 0, .spin .aHost 1 false⟩ w) (·.port.status.getLsbD 3) = some false := by decide +kernel

theorem test_witness_ChunksCoverThePayload : 0 < 512 ∧ 0 < 1000 ∧ 0 + 1 < chunkCount 1000 512 := by decide

/-- A loop that completes at its second sample, before which the transfer ends, and times out with a budget of one sample or
none. -/
theorem test_witness_WaitLoopSamplesWithinItsBudget :
    let s := scripted (start.setChan ⟨1, .in_⟩ armed) [[], [.fail ⟨1, .in_⟩ 1 0 [] true]]
    (waitLoop ⟨1, .in_⟩ 3 s).1 = true ∧ ((waitLoop ⟨1, .in_⟩ 3 s).2.chan ⟨1, .in_⟩).done = true ∧
      (waitLoop ⟨1, .in_⟩ 3 s).2.regtrace.length = 4 ∧ (waitLoop ⟨1, .in_⟩ 1 s).1 = false ∧
      ((waitLoop ⟨1, .in_⟩ 1 s).2.chan ⟨1, .in_⟩).done = false ∧ (waitLoop ⟨1, .in_⟩ 0 s).1 = false := by
  decide +kernel

theorem test_witness_TranslateMapsTheErrorCode :
    (start.chan ⟨1, .in_⟩).err = false ∧
      ((start.setChan ⟨1, .in_⟩ { armed with err := true, errCode := 0 }).chan ⟨1, .in_⟩).err = true := by decide +kernel

/-- How a stage cycle on (1, IN) with the slot of `withTrb` ends. -/
def cycleEnd (batch : List AgentEvent) (timeout : Nat) : Option Status :=
  match stageCycle ⟨1, .in_⟩ 0x1000 .bulk (script ((withTrb start).withArgs { Args.zero with timeout := timeout }) batch []) with
  | .done e _ => some e.status
  | .hold _ | .fault _ _ => none

/-- A cycle that succeeds, one that fails, one that times out. -/
theorem test_witness_StageCycleReleasesItsChannel :
    cycleEnd [.complete ⟨1, .in_⟩ [1] true] 1 = some .success ∧
      cycleEnd [.fail ⟨1, .in_⟩ 2 0 [] false] 1 = some .deviceError ∧ cycleEnd [] 1 = some .timeout := by decide +kernel

/-- An operand out of its range for each check, at the boundary. -/
theorem test_witness_TransfersRejectBadOperands :
    (xferArgs 8 1 64 0 0 setAddress).len ≠ 0 ∧ (xferArgs 8 0 64 0 0 setAddress).len = 0 ∧
      fixture.maxTrbSize < (xferArgs 8 4097 8192 0 0 setAddress).len ∧
      (xferArgs 8 65 64 0 0 setAddress).buf.len < (xferArgs 8 65 64 0 0 setAddress).len ∧
      (xferArgs 63 0 64 0 0 setAddress).mps ∉ [8, 16, 32, 64] ∧
      (xferArgs 7 0 64 0 0 setAddress).mps ∉ [8, 16, 32, 64] := by decide +kernel

theorem start_clean (c : Chan) (args : Args) : ChanClean (start.withArgs args) c := by
  unfold ChanClean
  rw [show (start.withArgs args).chan c = Channel.idle from start_idle c]
  exact ⟨rfl, rfl, rfl, rfl⟩

/-- The longest and the empty data stage the buffer and the parameters allow. -/
theorem test_witness_ControlTransferCompletes :
    controlOk fixture .in_ (xferArgs 64 1024 1024 10 0 setAddress) = true ∧
      controlOk fixture .noData (xferArgs 64 0 0 10 0 setAddress) = true ∧ start.ep0Stage = .idle ∧
      CallerBuf (start.withArgs (xferArgs 64 1024 1024 10 0 setAddress)) ∧
      ChanClean (start.withArgs (xferArgs 64 1024 1024 10 0 setAddress)) ⟨0, .out⟩ ∧
      ChanClean (start.withArgs (xferArgs 64 1024 1024 10 0 setAddress)) ⟨0, .in_⟩ :=
  ⟨by decide, by decide, rfl, by unfold CallerBuf; decide +kernel, start_clean _ _, start_clean _ _⟩

theorem test_witness_BulkTransferCompletes :
    bulkOk 15 (xferArgs 8 1024 1024 10 0 setAddress) = true ∧ bulkOk 1 (xferArgs 64 0 0 0 0 setAddress) = true ∧
      fixture.wf = true ∧ CallerBuf (start.withArgs (xferArgs 8 1024 1024 10 0 setAddress)) ∧
      ChanClean (start.withArgs (xferArgs 8 1024 1024 10 0 setAddress)) ⟨15, .in_⟩ :=
  ⟨by decide, by decide, by decide, by unfold CallerBuf; decide +kernel, start_clean _ _⟩

theorem test_witness_InterruptTransferCompletes :
    intSyncOk fixture 15 (xferArgs 8 1024 1024 10 0 setAddress) = true ∧
      intSyncOk fixture 1 (xferArgs 8 1 1 0 0 setAddress) = true ∧
      CallerBuf (start.withArgs (xferArgs 8 1 1 0 0 setAddress)) ∧
      ChanClean (start.withArgs (xferArgs 8 1 1 0 0 setAddress)) ⟨1, .out⟩ :=
  ⟨by decide, by decide, by unfold CallerBuf; decide +kernel, start_clean _ _⟩

/-- The premise of their clauses on the buffer and the chunks: the regions are acquired. -/
theorem test_witness_transfers_acquire :
    (acquire (controlRequests fixture 0) (setAddressStart.started (.xferControl 5 .full .noData))).1 = some [0x20000, 0x30000] ∧
      (acquire [trbRequest fixture, (512, .staging)] (setAddressStart.started (.xferBulk 2 .in_ false 3 .full))).1 =
        some [0x20000, 0x30000] ∧
      (acquire [trbRequest fixture, (8, .staging)] (setAddressStart.started (.xferIntSync 2 .in_ false 3 .full))).1 =
        some [0x20000, 0x30000] := by decide +kernel

/-- XFER_BULK of 1000 bytes whose first chunk the device answers and whose second it ends with error 1, before it runs. -/
def brokenBulk (dir : Dir) (bs : List Byte) : State :=
  let c : Chan := ⟨2, dir⟩
  let k := if dir = .out then 1 else 0
  scripted (script (start.withArgs (xferArgs 64 1000 1000 10 0 setAddress)) [] [some 0x20000, some 0x30000])
    (List.replicate 4 [] ++ answered (2 + k) (5 - k) c bs false ++ List.replicate (2 + k) [] ++ [[.fail c 1 100 bs true]])

/-- T-BLK-6, and the same IN: the loop stops at the chunk that fails, whose bytes are not delivered. A failing IN stage of
XFER_INT_SYNC leaves the buffer alone too; one of XFER_CONTROL, `test_xferControl_stall`. -/
theorem test_failing_chunk_and_stage :
    seen (exec (.xferBulk 2 .out false 3 .high) (brokenBulk .out [])) (fun t => t.trace) =
        some [.result 0x21 .deviceError (.transfer .crc 512 (some true))] ∧
      seen (exec (.xferBulk 2 .in_ false 3 .high) (brokenBulk .in_ [0xA1, 0xA2]))
          (fun t => (t.trace, readBytes t.mem 0x10000 3, readBytes t.mem 0x10200 2)) =
        some ([.result 0x21 .deviceError (.transfer .crc 2 (some true))], [0xA1, 0xA2, 0], [0, 0]) ∧
      seen (exec (.xferIntSync 3 .in_ false 5 .high) (script (start.withArgs (xferArgs 8 8 8 10 10 setAddress))
          [.fail ⟨3, .in_⟩ 2 0 [1, 2, 3] true] [some 0x20000, some 0x30000]))
        (fun t => (t.trace, readBytes t.mem 0x10000 3)) =
        some ([.result 0x22 .deviceError (.transfer .stall 0 (some true))], [0, 0, 0]) := by decide +kernel

/-- T-INT-1, or the same OUT, with the device answering before the first sample, and with it alone. -/
def deliverStart (dir : Dir) : State :=
  scripted (script (start.withArgs (xferArgs 8 8 8 10 10 setAddress)) [] [some 0x20000, some 0x30000])
    (answered (if dir = .out then 7 else 6) (if dir = .out then 6 else 7) ⟨3, dir⟩ [0xA1, 0xA2] true)

theorem deliverStart_clean (dir : Dir) (c : Chan) : ChanClean (deliverStart dir) c := start_clean c Args.zero

theorem test_witness_InterruptTransferDelivers :
    ∀ dir ∈ [Dir.out, .in_],
      intSyncOk (deliverStart dir).cfg 3 (deliverStart dir).args = true ∧ CallerBuf (deliverStart dir) ∧
      (deliverStart dir).chan ⟨3, dir⟩ = Channel.idle ∧
      0 < waitBudget (deliverStart dir).cfg .interrupt (deliverStart dir).args.timeout ∧
      (acquire [trbRequest (deliverStart dir).cfg, ((deliverStart dir).args.len, .staging)]
        ((deliverStart dir).started (.xferIntSync 3 dir false 5 .high))).1 = some [0x20000, 0x30000] ∧
      (deliverStart dir).oracle.batches =
        answered (if dir = .out then 7 else 6) (if dir = .out then 6 else 7) ⟨3, dir⟩ [0xA1, 0xA2] true ++
          List.replicate 32 [] := by
  unfold CallerBuf; decide +kernel

/-- Its conclusion, on those states. -/
theorem test_InterruptTransferDelivers :
    seen (exec (.xferIntSync 3 .in_ false 5 .high) (deliverStart .in_)) (fun t => (t.trace, readBytes t.mem 0x10000 3)) =
        some ([.result 0x22 .success (.transfer .none 2 (some true))], [0xA1, 0xA2, 0]) ∧
      seen (exec (.xferIntSync 3 .out false 5 .high) ((deliverStart .out).withMem [(0x10000, 7)]))
          (fun t => (t.trace, readBytes t.mem 0x30000 2)) =
        some ([.result 0x22 .success (.transfer .none 8 (some true))], [7, 0]) := by decide +kernel

/-- XFER_CONTROL, IN with two bytes of four, OUT with four, or without data, before it runs. -/
def controlStart (dd : DataDir) : State :=
  let n := if dd = .noData then 0 else 4
  let s := start.withArgs (xferArgs 64 n 64 10 0 setAddress)
  scripted ((script s [] [some 0x20000, some 0x30000, some 0x40000]).withMem [(0x10000, 7), (0x10001, 8)])
    (List.replicate (if n = 0 then 3 else 4) [] ++ answered 4 4 ⟨0, .out⟩ [] true ++
      (match dd with
        | .noData => []
        | .in_ => answered 3 5 ⟨0, .in_⟩ [0xB1, 0xB2] true
        | .out => answered 4 4 ⟨0, .out⟩ [] false) ++
      answered 3 4 ⟨0, statusDir dd⟩ [] true ++ [[]])

theorem test_witness_ControlTransferDelivers :
    ∀ dd ∈ [DataDir.noData, .in_, .out],
      controlOk fixture dd (controlStart dd).args = true ∧
      (controlStart dd).admits [.caller] (controlStart dd).args.buf.base (controlStart dd).args.buf.len = true ∧
      0 < waitBudget fixture .control (controlStart dd).args.timeout ∧
      (acquire (controlRequests fixture (controlStart dd).args.len) ((controlStart dd).started (.xferControl 5 .full dd))).1 =
        some (if dd = .noData then [0x20000, 0x30000] else [0x20000, 0x30000, 0x40000]) ∧
      ((controlStart dd).chan ⟨0, .in_⟩) = Channel.idle ∧ ((controlStart dd).chan ⟨0, .out⟩) = Channel.idle := by
  decide +kernel

/-- As T-CTL-2, a short IN data stage; and an OUT one, its bytes in the staging region (R77). -/
theorem test_ControlTransferDelivers :
    seen (exec (.xferControl 5 .full .in_) (controlStart .in_)) (fun t => (t.trace, readBytes t.mem 0x10000 3)) =
        some ([.result 0x20 .success (.control .none 2)], [0xB1, 0xB2, 0]) ∧
      seen (exec (.xferControl 5 .full .out) (controlStart .out)) (fun t => (t.trace, readBytes t.mem 0x40000 4)) =
        some ([.result 0x20 .success (.control .none 4)], [7, 8, 0, 0]) := by decide +kernel

/-- XFER_BULK of 520 bytes in two chunks, IN with short answers or OUT, before it runs. -/
def bulkStart (dir : Dir) (answers : List (List Byte × Bool)) : State :=
  scripted (script (start.withArgs (xferArgs 64 520 1024 10 0 setAddress)) [] [some 0x20000, some 0x30000])
    (List.replicate 4 [] ++
      (answers.map fun x => answered (if dir = .out then 3 else 2) (if dir = .out then 4 else 5) ⟨2, dir⟩ x.1 x.2).flatten ++
      List.replicate 2 [])

theorem test_witness_BulkTransferDelivers :
    ∀ dir ∈ [Dir.out, .in_], ∀ answers ∈ [[([0xA1], false), ([0xA2, 0xA3], true)]],
      bulkOk 2 (bulkStart dir answers).args = true ∧ fixture.wf = true ∧
      (bulkStart dir answers).admits [.caller] 0x10000 1024 = true ∧ ((bulkStart dir answers).chan ⟨2, dir⟩) = Channel.idle ∧
      0 < waitBudget fixture .bulk (bulkStart dir answers).args.timeout ∧ answers.length = chunkCount 520 512 ∧
      (2 ≤ chunkSize 520 512 0 ∧ 2 ≤ chunkSize 520 512 1) ∧
      (acquire [trbRequest fixture, (512, .staging)] ((bulkStart dir answers).started (.xferBulk 2 dir false 3 .high))).1 =
        some [0x20000, 0x30000] := by decide +kernel

/-- As T-BLK-5: the bytes of each chunk at its place, the toggle of the last answer. -/
theorem test_BulkTransferDelivers :
    seen (exec (.xferBulk 2 .in_ false 3 .high) (bulkStart .in_ [([0xA1], false), ([0xA2, 0xA3], true)]))
      (fun t => (t.trace, readBytes t.mem 0x10000 2, readBytes t.mem 0x10200 2)) =
    some ([.result 0x21 .success (.transfer .none 3 (some true))], [0xA1, 0], [0xA2, 0xA3]) := by decide +kernel

theorem test_witness_SyncTransferLeavesNoChannelProgrammed_SyncTransferFrame :
    IsSyncTransfer (.xferControl 0 .full .noData) ∧ (after (exec (.xferControl 0 .full .noData) setAddressStart)).isSome = true ∧
      IsSyncTransfer (.xferBulk 2 .in_ true 3 .low) ∧ IsSyncTransfer (.xferIntSync 2 .in_ true 3 .low) :=
  ⟨.inl ⟨_, _, _, rfl⟩, by decide +kernel, .inr (.inl ⟨_, _, _, _, _, rfl⟩), .inr (.inr ⟨_, _, _, _, _, rfl⟩)⟩

/-- Another endpoint, and endpoint 0 while the transfer is on another one. -/
theorem test_witness_SyncTransferLeavesOtherChannels :
    (after (exec (.xferIntSync 3 .in_ false 5 .high) (deliverStart .in_))).isSome = true ∧ fixture.wf = true ∧
      CallerBuf (deliverStart .in_) ∧ (∀ c ∈ syncChans (.xferIntSync 3 .in_ false 5 .high), ChanClean (deliverStart .in_) c) ∧
      (⟨4, .in_⟩ : Chan) ∉ syncChans (.xferIntSync 3 .in_ false 5 .high) ∧ (deliverStart .in_).agentTrb ⟨4, .in_⟩ = none ∧
      ∀ b ∈ syncChans (.xferIntSync 3 .in_ false 5 .high), b.ep ≠ 0 :=
  ⟨by decide +kernel, by decide, by unfold CallerBuf; decide +kernel, fun c _ => deliverStart_clean _ c, by decide, by decide +kernel,
    by decide⟩

theorem test_witness_SyncTransferStoresOnlyToItsBuffers :
    (after (exec (.xferIntSync 3 .in_ false 5 .high) (deliverStart .in_))).isSome = true ∧ fixture.wf = true ∧
      CallerBuf (deliverStart .in_) ∧ (∀ c ∈ syncChans (.xferIntSync 3 .in_ false 5 .high), ChanClean (deliverStart .in_) c) ∧
      (acquire (syncRequests (.xferIntSync 3 .in_ false 5 .high) (deliverStart .in_))
        ((deliverStart .in_).started (.xferIntSync 3 .in_ false 5 .high))).1 = some [0x20000, 0x30000] ∧
      OutsideAgents (deliverStart .in_) 0x10008 ∧
      (∀ r ∈ [0x20000, 0x30000].zip (syncRequests (.xferIntSync 3 .in_ false 5 .high) (deliverStart .in_)),
        0x10008 < r.1 ∨ r.1 + r.2.1 ≤ 0x10008) ∧
      (deliverStart .in_).args.buf.base + (deliverStart .in_).args.len ≤ 0x10008 := by
  refine ⟨by decide +kernel, by decide, by unfold CallerBuf; decide +kernel, fun c _ => deliverStart_clean _ c, by decide +kernel, ?_,
    by decide +kernel, by decide⟩
  intro c x _ h
  have hc : ((deliverStart .in_).chan c).enabled = false := (deliverStart_clean _ c).1
  rw [State.agentTrb, hc] at h
  cases h

/-- The start state of the arms, every descriptor and buffer to be a multiple of 16. -/
def armStart : State := ({ start with cfg := { fixture with dmaAlign := 16 } } : State).withArgs armArgs

theorem armStart_coherent : ChannelsCoherent armStart := fun c => by
  rw [show armStart.chan c = Channel.idle from start_idle c]
  exact ⟨rfl, rfl, fun h => h⟩

/-- One witness for each clause, at both ends of the length; `armStart_coherent` is the premise of the last. -/
theorem test_witness_ArmConfiguresAndPrograms :
    let s := armStart
    (1 : EpNum) ≠ 0 ∧ s.args.len ≤ s.cfg.maxTrbSize ∧ s.cfg.maxTrbSize < { armArgs with len := 4097 }.len ∧
      { armArgs with len := 4096 }.len ≤ s.cfg.maxTrbSize ∧
      s.args.trb < addrSpace s.cfg.addrWidth ∧ s.args.data < addrSpace s.cfg.addrWidth ∧
      (s.chan ⟨1, .in_⟩).programmed = false ∧ s.args.trb % s.cfg.dmaAlign = 0 ∧
      s.args.data % s.cfg.dmaAlign = 0 ∧ ((s.setChan ⟨15, .out⟩ armed).chan ⟨15, .out⟩).programmed = true ∧
      (s.withArgs { armArgs with data := 0x6001 }).args.data % s.cfg.dmaAlign ≠ 0 := by decide +kernel

/-- XFER_INT_SYNC OUT from a buffer no region holds. -/
def stuckStart : State :=
  script (start.withArgs { xferArgs 8 8 8 10 10 setAddress with buf := ⟨0x90000, 8⟩ }) [] [some 0x20000, some 0x30000]

/-- The Sequencer stuck before that copy, its regions held. -/
def stuckFill : State :=
  stuckStart.withSeq { busy := true, cmd := some ⟨.xferIntSync 3 .out false 5 .high, 0, .line .fill⟩, inTick := false
                       deferred := [] }

theorem stuckFill_stuck : Stuck stuckFill := ⟨_, _, _, rfl, rfl, fun _ => rfl⟩

/-- One witness for each clause: a stuck Sequencer, a buffer in no caller region, a slot and a buffer beyond the space. -/
theorem test_witness_StuckSequencerLeavesTheOthersRunning :
    Unmarked stuckFill ∧ Stuck stuckFill ∧ intSyncOk fixture 3 stuckStart.args = true ∧
      stuckStart.admits [.caller] stuckStart.args.buf.base stuckStart.args.len = false ∧
      (acquire [trbRequest fixture, (stuckStart.args.len, .staging)]
        (stuckStart.started (.xferIntSync 3 .out false 5 .high))).1 = some [0x20000, 0x30000] ∧
      addrSpace fixture.addrWidth ≤ { armArgs with trb := 2 ^ 32 }.trb ∧
      addrSpace fixture.addrWidth ≤ { armArgs with data := 2 ^ 32 }.data :=
  ⟨⟨rfl, rfl⟩, stuckFill_stuck, by decide, by decide +kernel, by decide +kernel, by decide, by decide⟩

/-- R251, as T-DMA-14 for a channel agent: stuck, no Result, the channel not programmed; a later step changes nothing of it. -/
theorem test_stuck_copy :
    seen (exec (.xferIntSync 3 .out false 5 .high) stuckStart)
        (fun t => (t.seq, t.trace, (t.chan ⟨3, .out⟩).programmed, seen (step t) (·.seq))) =
      some (stuckFill.seq, [], false, some stuckFill.seq) := by decide +kernel

/-- A TRB slot beyond the address space leaves the arm stuck (R62); a length above MaxTrbSize rejects it (D68). -/
theorem test_arm_limits :
    seen (exec (.xferIntAsyncArm 1 .in_ false 5 .high) (start.withArgs { armArgs with trb := 2 ^ 32 }))
        (fun t => (t.seq.busy, t.trace, t.trbStore)) = some (true, [], []) ∧
      seen (exec (.xferIntAsyncArm 1 .in_ false 5 .high) (start.withArgs { armArgs with len := 4097 }))
        (fun t => (t.trace, t.trbStore, t.regtrace)) = some ([.result 0x23 .invalidParameter .none], [], []) := by
  decide +kernel

/-- An operand out of its range for each check, at the boundary; a failed allocation; a shared endpoint; an absent key. -/
theorem test_witness_QueueCommandsRejectOrFailCleanly :
    { entryArgs with interval := 0 }.interval < 1 ∧ 255 < { entryArgs with interval := 256 }.interval ∧
      fixture.maxTrbSize < sliceBytes fixture 4097 ∧ (∃ x ∈ [entry], x.devAddr = 5 ∧ x.ep = 1) ∧
      registerOk fixture [] 1 .in_ 5 entryArgs = true ∧
      (acquire (registerRequests fixture 8)
        ((script start [] [some 0x20000, some 0x30000, none]).started (.asyncRegister 1 .in_ false 5 .high))).1 = none ∧
      registerOk fixture [entry] 1 .in_ 6 entryArgs = true ∧ (∃ y ∈ [entry], y.ep = 1) ∧
      (acquire (registerRequests fixture 8) (registerStart.started (.asyncRegister 1 .in_ false 5 .high))).1 =
        some [0x20000, 0x30000, 0x30010] ∧
      ∀ x ∈ [entry], ¬(x.devAddr = 5 ∧ x.ep = 2) := by decide +kernel

/-- Both ends of the interval range. -/
theorem test_witness_RegisterAppendsAndArms :
    registerOk fixture [] 1 .in_ 5 { entryArgs with interval := 1 } = true ∧
      registerOk fixture [] 1 .in_ 5 { entryArgs with interval := 255 } = true ∧
      (∀ y ∈ registerStart.async, y.ep ≠ 1) ∧ fixture.wf = true ∧ ChannelsCoherent registerStart ∧
      sliceBytes fixture 8 % fixture.dmaAlign = 0 ∧ (registerStart.chan ⟨1, .in_⟩).done = false ∧
      (registerStart.chan ⟨1, .in_⟩).programmed = false ∧
      (acquire (registerRequests registerStart.cfg registerStart.args.len)
        (registerStart.started (.asyncRegister 1 .in_ false 5 .high))).1 =
        some [0x20000, 0x30000, 0x30010] :=
  ⟨by decide, by decide, (fun _ h => nomatch h), by decide,
    fun c => by
      rw [show registerStart.chan c = Channel.idle from start_idle c]
      exact ⟨rfl, rfl, fun h => h⟩,
    by decide, by decide +kernel, by decide +kernel, by decide +kernel⟩

/-- An entry alone, and one behind another of the same device. -/
theorem test_witness_CancelRemovesAndFrees :
    (registered entryArmed).async = [] ++ entry :: [] ∧
      ∀ y ∈ [{ entry with ep := 2 }], ¬(y.devAddr = entry.devAddr ∧ y.ep = entry.ep) := by decide +kernel

theorem test_witness_TickSkipsIncompleteEntries :
    Quiet ((registered entryArmed).async.length + 2) (registered entryArmed) ∧
      ∀ x ∈ (registered entryArmed).async, ((registered entryArmed).chan (entryChan x)).done = false :=
  ⟨⟨List.replicate 61 [], rfl⟩, by decide +kernel⟩

/-- The channel of the entry, complete with four bytes. -/
def entryDone : Channel := { entryArmed with pending := false, done := true, actual := 4 }

theorem registered_ready : EntryReady (registered entryDone) entry :=
  ⟨by decide +kernel, by decide +kernel, by decide +kernel, fun t h => by
    rw [show (registered entryDone).agentTrb (entryChan entry) = none by decide +kernel] at h; cases h⟩

theorem test_witness_TickDeliversAndRearms :
    (registered entryDone).async = [entry] ∧ fixture.wf = true ∧ QueueLegal (registered entryDone) ∧
      EntryReady (registered entryDone) entry ∧ Quiet 13 (registered entryDone) ∧
      ((registered entryDone).chan (entryChan entry)).done = true :=
  ⟨rfl, by decide, registered_legal _, registered_ready, ⟨List.replicate 51 [], rfl⟩, by decide +kernel⟩

/-- A second entry, of the same device, on endpoint 2. -/
def secondEntry : AsyncEntry := { entry with ep := 2, buf := 0x28000, pool := [0x38000, 0x38010], index := 1, callback := 9 }

/-- Both entries complete, the second with a stall after one byte. -/
def twoComplete : State :=
  (((registered entryDone).withAsync [entry, secondEntry]).withAlloc
    (entryRegions.take 2 ++ (0x28000, { len := 16, owner := .async }) :: entryRegions.drop 2)).setChan ⟨2, .in_⟩
    { entryDone with err := true, errCode := 2, actual := 1 }

theorem test_witness_TickDeliversAndRearms_queue :
    fixture.wf = true ∧ QueueLegal twoComplete ∧ Quiet (11 * twoComplete.async.length + 2) twoComplete ∧
      (∀ x ∈ twoComplete.async, EntryReady twoComplete x) ∧ ResetsSpareQueue twoComplete := by
  refine ⟨by decide, ⟨fun x hx => ?_, by decide⟩, ⟨List.replicate 40 [], rfl⟩, fun x hx => ?_, by decide +kernel, by decide +kernel⟩
  all_goals rcases List.mem_pair.1 hx with rfl | rfl
  · exact (registered_legal entryDone).1 entry (List.mem_singleton_self _)
  · exact ⟨by decide, by decide, by decide, by decide, (show 8 ≤ 4096 by decide), Nat.one_lt_two, rfl⟩
  all_goals
    exact ⟨by decide +kernel, by decide +kernel, by decide +kernel, fun t h => by
      rw [show twoComplete.agentTrb (entryChan _) = none by decide +kernel] at h; cases h⟩

/-- T-ASY-19, the second with an error (T-ASY-13): two Callbacks in the order of registration, each entry armed on its next
slice. -/
theorem test_asyncTick_two_entries :
    seen (exec .asyncTick (twoComplete.withMem [(0x20000, 0xA1), (0x28008, 0xB1)]))
        (fun t => (t.trace, t.async.map (·.index))) =
      some ([.callback 7 0x55 [0xA1, 0, 0, 0] 4 .none, .callback 9 0x55 [0xB1] 1 .stall, .result 0x32 .success .none], [1, 0]) ∧
    seen (exec .asyncTick twoComplete) (fun t => ((t.chan ⟨1, .in_⟩).trb, (t.chan ⟨2, .in_⟩).trb)) =
      some (some { addr := 0x20008, size := 8, flags := 0 }, some { addr := 0x28000, size := 8, flags := 0 }) := by
  decide +kernel

/-- The complete entry where buffers are to be multiples of 16: its next slice, at 0x20008, is not. -/
def unaligned : State := { registered entryDone with cfg := { fixture with dmaAlign := 16 } }

/-- Its second clause, and its third, for a captured length beyond the entry's region of 16 bytes. -/
theorem test_witness_TickDeliversAndRearms_stops :
    (unaligned.async = [entry] ∧ unaligned.cfg.wf = true ∧ QueueLegal unaligned ∧ Quiet 13 unaligned ∧
      (unaligned.chan (entryChan entry)).done = true ∧ (nextTrb unaligned.cfg entry).addr = 0x20008 ∧ 0x20008 % unaligned.cfg.dmaAlign ≠ 0) ∧
    let s := registered { entryDone with actual := 17 }
    QueueLegal s ∧ Quiet 13 s ∧ (s.chan (entryChan entry)).done = true ∧
      s.admits [.async] (entry.buf + 0 * sliceBytes s.cfg entry.len) 17 = false :=
  ⟨⟨rfl, by decide, registered_legal entryDone, ⟨List.replicate 51 [], rfl⟩, by decide +kernel, by decide, by decide⟩,
    registered_legal _, ⟨List.replicate 51 [], rfl⟩, by decide +kernel, by decide +kernel⟩

theorem test_witness_TickCompletes :
    fixture.wf = true ∧ QueueLegal (registered entryDone) ∧ ChannelsCoherent (registered entryDone) ∧
      ∀ x ∈ (registered entryDone).async, EntryReady (registered entryDone) x :=
  ⟨by decide, registered_legal _, start_coherent _ ⟨rfl, rfl, fun _ => rfl⟩, fun x hx => by
    rw [List.mem_singleton.1 hx]; exact registered_ready⟩

/-- An ASYNC_CANCEL of (1, 5). -/
def cancelCmd : HostCmd := { word := 0x00028131, args := Args.zero }

/-- One witness for each clause: after the last visit of an entry, in a tick without an entry, before the check of an entry
that is complete. -/
theorem test_witness_TickRunsTheDeferredCancel :
    decode cancelCmd.word = .ok (.asyncCancel 1 5) ∧
      ((registered entryArmed).chan (entryChan entry)).done = false ∧
      (scripted (registered entryArmed) [[], [], [.issue cancelCmd]]).oracle.batches =
        List.replicate (1 + 1) [] ++ [.issue cancelCmd] :: (List.replicate 3 [] ++ List.replicate 29 []) ∧
      (scripted start [[], [.issue cancelCmd]]).oracle.batches =
        List.replicate (0 + 1) [] ++ [.issue cancelCmd] :: (List.replicate 3 [] ++ List.replicate 29 []) ∧
      (scripted (registered entryDone) [[], [.issue cancelCmd]]).oracle.batches =
        [] :: [.issue cancelCmd] :: (List.replicate 14 [] ++ List.replicate 18 []) := by decide +kernel

/-- As T-ASY-17, on a tick without an entry: the cancel's Result comes before the tick's. -/
theorem test_emptyTick_runs_the_deferred_cancel :
    seen (exec .asyncTick (scripted start [[], [.issue cancelCmd]])) (fun t => (t.trace, t.refused)) =
      some ([.result 0x31 .invalidParameter .none, .result 0x32 .success .none], false) := by decide +kernel

end Sys2Proof.Tests
end

section
/-! O3. The decoder and `LegalWord` are brought to one form: a table that names each opcode with the letters of the
fields its command uses (spec 30_encoding R82). The mask and pattern of a row of the opcode table follow from its letters
(R83), and so does what the decoder checks (R86). -/

namespace Sys2Proof

/-- The opcode map (R82): each opcode with the letters of the fields its command uses. -/
def letterRows : List (BitVec 8 × List Letter) :=
  [(0x01, [.E, .D]), (0x02, [.E, .D]), (0x03, [.E, .D]), (0x04, [.E, .D]), (0x05, []), (0x08, [.E, .D, .T, .A, .X]),
   (0x10, []), (0x11, [.F]), (0x12, [.F]), (0x20, [.A, .S, .X]), (0x21, [.E, .D, .T, .A, .S]),
   (0x22, [.E, .D, .T, .A, .S]), (0x23, [.E, .D, .T, .A, .S]), (0x24, [.E, .D, .A, .S]), (0x30, [.E, .D, .T, .A, .S]),
   (0x31, [.E, .A]), (0x32, []), (0x40, []), (0x41, []), (0x42, []), (0x43, [.X]), (0x44, []), (0x45, [.X]),
   (0x46, [.X])]

/-- A field of a mask: clear where the command uses the field, set elsewhere (R83). -/
def fixedUnless (n : Nat) (isUsed : Bool) : BitVec n := if isUsed then 0 else BitVec.allOnes n

/-- The mask of a row: the opcode, the reserved bits and every unused field (R83). -/
def maskOf (used : List Letter) : Fields where
  r := BitVec.allOnes 4
  x := fixedUnless 4 (used.contains .X)
  s := fixedUnless 2 (used.contains .S)
  a := fixedUnless 7 (used.contains .A)
  t := fixedUnless 1 (used.contains .T)
  f := fixedUnless 1 (used.contains .F)
  d := fixedUnless 1 (used.contains .D)
  e := fixedUnless 4 (used.contains .E)
  o := BitVec.allOnes 8

/-- The row of the opcode table for an opcode and its letters. -/
def rowOf (p : BitVec 8 × List Letter) : Machine.OpRow :=
  ⟨(maskOf p.2).toWord, (Fields.plain p.1).toWord, p.2.contains .S, p.2.contains .X⟩

theorem opcodeRows_eq_map : Machine.opcodeRows = letterRows.map rowOf := by decide

theorem and_fixedUnless {n : Nat} (v : BitVec n) (isUsed : Bool) :
    v &&& fixedUnless n isUsed = 0#n ↔ isUsed = true ∨ v = 0#n := by
  cases isUsed <;> simp [fixedUnless]

/-- A word matches a row exactly when its reserved bits and unused fields are 0 and it carries the opcode (R83). -/
theorem matches_row_iff (w : Word) (op : BitVec 8) (used : List Letter) :
    w &&& (maskOf used).toWord = (Fields.plain op).toWord ↔
      (Fields.ofWord w).r = 0 ∧ (Fields.ofWord w).o = op ∧ (Fields.ofWord w).cleanBut used = true := by
  rw [mask_iff]
  simp only [Fields.and, maskOf, Fields.plain, Fields.mk.injEq, BitVec.ofNat_eq_ofNat, and_fixedUnless,
    BitVec.and_allOnes, Fields.cleanBut, Letter.all, List.all_cons, List.all_nil, Fields.zeroAt, Bool.and_eq_true,
    Bool.or_eq_true, decide_eq_true_eq, and_true]
  constructor
  · rintro ⟨hr, hx, hs, ha, ht, hf, hd, he, ho⟩
    exact ⟨hr, ho, he, hd, hf, ht, ha, hs, hx⟩
  · rintro ⟨hr, ho, he, hd, hf, ht, ha, hs, hx⟩
    exact ⟨hr, hx, hs, ha, ht, hf, hd, he, ho⟩

/-- S and X hold no reserved value where the command uses them (R84, R86). -/
def OperandsLegal (g : Fields) (used : List Letter) : Prop :=
  (used.contains .S = true → g.s ≠ 3) ∧ (used.contains .X = true → Machine.xLegal g.o g.e g.x = true)

/-- The fields are those of a legal word of this row of the opcode map. -/
def RowLegal (g : Fields) (p : BitVec 8 × List Letter) : Prop :=
  g.r = 0 ∧ g.o = p.1 ∧ g.cleanBut p.2 = true ∧ OperandsLegal g p.2

theorem legalWord_iff (w : Word) : Machine.LegalWord w ↔ ∃ p ∈ letterRows, RowLegal (Fields.ofWord w) p := by
  simp only [Machine.LegalWord, opcodeRows_eq_map, List.mem_map, exists_exists_and_eq_and, rowOf, matches_row_iff,
    RowLegal, OperandsLegal, and_assoc]
  rfl

/-! ### The decoder, row by row -/

/-- XFER_CONTROL, the one command that uses both S and X (R82, R84, R86). -/
theorem decodeFields_xferControl_iff {g : Fields} (hr : g.r = 0) (ho : g.o = 0x20) :
    (∃ i, decodeFields g = .ok i) ↔ g.cleanBut [.A, .S, .X] = true ∧ g.s ≠ 3 ∧ g.x.toNat ≤ 2 := by
  rw [← speedOf_some, ← dataDirOf_some]
  cases hs : speedOf g.s <;> simp [decodeFields, hr, ho, hs, only_iff, withSub_iff]

/-- A word of a row of the opcode map decodes exactly when its unused fields are 0 and its operands are legal. -/
theorem decodeFields_iff_of_row {g : Fields} {p : BitVec 8 × List Letter} (hp : p ∈ letterRows) (hr : g.r = 0)
    (ho : g.o = p.1) : (∃ i, decodeFields g = .ok i) ↔ g.cleanBut p.2 = true ∧ OperandsLegal g p.2 := by
  simp only [letterRows, List.mem_cons, List.not_mem_nil, or_false] at hp
  rcases hp with rfl | rfl | rfl | rfl | rfl | rfl | rfl | rfl | rfl | rfl | rfl | rfl | rfl | rfl | rfl | rfl | rfl |
    rfl | rfl | rfl | rfl | rfl | rfl | rfl
  pick_goal 10
  · simp [decodeFields_xferControl_iff hr ho, OperandsLegal, ho, Machine.xLegal]
  all_goals simp [decodeFields, hr, ho, only_iff, OperandsLegal, withSpeed_iff, withSub_iff, epSubOf_some, Fields.ep,
    hcStateOf_some, featureOf_some, Machine.xLegal]

theorem opcode_mem_of_decodeFields_ok {g : Fields} {i : Instr} (h : decodeFields g = .ok i) :
    g.r = 0 ∧ g.o ∈ letterRows.map Prod.fst := by
  unfold decodeFields at h
  split at h
  · cases h
  · next hr =>
    refine ⟨not_not.1 hr, ?_⟩
    split at h
    case h_25 => cases h
    all_goals next ho => rw [ho]; decide

theorem decodeFields_iff (g : Fields) : (∃ i, decodeFields g = .ok i) ↔ ∃ p ∈ letterRows, RowLegal g p := by
  constructor
  · rintro ⟨i, h⟩
    obtain ⟨hr, hmem⟩ := opcode_mem_of_decodeFields_ok h
    obtain ⟨p, hp, ho⟩ := List.mem_map.1 hmem
    exact ⟨p, hp, hr, ho.symm, (decodeFields_iff_of_row hp hr ho.symm).1 ⟨i, h⟩⟩
  · rintro ⟨p, hp, hr, ho, hlegal⟩
    exact (decodeFields_iff_of_row hp hr ho).2 hlegal

/-- Settles O3: both sides say that the word's fields are legal in a row of the opcode map. -/
theorem wordIsLegalExactlyByTheTable : Obligations.WordIsLegalExactlyByTheTable := by
  intro w
  rw [legalWord_iff, ← decodeFields_iff, decode]

end Sys2Proof
end

section
/-! O23, O24, O25, O27, O31. The actions of a poll, each as one update of the state, and what a poll answers that runs no
Disconnect (spec 40_otg_state_machine R98 to R109); the two port operations the Host calls (R146, R147). -/

namespace Sys2Proof.Machine

/-! ### The OTG part at the start of a command -/

section started
variable (s : State) (i : Instr)

/-- Before a command's first micro-step the other agents write the flags, the inputs and the wake-disable bit alone (R95). -/
theorem State.started_otg :
    (s.started i).otg =
      { s.otg with
        flags := (s.started i).otg.flags, inputs := (s.started i).otg.inputs
        wakeDisable := (s.started i).otg.wakeDisable } := (agentFrame_interleave _).otg

@[simp] theorem State.started_otgState : (s.started i).otg.state = s.otg.state := by
  rw [State.started_otg]
@[simp] theorem State.started_vbusErrCount : (s.started i).otg.vbusErrCount = s.otg.vbusErrCount := by
  rw [State.started_otg]
@[simp] theorem State.started_resetPending : (s.started i).otg.resetPending = s.otg.resetPending := by
  rw [State.started_otg]
@[simp] theorem State.started_mask : (s.started i).otg.mask = s.otg.mask := by
  rw [State.started_otg]

end started

/-! ### The actions of a poll -/

/-- A transitional flag that is sampled is cleared; a masked one stays (R97, R99). -/
theorem transitionalClear_polled (s : State) :
    transitionalClear (polled s) s =
      s.setFlags
        { s.otg.flags with
          srpDet := s.otg.flags.srpDet && s.otg.mask.srpDet
          bSessEnd := s.otg.flags.bSessEnd && s.otg.mask.bSessEnd } := by
  have keep_masked (flag mask : Bool) : (if (flag && !mask) = true then false else flag) = (flag && mask) := by
    revert flag mask; decide
  simp only [transitionalClear]
  congr 2
  · exact keep_masked _ _
  · exact keep_masked _ _

theorem transitionalClear_of_not_sampled {f : OtgFlags} (s : State) (hs : f.srpDet = false) (hb : f.bSessEnd = false) :
    transitionalClear f s = s := by
  rw [transitionalClear, hs, hb]
  rfl

/-- Actions (a) and (b); the guard of action (a) only spares a clear that does nothing (R98). -/
theorem pollHead_eq (f : OtgFlags) (s : State) :
    pollHead f s = if f.vbusErr then vbusErrorAction (transitionalClear f s) else transitionalClear f s := by
  have guard : (if f.srpDet || f.bSessEnd then transitionalClear f s else s) = transitionalClear f s := by
    split
    · rfl
    · next h =>
      obtain ⟨hs, hb⟩ := Bool.or_eq_false_iff.1 (Bool.eq_false_iff.2 h)
      exact (transitionalClear_of_not_sampled s hs hb).symm
  rw [pollHead, guard]

theorem vbusErrorAction_eq (s : State) :
    vbusErrorAction s =
      { s with
        otg :=
          { s.otg with
            flags := { s.otg.flags with vbusErr := false }
            vbusOn := decide (s.otg.vbusErrCount + 1 < 3)
            state := .aVbusErr
            vbusErrCount := if s.otg.vbusErrCount + 1 < 3 then s.otg.vbusErrCount + 1 else 0 }
        port :=
          if s.otg.vbusErrCount + 1 < 3 then s.port
          else { status := s.port.status ||| 0x0008, change := s.port.change ||| 0x0008 } } := by
  rcases vbusErrorAction_cases s with ⟨e, hlt⟩ | ⟨e, hle⟩
  · have h : s.otg.vbusErrCount + 1 < 3 := hlt
    simp only [e, h, if_true, decide_true]
  · have h : ¬s.otg.vbusErrCount + 1 < 3 := Nat.not_lt.2 hle
    simp only [e, h, if_false, decide_false]
    rfl

/-- The idle handlers differ in VBUS and the idle state alone, both by the ID pin (R106, R108, R109). -/
theorem idleChangeAction_eq (s : State) :
    idleChangeAction s =
      s.withOtg
        { s.otg with
          flags := { s.otg.flags with idleChange := false }
          srpEnable := false
          vbusOn := s.otg.inputs.idA
          state := if s.otg.inputs.idA then .aIdle else .bIdle } := by
  unfold idleChangeAction
  cases h : s.otg.inputs.idA <;> simp [h, idleA, idleB] <;> rfl

/-- The bits of the port status after Connect (R102). -/
theorem getLsbD_connectStatus (sp : Speed) (st : BitVec 16) (i : Nat) :
    (connectStatus sp st).getLsbD i =
      if i = 0 then true else if i = 1 then false else if i = 9 then decide (sp = .low)
      else if i = 10 then decide (sp = .high) else st.getLsbD i := by
  cases sp <;>
    simp only [connectStatus, getLsbD_setBit, getLsbD_clearBit, bitConnection, bitEnable, bitLowSpeed, bitHighSpeed,
      Nat.reduceLT] <;>
    grind

/-! ### A poll that runs no Disconnect -/

/-- A poll whose sample has no connect change (R98). -/
theorem exec_otgPoll_of_no_connChange {s u : State} (hu : s.started .otgPoll = u) (hc : (polled u).connChange = false) :
    exec .otgPoll s = .next (endOtgPoll (pollTail (polled u).idleChange (pollHead (polled u) u))) := by
  subst hu
  rw [polled] at hc
  simp only [exec, execOtgPoll, Machine.otgPoll, hc]
  rfl

/-- A poll that runs Connect: its sample has a connect change, and no host or suspend role stands after actions (a) and (b)
(R98, R101). -/
theorem exec_otgPoll_of_connect {s u : State} (hu : s.started .otgPoll = u) (hc : (polled u).connChange = true)
    (hr : hostOrSuspend (pollHead (polled u) u).otg.state = false) :
    exec .otgPoll s = .next (endOtgPoll (pollTail (polled u).idleChange (connect (pollHead (polled u) u)))) := by
  subst hu
  rw [polled] at hc hr
  simp only [exec, execOtgPoll, Machine.otgPoll, hc, hr]
  rfl

/-- Settles O23: of the poll's actions only the clear of the transitional flags runs. -/
theorem pollClearsTransitionalFlags : Obligations.PollClearsTransitionalFlags := by
  intro s u hv hc hi
  have head : pollHead (polled u) u = transitionalClear (polled u) u := by
    rw [pollHead_eq, hv]
    rfl
  rw [exec_otgPoll_of_no_connChange rfl hc, hi, head, transitionalClear_polled, ← State.started_mask s .otgPoll,
    ← State.started_trace s .otgPoll]
  rfl

/-- Settles O24: the sample starts the VBUS error action alone. -/
theorem pollHandlesVbusError : Obligations.PollHandlesVbusError := by
  intro s u hp
  have head : pollHead (polled u) u = vbusErrorAction u := by
    rw [hp]
    rfl
  rw [exec_otgPoll_of_no_connChange rfl (congrArg OtgFlags.connChange hp), head, vbusErrorAction_eq, hp,
    ← State.started_vbusErrCount s .otgPoll, ← State.started_port s .otgPoll, ← State.started_trace s .otgPoll]
  rfl

/-- Settles O25: the sample starts Connect alone, and the status Connect leaves is read bit by bit. -/
theorem pollRunsConnect : Obligations.PollRunsConnect := by
  intro s u hp hr
  have head : pollHead (polled u) u = u := by
    rw [hp]
    rfl
  have hexec : exec .otgPoll s = .next (endOtgPoll (connect u)) := by
    rw [exec_otgPoll_of_connect rfl (congrArg OtgFlags.connChange hp) (by rw [head, State.started_otgState, hr]), head, hp]
    rfl
  have hstate : (connect u).otg.state = if 8 ≤ otgCode u.otg.state then .bHost else .aHost := by
    simp only [connect, bSide, State.withOtg_otg, decide_eq_true_eq]
  have hbit := getLsbD_connectStatus u.otg.inputs.linkSpeed u.port.status
  rw [← State.started_otgState s .otgPoll, ← State.started_port s .otgPoll, ← State.started_trace s .otgPoll, ← hstate]
  refine ⟨_, hexec, hbit 0, hbit 1, hbit 9, hbit 10, ?_, rfl, rfl⟩
  intro i h0 h1 h9 h10
  exact (hbit i).trans (by rw [if_neg h0, if_neg h1, if_neg h9, if_neg h10])

/-- Settles O27: the sample starts the idle handler of the ID pin alone. -/
theorem pollHandlesIdleChange : Obligations.PollHandlesIdleChange := by
  intro s u hp
  have head : pollHead (polled u) u = u := by
    rw [hp]
    rfl
  have tail : pollTail (polled u).idleChange u = idleChangeAction u := by
    rw [hp]
    rfl
  rw [exec_otgPoll_of_no_connChange rfl (congrArg OtgFlags.connChange hp), head, tail, idleChangeAction_eq,
    ← State.started_trace s .otgPoll]
  rfl

/-! ### The port operations -/

/-- The status bits after PORT_RESET: RESET as asked, ENABLE the opposite, every other bit kept (R147). -/
theorem getLsbD_portReset (enable : Bool) (s : State) (i : Nat) :
    (portReset enable s).port.status.getLsbD i =
      if i = 4 then enable else if i = 1 then !enable else s.port.status.getLsbD i := by
  cases enable <;>
    simp [portReset, getLsbD_setBit, getLsbD_clearBit, bitReset, bitEnable] <;>
    grind

/-- PORT_RESET writes the flags, the pending reset and the port status alone (R147). -/
theorem portReset_eq (enable : Bool) (s : State) :
    portReset enable s =
      { s with
        otg :=
          { s.otg with
            flags := if enable then OtgFlags.none else s.otg.flags
            resetPending := if enable then s.otg.resetPending else false }
        port := { s.port with status := (portReset enable s).port.status } } := by
  cases enable <;> rfl

theorem portSuspend_of_host {s : State} (h : s.otg.state = .aHost ∨ s.otg.state = .bHost) :
    portSuspend true s =
      { s with
        otg := { s.otg with vbusOn := false, state := .aSuspend }
        port := { s.port with status := s.port.status ||| 0x0004 } } := by
  rcases h with h | h <;> (simp only [portSuspend, h]; rfl)

theorem portSuspend_of_suspended {s : State} (h : s.otg.state = .aSuspend) :
    portSuspend false s =
      { s with
        otg := { s.otg with vbusOn := true, state := .aHost }
        port := { s.port with status := s.port.status &&& ~~~0x0004 } } := by
  simp only [portSuspend, h]
  rfl

/-- A suspend out of no host role, or a resume out of no suspend, is a babble (R146). -/
theorem portSuspend_of_babble {enable : Bool} {s : State}
    (hs : ¬(enable = true ∧ (s.otg.state = .aHost ∨ s.otg.state = .bHost)))
    (hr : ¬(enable = false ∧ s.otg.state = .aSuspend)) : portSuspend enable s = babble s := by
  cases enable <;> simp_all [portSuspend]

/-- Settles O31: the cases of PORT_SUSPEND, and PORT_RESET as one update whose status is read bit by bit. -/
theorem portSuspendAndPortReset : Obligations.PortSuspendAndPortReset := by
  intro enable s
  constructor
  · intro u
    have hstate : s.otg.state = u.otg.state := (State.started_otgState s _).symm
    have hport : s.port = u.port := (State.started_port s _).symm
    have htrace : s.trace = u.trace := (State.started_trace s _).symm
    rw [hstate, hport, htrace]
    refine ⟨_, rfl, ?_, ?_, ?_⟩
    · rintro rfl h
      rw [portSuspend_of_host h]
      rfl
    · rintro rfl h
      rw [portSuspend_of_suspended h]
      rfl
    · intro hs hr
      rw [portSuspend_of_babble hs hr, List.append_cons]
      rfl
  · intro u
    have hport : s.port = u.port := (State.started_port s _).symm
    have htrace : s.trace = u.trace := (State.started_trace s _).symm
    have hpending : s.otg.resetPending = u.otg.resetPending := (State.started_resetPending s _).symm
    rw [hport, htrace, hpending]
    refine ⟨_, rfl, getLsbD_portReset enable u 4, getLsbD_portReset enable u 1, ?_, ?_⟩
    · intro i h4 h1
      exact (getLsbD_portReset enable u i).trans (by rw [if_neg h4, if_neg h1])
    · cases enable <;> rfl

end Sys2Proof.Machine
end

section
/-! O16, O17, O18, O19. The DMA primitives as the Host calls them (spec 41_dma_channel_engine R152 to R156): each command is
its primitive between the other agents' steps and the Result. -/

namespace Sys2Proof.Machine

/-- A command that writes the DMA part, draws, and logs its operations returns with nothing else changed since it began. -/
theorem finish_eq_of_dmaOnly {s v : State} {i : Instr} {d : Dma} {r : Oracle} {ops : List RegOp} (st : Status) (o : Outs)
    (hv : v = { s.started i with dma := d, oracle := r, regtrace := (s.started i).regtrace ++ ops }) :
    v.finish i st o =
      { s.started i with
        dma := d, oracle := r, seq := Seq.idle, regtrace := s.regtrace ++ ops
        trace := s.trace ++ [.result i.opcode st o] } := by
  rw [hv, ← State.started_regtrace s i, ← State.started_trace s i]
  rfl

@[simp] theorem State.chan_finish (s : State) (i : Instr) (st : Status) (o : Outs) (c : Chan) :
    (s.finish i st o).chan c = s.chan c := rfl

theorem dmaClear_burst (c : Chan) (s : State) : (dmaClear c s).dma.burstMode = s.dma.burstMode := rfl

theorem dmaRelease_burst (c : Chan) (s : State) : (dmaRelease c s).dma.burstMode = s.dma.burstMode := rfl

/-- A released channel is already as DMA_RELEASE leaves it (R154). -/
theorem chan_dmaRelease_of_released {c : Chan} {s t : State} (h : t.chan c = (dmaRelease c s).chan c) (b : Chan) :
    (dmaRelease c t).chan b = t.chan b := by
  rw [chan_dmaRelease]
  split
  · next hb => rw [hb, h, chan_dmaRelease, if_pos rfl]
  · rfl

/-- Nothing an agent could do reaches a released channel (R154, R160). -/
theorem chan_started_of_released {c : Chan} {s t : State} (i : Instr) (h : t.chan c = (dmaRelease c s).chan c) :
    (t.started i).chan c = t.chan c := by
  have frame : ChanFrame (t.chan c) ((t.started i).chan c) := chan_interleave (t.begin i) c
  refine frame.eq_of_idle (.inl ?_)
  rw [h, chan_dmaRelease, if_pos rfl]

/-- Settles O19: what the draw does not idle or reset is kept. -/
theorem dmaResetIdlesTheSelectedChannel : Obligations.DmaResetIdlesTheSelectedChannel := by
  intro s u
  have hsel : u.dma.sel = s.dma.sel := State.started_sel s .dmaReset
  have hburst : u.dma.burstMode = s.dma.burstMode := State.started_burst s .dmaReset
  refine ⟨(dmaReset u).finish .dmaReset .success .none, rfl, ?_⟩
  simp only [State.chan_finish, State.finish_dma, State.finish_oracle]
  rw [← hsel, ← hburst]
  exact ⟨(chan_dmaReset u _).1 rfl, fun c => (chan_dmaReset u c).2, dmaReset_sel u, dmaReset_burst u,
    finish_eq_of_dmaOnly _ _ (dmaReset_eq u)⟩

/-- Settles O16: the channels are the ones the command finds. -/
theorem dmaCheckReadsDone : Obligations.DmaCheckReadsDone := by
  intro ep dir s u
  exact ⟨(dmaCheck ⟨ep, dir⟩ u).finish (.dmaCheck ep dir) .success (.complete (u.chan ⟨ep, dir⟩).done), rfl,
    fun c => chan_dmaCheck ⟨ep, dir⟩ c u, finish_eq_of_dmaOnly _ _ (dmaCheck_eq ⟨ep, dir⟩ u)⟩

/-- Settles O17: one channel is written, and only its status. -/
theorem dmaClearClearsTheStatus : Obligations.DmaClearClearsTheStatus := by
  intro ep dir s u
  have hburst : (dmaClear ⟨ep, dir⟩ u).dma.burstMode = s.dma.burstMode :=
    (dmaClear_burst ..).trans (State.started_burst ..)
  refine ⟨(dmaClear ⟨ep, dir⟩ u).finish (.dmaClear ep dir) .success .none, rfl, ?_⟩
  simp only [State.chan_finish, State.finish_dma]
  exact ⟨(chan_dmaClear ..).trans (if_pos rfl), fun c hc => (chan_dmaClear ..).trans (if_neg hc), dmaClear_sel ⟨ep, dir⟩ u,
    hburst, finish_eq_of_dmaOnly _ _ (dmaClear_eq ⟨ep, dir⟩ u)⟩

/-- Settles O18: no agent acts on the released channel before the second release, which finds it as it would leave it. -/
theorem dmaReleaseDisablesAndIsIdempotent : Obligations.DmaReleaseDisablesAndIsIdempotent := by
  intro ep dir s u
  have hburst : (dmaRelease ⟨ep, dir⟩ u).dma.burstMode = s.dma.burstMode :=
    (dmaRelease_burst ..).trans (State.started_burst ..)
  let t := (dmaRelease ⟨ep, dir⟩ u).finish (.dmaRelease ep dir) .success .none
  have released : t.chan ⟨ep, dir⟩ = (dmaRelease ⟨ep, dir⟩ u).chan ⟨ep, dir⟩ := State.chan_finish ..
  have passed := chan_started_of_released (.dmaRelease ep dir) released
  have kept := chan_dmaRelease_of_released (passed.trans released)
  refine ⟨t, (dmaRelease ⟨ep, dir⟩ (t.started (.dmaRelease ep dir))).finish (.dmaRelease ep dir) .success .none,
    rfl, rfl, ?_⟩
  simp only [State.chan_finish, kept, State.finish_dma, t]
  exact ⟨(chan_dmaRelease ..).trans (if_pos rfl), fun c hc => (chan_dmaRelease ..).trans (if_neg hc),
    dmaRelease_sel ⟨ep, dir⟩ u, hburst, finish_eq_of_dmaOnly _ _ (dmaRelease_eq ⟨ep, dir⟩ u),
    passed.trans released, fun _ => trivial⟩

end Sys2Proof.Machine
end

section
/-! O22. EP_CONFIGURE as the Host calls it (spec 42_endpoint_programmer R169 to R172): the endpoint programmer between the
other agents' steps and the Result. -/

namespace Sys2Proof.Machine

@[simp] theorem State.endpoint_finish (s : State) (i : Instr) (st : Status) (o : Outs) (c : Chan) :
    (s.finish i st o).endpoint c = s.endpoint c := rfl

@[simp] theorem State.toggle_finish (s : State) (i : Instr) (st : Status) (o : Outs) (c : Chan) :
    (s.finish i st o).toggle c = s.toggle c := rfl

/-- Before a command's first micro-step the other agents write an endpoint's toggle alone (R159). -/
theorem State.started_endpoint (s : State) (i : Instr) (c : Chan) :
    (s.started i).endpoint c = { s.endpoint c with toggle := ((s.started i).endpoint c).toggle } :=
  (agentFrame_interleave (s.begin i)).endpoint c

theorem State.started_intTimer (s : State) (i : Instr) (c : Chan) :
    ((s.started i).endpoint c).intTimer = (s.endpoint c).intTimer := by
  rw [State.started_endpoint]

/-- A toggle of endpoint 0 after EP_CONFIGURE: 1 for the IN direction in an IN data stage, as before otherwise (R170). -/
theorem toggle_configureEp0 (dir d : Dir) (st : CtrlStage) (addr : DevAddr) (mps : Nat) (s : State) :
    (configureEp0 dir st addr mps s).toggle ⟨0, d⟩ =
      if st = .data ∧ dir = .in_ ∧ d = .in_ then true else s.toggle ⟨0, d⟩ := by
  rw [configureEp0_eq]
  simp only [State.toggle, if_true, Bool.and_eq_true, decide_eq_true_eq]
  by_cases inData : st = .data ∧ dir = .in_
  · cases d <;> simp [inData, PerDir.get, PerDir.set]
  · rw [if_neg inData, if_neg fun h => inData ⟨h.1, h.2.1⟩]

/-- A type other than isochronous fits every endpoint 1..15 (R84). -/
theorem legalFor_type {ep : EpNum} {ty : EpType} (hep : ep ≠ 0) (hty : ty ≠ .isoch) :
    (EpSub.type ty).legalFor ep = true := by
  cases ty with
  | isoch => exact absurd rfl hty
  | control | bulk | interrupt => exact decide_eq_true hep

/-- EP_CONFIGURE with a type that fits its endpoint runs the programmer's endpoint-1..15 form (R169). -/
theorem exec_epConfigure_type {ep : EpNum} {ty : EpType} (hep : ep ≠ 0) (hty : ty ≠ .isoch) (dir : Dir) (tg : Bool)
    (addr : DevAddr) (s : State) :
    let i := Instr.epConfigure ep dir tg addr (.type ty)
    exec i s =
      .next ((configureEp ⟨ep, dir⟩ ty tg addr s.args.mps s.args.interval (s.started i)).finish i .success .none) :=
  if_pos (legalFor_type hep hty)

/-- Settles O22: what the programmer writes is said once for each form; the agents' steps before it keep the register trace,
the Results, the parameters and the timer. -/
theorem epConfigureProgramsItsEndpoint : Obligations.EpConfigureProgramsItsEndpoint := by
  constructor
  · intro dir tg addr st s u
    refine ⟨(configureEp0 dir st addr s.args.mps u).finish (.epConfigure 0 dir tg addr (.stage st)) .success .none,
      rfl, ?_⟩
    have hregs : s.regtrace = u.regtrace := (State.started_regtrace s _).symm
    have htrace : s.trace = u.trace := (State.started_trace s _).symm
    simp only [State.toggle_finish, toggle_configureEp0]
    rw [configureEp0_eq, hregs, htrace]
    exact ⟨rfl, rfl, fun _ => trivial, rfl, rfl⟩
  · intro ep dir tg addr ty s hep hty u
    refine ⟨(configureEp ⟨ep, dir⟩ ty tg addr s.args.mps s.args.interval u).finish
      (.epConfigure ep dir tg addr (.type ty)) .success .none, exec_epConfigure_type hep hty dir tg addr s, ?_⟩
    have hregs : s.regtrace = u.regtrace := (State.started_regtrace s _).symm
    have htrace : s.trace = u.trace := (State.started_trace s _).symm
    have hcfg : s.cfg = u.cfg := (State.started_cfg s _).symm
    have htimer : (s.endpoint ⟨ep, dir⟩).intTimer = (u.endpoint ⟨ep, dir⟩).intTimer :=
      (State.started_intTimer s _ _).symm
    simp only [State.endpoint_finish, endpoint_configureEp]
    rw [configureEp_eq, hregs, htrace, hcfg, htimer, List.append_assoc]
    refine ⟨?_, fun c hc => if_neg hc, ?_, rfl⟩
    · simp [configuredEndpoint]
    · simp

end Sys2Proof.Machine
end

section
/-! O39. The error translation (spec 43_transfer_protocol R181, with the error classes of R91 and R182): what it answers on a
channel without the error flag, and on a failed one by the class of its error code. -/

namespace Sys2Proof.Machine

/-- A channel without the error flag translates to success, whatever its error code (R181). -/
theorem translate_of_no_err {s : State} {c : Chan} (h : (s.chan c).err = false) :
    translate s c = (.success, .none) :=
  if_neg (Bool.eq_false_iff.mp h)

/-- A failed channel's class decides its result, where class none counts as other (R181). -/
theorem translate_of_err {s : State} {c : Chan} {k : ErrClass} (h : (s.chan c).err = true)
    (hk : errClassOf s.cfg (s.chan c).errCode = k) :
    translate s c = (.deviceError, resultOf (if k = .none then .other else k)) := by
  unfold translate
  rw [if_pos h, hk]
  cases k with
  | none | crc | stall | timeout | other => rfl

/-- Settles O39: without the flag the code plays no part; with it, each class of the code has its result. -/
theorem translateMapsTheErrorCode : Obligations.TranslateMapsTheErrorCode := by
  intro s c
  refine ⟨translate_of_no_err, fun failed => ?_⟩
  cases hk : errClassOf s.cfg (s.chan c).errCode with
  | none | crc | stall | timeout | other => exact translate_of_err failed hk

end Sys2Proof.Machine
end

section
/-! O33, O36. The port features and the controller commands as the Host calls them (spec 45_host_interface R229 to R232, R237,
R238): each answers with its whole next state. -/

namespace Sys2Proof.Machine

/-! ### The port features -/

/-- A suspend, host role or not: it writes the OTG part and the port, or it is a babble (R146). -/
theorem portSuspend_true_eq (s : State) :
    portSuspend true s =
      let host := s.otg.state = .aHost ∨ s.otg.state = .bHost
      { s with
        otg := if host then { s.otg with vbusOn := false, state := .aSuspend } else s.otg
        port := if host then { s.port with status := s.port.status ||| 0x0004 } else s.port
        trace := s.trace ++ if host then [] else [.babble s.otg.state] } := by
  by_cases h : s.otg.state = .aHost ∨ s.otg.state = .bHost
  · simp only [portSuspend_of_host h, h, if_true, List.append_nil]
  · rw [portSuspend_of_babble (fun hs => h hs.2) (by simp)]
    simp only [h, if_false]
    rfl

/-- A resume, suspended or not: it writes the OTG part and the port, or it is a babble (R146). -/
theorem portSuspend_false_eq (s : State) :
    portSuspend false s =
      let asleep := s.otg.state = .aSuspend
      { s with
        otg := if asleep then { s.otg with vbusOn := true, state := .aHost } else s.otg
        port := if asleep then { s.port with status := s.port.status &&& ~~~0x0004 } else s.port
        trace := s.trace ++ if asleep then [] else [.babble s.otg.state] } := by
  by_cases h : s.otg.state = .aSuspend
  · simp only [portSuspend_of_suspended h, h, if_true, List.append_nil]
  · rw [portSuspend_of_babble (by simp) (fun hr => h hr.2)]
    simp only [h, if_false]
    rfl

/-- Setting a feature is its update between the other agents' steps and the Result (R237). -/
theorem exec_rhSetPortFeature (f : Feature) (s : State) :
    exec (.rhSetPortFeature f) s =
      .next ((setFeature f (s.started (.rhSetPortFeature f))).finish (.rhSetPortFeature f) .success .none) := rfl

/-- Clearing a feature is its update between the other agents' steps and the Result (R238). -/
theorem exec_rhClearPortFeature (f : Feature) (s : State) :
    exec (.rhClearPortFeature f) s =
      .next ((clearFeature f (s.started (.rhClearPortFeature f))).finish (.rhClearPortFeature f) .success .none) := rfl

/-- Settles O33: SUSPEND is the port operation with its babble; every other feature is one update without an event of its own. -/
theorem portFeaturesRule : Obligations.PortFeaturesRule := by
  intro f s
  constructor
  · rw [exec_rhSetPortFeature, ← State.started_port s (.rhSetPortFeature f), ← State.started_trace s (.rhSetPortFeature f),
      ← State.started_otgState s (.rhSetPortFeature f)]
    generalize s.started (.rhSetPortFeature f) = u
    cases f with
    | suspend =>
      simp only [setFeature, portSuspend_true_eq, true_and, ite_not]
      rfl
    | enable | reset | power | owner | connectChange | enableChange | suspendChange | overcurrentChange | resetChange =>
      simp only [reduceCtorEq, false_and, if_false, List.append_nil]
      rfl
  · rw [exec_rhClearPortFeature, ← State.started_port s (.rhClearPortFeature f),
      ← State.started_trace s (.rhClearPortFeature f), ← State.started_otgState s (.rhClearPortFeature f)]
    generalize s.started (.rhClearPortFeature f) = u
    cases f with
    | suspend =>
      simp only [clearFeature, portSuspend_false_eq, true_and, ite_not]
      rfl
    | enable | reset | power | owner | connectChange | enableChange | suspendChange | overcurrentChange | resetChange =>
      simp only [reduceCtorEq, false_and, if_false, List.append_nil]
      rfl

/-! ### The controller commands -/

/-- A command that is its Result alone leaves the rest as it began (R16). -/
theorem finish_started (s : State) (i : Instr) (st : Status) (o : Outs) :
    (s.started i).finish i st o =
      { s.started i with seq := Seq.idle, trace := s.trace ++ [.result i.opcode st o] } := by
  rw [← State.started_trace s i]
  rfl

theorem exec_hcGetState (s : State) :
    exec .hcGetState s = .next
      { s.started .hcGetState with seq := Seq.idle, trace := s.trace ++ [.result 0x42 .success (.hcState s.hcState)] } := by
  rw [← State.started_hcState s .hcGetState]
  exact congrArg _ (finish_started ..)

theorem exec_hcSetState (st : HcState) (s : State) :
    exec (.hcSetState st) s = .next
      { s.started (.hcSetState st) with
        hcState := st, seq := Seq.idle, trace := s.trace ++ [.result 0x43 .success .none] } := by
  rw [← State.started_trace s (.hcSetState st)]
  rfl

/-- Settles O36: the other agents keep the power state, so the query after a set reads what was stored. -/
theorem controllerCommandsAnswerAndStore : Obligations.ControllerCommandsAnswerAndStore := by
  intro st s
  exact ⟨exec_hcGetState s, ⟨_, _, exec_hcSetState st s, rfl, exec_hcGetState _, rfl⟩, congrArg _ (finish_started ..),
    congrArg _ (finish_started ..)⟩

end Sys2Proof.Machine
end

section
/-! O8. The state after attach (spec 70_reset_and_hazards R271), read cell by cell: every channel is idle, and every endpoint
and toggle of either direction stands as attach leaves it. -/

namespace Sys2Proof.Machine

theorem PerDir.get_mk_self {α : Type} (x : α) (d : Dir) : (PerDir.mk x x).get d = x := by
  cases d with
  | out | in_ => rfl

/-- Each cell of a table filled with one value for both directions holds that value. -/
theorem cell_replicate {α : Type} (x : α) (c : Chan) : ((Vector.replicate 16 (PerDir.mk x x)).get c.ep).get c.dir = x := by
  rw [Vector.get_replicate, PerDir.get_mk_self]

section attach
variable (p : Params) (inp : Inputs) (regions : List (Nat × Alloc)) (mem : Memory) (c : Chan)

@[simp] theorem State.chan_attach : (State.attach p inp regions mem).chan c = Channel.idle := cell_replicate _ c

@[simp] theorem State.endpoint_attach : (State.attach p inp regions mem).endpoint c = Endpoint.attach := cell_replicate _ c

/-- Endpoint 0 and the endpoints 1..15 hold their toggles apart (R51); both start at 0. -/
@[simp] theorem State.toggle_attach : (State.attach p inp regions mem).toggle c = false := by
  unfold State.toggle
  split
  · exact PerDir.get_mk_self false c.dir
  · rw [State.endpoint_attach]
    rfl

end attach

/-- Settles O8: the table's rows for channels, endpoints and toggles are read from the filled tables; each other row is one
field of the attached state. -/
theorem attachGivesTheTableOfR271 : Obligations.AttachGivesTheTableOfR271 := by
  intro p inp regions mem s
  have idle : ∀ c, s.chan c = Channel.idle := State.chan_attach p inp regions mem
  have endpoints : ∀ c, s.endpoint c = Endpoint.attach := State.endpoint_attach p inp regions mem
  have toggles : ∀ c, s.toggle c = false := State.toggle_attach p inp regions mem
  exact ⟨rfl, rfl, rfl, rfl, rfl, rfl, rfl, rfl, rfl, rfl, rfl, rfl, rfl, rfl, rfl, idle, rfl, rfl, toggles, endpoints,
    rfl, rfl, rfl, rfl, rfl, rfl, rfl, rfl, rfl⟩

end Sys2Proof.Machine
end

section
/-! O1, O2. The decoder and the encoder are inverse to each other on the fields of a word (spec 30_encoding R80 to R86). -/

namespace Sys2Proof

/-! ### Each operand read back from its code -/

theorem dir_of_bits {g : Fields} {d : Dir} (h : g.d = d.bits) : g.dir = d := by
  cases d <;> simp [Fields.dir, h, Dir.bits]

theorem toggle_of_bit1 {g : Fields} {b : Bool} (h : g.t = bit1 b) : g.toggle = b := by
  cases b <;> simp [Fields.toggle, h, bit1]

theorem flag_of_bit1 {g : Fields} {b : Bool} (h : g.f = bit1 b) : g.flag = b := by
  cases b <;> simp [Fields.flag, h, bit1]

theorem speedOf_bits (v : Speed) : speedOf v.bits = some v := by cases v <;> rfl

theorem dataDirOf_bits (v : DataDir) : dataDirOf v.bits = some v := by cases v <;> rfl

theorem hcStateOf_bits (v : HcState) : hcStateOf v.bits = some v := by cases v <;> rfl

theorem featureOf_bits (v : Feature) : featureOf v.bits = some v := by cases v <;> rfl

theorem epSubOf_bits {ep : EpNum} {v : EpSub} (h : v.legalFor ep = true) : epSubOf ep v.bits = some v := by
  cases v with
  | stage st =>
    have h0 : ep = 0 := by simpa [EpSub.legalFor] using h
    cases st <;> simp [epSubOf, h0, EpSub.bits, ctrlStageOf]
  | type ty =>
    cases ty with
    | isoch => cases h
    | control | bulk | interrupt =>
      have h0 : ep ≠ 0 := by simpa [EpSub.legalFor] using h
      simp [epSubOf, h0, EpSub.bits, epTypeOf]

theorem only_of_clean {g : Fields} {used : List Letter} (h : g.cleanBut used = true) (r : Except Illegal Instr) :
    g.only used r = r := if_pos h

theorem withSpeed_of_bits {g : Fields} {v : Speed} (h : g.s = v.bits) (k : Speed → Instr) : g.withSpeed k = .ok (k v) := by
  rw [Fields.withSpeed, h, speedOf_bits]

/-! ### The decoder on the fields of each shape of word (R82) -/

theorem only_chan (op : BitVec 8) (ep : EpNum) (dir : Dir) (k : EpNum → Dir → Instr) :
    let g := Fields.chan op ep dir
    g.only [.E, .D] (.ok (k g.ep g.dir)) = .ok (k ep dir) := by
  intro g
  rw [only_of_clean rfl, dir_of_bits (g := g) rfl]
  rfl

theorem only_xfer (op : BitVec 8) (ep : EpNum) (dir : Dir) (tg : Bool) (addr : DevAddr) (sp : Speed)
    (k : EpNum → Dir → Bool → DevAddr → Speed → Instr) :
    let g := Fields.xfer op ep dir tg addr sp
    g.only [.E, .D, .T, .A, .S] (g.withSpeed (k g.ep g.dir g.toggle g.a)) = .ok (k ep dir tg addr sp) := by
  intro g
  rw [only_of_clean rfl, dir_of_bits (g := g) rfl, toggle_of_bit1 (g := g) rfl, withSpeed_of_bits (g := g) rfl]
  rfl

theorem only_flag (op : BitVec 8) (en : Bool) (k : Bool → Instr) :
    let g : Fields := { Fields.plain op with f := bit1 en }
    g.only [.F] (.ok (k g.flag)) = .ok (k en) := by
  intro g
  rw [only_of_clean rfl, flag_of_bit1 (g := g) rfl]

theorem only_sub {α : Type} (op : BitVec 8) (x : BitVec 4) {read : BitVec 4 → Option α} {v : α} (h : read x = some v)
    (k : α → Instr) :
    let g : Fields := { Fields.plain op with x := x }
    g.only [.X] (withSub (read g.x) k) = .ok (k v) := by
  intro g
  rw [only_of_clean rfl, h, withSub]

/-- The fields of a well-formed instruction pass the decoder's checks of its opcode, and its operands are read back. -/
theorem decodeFields_fields {i : Instr} (h : i.wellFormed = true) : decodeFields i.fields = .ok i := by
  cases i with
  | dmaProgram ep dir => exact only_chan 0x01 ep dir .dmaProgram
  | dmaCheck ep dir => exact only_chan 0x02 ep dir .dmaCheck
  | dmaClear ep dir => exact only_chan 0x03 ep dir .dmaClear
  | dmaRelease ep dir => exact only_chan 0x04 ep dir .dmaRelease
  | epConfigure ep dir tg addr sub =>
    let g := (Instr.epConfigure ep dir tg addr sub).fields
    change g.only [.E, .D, .T, .A, .X] (withSub (epSubOf ep sub.bits) (.epConfigure ep g.dir g.toggle addr)) = _
    rw [only_of_clean rfl, dir_of_bits (g := g) rfl, toggle_of_bit1 (g := g) rfl, epSubOf_bits h, withSub]
  | portSuspend en => exact only_flag 0x11 en .portSuspend
  | portReset en => exact only_flag 0x12 en .portReset
  | xferControl addr speed dd =>
    let g := (Instr.xferControl addr speed dd).fields
    change g.only [.A, .S, .X] (match speedOf speed.bits with
      | some sp => withSub (dataDirOf dd.bits) (.xferControl addr sp)
      | none => .error .reservedSpeed) = _
    rw [only_of_clean rfl, speedOf_bits, dataDirOf_bits]
    rfl
  | xferBulk ep dir tg addr speed => exact only_xfer 0x21 ep dir tg addr speed .xferBulk
  | xferIntSync ep dir tg addr speed => exact only_xfer 0x22 ep dir tg addr speed .xferIntSync
  | xferIntAsyncArm ep dir tg addr speed => exact only_xfer 0x23 ep dir tg addr speed .xferIntAsyncArm
  | xferIsoch ep dir addr speed =>
    let g := (Instr.xferIsoch ep dir addr speed).fields
    change g.only [.E, .D, .A, .S] (g.withSpeed (.xferIsoch ep g.dir addr)) = _
    rw [only_of_clean rfl, dir_of_bits (g := g) rfl, withSpeed_of_bits (g := g) rfl]
  | asyncRegister ep dir tg addr speed => exact only_xfer 0x30 ep dir tg addr speed .asyncRegister
  | hcSetState st => exact only_sub 0x43 st.bits (hcStateOf_bits st) .hcSetState
  | rhSetPortFeature ft => exact only_sub 0x45 ft.bits (featureOf_bits ft) .rhSetPortFeature
  | rhClearPortFeature ft => exact only_sub 0x46 ft.bits (featureOf_bits ft) .rhClearPortFeature
  | dmaReset | otgPoll | asyncCancel | asyncTick | hcGetCapability | hcReset | hcGetState | rhGetPortStatus => rfl

/-- Settles O1: a word has the fields it was made of, and those decode to their instruction. -/
theorem encodeThenDecode : Obligations.EncodeThenDecode := by
  intro i h
  rw [decode, encode, ofWord_toWord, decodeFields_fields h]

/-! ### The fields a decoded instruction stands for, by the shape of its word -/

section shapes
variable {g : Fields} {op : BitVec 8} (hr : g.r = 0) (ho : g.o = op)
include hr ho

theorem plain_fields (hc : g.cleanBut [] = true) : Fields.plain op = g := by
  obtain ⟨r, x, s, a, t, f, d, e, o⟩ := g
  simp_all [Fields.cleanBut, Letter.all, Fields.zeroAt, Fields.plain]

theorem chan_fields (hc : g.cleanBut [.E, .D] = true) : Fields.chan op g.ep g.dir = g := by
  obtain ⟨r, x, s, a, t, f, d, e, o⟩ := g
  have hd := dir_bits d
  simp_all [Fields.cleanBut, Letter.all, Fields.zeroAt, Fields.plain, Fields.chan, Fields.ep, Fields.dir]

theorem configure_fields {sub : EpSub} (hx : sub.bits = g.x) (hc : g.cleanBut [.E, .D, .T, .A, .X] = true) :
    { Fields.chan op g.ep g.dir with t := bit1 g.toggle, a := g.a, x := sub.bits } = g := by
  obtain ⟨r, x, s, a, t, f, d, e, o⟩ := g
  have hd := dir_bits d
  have ht := bit1_eq t
  simp_all [Fields.cleanBut, Letter.all, Fields.zeroAt, Fields.plain, Fields.chan, Fields.ep, Fields.dir, Fields.toggle]

theorem xfer_fields {sp : Speed} (hs : speedOf g.s = some sp) (hc : g.cleanBut [.E, .D, .T, .A, .S] = true) :
    Fields.xfer op g.ep g.dir g.toggle g.a sp = g := by
  obtain ⟨r, x, s, a, t, f, d, e, o⟩ := g
  have hd := dir_bits d
  have ht := bit1_eq t
  have hb := speed_bits hs
  simp_all [Fields.cleanBut, Letter.all, Fields.zeroAt, Fields.plain, Fields.chan, Fields.xfer, Fields.ep, Fields.dir,
    Fields.toggle]

theorem isoch_fields {sp : Speed} (hs : speedOf g.s = some sp) (hc : g.cleanBut [.E, .D, .A, .S] = true) :
    Fields.xfer op g.ep g.dir false g.a sp = g := by
  obtain ⟨r, x, s, a, t, f, d, e, o⟩ := g
  have hd := dir_bits d
  have hb := speed_bits hs
  simp_all [Fields.cleanBut, Letter.all, Fields.zeroAt, Fields.plain, Fields.chan, Fields.xfer, Fields.ep, Fields.dir, bit1]

theorem flag_fields (hc : g.cleanBut [.F] = true) : { Fields.plain op with f := bit1 g.flag } = g := by
  obtain ⟨r, x, s, a, t, f, d, e, o⟩ := g
  have hf := bit1_eq f
  simp_all [Fields.cleanBut, Letter.all, Fields.zeroAt, Fields.plain, Fields.flag]

theorem sub_fields (hc : g.cleanBut [.X] = true) : { Fields.plain op with x := g.x } = g := by
  obtain ⟨r, x, s, a, t, f, d, e, o⟩ := g
  simp_all [Fields.cleanBut, Letter.all, Fields.zeroAt, Fields.plain]

theorem control_fields (hc : g.cleanBut [.A, .S, .X] = true) : { Fields.plain op with a := g.a, s := g.s, x := g.x } = g := by
  obtain ⟨r, x, s, a, t, f, d, e, o⟩ := g
  simp_all [Fields.cleanBut, Letter.all, Fields.zeroAt, Fields.plain]

theorem cancel_fields (hc : g.cleanBut [.E, .A] = true) : { Fields.plain op with e := .ofFin g.ep, a := g.a } = g := by
  obtain ⟨r, x, s, a, t, f, d, e, o⟩ := g
  simp_all [Fields.cleanBut, Letter.all, Fields.zeroAt, Fields.plain, Fields.ep]

end shapes

/-- Every arm of the decoder gives a well-formed instruction whose word has the fields decoded. -/
theorem fields_of_decodeFields {g : Fields} {i : Instr} (h : decodeFields g = .ok i) :
    i.wellFormed = true ∧ i.fields = g := by
  unfold decodeFields at h
  split at h
  · cases h
  rename_i hr
  have hr : g.r = 0 := by simpa using hr
  split at h
  case h_25 => cases h
  all_goals rename_i ho; obtain ⟨hc, h⟩ := only_eq_ok h
  case h_1 | h_2 | h_3 | h_4 => cases h; exact ⟨rfl, chan_fields hr ho hc⟩
  case h_5 | h_7 | h_17 | h_18 | h_19 | h_20 | h_22 => cases h; exact ⟨rfl, plain_fields hr ho hc⟩
  case h_6 =>
    obtain ⟨sub, hx, rfl⟩ := withSub_ok h
    exact ⟨(epSub_bits hx).2, configure_fields hr ho (epSub_bits hx).1 hc⟩
  case h_8 | h_9 => cases h; exact ⟨rfl, flag_fields hr ho hc⟩
  case h_10 =>
    obtain ⟨sp, hs⟩ : ∃ sp, speedOf g.s = some sp := by
      cases hs : speedOf g.s with
      | none => rw [hs] at h; cases h
      | some sp => exact ⟨sp, rfl⟩
    rw [hs] at h
    obtain ⟨dd, hx, rfl⟩ := withSub_ok h
    refine ⟨rfl, ?_⟩
    rw [Instr.fields, speed_bits hs, dataDir_bits hx]
    exact control_fields hr ho hc
  case h_11 | h_12 | h_13 | h_15 =>
    obtain ⟨sp, hs, rfl⟩ := withSpeed_ok h
    exact ⟨rfl, xfer_fields hr ho hs hc⟩
  case h_14 =>
    obtain ⟨sp, hs, rfl⟩ := withSpeed_ok h
    exact ⟨rfl, isoch_fields hr ho hs hc⟩
  case h_16 => cases h; exact ⟨rfl, cancel_fields hr ho hc⟩
  case h_21 =>
    obtain ⟨st, hx, rfl⟩ := withSub_ok h
    refine ⟨rfl, ?_⟩
    rw [Instr.fields, hcState_bits hx]
    exact sub_fields hr ho hc
  case h_23 | h_24 =>
    obtain ⟨ft, hx, rfl⟩ := withSub_ok h
    refine ⟨rfl, ?_⟩
    rw [Instr.fields, feature_bits hx]
    exact sub_fields hr ho hc

/-- Settles O2: the fields of the decoded word are those of its instruction, and a word is its fields. -/
theorem decodeThenEncode : Obligations.DecodeThenEncode := by
  intro w i h
  obtain ⟨hwf, hg⟩ := fields_of_decodeFields h
  exact ⟨hwf, by rw [encode, hg, toWord_ofWord]⟩

end Sys2Proof
end

section
/-! O10, O11, O12, O13. The invariants that every micro-step, every action and every step of the other agents keeps (spec
10_state, 20_memory, 41_dma_channel_engine, 44_async_queue). -/

namespace Sys2Proof.Machine

/-! ### Memory, regions and the TRB store -/

theorem AgentFrame.memCanonical {s t : State} (f : AgentFrame s t) (h : MemCanonical s) : MemCanonical t := by
  obtain ⟨hm, ha, ht⟩ := h
  exact ⟨f.memWf hm, f.allocSorted ha, by rw [f.trbStore]; exact ht⟩

theorem tabSorted_allocRegion {s : State} (n : Nat) (own : Owner) (h : tabSorted s.alloc) :
    tabSorted (s.allocRegion n own).2.alloc := by
  rcases hr : s.allocRegion n own with ⟨_ | a, t⟩
  · rw [allocRegion_none hr]
    exact h
  · obtain ⟨-, -, -, -, ht⟩ := allocRegion_some hr
    rw [ht]
    exact tabSorted_put _ _ h

theorem Micro.memCanonical {i : Instr} {al : Bool} {s t : State} (h : Micro i al s t) (hs : MemCanonical s) :
    MemCanonical t := by
  obtain ⟨hm, ha, ht⟩ := hs
  cases h with
  | agents => exact (agentFrame_interleave s).memCanonical ⟨hm, ha, ht⟩
  | program c desc x => rw [programmed_eq]; exact ⟨hm, ha, ht⟩
  | reset => rw [dmaReset_eq]; exact ⟨hm, ha, ht⟩
  | store a bs => exact ⟨memWf_writeBytes a bs hm, ha, ht⟩
  | putTrb p x => exact ⟨hm, ha, tabSorted_put p x ht⟩
  | alloc n own => rw [allocRegion_eq]; exact ⟨hm, tabSorted_allocRegion n own ha, ht⟩
  | free a => exact ⟨hm, tabSorted_drop a ha, ht⟩
  | freeTrb p => exact ⟨hm, tabSorted_drop p ha, tabSorted_drop p ht⟩
  | _ => exact ⟨hm, ha, ht⟩

/-- Settles O10: micro-steps write memory, the regions and the TRB store by the table operations alone; actions write none of
the three. -/
theorem stepKeepsMemoryCanonical : Obligations.StepKeepsMemoryCanonical := fun _ _ =>
  step_keeps (fun _ _ _ _ => Micro.memCanonical) (fun _ _ _ h => h.frame.frame.memCanonical)
    (fun s => (agentFrame_interleave s).memCanonical) (fun _ _ _ h => h) (fun _ _ h => h) (fun _ _ _ _ h => h)

/-! ### The port and the OTG state -/

theorem PortLegal.of_eq {s t : State} (h : PortLegal s) (hp : t.port = s.port)
    (hc : t.otg.vbusErrCount = s.otg.vbusErrCount) (ho : t.otg.state = s.otg.state) (hcfg : t.cfg = s.cfg) : PortLegal t := by
  unfold PortLegal
  rw [hp, hc, ho, hcfg]
  exact h

theorem AgentFrame.portLegal {s t : State} (f : AgentFrame s t) (h : PortLegal s) : PortLegal t :=
  h.of_eq f.port (by rw [f.otg]) (by rw [f.otg]) f.cfg

theorem Micro.portLegal {i : Instr} {al : Bool} {s t : State} (h : Micro i al s t) (hs : PortLegal s) : PortLegal t :=
  hs.of_eq h.frame.port (by rw [h.frame.otg]) (by rw [h.frame.otg]) h.frame.cfg

theorem otgStateExists_of_lt {n : Nat} {st : OtgState} (h : otgCode st < 13) : otgStateExists n st = true :=
  decide_eq_true (by omega)

/-- The status Connect leaves sets field bits alone (R40, R102). -/
theorem connectStatus_masked {v : BitVec 16} (sp : Speed) (h : v &&& ~~~statusFields = 0) :
    connectStatus sp v &&& ~~~statusFields = 0 := by
  have h0 := clearBit_masked bitHighSpeed (clearBit_masked bitLowSpeed (clearBit_masked bitEnable
    (setBit_masked (i := bitConnection) h (by decide))))
  cases sp with
  | full => exact h0
  | low => exact setBit_masked h0 (by decide)
  | high => exact setBit_masked h0 (by decide)

theorem Act.cfg {i : Instr} {s t : State} (h : Act i s t) : t.cfg = s.cfg := h.frame.frame.cfg

theorem Act.portLegal {i : Instr} {s t : State} (h : Act i s t) (hs : PortLegal s) : PortLegal t := by
  obtain ⟨h1, h2, h3, h4⟩ := hs
  cases h with
  | agents => exact (agentFrame_interleave s).portLegal ⟨h1, h2, h3, h4⟩
  | vbusError =>
    rcases vbusErrorAction_cases s with ⟨e, hlt⟩ | ⟨e, -⟩
    · rw [e]; exact ⟨h1, h2, hlt, otgStateExists_of_lt (st := .aVbusErr) (by decide)⟩
    · rw [e]
      exact ⟨setBit_masked h1 (by decide), setBit_masked h2 (by decide), Nat.succ_pos 2,
        otgStateExists_of_lt (st := .aVbusErr) (by decide)⟩
  | connect =>
    exact ⟨connectStatus_masked _ h1, setBit_masked h2 (by decide), Nat.succ_pos 2, otgStateExists_of_lt (by
      show otgCode (if bSide s.otg.state then .bHost else .aHost) < 13
      split <;> decide)⟩
  | disconnectEnd prior =>
    exact ⟨(by decide : statusPowered &&& ~~~statusFields = 0), setBit_masked h2 (by decide), h3,
      otgStateExists_of_lt (st := .aIdle) (by decide)⟩
  | idleChange =>
    obtain ⟨on, st, e, hst⟩ := idleChangeAction_cases s
    rw [e]
    exact ⟨h1, h2, h3, otgStateExists_of_lt (st := st) (by rcases hst with rfl | rfl <;> decide)⟩
  | suspend en =>
    rcases portSuspend_cases en s with e | e | e
    · rw [e]; exact ⟨setBit_masked h1 (by decide), h2, h3, otgStateExists_of_lt (st := .aSuspend) (by decide)⟩
    · rw [e]; exact ⟨clearBit_masked _ h1, h2, h3, otgStateExists_of_lt (st := .aHost) (by decide)⟩
    · rw [e]; exact ⟨h1, h2, h3, h4⟩
  | reset en =>
    cases en with
    | true => exact ⟨clearBit_masked _ (setBit_masked (i := bitReset) h1 (by decide)), h2, h3, h4⟩
    | false => exact ⟨setBit_masked (clearBit_masked bitReset h1) (by decide), h2, h3, h4⟩
  | setStatus b hb => exact ⟨setBit_masked h1 (by rcases hb with rfl | rfl | rfl <;> decide), h2, h3, h4⟩
  | clearStatus b => exact ⟨clearBit_masked b h1, h2, h3, h4⟩
  | clearChange b => exact ⟨h1, clearBit_masked b h2, h3, h4⟩
  | _ => exact ⟨h1, h2, h3, h4⟩

/-- Settles O11: micro-steps write neither the port nor the OTG state; each action sets field bits alone. -/
theorem stepKeepsPortLegal : Obligations.StepKeepsPortLegal := fun _ _ =>
  step_keeps (fun _ _ _ _ => Micro.portLegal) (fun _ _ _ => Act.portLegal)
    (fun s => (agentFrame_interleave s).portLegal) (fun _ _ _ h => h) (fun _ _ h => h) (fun _ _ _ _ h => h)

/-! ### Channels and TRBs -/

/-- What a micro-step can make of a channel: the end of its transfer by its agent, or one DMA primitive. -/
inductive ChanMove (s : State) (x : Channel) : Channel → Prop where
  | agent {y : Channel} (h : ChanFrame x y) : ChanMove s x y
  | idled : ChanMove s x Channel.idle
  | cleared : ChanMove s x { x with done := false, err := false, errCode := 0 }
  | released : ChanMove s x { x with enabled := false, programmed := false, pending := false, trb := none }
  | programmed (desc : Nat) (t : Trb) (h : tabFind s.trbStore desc = some t) : ChanMove s x (programmedChan x desc t)

theorem Micro.chan {i : Instr} {al : Bool} {s t : State} (h : Micro i al s t) (c : Chan) :
    ChanMove s (s.chan c) (t.chan c) := by
  have same {x : Channel} (h : x = s.chan c) : ChanMove s (s.chan c) x := .agent (.inl h)
  cases h with
  | agents => exact .agent ((agentFrame_interleave s).chan c)
  | program b desc x hp hx =>
    rw [chan_programmed]
    split
    · next e => rw [e]; exact .programmed desc x hx
    · exact same rfl
  | clear b =>
    rw [chan_dmaClear]
    split
    · next e => rw [e]; exact .cleared
    · exact same rfl
  | release b =>
    rw [chan_dmaRelease]
    split
    · next e => rw [e]; exact .released
    · exact same rfl
  | reset =>
    rcases (chan_dmaReset s c).2 with e | e
    · exact same e
    · rw [e]; exact .idled
  | alloc n own => rw [allocRegion_eq]; exact same rfl
  | _ => exact same rfl

/-- A channel is enabled exactly while programmed, with a TRB exactly then, and a transfer pends only then. -/
def Coherent (x : Channel) : Prop :=
  x.enabled = x.programmed ∧ x.trb.isSome = x.programmed ∧ (x.pending = true → x.programmed = true)

theorem Coherent.frame {x y : Channel} (h : Coherent x) (f : ChanFrame x y) : Coherent y := by
  obtain ⟨h1, h2, h3⟩ := h
  exact ⟨by rw [f.enabled, f.programmed, h1], by rw [f.trb, f.programmed, h2], fun hp => by
    rw [f.programmed]; exact h3 (f.pending hp)⟩

theorem Coherent.move {s : State} {x y : Channel} (h : Coherent x) (m : ChanMove s x y) : Coherent y := by
  cases m with
  | agent f => exact h.frame f
  | cleared => exact h
  | idled | released => exact ⟨rfl, rfl, nofun⟩
  | programmed => exact ⟨rfl, rfl, fun _ => rfl⟩

/-- Every TRB of the store was there before, or fits and names addresses of the address space (R48, R62). -/
theorem Micro.trbStore {i : Instr} {al : Bool} {s t : State} (h : Micro i al s t) {p : Nat} {x : Trb}
    (hx : tabFind t.trbStore p = some x) :
    tabFind s.trbStore p = some x ∨ (s.cfg.wf = true → x.size ≤ s.cfg.maxTrbSize) ∧ p < addrSpace s.cfg.addrWidth ∧
      x.addr < addrSpace s.cfg.addrWidth := by
  cases h with
  | agents => exact .inl (by rwa [(agentFrame_interleave s).trbStore] at hx)
  | program c desc y => rw [programmed_eq] at hx; exact .inl hx
  | reset => rw [dmaReset_eq] at hx; exact .inl hx
  | alloc n own => rw [allocRegion_eq] at hx; exact .inl hx
  | putTrb q y hs hq ha =>
    rw [show (s.putTrb q y).trbStore = tabPut s.trbStore q y from rfl, tabFind_put] at hx
    split at hx
    · next e => cases hx; exact .inr ⟨hs, e ▸ hq, ha⟩
    · exact .inl hx
  | freeTrb q =>
    rw [show (s.freeTrb q).trbStore = tabDrop s.trbStore q from rfl, tabFind_drop] at hx
    split at hx
    · cases hx
    · exact .inl hx
  | _ => exact .inl hx

theorem AgentFrame.trbsFit {s t : State} (f : AgentFrame s t) (h : TrbsFit s) : TrbsFit t := by
  unfold TrbsFit
  rw [f.trbStore, f.cfg]
  exact ⟨h.1, fun c x hx => h.2 c x (by rwa [(f.chan c).trb] at hx)⟩

theorem Micro.trbsFit {i : Instr} {al : Bool} {s t : State} (h : Micro i al s t) (hwf : s.cfg.wf = true) (hs : TrbsFit s) :
    TrbsFit t := by
  obtain ⟨hstore, hchan⟩ := hs
  unfold TrbsFit
  rw [h.frame.cfg]
  refine ⟨fun p x hx => ?_, fun c x hx => ?_⟩
  · rcases h.trbStore hx with hx | ⟨h1, h2, h3⟩
    · exact hstore p x hx
    · exact ⟨h1 hwf, h2, h3⟩
  · have m := h.chan c
    generalize t.chan c = y at m hx
    cases m with
    | agent f => exact hchan c x (by rwa [f.trb] at hx)
    | idled | released => cases hx
    | cleared => exact hchan c x hx
    | programmed desc y hy => cases hx; exact (hstore desc _ hy).1

/-- Settles O12: a channel moves by the end of its transfer and by the DMA primitives alone, and a TRB enters the store by a
checked write. -/
theorem stepKeepsChannelsCoherent : Obligations.StepKeepsChannelsCoherent := by
  intro s t h
  constructor
  · exact step_keeps (fun _ _ _ _ m hs c => Coherent.move (hs c) (m.chan c))
      (fun _ _ _ a hs c => Coherent.frame (hs c) (a.frame.frame.chan c))
      (fun s hs c => Coherent.frame (hs c) (chan_interleave s c)) (fun _ _ _ h => h) (fun _ _ h => h) (fun _ _ _ _ h => h) h
  · intro hwf hs
    have keep : t.cfg.wf = true ∧ TrbsFit t :=
      step_keeps (P := fun u => u.cfg.wf = true ∧ TrbsFit u) (fun _ _ _ _ m hu => ⟨by rw [m.frame.cfg]; exact hu.1, m.trbsFit hu.1 hu.2⟩)
        (fun _ _ _ a hu => ⟨by rw [a.cfg]; exact hu.1, a.frame.frame.trbsFit hu.2⟩)
        (fun s hu => ⟨by rw [(agentFrame_interleave s).cfg]; exact hu.1, (agentFrame_interleave s).trbsFit hu.2⟩)
        (fun _ _ _ h => h) (fun _ _ h => h) (fun _ _ _ _ h => h) h ⟨hwf, hs⟩
    exact keep.2

/-! ### The async queue -/

theorem QueueLegal.of_eq {s t : State} (h : QueueLegal s) (ha : t.async = s.async) (hc : t.cfg = s.cfg) : QueueLegal t := by
  unfold QueueLegal
  rw [ha, hc]
  exact h

theorem Micro.queueLegal {i : Instr} {al : Bool} {s t : State} (h : Micro i al s t) (hwf : s.cfg.wf = true)
    (hs : QueueLegal s) : QueueLegal t := by
  have hc := h.frame.cfg
  obtain ⟨hl, hn⟩ := hs
  cases h with
  | agents => exact QueueLegal.of_eq ⟨hl, hn⟩ (agentFrame_interleave s).async hc
  | program c desc x => exact QueueLegal.of_eq ⟨hl, hn⟩ (by rw [programmed_eq]) hc
  | reset => exact QueueLegal.of_eq ⟨hl, hn⟩ (by rw [dmaReset_eq]) hc
  | alloc n own => exact QueueLegal.of_eq ⟨hl, hn⟩ (by rw [allocRegion_eq]) hc
  | enqueue x hx hne =>
    refine ⟨fun y hy => ?_, ?_⟩
    · rcases List.mem_append.1 hy with hy | hy
      · exact hl y hy
      · rw [List.mem_singleton.1 hy]
        exact hx hwf
    · show ((s.async ++ [x]).map (·.ep)).Nodup
      rw [List.map_append]
      refine hn.append (List.nodup_singleton _) fun e he hx => ?_
      obtain ⟨y, hy, rfl⟩ := List.mem_map.1 he
      exact hne y hy (by simpa using hx)
  | dequeue ep addr =>
    have sub : (removeEntry s.async ep addr).Sublist s.async := List.eraseP_sublist
    exact ⟨fun y hy => hl y (sub.subset hy), hn.sublist (sub.map _)⟩
  | service x before after tg n hq hn' =>
    rw [hq] at hl hn
    refine ⟨fun y hy => ?_, by simpa using hn⟩
    rcases List.mem_append.1 hy with hy | hy
    · exact hl y (List.mem_append_left _ hy)
    · rcases List.mem_cons.1 hy with rfl | hy
      · obtain ⟨h1, h2, h3, h4, h5, h6, h7⟩ := hl x (by simp)
        refine ⟨h1, h2, h3, h4, h5, ?_, h7⟩
        rcases hn' with rfl | rfl
        · exact h6
        · exact Nat.mod_lt _ (Nat.zero_lt_of_lt h6)
      · exact hl y (by simp [hy])
  | _ => exact ⟨hl, hn⟩

/-- Settles O13: an entry enters the queue legal and with an endpoint of its own, its visit keeps the index in range, and a
cancel leaves a part of the queue. -/
theorem stepKeepsQueueLegal : Obligations.StepKeepsQueueLegal := by
  intro s t h hwf hs
  exact step_keeps (P := fun u => QueueLegal u ∧ u.cfg = s.cfg)
    (fun _ _ u _ m hu => ⟨m.queueLegal (by rw [hu.2]; exact hwf) hu.1, m.frame.cfg.trans hu.2⟩)
    (fun _ _ _ a hu => ⟨hu.1.of_eq a.frame.frame.async a.cfg, a.cfg.trans hu.2⟩)
    (fun u hu => ⟨hu.1.of_eq (agentFrame_interleave u).async (agentFrame_interleave u).cfg,
      (agentFrame_interleave u).cfg.trans hu.2⟩)
    (fun _ _ _ h => h) (fun _ _ h => h) (fun _ _ _ _ h => h) h ⟨hs, rfl⟩

end Sys2Proof.Machine
end

section
/-! The synchronous transfers by the outcome of their operand checks and of their allocations (spec 43_transfer_protocol R185,
R186, R191, R194): one equation for each. -/

namespace Sys2Proof.Machine

/-! ### What an allocation of the requested regions comes to -/

theorem acquire_control_cases (p : Params) (len : Nat) (s : State) :
    (∃ v, acquire (controlRequests p len) s = (none, v)) ∨
      ∃ trb sb db v, acquire (controlRequests p len) s = (some (trb :: sb :: db), v) := by
  rcases h : acquire (controlRequests p len) s with ⟨_ | as, v⟩
  · exact .inl ⟨v, rfl⟩
  · have hl := acquire_length h
    match as, hl with
    | trb :: sb :: db, _ => exact .inr ⟨trb, sb, db, v, rfl⟩

theorem acquire_pair_cases (p q : Nat × Owner) (s : State) :
    (∃ v, acquire [p, q] s = (none, v)) ∨ ∃ trb stg v, acquire [p, q] s = (some [trb, stg], v) := by
  rcases h : acquire [p, q] s with ⟨_ | as, v⟩
  · exact .inl ⟨v, rfl⟩
  · have hl := acquire_length h
    match as, hl with
    | [trb, stg], _ => exact .inr ⟨trb, stg, v, rfl⟩

/-! ### XFER_CONTROL (R186) -/

section control
variable {addr : DevAddr} {sp : Speed} {dd : DataDir} {s v : State}

theorem exec_xferControl_of_bad (h : controlOk s.cfg dd s.args = false) :
    exec (.xferControl addr sp dd) s =
      .next ((s.started (.xferControl addr sp dd)).finish (.xferControl addr sp dd) .invalidParameter (.control .none 0)) := by
  simp only [exec, execXferControl, State.started_cfg, State.started_args, h, Bool.false_eq_true, if_false]

theorem exec_xferControl_of_none (hok : controlOk s.cfg dd s.args = true)
    (h : acquire (controlRequests s.cfg s.args.len) (s.started (.xferControl addr sp dd)) = (none, v)) :
    exec (.xferControl addr sp dd) s = .next (v.finish (.xferControl addr sp dd) .outOfResources (.control .none 0)) := by
  simp only [exec, execXferControl, State.started_cfg, State.started_args, hok, if_true, h]

theorem exec_xferControl_of_some {trb sb : Nat} {db : List Nat} (hok : controlOk s.cfg dd s.args = true)
    (h : acquire (controlRequests s.cfg s.args.len) (s.started (.xferControl addr sp dd)) = (some (trb :: sb :: db), v)) :
    exec (.xferControl addr sp dd) s =
      conclude (andThen (controlStages addr dd trb sb (db.headD 0) v) fun e t =>
        .done () ((releaseAll trb (sb :: db) (t.withEp0Stage .idle)).finish (.xferControl addr sp dd) e.status
          (.control e.res e.len))) := by
  simp only [exec, execXferControl, State.started_cfg, State.started_args, hok, if_true, h]

end control

/-! ### XFER_BULK (R191) -/

section bulk
variable {ep : EpNum} {dir : Dir} {tg : Bool} {addr : DevAddr} {sp : Speed} {s v : State}

theorem exec_xferBulk_of_bad (h : bulkOk ep s.args = false) :
    let i := Instr.xferBulk ep dir tg addr sp
    exec i s = .next ((s.started i).finish i .invalidParameter (.transfer .none 0 none)) := by
  simp only [exec, execXferBulk, State.started_args, h, Bool.false_eq_true, if_false]

theorem exec_xferBulk_of_none (hok : bulkOk ep s.args = true)
    (h : acquire [trbRequest s.cfg, (s.cfg.burstSize, .staging)] (s.started (.xferBulk ep dir tg addr sp)) = (none, v)) :
    let i := Instr.xferBulk ep dir tg addr sp
    exec i s = .next (v.finish i .outOfResources (.transfer .none 0 none)) := by
  simp only [exec, execXferBulk, State.started_cfg, State.started_args, hok, if_true, h]

theorem exec_xferBulk_of_some {trb stg : Nat} (hok : bulkOk ep s.args = true)
    (h : acquire [trbRequest s.cfg, (s.cfg.burstSize, .staging)] (s.started (.xferBulk ep dir tg addr sp)) =
      (some [trb, stg], v)) :
    let i := Instr.xferBulk ep dir tg addr sp
    exec i s =
      conclude (andThen (bulkLoop ⟨ep, dir⟩ trb stg (chunkCount v.args.len v.cfg.burstSize) 0 0
        (configureEp ⟨ep, dir⟩ .bulk tg addr v.args.mps 0 (v.atLine .configure))) fun e t =>
        .done () (finishTransfer i ⟨ep, dir⟩ trb stg e t)) := by
  simp only [exec, execXferBulk, State.started_cfg, State.started_args, hok, if_true, h]

end bulk

/-! ### XFER_INT_SYNC (R194) -/

section intSync
variable {ep : EpNum} {dir : Dir} {tg : Bool} {addr : DevAddr} {sp : Speed} {s v : State}

theorem exec_xferIntSync_of_bad (h : intSyncOk s.cfg ep s.args = false) :
    let i := Instr.xferIntSync ep dir tg addr sp
    exec i s = .next ((s.started i).finish i .invalidParameter (.transfer .none 0 none)) := by
  simp only [exec, execXferIntSync, State.started_cfg, State.started_args, h, Bool.false_eq_true, if_false]

theorem exec_xferIntSync_of_none (hok : intSyncOk s.cfg ep s.args = true)
    (h : acquire [trbRequest s.cfg, (s.args.len, .staging)] (s.started (.xferIntSync ep dir tg addr sp)) = (none, v)) :
    let i := Instr.xferIntSync ep dir tg addr sp
    exec i s = .next (v.finish i .outOfResources (.transfer .none 0 none)) := by
  simp only [exec, execXferIntSync, State.started_cfg, State.started_args, hok, if_true, h]

theorem exec_xferIntSync_of_some {trb stg : Nat} (hok : intSyncOk s.cfg ep s.args = true)
    (h : acquire [trbRequest s.cfg, (s.args.len, .staging)] (s.started (.xferIntSync ep dir tg addr sp)) =
      (some [trb, stg], v)) :
    let i := Instr.xferIntSync ep dir tg addr sp
    exec i s =
      conclude (andThen (intSyncCycle ⟨ep, dir⟩ trb stg
        (configureEp ⟨ep, dir⟩ .interrupt tg addr v.args.mps v.args.interval (v.atLine .configure))) fun e t =>
        .done () (finishTransfer i ⟨ep, dir⟩ trb stg e t)) := by
  simp only [exec, execXferIntSync, State.started_cfg, State.started_args, hok, if_true, h]

end intSync

end Sys2Proof.Machine
end

section
/-! O14. Where the Sequencer stands between steps (spec 10_state R44, R56; 40_otg_state_machine R104; 60_exceptions R251). -/

namespace Sys2Proof.Machine

/-! ### What the other agents leave of a Sequencer -/

/-- Outside a tick no step of the other agents moves the Sequencer. -/
theorem AgentFrame.seq {s t : State} (f : AgentFrame s t) (h : s.seq.inTick = false) : t.seq = s.seq := by
  obtain ⟨hb, hc, hi, hd⟩ : _ ∧ _ ∧ _ ∧ _ := ⟨f.busy, f.cmd, f.inTick, f.deferred h⟩
  cases ht : t.seq
  cases hs : s.seq
  simp_all

theorem State.started_seq (s : State) (i : Instr) : (s.started i).seq = (s.begin i).seq := (agentFrame_interleave _).seq rfl

theorem AgentFrame.spinning {s t : State} (f : AgentFrame s t) (h : Spinning s) : Spinning t := by
  obtain ⟨i, n, b, hs, hi, hr⟩ := h
  have ho : t.otg.state = s.otg.state := by rw [f.otg]
  exact ⟨i, n, b, by rw [f.seq (by rw [hs]), hs, ho], hi, by rw [ho]; exact hr⟩

/-- During a tick the Host can still defer a cancel (R224); nothing else of a stuck Sequencer moves. -/
theorem AgentFrame.stuck {s t : State} (f : AgentFrame s t) (h : Stuck s) : Stuck t := by
  obtain ⟨i, k, l, hs, hl, hd⟩ := h
  refine ⟨i, k, l, ?_, hl, fun hi => ?_⟩
  · have hb : t.seq.busy = true := by rw [f.busy, hs]
    have hc : t.seq.cmd = some ⟨i, k, .line l⟩ := by rw [f.cmd, hs]
    have ht : t.seq.inTick = decide (i = .asyncTick) := by rw [f.inTick, hs]
    rw [← hb, ← hc, ← ht]
  · rw [f.deferred (by rw [hs]; exact decide_eq_false hi)]
    exact hd hi

theorem AgentFrame.settled {s t : State} (f : AgentFrame s t) (h : SequencerSettled s) : SequencerSettled t := by
  obtain ⟨hseq, hstage⟩ := h
  refine ⟨?_, fun hc => ?_⟩
  · rcases hseq with hs | hs | hs
    · exact .inl (by rw [f.seq (by rw [hs]; rfl), hs])
    · exact .inr (.inl (f.spinning hs))
    · exact .inr (.inr (f.stuck hs))
  · rw [f.ep0Stage]
    exact hstage fun ⟨a, sp, dd, k, p, e⟩ => hc ⟨a, sp, dd, k, p, by rw [f.cmd, e]⟩

/-! ### Where a settled Sequencer stands, by its command -/

theorem SequencerSettled.idle_of_no_cmd {s : State} (h : SequencerSettled s) (hc : s.seq.cmd = none) : s.seq = Seq.idle := by
  rcases h.1 with hs | ⟨i, n, b, hs, -⟩ | ⟨i, k, l, hs, -⟩
  · exact hs
  · rw [hs] at hc; cases hc
  · rw [hs] at hc; cases hc

theorem SequencerSettled.spinning_of_cmd {s : State} (h : SequencerSettled s) {i : Instr} {k n : Nat} {prior : OtgState}
    {b : Bool} (hc : s.seq.cmd = some ⟨i, k, .spin prior n b⟩) : Spinning s := by
  rcases h.1 with hs | hs | ⟨j, m, l, hs, -⟩
  · rw [hs] at hc; cases hc
  · exact hs
  · rw [hs] at hc; cases hc

/-- Outside a stuck control transfer the stage of a settled state is IDLE. -/
theorem SequencerSettled.stage_of_cmd {s : State} (h : SequencerSettled s)
    (hc : ∀ a sp dd k p, s.seq.cmd ≠ some ⟨.xferControl a sp dd, k, p⟩) : s.ep0Stage = .idle :=
  h.2 fun ⟨a, sp, dd, k, p, e⟩ => hc a sp dd k p e

theorem settled_idle {s : State} (h : s.seq = Seq.idle) (hs : s.ep0Stage = .idle) : SequencerSettled s :=
  ⟨.inl h, fun _ => hs⟩

/-! ### The engine commands -/

/-- A command stopped before an access is stuck there. -/
theorem stuck_of_access {i : Instr} {s t : State} (h : Runs i true (s.begin i) t) (ha : AtAccess i t)
    (ht : t.seq.inTick = decide (i = .asyncTick)) : Stuck t := by
  obtain ⟨hb, ⟨k, p, hc⟩, hd⟩ := h.executing (executing_begin i s)
  obtain ⟨v, l, rfl, hl⟩ := ha
  have hp : p = .line l := by
    obtain ⟨r, -, hr⟩ := Option.map_eq_some_iff.1 hc
    cases hr
    rfl
  subst hp
  exact ⟨i, k, l, by rw [← hb, ← hc, ← ht], hl, fun hi => (hd hi).2⟩

/-- Where an engine command answers, the Sequencer is idle or stuck in it. -/
theorem Ends.seq {i : Instr} {s t : State} (h : Ends i s t) :
    t.seq = Seq.idle ∨ Stuck t ∧ ∃ k p, t.seq.cmd = some ⟨i, k, p⟩ := by
  cases h with
  | returned => exact .inl rfl
  | stuck hr ha ht => exact .inr ⟨stuck_of_access hr ha ht, (hr.executing (executing_begin i s)).2.1⟩

theorem releaseAll_stage (trb : Nat) (stg : List Nat) (s : State) : (releaseAll trb stg s).ep0Stage = s.ep0Stage := by
  rw [releaseAll_eq]
  exact State.atPos_ep0Stage s _

/-- A control transfer that returns leaves the stage IDLE (R186): its end sets it, and before its stages nothing does. -/
theorem control_stage {a : DevAddr} {sp : Speed} {dd : DataDir} {s t : State} (h : exec (.xferControl a sp dd) s = .next t)
    (ht : t.seq = Seq.idle) (hs : s.ep0Stage = .idle) : t.ep0Stage = .idle := by
  cases hok : controlOk s.cfg dd s.args with
  | false =>
    rw [exec_xferControl_of_bad hok] at h
    cases h
    exact (State.started_ep0Stage s _).trans hs
  | true =>
    rcases acquire_control_cases s.cfg s.args.len (s.started (.xferControl a sp dd)) with
      ⟨v, hv⟩ | ⟨trb, sb, db, v, hv⟩
    · rw [exec_xferControl_of_none hok hv] at h
      cases h
      exact (begun_of_failed hv).1.frame.ep0Stage.trans hs
    · rw [exec_xferControl_of_some hok hv] at h
      have hb := (begun_of_acquire hv).busy
      have hlen : v.args.len ≤ v.cfg.maxTrbSize := by
        rw [(begun_of_acquire hv).args, (begun_of_acquire hv).cfg]
        simp only [controlOk, Bool.and_eq_true, decide_eq_true_eq] at hok
        exact hok.1.2
      have hgo := goes_controlStages (al := true) ⟨a, sp, dd, rfl⟩ a dd trb sb (db.headD 0) hlen hb
      cases hx : controlStages a dd trb sb (db.headD 0) v with
      | done e u =>
        rw [hx] at h
        cases h
        exact releaseAll_stage _ _ _
      | hold u =>
        rw [hx] at h hgo
        cases h
        have := hgo.1.busy hb
        rw [show (Part.hold t : Part XferEnd).state = t from rfl, ht] at this
        cases this
      | fault r u => rw [hx] at h; cases h

theorem settled_of_engine {i : Instr} {s t : State} (hi : EngineCmd i = true) (h : exec i s = .next t)
    (hs : s.ep0Stage = .idle) : SequencerSettled t := by
  have he := engine_ends hi h
  by_cases hc : ∃ a sp dd, i = .xferControl a sp dd
  · obtain ⟨a, sp, dd, rfl⟩ := hc
    rcases he.seq with ht | ⟨ht, k, p, hcmd⟩
    · exact settled_idle ht (control_stage h ht hs)
    · exact ⟨.inr (.inr ht), fun hn => absurd ⟨a, sp, dd, k, p, hcmd⟩ hn⟩
  · have hstage : t.ep0Stage = .idle := by
      cases he with
      | returned st o hr | stuck hr => exact (hr.frame.stage fun a sp dd e => hc ⟨a, sp, dd, e⟩).trans hs
    rcases he.seq with ht | ⟨ht, -⟩
    · exact settled_idle ht hstage
    · exact ⟨.inr (.inr ht), fun _ => hstage⟩

/-! ### The polls and the other host commands -/

theorem Acts.ep0Stage {i : Instr} {s t : State} (h : Acts i s t) : t.ep0Stage = s.ep0Stage := h.frame.frame.ep0Stage

section poll
variable {ret : State → State} {s : State}

/-- What a poll does, by its sample and by what stands after actions (a) and (b) (R98, R101). -/
theorem otgPoll_of_no_connChange (h : (polled s).connChange = false) :
    otgPoll ret s = .done () (ret (pollTail (polled s).idleChange (pollHead (polled s) s))) := by
  rw [polled] at h
  simp only [otgPoll, h]
  rfl

theorem otgPoll_of_connect (h : (polled s).connChange = true)
    (hr : hostOrSuspend (pollHead (polled s) s).otg.state = false) :
    otgPoll ret s = .done () (ret (pollTail (polled s).idleChange (connect (pollHead (polled s) s)))) := by
  rw [polled] at h hr
  simp only [otgPoll, h, hr]
  rfl

theorem otgPoll_of_babble (h : (polled s).connChange = true)
    (hr : hostOrSuspend (pollHead (polled s) s).otg.state = true)
    (hw : (pollHead (polled s) s).otg.inputs.hwWait = false) :
    otgPoll ret s = .done () (ret (pollTail (polled s).idleChange (babble (pollHead (polled s) s)))) := by
  rw [polled] at h hr hw
  simp only [otgPoll, h, hr, hw]
  rfl

theorem otgPoll_of_disconnect (h : (polled s).connChange = true)
    (hr : hostOrSuspend (pollHead (polled s) s).otg.state = true)
    (hw : (pollHead (polled s) s).otg.inputs.hwWait = true) :
    otgPoll ret s =
      let t := pollHead (polled s) s
      spinSample t.otg.state 0 (polled s).idleChange ret (disconnectSpin t.otg.state (polled s).idleChange t) := by
  rw [polled] at h hr hw
  simp only [otgPoll, h, hr, hw]
  rfl

/-- A poll returns at once, or runs the Disconnect of a host or suspend role in the wait sub-state. -/
theorem otgPoll_cases (ret : State → State) (s : State) :
    (∃ u, otgPoll ret s = .done () (ret u)) ∨
      (polled s).connChange = true ∧ hostOrSuspend (pollHead (polled s) s).otg.state = true ∧
        (pollHead (polled s) s).otg.inputs.hwWait = true := by
  cases hc : (polled s).connChange with
  | false => exact .inl ⟨_, otgPoll_of_no_connChange hc⟩
  | true =>
    cases hr : hostOrSuspend (pollHead (polled s) s).otg.state with
    | false => exact .inl ⟨_, otgPoll_of_connect hc hr⟩
    | true =>
      cases hw : (pollHead (polled s) s).otg.inputs.hwWait with
      | false => exact .inl ⟨_, otgPoll_of_babble hc hr hw⟩
      | true => exact .inr ⟨rfl, rfl, rfl⟩

/-- One sample of the spin of a poll: it holds the Sequencer there, or the poll returns. -/
theorem spinSample_next {prior : OtgState} {n : Nat} {b : Bool} {t : State}
    (h : conclude (spinSample prior n b ret s) = .next t) :
    t = s.setPos (.spin prior (n + 1) b) ∨ t = ret (pollTail b (disconnectEnd prior s)) := by
  unfold spinSample at h
  split at h
  · split at h
    · cases h
    · cases h; exact .inl rfl
  · cases h; exact .inr rfl

theorem disconnectSpin_otgState (prior : OtgState) (b : Bool) (s : State) :
    (disconnectSpin prior b s).otg.state = s.otg.state := by
  rw [disconnectSpin, State.atPos, (agentFrame_interleave _).otg]
  rfl

theorem disconnectSpin_seq (prior : OtgState) (b : Bool) {s : State} (h : s.seq.inTick = false) :
    (disconnectSpin prior b s).seq = (s.setPos (.spin prior 0 b)).seq :=
  (agentFrame_interleave ((disconnectBegin s).setPos (.spin prior 0 b))).seq h

/-- A poll that answers has returned, or is held in the spin of a Disconnect it runs in a host or suspend role. -/
theorem otgPoll_next {i : Instr} (hi : IsPoll i) {t : State} (hs : s.seq = (s.begin i).seq)
    (h : conclude (otgPoll ret s) = .next t) : (∃ u, t = ret u) ∨ Spinning t := by
  rcases otgPoll_cases ret s with ⟨u, hu⟩ | ⟨hc, hr, hw⟩
  · rw [hu] at h
    cases h
    exact .inl ⟨u, rfl⟩
  · rw [otgPoll_of_disconnect hc hr hw] at h
    have hseq : (pollHead (polled s) s).seq = (s.begin i).seq := by rw [pollHead_seq, hs]
    generalize pollHead (polled s) s = p at *
    rcases spinSample_next h with rfl | hu
    · have hd := disconnectSpin_seq p.otg.state (polled s).idleChange (s := p) (by rw [hseq]; rfl)
      have ho := disconnectSpin_otgState p.otg.state (polled s).idleChange p
      refine .inr ⟨i, 1, (polled s).idleChange, ?_, hi, ?_⟩
      · show Seq.mk _ _ _ _ = Seq.mk _ _ _ _
        rw [show ((disconnectSpin _ _ p).setPos _).otg.state = _ from ho, hd]
        show Seq.mk p.seq.busy ((p.seq.cmd.map _).map _) p.seq.inTick p.seq.deferred = _
        rw [hseq]
        rfl
      · rw [show ((disconnectSpin _ _ p).setPos _).otg.state = _ from ho]
        exact hr
    · exact .inl ⟨_, hu⟩

end poll

/-- A command of the OTG part, the root hub or the controller that answers has returned, or is held in the spin. -/
theorem host_seq {i : Instr} {s t : State} (hi : EngineCmd i = false) (h : exec i s = .next t) :
    t.seq = Seq.idle ∨ Spinning t := by
  cases i with
  | otgPoll => exact (otgPoll_next (.inl rfl) (State.started_seq s _) h).imp_left fun ⟨u, e⟩ => e ▸ rfl
  | rhGetPortStatus => exact (otgPoll_next (.inr rfl) (State.started_seq s _) h).imp_left fun ⟨u, e⟩ => e ▸ rfl
  | portSuspend | portReset | hcGetCapability | hcReset | hcGetState | hcSetState | rhSetPortFeature | rhClearPortFeature =>
    cases h; exact .inl rfl
  | _ => cases hi

theorem settled_of_exec {i : Instr} {s t : State} (h : exec i s = .next t) (hs : s.ep0Stage = .idle) : SequencerSettled t := by
  cases hi : EngineCmd i with
  | true => exact settled_of_engine hi h hs
  | false =>
    have hstage : t.ep0Stage = .idle := (host_acts hi h).ep0Stage.trans ((State.started_ep0Stage s i).trans hs)
    exact ⟨(host_seq hi h).imp_right .inl, fun _ => hstage⟩

/-! ### A Sequencer held in a command -/

theorem settled_of_resume {r : Running} {s t : State} (hc : s.seq.cmd = some r) (hs : SequencerSettled s)
    (h : resume r s = .next t) : SequencerSettled t := by
  obtain ⟨i, k, p⟩ := r
  cases p with
  | line l => cases h; exact hs
  | waiting c n => cases h; exact hs
  | spin prior n b =>
    have hsp := hs.spinning_of_cmd hc
    obtain ⟨j, m, b', hseq, hj, hr⟩ := hsp
    have hstage : s.ep0Stage = .idle := hs.stage_of_cmd fun a sp dd k p e => by
      rw [hseq] at e
      rcases hj with rfl | rfl <;> cases e
    rw [hseq] at hc
    cases hc
    have ht : t.ep0Stage = .idle := by
      rw [(acts_spinSample hj (ret := endPollOf i) (fun u => by unfold endPollOf; split <;> exact acts_finish ..) h).ep0Stage]
      exact hstage
    rcases spinSample_next h with rfl | rfl
    · exact ⟨.inr (.inl ⟨i, n + 1, b, by rw [State.setPos, State.withSeq_seq, hseq]; rfl, hj, hr⟩), fun _ => ht⟩
    · exact settled_idle (by unfold endPollOf; split <;> rfl) ht

/-- Settles O14: a command that answers has returned, is held in the spin or is stuck; a held Sequencer stays so or returns. -/
theorem stepKeepsSequencerSettled : Obligations.StepKeepsSequencerSettled := by
  intro s t h hs
  unfold step at h
  split at h
  · cases h
  split at h
  · cases h
  split at h
  · next u hu =>
    cases h
    refine (agentFrame_interleave u).settled ?_
    unfold sequencerStep at hu
    split at hu
    · next r hr => exact settled_of_resume hr hs hu
    · next hc =>
      have hstage : s.ep0Stage = .idle := hs.stage_of_cmd fun a sp dd k p e => by rw [hc] at e; cases e
      unfold State.takeCmd at hu
      split at hu
      · next w v hv =>
        split at hv
        · cases hv
        · cases hv
          unfold runWord at hu
          split at hu
          · exact settled_of_exec hu hstage
          · cases hu; exact settled_idle rfl hstage
      · cases hu; exact hs
  · cases h
  · cases h

end Sys2Proof.Machine
end

section
/-! O15, O20, O21. DMA_PROGRAM as the Host calls it, the end of a channel agent's transfer, and what the other agents change at
a point (spec 41_dma_channel_engine R151, R158 to R163; 00_scope R8). -/

namespace Sys2Proof.Machine

/-! ### DMA_PROGRAM -/

section program
variable {ep : EpNum} {dir : Dir} {s : State}

theorem State.started_programmed (s : State) (i : Instr) (c : Chan) :
    ((s.started i).chan c).programmed = (s.chan c).programmed :=
  (chan_interleave (s.begin i) c).programmed

/-- A check of DMA_PROGRAM that fails is the fault of the command (R151). -/
theorem exec_dmaProgram_of_fault {r : FaultReason}
    (h : dmaProgram ⟨ep, dir⟩ s.args.desc (s.started (.dmaProgram ep dir)) =
      .fault r (s.started (.dmaProgram ep dir))) :
    exec (.dmaProgram ep dir) s =
      .fault (faultOf r { s.started (.dmaProgram ep dir) with fault := some r, seq := Seq.idle }) := by
  simp only [exec, execDmaProgram, h]
  rfl

end program

/-- Settles O15: the four outcomes of DMA_PROGRAM's checks, none of whose operands the other agents write. -/
theorem dmaProgramArmsTheChannel : Obligations.DmaProgramArmsTheChannel := by
  intro ep dir s u
  have hp : (u.chan ⟨ep, dir⟩).programmed = (s.chan ⟨ep, dir⟩).programmed := State.started_programmed s _ _
  have ht : u.trbStore = s.trbStore := State.started_trbStore s _
  have hc : u.cfg = s.cfg := State.started_cfg s _
  refine ⟨fun x h0 hx hd ha => ?_, fun h0 => exec_dmaProgram_of_fault (r := .programUnreleased) ?_,
    fun h0 hx => exec_dmaProgram_of_fault (r := .noDescriptor) ?_,
    fun x h0 hx hbad => exec_dmaProgram_of_fault (r := .misalignedDma) ?_⟩
  · have done : dmaProgram ⟨ep, dir⟩ s.args.desc u = .done () (programmed ⟨ep, dir⟩ s.args.desc x u) :=
      dmaProgram_done (hp.trans h0) (by rw [ht, hx]) (by rw [hc, hd]) (by rw [hc, ha])
    have whole := finish_eq_of_dmaOnly (s := s) (i := .dmaProgram ep dir) .success .none
      (programmed_eq ⟨ep, dir⟩ s.args.desc x u)
    let t := (programmed ⟨ep, dir⟩ s.args.desc x u).finish (.dmaProgram ep dir) .success .none
    have log : t.regtrace = s.regtrace ++ programTrace ⟨ep, dir⟩ s.args.desc := congrArg State.regtrace whole
    refine ⟨t, ?_, ?_, fun c hne => ?_, rfl, rfl, log, ?_⟩
    · simp only [exec, execDmaProgram]
      rw [done]
      rfl
    · rw [State.chan_finish, chan_programmed, if_pos rfl]
      rfl
    · rw [State.chan_finish, chan_programmed, if_neg hne]
    · rw [log]
      exact whole
  · rcases dmaProgram_cases ⟨ep, dir⟩ s.args.desc u with ⟨-, e⟩ | ⟨hn, -⟩ | ⟨x, hn, -⟩
    · exact e
    · rw [hp, h0] at hn; cases hn
    · rw [hp, h0] at hn; cases hn
  · rcases dmaProgram_cases ⟨ep, dir⟩ s.args.desc u with ⟨hn, -⟩ | ⟨-, -, e⟩ | ⟨x, -, hn, -⟩
    · rw [hp, h0] at hn; cases hn
    · exact e
    · rw [ht, hx] at hn; cases hn
  · rcases dmaProgram_cases ⟨ep, dir⟩ s.args.desc u with ⟨hn, -⟩ | ⟨-, hn, -⟩ | ⟨y, -, hy, ⟨-, e⟩ | ⟨h1, h2, -⟩⟩
    · rw [hp, h0] at hn; cases hn
    · rw [ht, hx] at hn; cases hn
    · exact e
    · rw [ht, hx] at hy
      cases hy
      rw [hc] at h1 h2
      exact absurd h1 (hbad.resolve_right fun h => h h2)

/-! ### The end of a transfer -/

/-- The update an agent makes at the end of its transfer (R158, R159). -/
theorem transferEnded_update (c : Chan) (ch : Channel) (tg : Bool) (m : Memory) (s : State) :
    TransferEnded c ch tg s (((s.withMem m).setToggle c tg).setChan c ch) := by
  refine ⟨State.chan_setChan_same _ _ _, State.toggle_setToggle_same (s.withMem m) c tg, fun b hb => ⟨?_, ?_⟩,
    fun b => ?_, ?_⟩
  · rw [State.chan_setChan_ne _ _ hb, State.chan_setToggle]
    rfl
  · exact State.toggle_setToggle_ne (s.withMem m) tg hb
  · show ((s.withMem m).setToggle c tg).endpoint b = { s.endpoint b with toggle := (((s.withMem m).setToggle c tg).endpoint b).toggle }
    rw [State.endpoint_setToggle]
    split
    · next h => rw [h.1]; rfl
    · rfl
  · unfold State.setToggle
    split <;> rfl

section agent
variable {s : State} {c : Chan} {x : Trb} (hx : s.agentTrb c = some x) (bs : List Byte) (tg : Bool) (code : BitVec 3)
  (moved : Nat)
include hx

theorem agentComplete_in (hd : c.dir = .in_) :
    agentComplete c bs tg s =
      if bs.length ≤ x.size && s.admits anyOwner x.addr bs.length then
        ((s.withMem (writeBytes s.mem x.addr bs)).setToggle c tg).setChan c
          { s.chan c with actual := bs.length, pending := false, done := true }
      else s := by
  simp only [agentComplete, hx, hd]

theorem agentComplete_out (hd : c.dir = .out) :
    agentComplete c bs tg s =
      if s.admits anyOwner x.addr x.size then
        ((s.withMem s.mem).setToggle c tg).setChan c { s.chan c with actual := x.size, pending := false, done := true }
      else s := by
  simp only [agentComplete, hx, hd]
  rfl

theorem agentFail_in (hd : c.dir = .in_) :
    agentFail c code moved bs tg s =
      if bs.length ≤ x.size && s.admits anyOwner x.addr bs.length then
        ((s.withMem (writeBytes s.mem x.addr bs)).setToggle c tg).setChan c
          { s.chan c with actual := bs.length, pending := false, done := true, err := true, errCode := code }
      else s := by
  simp only [agentFail, hx, hd]

theorem agentFail_out (hd : c.dir = .out) :
    agentFail c code moved bs tg s =
      if moved ≤ x.size then
        ((s.withMem s.mem).setToggle c tg).setChan c
          { s.chan c with actual := moved, pending := false, done := true, err := true, errCode := code }
      else s := by
  simp only [agentFail, hx, hd]
  rfl

end agent

theorem mem_transferUpdate (c : Chan) (ch : Channel) (tg : Bool) (m : Memory) (s : State) :
    (((s.withMem m).setToggle c tg).setChan c ch).mem = m := by
  unfold State.setToggle
  split <;> rfl

/-- Settles O20: an event its agent cannot make is no step; any other is one update, of the memory first where it is IN. -/
theorem agentEndsItsTransfer : Obligations.AgentEndsItsTransfer := by
  intro s c bs tg code moved t v
  refine ⟨fun h => ?_, fun x hx => ?_⟩
  · exact ⟨by show agentComplete c bs tg s = s; rw [agentComplete, h],
      by show agentFail c code moved bs tg s = s; rw [agentFail, h]⟩
  refine ⟨fun hd hbad => ?_, fun hd hbad => ?_, fun hd hbad => ?_, fun hd hl hadm => ?_, fun hd hadm => ?_, fun hd hm => ?_⟩
  · have no : ¬(bs.length ≤ x.size && s.admits anyOwner x.addr bs.length) = true := by
      rw [Bool.and_eq_true, decide_eq_true_eq]
      rintro ⟨h1, h2⟩
      rcases hbad with h | h
      · omega
      · rw [h] at h2; cases h2
    exact ⟨(agentComplete_in hx bs tg hd).trans (if_neg no), (agentFail_in hx bs tg code moved hd).trans (if_neg no)⟩
  · exact (agentComplete_out hx bs tg hd).trans (if_neg (by rw [hbad]; decide))
  · exact (agentFail_out hx bs tg code moved hd).trans (if_neg (by omega))
  · have yes : (bs.length ≤ x.size && s.admits anyOwner x.addr bs.length) = true := by
      rw [hadm, Bool.and_true]
      exact decide_eq_true hl
    have ht : t = _ := (agentComplete_in hx bs tg hd).trans (if_pos yes)
    have hv : v = _ := (agentFail_in hx bs tg code moved hd).trans (if_pos yes)
    have htm : t.mem = writeBytes s.mem x.addr bs := by rw [ht, mem_transferUpdate]
    refine ⟨ht ▸ transferEnded_update .., hv ▸ transferEnded_update .., ?_, ?_, fun a ha => ?_⟩
    · rw [htm, hv, mem_transferUpdate]
    · rw [htm, readBytes_writeBytes]
    · rw [htm, readByte_writeBytes_out _ _ _ _ ha]
  · have ht : t = _ := (agentComplete_out hx bs tg hd).trans (if_pos hadm)
    exact ⟨ht ▸ transferEnded_update .., by rw [ht, mem_transferUpdate]⟩
  · have hv : v = _ := (agentFail_out hx bs tg code moved hd).trans (if_pos hm)
    exact ⟨hv ▸ transferEnded_update .., by rw [hv, mem_transferUpdate]⟩

/-! ### What a point changes -/

/-- Two states that agree in every field are one. -/
theorem State.eq_of_fields {s t : State} (otg : t.otg = s.otg) (port : t.port = s.port) (hcState : t.hcState = s.hcState)
    (ep0Stage : t.ep0Stage = s.ep0Stage) (secondary : t.secondary = s.secondary) (dma : t.dma = s.dma) (ep0 : t.ep0 = s.ep0)
    (ep : t.ep = s.ep) (async : t.async = s.async) (mem : t.mem = s.mem) (alloc : t.alloc = s.alloc)
    (trbStore : t.trbStore = s.trbStore) (seq : t.seq = s.seq) (args : t.args = s.args) (regtrace : t.regtrace = s.regtrace)
    (trace : t.trace = s.trace) (fault : t.fault = s.fault) (refused : t.refused = s.refused) (cfg : t.cfg = s.cfg)
    (hostQueue : t.hostQueue = s.hostQueue) (oracle : t.oracle = s.oracle) : t = s := by
  cases s
  cases t
  simp_all

/-- The fields the other agents can write (R8). -/
theorem AgentFrame.eq_update {s t : State} (f : AgentFrame s t) :
    t = { s with
          otg := { s.otg with flags := t.otg.flags, inputs := t.otg.inputs, wakeDisable := t.otg.wakeDisable }
          dma := { s.dma with ch := t.dma.ch }, ep0 := { s.ep0 with toggle := t.ep0.toggle }, ep := t.ep, mem := t.mem
          alloc := t.alloc, oracle := t.oracle, seq := { s.seq with deferred := t.seq.deferred }
          hostQueue := t.hostQueue, refused := t.refused } := by
  have hd : t.dma = { s.dma with ch := t.dma.ch } := by
    show t.dma = ⟨s.dma.burstMode, s.dma.sel, t.dma.ch⟩
    rw [← f.sel, ← f.burst]
  have hq : t.seq = { s.seq with deferred := t.seq.deferred } := by
    show t.seq = ⟨s.seq.busy, s.seq.cmd, s.seq.inTick, t.seq.deferred⟩
    rw [← f.busy, ← f.cmd, ← f.inTick]
  exact State.eq_of_fields f.otg f.port f.hcState f.ep0Stage f.secondary hd f.ep0 rfl f.async rfl rfl f.trbStore hq f.args
    f.regtrace f.trace f.fault rfl f.cfg rfl rfl

theorem State.agentTrb_eq_none {s : State} {c : Chan} (h : (s.chan c).enabled = false ∨ (s.chan c).pending = false) :
    s.agentTrb c = none := by
  unfold State.agentTrb
  rcases h with h | h <;> simp [h]

/-- Settles O21: the frame of the other agents at one point. -/
theorem otherAgentsFrame : Obligations.OtherAgentsFrame := by
  intro s t
  have f : AgentFrame s t := agentFrame_interleave s
  refine ⟨fun c hc => ⟨(f.chan c).eq_of_idle hc, f.toggle c (State.agentTrb_eq_none hc)⟩, fun c => ?_, f.endpoint, f.flags,
    f.eq_update, fun hb => ⟨f.wake hb, f.alloc hb, f.hostQueue hb, f.mem hb⟩⟩
  rcases f.chan c with e | ⟨-, -, -, e, -⟩
  · exact .inl e
  · exact .inr e

end Sys2Proof.Machine
end

section
/-! O26, O28, O29, O30. The Disconnect of a poll and its spin, and what a whole poll answers, alone or in a port-status query
(spec 40_otg_state_machine R97 to R109; 45_host_interface R234). -/

namespace Sys2Proof.Machine

/-! ### Both polls as one -/

theorem exec_poll {i : Instr} (hi : IsPoll i) (s : State) :
    exec i s = conclude (otgPoll (endPollOf i) (s.started i)) := by
  rcases hi with rfl | rfl <;> rfl

/-! ### Actions (a) and (b) -/

/-- After a VBUS error the role is A_VBUS_ERR, else actions (a) and (b) leave it (R100). -/
theorem pollHead_otgState (f : OtgFlags) (s : State) :
    (pollHead f s).otg.state = if f.vbusErr then .aVbusErr else s.otg.state := by
  rw [pollHead_eq]
  split
  · rw [vbusErrorAction_eq]
  · rfl

theorem pollHead_inputs (f : OtgFlags) (s : State) : (pollHead f s).otg.inputs = s.otg.inputs := by
  rw [pollHead_eq]
  split
  · rw [vbusErrorAction_eq]
    rfl
  · rfl

theorem pollHead_oracle (f : OtgFlags) (s : State) : (pollHead f s).oracle = s.oracle := by
  rw [pollHead_eq]
  split
  · rw [vbusErrorAction_eq]
    rfl
  · rfl

theorem pollHead_of_no_vbusErr {s : State} (h : (polled s).vbusErr = false) :
    pollHead (polled s) s =
      s.setFlags
        { s.otg.flags with
          srpDet := s.otg.flags.srpDet && s.otg.mask.srpDet
          bSessEnd := s.otg.flags.bSessEnd && s.otg.mask.bSessEnd } := by
  rw [pollHead_eq, h, ← transitionalClear_polled]
  rfl

/-- A sample with no transitional flag and no VBUS error leaves actions (a) and (b) out. -/
theorem pollHead_of_nothing {f : OtgFlags} (s : State) (hs : f.srpDet = false) (hb : f.bSessEnd = false)
    (hv : f.vbusErr = false) : pollHead f s = s := by
  rw [pollHead_eq, hv, transitionalClear_of_not_sampled s hs hb]
  rfl

/-! ### The Disconnect -/

theorem disconnectEnd_eq (prior : OtgState) (s : State) :
    disconnectEnd prior s =
      { s with
        otg :=
          { s.otg with vbusOn := s.otg.vbusOn || decide (prior = .aSuspend), state := .aIdle, wakeDisable := true }
        port := { status := 0x0100, change := s.port.change ||| 0x0001 }
        regtrace := s.regtrace ++ [.fifoReset ⟨0, .out⟩, .fifoReset ⟨0, .in_⟩] } := by
  have vbus : (if prior = .aSuspend then true else s.otg.vbusOn) = (s.otg.vbusOn || decide (prior = .aSuspend)) := by
    by_cases h : prior = .aSuspend <;> simp [h]
  have log : s.regtrace ++ [RegOp.fifoReset ⟨0, .out⟩] ++ [.fifoReset ⟨0, .in_⟩] =
      s.regtrace ++ [.fifoReset ⟨0, .out⟩, .fifoReset ⟨0, .in_⟩] := List.append_assoc _ _ _
  rw [← vbus, ← log]
  rfl

/-- A Disconnect that ends, with the rest of its poll (R103, R106). -/
theorem endPollOf_disconnected {i : Instr} (hi : IsPoll i) (prior : OtgState) (idle : Bool) (s : State) :
    endPollOf i (pollTail idle (disconnectEnd prior s)) = pollDisconnected i prior idle s := by
  rw [disconnectEnd_eq]
  cases idle with
  | false => rcases hi with rfl | rfl <;> rfl
  | true =>
    rw [pollTail, if_pos rfl, idleChangeAction_eq]
    rcases hi with rfl | rfl <;> rfl

theorem spinExceeded_eq_false {p : Params} {n : Nat} (h : ∀ k, p.disconnectSpinBound = some k → n < k) :
    spinExceeded p n = false := by
  unfold spinExceeded
  split
  · rfl
  · next k hk => exact decide_eq_false (Nat.not_le.2 (h k hk))

theorem spinExceeded_eq_true {p : Params} {n k : Nat} (hk : p.disconnectSpinBound = some k) (h : k ≤ n) :
    spinExceeded p n = true := by
  unfold spinExceeded
  rw [hk]
  exact decide_eq_true h

section sample
variable {prior : OtgState} {n : Nat} {b : Bool} {i : Instr} {s : State}

theorem spinSample_holds (ret : State → State) (hr : s.otg.inputs.hwHostRole = true)
    (hk : ∀ k, s.cfg.disconnectSpinBound = some k → n + 1 < k) :
    spinSample prior n b ret s = .hold (s.setPos (.spin prior (n + 1) b)) := by
  rw [spinSample, if_pos hr, spinExceeded_eq_false hk]
  rfl

theorem spinSample_faults (ret : State → State) {k : Nat} (hr : s.otg.inputs.hwHostRole = true)
    (hk : s.cfg.disconnectSpinBound = some k) (hn : k ≤ n + 1) :
    spinSample prior n b ret s = .fault .disconnectSpinExceeded s := by
  rw [spinSample, if_pos hr, spinExceeded_eq_true hk hn]
  rfl

theorem spinSample_ends (hi : IsPoll i) (hr : s.otg.inputs.hwHostRole = false) :
    spinSample prior n b (endPollOf i) s = .done () (pollDisconnected i prior b s) := by
  rw [spinSample, hr, endPollOf_disconnected hi]
  rfl

end sample

/-- The Sequencer's position after a point at which no tick runs. -/
theorem State.atPos_seq {s : State} (p : Pos) (h : s.seq.inTick = false) : (s.atPos p).seq = (s.setPos p).seq :=
  (agentFrame_interleave (s.setPos p)).seq h

/-- A poll that runs Disconnect comes to its first sample (R99, R101, R103). -/
theorem exec_poll_of_disconnect {i : Instr} (hi : IsPoll i) {s : State} (hv : (polled (s.started i)).vbusErr = false)
    (hc : (polled (s.started i)).connChange = true) (hr : hostOrSuspend s.otg.state = true)
    (hw : (s.started i).otg.inputs.hwWait = true) :
    exec i s = conclude (spinSample s.otg.state 0 (polled (s.started i)).idleChange (endPollOf i)
      (disconnectSpin s.otg.state (polled (s.started i)).idleChange (pollHead (polled (s.started i)) (s.started i)))) := by
  have ho : (pollHead (polled (s.started i)) (s.started i)).otg.state = s.otg.state := by
    rw [pollHead_otgState, hv, State.started_otgState]
    rfl
  rw [exec_poll hi, otgPoll_of_disconnect hc (by rw [ho]; exact hr) (by rw [pollHead_inputs]; exact hw)]
  dsimp only
  rw [ho]

/-- Settles O30: the first sample is taken where the other agents leave the poll, every later one where the Sequencer holds. -/
theorem spinHoldsFaultsOrEnds : Obligations.SpinHoldsFaultsOrEnds := by
  constructor
  · intro s i hi u v w hv hc hr hw
    have hexec := exec_poll_of_disconnect hi hv hc hr hw
    have head : disconnectSpin s.otg.state (polled u).idleChange (pollHead (polled u) u) = w := by
      rw [pollHead_of_no_vbusErr hv, State.started_mask]
      rfl
    rw [head] at hexec
    have hcfg : w.cfg = s.cfg := (State.atPos_cfg ..).trans (State.started_cfg s i)
    have hseq : w.seq = ⟨true, some ⟨i, 0, .spin s.otg.state 0 (polled u).idleChange⟩, false, []⟩ := by
      have hu : v.seq = (s.begin i).seq := State.started_seq s i
      rw [State.atPos_seq _ (by rw [hu]; rfl)]
      show Seq.mk v.seq.busy (v.seq.cmd.map _) v.seq.inTick v.seq.deferred = _
      rw [hu]
      rfl
    refine ⟨fun h1 hk => ?_, fun k h1 hk hn => ?_, fun h0 => ?_⟩
    · rw [hexec, spinSample_holds _ h1 (by rw [hcfg]; exact hk), conclude_hold, State.setPos, hseq]
      rfl
    · rw [hexec, spinSample_faults _ h1 (by rw [hcfg]; exact hk) hn]
      rfl
    · rw [hexec, spinSample_ends hi h0]
      rfl
  · intro s i round prior n b hun hi hcmd
    have hstep : step s = match conclude (spinSample prior n b (endPollOf i) s) with
        | .next t => .next t.interleave
        | .fault f => .fault f
        | .refused r => .refused r := by
      simp only [step, sequencerStep, hun.1, hun.2, hcmd, resume] <;> rfl
    refine ⟨fun h1 hk => ?_, fun k h1 hk hn => ?_, fun h0 => ?_⟩
    · rw [hstep, spinSample_holds _ h1 hk, conclude_hold, State.setPos, hcmd]
      rfl
    · rw [hstep, spinSample_faults _ h1 hk hn]
      rfl
    · rw [hstep, spinSample_ends hi h0]
      rfl

/-- Settles O26: no transitional flag and no VBUS error is sampled, so the poll starts at the role it finds. -/
theorem pollRunsDisconnectOrLogsBabble : Obligations.PollRunsDisconnectOrLogsBabble := by
  intro s u v w hp hr
  have head : pollHead (polled u) u = u := by rw [hp]; exact pollHead_of_nothing u rfl rfl rfl
  have hc : (polled u).connChange = true := by rw [hp]
  have hi : (polled u).idleChange = false := by rw [hp]; rfl
  refine ⟨fun hw h0 => ?_, fun hw => ?_⟩
  · have hexec := exec_poll_of_disconnect (i := .otgPoll) (.inl rfl) (by rw [hp]; rfl) hc hr hw
    have hwait : disconnectSpin s.otg.state (polled u).idleChange (pollHead (polled u) u) = w := by rw [head, hi]; rfl
    have hvbus : w.otg.vbusOn = s.otg.vbusOn := by
      rw [show w.otg = _ from (agentFrame_interleave _).otg]
      show u.otg.vbusOn = _
      rw [show u.otg = _ from (agentFrame_interleave _).otg]
      rfl
    have hport : w.port = s.port := (State.atPos_port ..).trans (State.started_port s _)
    have hlog : w.regtrace = s.regtrace := (State.atPos_regtrace ..).trans (State.started_regtrace s _)
    have htrace : w.trace = s.trace := (State.atPos_trace ..).trans (State.started_trace s _)
    rw [hexec, hwait, hi, spinSample_ends (.inl rfl) h0, ← hvbus, ← hport, ← hlog, ← htrace]
    rfl
  · have hs : u.otg.state = s.otg.state := State.started_otgState s _
    have hu : (s.started .otgPoll).trace = s.trace := State.started_trace s _
    rw [exec_poll (.inl rfl), otgPoll_of_babble hc (by rw [head, hs]; exact hr) (by rw [head]; exact hw), head, hi, ← hs,
      ← hu]
    show Host.Outcome.next ((babble u).finish .otgPoll .success .none) = _
    have log : u.trace ++ [Event.babble u.otg.state] ++ [.result 0x10 .success .none] =
        u.trace ++ [.babble u.otg.state, .result 0x10 .success .none] := List.append_assoc _ _ _
    rw [← log]
    rfl

/-- Settles O28: the VBUS error leaves a role that is none of a host, so Connect follows, and the idle handler closes. -/
theorem pollRunsAllActionsInOrder : Obligations.PollRunsAllActionsInOrder := by
  intro s u hp
  have hsrp : (u.otg.flags.srpDet && u.otg.mask.srpDet) = false := by
    have h : (u.otg.flags.srpDet && !u.otg.mask.srpDet) = true := congrArg OtgFlags.srpDet hp
    rw [Bool.not_eq_true' _ |>.mp (Bool.and_eq_true_iff.1 h).2, Bool.and_false]
  have hsess : (u.otg.flags.bSessEnd && u.otg.mask.bSessEnd) = false := by
    have h : (u.otg.flags.bSessEnd && !u.otg.mask.bSessEnd) = true := congrArg OtgFlags.bSessEnd hp
    rw [Bool.not_eq_true' _ |>.mp (Bool.and_eq_true_iff.1 h).2, Bool.and_false]
  have head : pollHead (polled u) u = vbusErrorAction (transitionalClear (polled u) u) := by rw [pollHead_eq, hp]; rfl
  have hexec := exec_otgPoll_of_connect (s := s) (u := u) rfl (by rw [hp]) (by rw [pollHead_otgState, hp]; rfl)
  have tail (v : State) : pollTail (polled u).idleChange v = idleChangeAction v := by rw [hp]; rfl
  rw [tail, head, transitionalClear_polled, hsrp, hsess, vbusErrorAction_eq, idleChangeAction_eq] at hexec
  refine ⟨_, hexec, rfl, rfl, rfl, rfl, rfl, ?_, ?_, ?_, ?_, ?_⟩
  · exact getLsbD_connectStatus _ _ 0
  · refine (getLsbD_connectStatus _ _ 3).trans ?_
    rw [← State.started_port s .otgPoll, ← State.started_vbusErrCount s .otgPoll]
    show (if u.otg.vbusErrCount + 1 < 3 then u.port else _).status.getLsbD 3 = (u.port.status.getLsbD 3 || _)
    by_cases h : u.otg.vbusErrCount + 1 < 3
    · rw [if_pos h, decide_eq_false (Nat.not_le.2 h), Bool.or_false]
    · rw [if_neg h, decide_eq_true (Nat.not_lt.1 h), Bool.or_true]
      exact (BitVec.getLsbD_or ..).trans (Bool.or_true _)
  · exact (getLsbD_setBit _ _ 0 (by decide)).trans (Bool.or_true _)
  · exact congrArg (· ++ _) (State.started_trace s _)
  · exact State.started_regtrace s _

end Sys2Proof.Machine
end

section
/-! O29, O32, O34, O35. A poll and a query answer from the same poll; which commands write the OTG state, the power state, the
change bits and OVERCURRENT (spec 40_otg_state_machine; 45_host_interface R234 to R240). -/

namespace Sys2Proof.Machine

/-! ### A poll does not read which command it runs in -/

theorem pollHead_cmd (f : OtgFlags) (s : State) (r : Option Running) :
    pollHead f (s.withCmd r) = (pollHead f s).withCmd r := by
  rw [pollHead_eq, pollHead_eq]
  split
  · rw [vbusErrorAction_eq, vbusErrorAction_eq]
    rfl
  · rfl

theorem pollTail_cmd (b : Bool) (s : State) (r : Option Running) : pollTail b (s.withCmd r) = (pollTail b s).withCmd r := by
  unfold pollTail
  split
  · rw [idleChangeAction_eq, idleChangeAction_eq]
    rfl
  · rfl

theorem started_cmd (s : State) (i j : Instr) :
    s.started i = (s.started j).withCmd (some { instr := i, round := 0, pos := .line .start }) :=
  interleave_cmd (s.begin j) _

theorem disconnectSpin_cmd (prior : OtgState) (b : Bool) (s : State) (r : Option Running) :
    ∃ r', disconnectSpin prior b (s.withCmd r) = (disconnectSpin prior b s).withCmd r' :=
  ⟨_, interleave_cmd ((disconnectBegin s).setPos (.spin prior 0 b)) (r.map fun x : Running => { x with pos := .spin prior 0 b })⟩

theorem spinSample_of_no_role {prior : OtgState} {n : Nat} {b : Bool} (ret : State → State) {s : State}
    (h : s.otg.inputs.hwHostRole = false) :
    spinSample prior n b ret s = .done () (ret (pollTail b (disconnectEnd prior s))) := by
  rw [spinSample, h]
  rfl

/-- The hardware's role at the first sample of a Disconnect is the one the other agents leave at the next point. -/
theorem disconnectSpin_inputs (prior : OtgState) (b : Bool) {s t : State} (ho : t.oracle = s.oracle)
    (hi : t.otg.inputs = s.otg.inputs) : (disconnectSpin prior b t).otg.inputs = s.interleave.otg.inputs :=
  interleave_inputs (s := s) (t := (disconnectBegin t).setPos (.spin prior 0 b)) ho hi

/-- A poll that is not held in the spin comes to one end, whatever its return and whichever command it runs in. -/
theorem otgPoll_completes {s : State}
    (h : (polled s).vbusErr = false → (polled s).connChange = true → hostOrSuspend s.otg.state = true →
      s.otg.inputs.hwWait = true → s.interleave.otg.inputs.hwHostRole = false) (r : Option Running) :
    ∃ u r', (∀ ret, otgPoll ret s = .done () (ret u)) ∧ ∀ ret, otgPoll ret (s.withCmd r) = .done () (ret (u.withCmd r')) := by
  have hp : polled (s.withCmd r) = polled s := rfl
  have head := pollHead_cmd (polled s) s r
  cases hc : (polled s).connChange with
  | false =>
    exact ⟨_, r, fun _ => otgPoll_of_no_connChange hc, fun ret => by
      rw [otgPoll_of_no_connChange (hp ▸ hc), hp, head, pollTail_cmd]⟩
  | true =>
    cases hr : hostOrSuspend (pollHead (polled s) s).otg.state with
    | false =>
      exact ⟨_, r, fun _ => otgPoll_of_connect hc hr, fun ret => by
        rw [otgPoll_of_connect (hp ▸ hc) (by rw [hp, head]; exact hr), hp, head, ← pollTail_cmd]
        rfl⟩
    | true =>
      cases hw : (pollHead (polled s) s).otg.inputs.hwWait with
      | false =>
        exact ⟨_, r, fun _ => otgPoll_of_babble hc hr hw, fun ret => by
          rw [otgPoll_of_babble (hp ▸ hc) (by rw [hp, head]; exact hr) (by rw [hp, head]; exact hw), hp, head,
            ← pollTail_cmd]
          rfl⟩
      | true =>
        have hv : (polled s).vbusErr = false := by
          rw [pollHead_otgState] at hr
          cases hv : (polled s).vbusErr with
          | false => rfl
          | true => rw [hv] at hr; cases hr
        have hrole : (disconnectSpin (pollHead (polled s) s).otg.state (polled s).idleChange
            (pollHead (polled s) s)).otg.inputs.hwHostRole = false := by
          rw [disconnectSpin_inputs _ _ (pollHead_oracle _ s) (pollHead_inputs _ s)]
          rw [pollHead_otgState, hv] at hr
          rw [pollHead_inputs] at hw
          exact h hv hc hr hw
        obtain ⟨r', hr'⟩ := disconnectSpin_cmd (pollHead (polled s) s).otg.state (polled s).idleChange
          (pollHead (polled s) s) r
        refine ⟨_, r', fun ret => (otgPoll_of_disconnect hc hr hw).trans (spinSample_of_no_role ret hrole), fun ret => ?_⟩
        rw [otgPoll_of_disconnect (hp ▸ hc) (by rw [hp, head]; exact hr) (by rw [hp, head]; exact hw), hp, head]
        dsimp only
        rw [show ((pollHead (polled s) s).withCmd r).otg.state = (pollHead (polled s) s).otg.state from rfl, hr',
          ← pollTail_cmd]
        exact spinSample_of_no_role ret hrole

/-- Settles O29: the query runs the poll's meaning on a state that differs in its command alone, and returns the cached pair
where the poll ends. -/
theorem pollAndQueryComplete : Obligations.PollAndQueryComplete := by
  intro s u h
  obtain ⟨w, r, hpoll, hquery⟩ := otgPoll_completes (s := u)
    (by rw [State.started_otgState]; exact h) (some { instr := .rhGetPortStatus, round := 0, pos := .line .start })
  have ht : exec .otgPoll s = .next (endOtgPoll w) := congrArg conclude (hpoll endOtgPoll)
  have hv : exec .rhGetPortStatus s = .next (endRhGetPortStatus (w.withCmd r)) := by
    show conclude (otgPoll endRhGetPortStatus (s.started .rhGetPortStatus)) = _
    rw [started_cmd s .rhGetPortStatus .otgPoll, hquery]
    rfl
  refine ⟨_, _, ht, hv, rfl, List.getLast?_concat, ?_, rfl⟩
  show w.trace ++ [_] = (w.trace ++ [_]).dropLast ++ [_]
  rw [List.dropLast_concat]
  rfl

/-! ### What a command executes, begun or gone on with -/

/-- What the Sequencer's part of a step on command `i` is made of. -/
inductive Executed (i : Instr) (s t : State) : Prop where
  | engine (h : Ends i s t)
  | begun (h : exec i s = .next t) (ha : Acts i (s.started i) t)
  | resumed (hs : Spinning s) (hi : IsPoll i) {prior : OtgState} {n : Nat} {b : Bool}
      (h : conclude (spinSample prior n b (endPollOf i) s) = .next t) (ha : Acts i s t)
  | stays (h : t = s)

theorem acts_endPollOf (i j : Instr) (s : State) : Acts i s (endPollOf j s) := by
  unfold endPollOf
  split <;> exact acts_finish ..

theorem Executes.executed {i : Instr} {s t : State} (h : Executes i s t) : Executed i s t := by
  rcases h with h | ⟨k, p, hc, hs, h⟩
  · cases hi : EngineCmd i with
    | true => exact .engine (engine_ends hi h)
    | false => exact .begun h (host_acts hi h)
  · cases p with
    | line | waiting => cases h; exact .stays rfl
    | spin prior n b =>
      have hsp := hs.spinning_of_cmd hc
      have hi : IsPoll i := by
        obtain ⟨j, m, b', hseq, hj, -⟩ := hsp
        rw [hseq] at hc
        cases hc
        exact hj
      exact .resumed hsp hi h (acts_spinSample hi (acts_endPollOf i i) h)

/-- What an engine command leaves of the OTG state, the power state and the port (R31, R43). -/
theorem Ends.frame {i : Instr} {s t : State} (h : Ends i s t) :
    t.otg.state = s.otg.state ∧ t.hcState = s.hcState ∧ t.port = s.port := by
  cases h with
  | returned st o hr | stuck hr =>
    have ho := congrArg Otg.state hr.frame.otg
    exact ⟨ho, hr.frame.hcState, hr.frame.port⟩

/-- What every action of a command keeps, relative to where it began, the actions keep. -/
theorem Acts.keeps {i : Instr} {P : State → Prop} (hP : ∀ s t, Act i s t → P s → P t) {s t : State} (h : Acts i s t)
    (hs : P s) : P t := by
  induction h with
  | refl => exact hs
  | tail _ h ih => exact hP _ _ h ih

theorem Act.otgState {i : Instr} {s t : State} (hi : ¬WritesOtgState i) (h : Act i s t) : t.otg.state = s.otg.state := by
  have hpoll : ¬IsPoll i := fun hp => hi (hp.imp_right .inl)
  cases h with
  | agents => rw [(agentFrame_interleave s).otg]
  | vbusError hp | connect hp | disconnectEnd prior hp | idleChange hp => exact absurd hp hpoll
  | suspend en h =>
    refine absurd ?_ hi
    rcases h with rfl | ⟨rfl, -⟩ | ⟨rfl, -⟩
    · exact .inr (.inr (.inl ⟨en, rfl⟩))
    · exact .inr (.inr (.inr (.inl rfl)))
    · exact .inr (.inr (.inr (.inr rfl)))
  | reset en => cases en <;> rfl
  | _ => rfl

theorem Act.hcState {i : Instr} {s t : State} (hi : ∀ st, i ≠ .hcSetState st) (h : Act i s t) : t.hcState = s.hcState := by
  cases h with
  | agents => exact (agentFrame_interleave s).hcState
  | vbusError => rw [vbusErrorAction_eq]
  | idleChange => rw [idleChangeAction_eq]; rfl
  | suspend en =>
    rcases portSuspend_cases en s with e | e | e
    · rw [e]
    · rw [e]
    · rw [e]; rfl
  | reset en => cases en <;> rfl
  | power x h => exact absurd h (hi x)
  | _ => rfl

/-- Settles O32: no micro-step writes either, and of the actions only those of the named commands do. -/
theorem onlyOtgCommandsWriteTheOtgState : Obligations.OnlyOtgCommandsWriteTheOtgState := by
  intro i s t h
  cases h.executed with
  | engine h => exact ⟨fun _ => h.frame.1, fun _ => h.frame.2.1⟩
  | begun _ ha =>
    exact ⟨fun hi => ha.keeps (P := fun u => u.otg.state = s.otg.state) (fun _ _ a hu => (a.otgState hi).trans hu)
        (State.started_otgState s i),
      fun hi => ha.keeps (P := fun u => u.hcState = s.hcState) (fun _ _ a hu => (a.hcState hi).trans hu)
        (State.started_hcState s i)⟩
  | resumed _ hp _ ha =>
    exact ⟨fun hi => absurd (hp.imp_right .inl) hi,
      fun hi => ha.keeps (P := fun u => u.hcState = s.hcState) (fun _ _ a hu => (a.hcState hi).trans hu) rfl⟩
  | stays h => exact ⟨fun _ => by rw [h], fun _ => by rw [h]⟩

/-! ### The change bits -/

/-- An action sets C_CONNECTION or C_OVERCURRENT, or clears the change bit of a port feature, or leaves the change bits (R240). -/
theorem Act.change {i : Instr} {s t : State} (h : Act i s t) (j : Nat) :
    t.port.change.getLsbD j = s.port.change.getLsbD j ∨ t.port.change.getLsbD j = true ∧ (j = 0 ∨ j = 3) ∨
      (∃ f, i = .rhClearPortFeature f) ∧ t.port.change.getLsbD j = false := by
  have set (u : State) (b : Nat) (hb : b = 0 ∨ b = 3) (hu : u.port.change = setBit s.port.change b) :
      u.port.change.getLsbD j = s.port.change.getLsbD j ∨ u.port.change.getLsbD j = true ∧ (j = 0 ∨ j = 3) ∨
        (∃ f, i = .rhClearPortFeature f) ∧ u.port.change.getLsbD j = false := by
    rw [hu, getLsbD_setBit _ _ _ (by omega)]
    by_cases hj : j = b
    · exact .inr (.inl ⟨by simp [hj], hj ▸ hb⟩)
    · exact .inl (by simp [hj])
  cases h with
  | agents => exact .inl (by rw [(agentFrame_interleave s).port])
  | vbusError =>
    rcases vbusErrorAction_cases s with ⟨e, -⟩ | ⟨e, -⟩
    · rw [e]; exact .inl rfl
    · exact set _ 3 (.inr rfl) (by rw [e]; rfl)
  | connect => exact set _ 0 (.inl rfl) rfl
  | disconnectEnd prior => exact set _ 0 (.inl rfl) rfl
  | idleChange => rw [idleChangeAction_eq]; exact .inl rfl
  | suspend en => rcases portSuspend_cases en s with e | e | e <;> (rw [e]; exact .inl rfl)
  | reset en => cases en <;> exact .inl rfl
  | clearChange b hf =>
    rw [show (s.clearChange b).port.change = clearBit s.port.change b from rfl, getLsbD_clearBit]
    by_cases hj : j = b
    · exact .inr (.inr ⟨hf, by simp [hj]⟩)
    · exact .inl (by simp [hj])
  | _ => exact .inl rfl

/-- Settles O34: micro-steps leave the port; of the actions only the clear of a change bit clears one. -/
theorem changeBitsAreClearedOnlyByTheFeature : Obligations.ChangeBitsAreClearedOnlyByTheFeature := by
  intro i s t h
  have acts {u : State} (hu : u.port = s.port) (ha : Acts i u t) :
      ((∀ f, i ≠ .rhClearPortFeature f) → ∀ j, s.port.change.getLsbD j = true → t.port.change.getLsbD j = true) ∧
        (∀ j, t.port.change.getLsbD j = true → s.port.change.getLsbD j = true ∨ j = 0 ∨ j = 3) := by
    rw [← hu]
    refine ⟨fun hi j => ?_, fun j => ?_⟩
    · refine ha.keeps (P := fun v => v.port.change.getLsbD j = true) fun v w a hv => ?_
      rcases a.change j with e | ⟨e, -⟩ | ⟨⟨f, hf⟩, -⟩
      · rw [e]; exact hv
      · exact e
      · exact absurd hf (hi f)
    · refine ha.keeps (P := fun v => v.port.change.getLsbD j = true → u.port.change.getLsbD j = true ∨ j = 0 ∨ j = 3)
        (fun v w a hv hw => ?_) .inl
      rcases a.change j with e | ⟨-, e⟩ | ⟨-, e⟩
      · exact hv (e ▸ hw)
      · exact .inr e
      · rw [e] at hw; cases hw
  cases h.executed with
  | engine h => rw [h.frame.2.2]; exact ⟨fun _ _ hj => hj, fun _ hj => .inl hj⟩
  | begun _ ha => exact acts (State.started_port s i) ha
  | resumed _ _ _ ha => exact acts rfl ha
  | stays h => rw [h]; exact ⟨fun _ _ hj => hj, fun _ hj => .inl hj⟩

/-! ### OVERCURRENT -/

/-- No action outside a poll writes OVERCURRENT (R239). -/
theorem Act.overcurrent {i : Instr} {s t : State} (hi : ¬IsPoll i) (h : Act i s t) :
    t.port.status.getLsbD 3 = s.port.status.getLsbD 3 := by
  have set (b : Nat) (hb : b ≠ 3) (hlt : b < 16) (v : BitVec 16) : (setBit v b).getLsbD 3 = v.getLsbD 3 := by
    rw [getLsbD_setBit _ _ _ hlt, decide_eq_false (Ne.symm hb), Bool.or_false]
  have clear (b : Nat) (hb : b ≠ 3) (v : BitVec 16) : (clearBit v b).getLsbD 3 = v.getLsbD 3 := by
    rw [getLsbD_clearBit, decide_eq_true (Ne.symm hb), Bool.and_true]
  cases h with
  | agents _ hp | vbusError hp | connect hp | disconnectEnd _ hp | idleChange hp => exact absurd hp hi
  | suspend en =>
    rcases portSuspend_cases en s with e | e | e <;> rw [e]
    · exact set 2 (by decide) (by decide) _
    · exact clear 2 (by decide) _
    · rfl
  | reset en => exact (getLsbD_portReset en s 3).trans rfl
  | setStatus b hb => rcases hb with rfl | rfl | rfl <;> exact set _ (by decide) (by decide) _
  | clearStatus b hb => rcases hb with rfl | rfl | rfl <;> exact clear _ (by decide) _
  | _ => rfl

theorem pollTail_port (b : Bool) (s : State) : (pollTail b s).port = s.port := by
  unfold pollTail
  split
  · rw [idleChangeAction_eq]; rfl
  · rfl

theorem endPollOf_port (i : Instr) (s : State) : (endPollOf i s).port = s.port := by
  unfold endPollOf
  split <;> rfl

/-- Actions (a) and (b) set OVERCURRENT at the third consecutive VBUS error (R100). -/
theorem pollHead_overcurrent (f : OtgFlags) (s : State) :
    (pollHead f s).port.status.getLsbD 3 =
      (s.port.status.getLsbD 3 || f.vbusErr && decide (3 ≤ s.otg.vbusErrCount + 1)) := by
  rw [pollHead_eq]
  cases f.vbusErr with
  | false => exact (Bool.or_false _).symm
  | true =>
    rw [if_pos rfl, vbusErrorAction_eq, Bool.true_and]
    show (if s.otg.vbusErrCount + 1 < 3 then s.port else _).status.getLsbD 3 = _
    by_cases h : s.otg.vbusErrCount + 1 < 3
    · rw [if_pos h, decide_eq_false (Nat.not_le.2 h), Bool.or_false]
    · rw [if_neg h, decide_eq_true (Nat.not_lt.1 h), Bool.or_true]
      exact (BitVec.getLsbD_or ..).trans (Bool.or_true _)

/-- A poll leaves OVERCURRENT as actions (a) and (b) do, unless it ends a Disconnect. -/
theorem exec_poll_overcurrent {i : Instr} (hi : IsPoll i) {s t : State} (h : exec i s = .next t) :
    t.port.status.getLsbD 3 = (s.port.status.getLsbD 3 ||
        (polled (s.started i)).vbusErr && decide (3 ≤ s.otg.vbusErrCount + 1)) ∨
      t.port.status = 0x0100 ∧ (polled (s.started i)).connChange = true ∧ hostOrSuspend s.otg.state = true := by
  let u := s.started i
  have head : (pollHead (polled u) u).port.status.getLsbD 3 =
      (s.port.status.getLsbD 3 || (polled u).vbusErr && decide (3 ≤ s.otg.vbusErrCount + 1)) := by
    rw [pollHead_overcurrent, State.started_port, State.started_vbusErrCount]
  have kept {v : State} (e : t = endPollOf i (pollTail (polled u).idleChange v))
      (hv : v.port.status.getLsbD 3 = (pollHead (polled u) u).port.status.getLsbD 3) :
      t.port.status.getLsbD 3 =
        (s.port.status.getLsbD 3 || (polled u).vbusErr && decide (3 ≤ s.otg.vbusErrCount + 1)) := by
    rw [e, endPollOf_port, pollTail_port, hv, head]
  rw [exec_poll hi] at h
  cases hc : (polled u).connChange with
  | false =>
    rw [otgPoll_of_no_connChange hc] at h
    cases h
    exact .inl (kept rfl rfl)
  | true =>
    cases hr : hostOrSuspend (pollHead (polled u) u).otg.state with
    | false =>
      rw [otgPoll_of_connect hc hr] at h
      cases h
      exact .inl (kept rfl (getLsbD_connectStatus _ _ 3))
    | true =>
      cases hw : (pollHead (polled u) u).otg.inputs.hwWait with
      | false =>
        rw [otgPoll_of_babble hc hr hw] at h
        cases h
        exact .inl (kept rfl rfl)
      | true =>
        rw [otgPoll_of_disconnect hc hr hw] at h
        dsimp only at h
        have hport (prior : OtgState) (b : Bool) (v : State) : (disconnectSpin prior b v).port = v.port :=
          State.atPos_port _ _
        rcases spinSample_next h with e | e
        · refine .inl ?_
          rw [e, ← head]
          exact congrArg (fun p : Port => p.status.getLsbD 3) (hport _ _ _)
        · refine .inr ⟨?_, rfl, ?_⟩
          · rw [e, endPollOf_port, pollTail_port, disconnectEnd_eq]
          · rw [pollHead_otgState, State.started_otgState] at hr
            split at hr
            · cases hr
            · exact hr

/-- The spin of a poll that goes on leaves OVERCURRENT, or ends its Disconnect. -/
theorem resume_overcurrent {i : Instr} {s t : State} {prior : OtgState} {n : Nat} {b : Bool}
    (h : conclude (spinSample prior n b (endPollOf i) s) = .next t) : t.port = s.port ∨ t.port.status = 0x0100 := by
  rcases spinSample_next h with e | e
  · exact .inl (by rw [e]; rfl)
  · exact .inr (by rw [e, endPollOf_port, pollTail_port, disconnectEnd_eq])

/-- Settles O35: beside the VBUS error and the Disconnect of a poll, nothing writes OVERCURRENT. -/
theorem overcurrentIsSetAndClearedOnlyByThePoll : Obligations.OvercurrentIsSetAndClearedOnlyByThePoll := by
  intro i s t h
  have same (e : t.port.status.getLsbD 3 = s.port.status.getLsbD 3) {p q : Prop} :
      (s.port.status.getLsbD 3 = false → t.port.status.getLsbD 3 = true → p) ∧
        (s.port.status.getLsbD 3 = true → t.port.status.getLsbD 3 = false → q) := by
    rw [e]
    exact ⟨fun h0 h1 => absurd h1 (by rw [h0]; decide), fun h1 h0 => absurd h0 (by rw [h1]; decide)⟩
  cases h.executed with
  | engine h => exact same (by rw [h.frame.2.2])
  | stays h => exact same (by rw [h])
  | begun h ha =>
    by_cases hi : IsPoll i
    · rcases exec_poll_overcurrent hi h with e | ⟨e, hc, hr⟩
      · refine ⟨fun h0 h1 => ?_, fun h1 h0 => ?_⟩
        · rw [e, h0, Bool.false_or, Bool.and_eq_true, decide_eq_true_eq] at h1
          exact ⟨hi, h, h1⟩
        · rw [e, h1] at h0; cases h0
      · exact ⟨fun _ h1 => absurd h1 (by rw [e]; decide), fun _ _ => ⟨hi, e, .inr ⟨h, hc, hr⟩⟩⟩
    · refine same (ha.keeps (P := fun u => u.port.status.getLsbD 3 = s.port.status.getLsbD 3)
        (fun _ _ a hu => (a.overcurrent hi).trans hu) ?_)
      rw [State.started_port]
  | resumed hs hi h =>
    rcases resume_overcurrent h with e | e
    · exact same (by rw [e])
    · exact ⟨fun _ h1 => absurd h1 (by rw [e]; decide), fun _ _ => ⟨hi, e, .inl hs⟩⟩

end Sys2Proof.Machine
end

section
/-! O37, O38, O40. The chunks of a bulk payload, the samples of the wait loop, and the register operations of a stage cycle
(spec 43_transfer_protocol R179, R184, R190). -/

namespace Sys2Proof.Machine

/-! ### Chunks (R190) -/

theorem chunkCount_zero {burst : Nat} (hb : 0 < burst) : chunkCount 0 burst = 0 := by
  rw [chunkCount, ceilDiv, Nat.zero_add]
  exact Nat.div_eq_of_lt (by omega)

theorem chunkCount_pos {len burst : Nat} (hb : 0 < burst) (hl : 0 < len) : 0 < chunkCount len burst :=
  Nat.div_pos (by omega) hb

/-- The chunks before the last are full bursts, so the whole is theirs and the last chunk's (R190). -/
theorem sum_chunkSize {len burst : Nat} (hb : 0 < burst) :
    ((List.range (chunkCount len burst)).map (chunkSize len burst)).sum = len := by
  cases hn : chunkCount len burst with
  | zero =>
    have hl : ¬0 < len := fun h => by have := chunkCount_pos hb h; omega
    simp only [List.range_zero, List.map_nil, List.sum_nil]
    omega
  | succ n =>
    obtain ⟨hle, -, -⟩ := chunk_bounds (len := len) (i := n) hb (by omega)
    have full : (List.range n).map (chunkSize len burst) = (List.range n).map fun _ => burst :=
      List.map_congr_left fun i hi => if_pos (by have := List.mem_range.1 hi; omega)
    have last : chunkSize len burst n = len - n * burst := by
      rw [chunkSize, hn, if_neg (Nat.lt_irrefl _), Nat.add_sub_cancel]
    rw [List.range_succ, List.map_append, List.sum_append, full]
    simp only [List.map_const', List.length_range, List.sum_replicate, smul_eq_mul, List.map_cons, List.map_nil,
      List.sum_singleton]
    omega

/-- Settles O37: the laws follow from the count's bounds. -/
theorem chunksCoverThePayload : Obligations.ChunksCoverThePayload := by
  intro len burst hb
  refine ⟨sum_chunkSize hb, fun i hi => if_pos hi, fun hl => ?_, chunkCount_zero hb⟩
  have hc := chunkCount_pos hb hl
  obtain ⟨-, h1, h2⟩ := chunk_bounds (len := len) (i := chunkCount len burst - 1) hb (by omega)
  exact ⟨h2, h1, hc⟩

/-! ### The wait loop (R179) -/

/-- Only the command itself tells at which position a point stands. -/
theorem atPos_cmd (s : State) (r : Option Running) (p q : Pos) : ∃ r', (s.withCmd r).atPos q = (s.atPos p).withCmd r' :=
  ⟨_, interleave_cmd (s.setPos p) (r.map fun x : Running => { x with pos := q })⟩

theorem withCmd_self (s : State) : s.withCmd s.seq.cmd = s := rfl

/-- One sample of the wait loop, at whichever position of its budget (R179). -/
abbrev sampled (c : Chan) (n : Nat) (s : State) : State := dmaCheck c (s.atPos (.waiting c n))

theorem sampled_regtrace (c : Chan) (n : Nat) (s : State) : (sampled c n s).regtrace = s.regtrace ++ sampleTrace c := by
  rw [sampled, dmaCheck_eq, State.atPos_regtrace]

theorem sampled_cmd (c : Chan) (n m : Nat) (s : State) (r : Option Running) :
    ∃ r', sampled c m (s.withCmd r) = (sampled c n s).withCmd r' := by
  obtain ⟨r', e⟩ := atPos_cmd s r (.waiting c n) (.waiting c m)
  exact ⟨r', by rw [sampled, e]; rfl⟩

theorem waitLoop_of_shown {c : Chan} {n : Nat} {s : State}
    (h : ((sampled c (n + 1) s).chan c).done = true ∨ ((sampled c (n + 1) s).chan c).err = true) :
    waitLoop c (n + 1) s = (true, sampled c (n + 1) s) := by
  rw [waitLoop]
  exact if_pos (by rwa [Bool.or_eq_true])

theorem waitLoop_of_not_shown {c : Chan} {n : Nat} {s : State}
    (h : ¬(((sampled c (n + 1) s).chan c).done = true ∨ ((sampled c (n + 1) s).chan c).err = true)) :
    waitLoop c (n + 1) s = waitLoop c n (sampled c (n + 1) s) := by
  rw [waitLoop]
  exact if_neg (by rwa [Bool.or_eq_true])

theorem waitLoop_cmd (c : Chan) (n : Nat) (s : State) (r : Option Running) :
    (waitLoop c n (s.withCmd r)).1 = (waitLoop c n s).1 := by
  induction n generalizing s r with
  | zero => rfl
  | succ n ih =>
    obtain ⟨r', e⟩ := sampled_cmd c (n + 1) (n + 1) s r
    by_cases h : ((sampled c (n + 1) s).chan c).done = true ∨ ((sampled c (n + 1) s).chan c).err = true
    · rw [waitLoop_of_shown (by rw [e]; exact h), waitLoop_of_shown h]
    · rw [waitLoop_of_not_shown (by rw [e]; exact h), waitLoop_of_not_shown h, e, ih]

/-- Settles O38, by induction on the budget: a smaller budget takes the same samples, the positions aside. -/
theorem waitLoopSamplesWithinItsBudget : Obligations.WaitLoopSamplesWithinItsBudget := by
  intro c n
  induction n with
  | zero => exact fun s => ⟨0, Nat.le_refl _, (List.append_nil _).symm, nofun, fun _ => ⟨rfl, nofun⟩, fun _ => rfl⟩
  | succ n ih =>
    intro s w
    by_cases h : ((sampled c (n + 1) s).chan c).done = true ∨ ((sampled c (n + 1) s).chan c).err = true
    · have hw : w = (true, sampled c (n + 1) s) := waitLoop_of_shown h
      refine ⟨1, by omega, ?_, fun _ => ⟨Nat.one_pos, ?_, fun j hj => ?_⟩, fun h0 => ?_, nofun⟩
      · rw [hw, sampled_regtrace]
        simp
      · rw [hw]; exact h
      · rw [show j = 0 by omega]
        rfl
      · rw [hw] at h0; cases h0
    · have hw : w = waitLoop c n (sampled c (n + 1) s) := waitLoop_of_not_shown h
      obtain ⟨k, hk, hlog, hdone, hout, hzero⟩ := ih (sampled c (n + 1) s)
      rw [← hw] at hlog hdone hout hzero
      refine ⟨k + 1, by omega, ?_, fun h1 => ⟨Nat.succ_pos k, (hdone h1).2.1, fun j hj => ?_⟩, fun h0 => ?_, nofun⟩
      · rw [hlog, sampled_regtrace, List.replicate_succ, List.flatten_cons, List.append_assoc]
      · cases j with
        | zero => rfl
        | succ j =>
          obtain ⟨r, e⟩ := sampled_cmd c (n + 1) (j + 1) s s.seq.cmd
          rw [withCmd_self] at e
          rw [waitLoop_of_not_shown (by rw [e]; exact h), e, waitLoop_cmd]
          exact (hdone h1).2.2 j (by omega)
      · obtain ⟨hkn, hlast⟩ := hout h0
        refine ⟨by omega, fun _ => ?_⟩
        rcases Nat.eq_zero_or_pos n with hn | hn
        · rw [hzero hn]
          exact ⟨Bool.eq_false_iff.2 fun e => h (.inl e), Bool.eq_false_iff.2 fun e => h (.inr e)⟩
        · exact hlast hn

theorem waitLoop_regtrace (c : Chan) (n : Nat) (s : State) : ∃ l, (waitLoop c n s).2.regtrace = s.regtrace ++ l := by
  obtain ⟨k, -, h, -⟩ := waitLoopSamplesWithinItsBudget c n s
  exact ⟨_, h⟩

/-! ### The stage cycle (R184) -/

theorem dmaClear_regtrace (c : Chan) (s : State) : (dmaClear c s).regtrace = s.regtrace ++ clearTrace c := by
  rw [dmaClear_eq]; rfl

theorem dmaRelease_regtrace (c : Chan) (s : State) : (dmaRelease c s).regtrace = s.regtrace ++ releaseTrace c := by
  rw [dmaRelease_eq]; rfl

theorem dmaReset_regtrace (s : State) : (dmaReset s).regtrace = s.regtrace ++ [.softReset] := by rw [dmaReset_eq]

theorem programmed_regtrace (c : Chan) (desc : Nat) (x : Trb) (s : State) :
    (programmed c desc x s).regtrace = s.regtrace ++ programTrace c desc := by rw [programmed_eq]

/-- Where a cycle's end leaves its channel: the state a release of it leaves, the register operations before it as the status
says. -/
def CycleLog (c : Chan) (s : State) (e : StageEnd) (t : State) : Prop :=
  (∃ u, t = dmaRelease c u) ∧
    ∃ polls, t.regtrace =
      s.regtrace ++ (polls ++ (if e.status = .success then clearTrace c else [.softReset]) ++ releaseTrace c)

/-- The three ways a stage cycle ends (R184). -/
def CycleResult (e : StageEnd) : Prop :=
  e.status = .success ∧ e.res = .none ∨ e.status = .deviceError ∧ e.res ≠ .none ∨
    e.status = .timeout ∧ e.res = .timeout ∧ e.actual = 0

theorem stageComplete_log {c : Chan} {s t : State} {e : StageEnd} (h : stageComplete c s = .done e t) :
    CycleLog c s e t ∧ CycleResult e := by
  cases h
  rcases translate_answer (s.atLine .translate) c with ⟨-, hr⟩ | ⟨hst, hres⟩
  · refine ⟨⟨⟨_, rfl⟩, [], ?_⟩, .inl (by simp [hr])⟩
    simp [hr, dmaRelease_regtrace, dmaClear_regtrace]
  · have hne : (translate (s.atLine .translate) c).1 ≠ .success := by rw [hst]; decide
    refine ⟨⟨⟨_, rfl⟩, clearTrace c, ?_⟩, .inr (.inl ⟨hst, hres⟩)⟩
    simp [hne, dmaRelease_regtrace, dmaReset_regtrace, dmaClear_regtrace]

theorem stageTimeout_log {c : Chan} {s t : State} {e : StageEnd} (h : stageTimeout c s = .done e t) :
    CycleLog c s e t ∧ CycleResult e := by
  cases h
  refine ⟨⟨⟨_, rfl⟩, [], ?_⟩, .inr (.inr ⟨rfl, rfl, rfl⟩)⟩
  simp [dmaRelease_regtrace, dmaReset_regtrace]

/-- Settles O40: either end of the cycle closes with the release, after the program and the samples. -/
theorem stageCycleReleasesItsChannel : Obligations.StageCycleReleasesItsChannel := by
  intro c trb kind s t e h
  obtain ⟨_, u, hp, h⟩ := andThen_eq_done h
  obtain ⟨x, -, -, -, -, rfl⟩ := dmaProgram_eq_done hp
  dsimp only at h
  generalize hn : waitBudget _ kind _ = n at h
  obtain ⟨l, hl⟩ := waitLoop_regtrace c n (programmed c trb x (s.atLine .program))
  rw [programmed_regtrace, State.atPos_regtrace] at hl
  have ends : CycleLog c (waitLoop c n (programmed c trb x (s.atLine .program))).2 e t ∧ CycleResult e := by
    split at h
    · exact stageComplete_log h
    · exact stageTimeout_log h
  obtain ⟨⟨⟨v, rfl⟩, polls, hlog⟩, hres⟩ := ends
  have hch : (dmaRelease c v).chan c = _ := (chan_dmaRelease c c v).trans (if_pos rfl)
  refine ⟨by rw [hch], by rw [hch], by rw [hch], by rw [hch], dmaRelease_sel c v, hres, l ++ polls, ?_⟩
  rw [hlog, hl]
  simp only [List.append_assoc]

end Sys2Proof.Machine
end

section
/-! O4, O5, O6, O7, O9, O41. Words the spec writes out, the step on the Host's next command, the Host's issue, the state after
reset, and operands a transfer rejects (spec 30_encoding R86, R87; 45_host_interface R242, R243; 70_reset_and_hazards R271). -/

namespace Sys2Proof.Machine

/-- Settles O4: each word is decoded. -/
theorem specWordsDecode : Obligations.SpecWordsDecode := ⟨rfl, rfl, rfl, rfl, rfl, rfl, rfl, rfl⟩

/-! ### The step on a queued command -/

/-- A step of an unmarked machine whose Sequencer executes nothing runs the Host's next word, and after a next state the other
agents step. -/
theorem step_of_queued {s : State} {cmd : HostCmd} {rest : List HostCmd} (hu : Unmarked s) (hc : s.seq.cmd = none)
    (hq : s.hostQueue = cmd :: rest) :
    step s = match runWord cmd.word ((s.withHostQueue rest).withArgs cmd.args) with
      | .next t => .next t.interleave
      | .fault f => .fault f
      | .refused r => .refused r := by
  simp only [step, sequencerStep, State.takeCmd, hu.1, hu.2, hc, hq, Bool.false_eq_true, if_false] <;> rfl

/-- Settles O5: the word decodes, so it runs its instruction. -/
theorem stepRunsTheIssuedCommand : Obligations.StepRunsTheIssuedCommand := by
  intro s cmd rest i hu hc hq hd p
  have run : runWord cmd.word ((s.withHostQueue rest).withArgs cmd.args) = exec i p := by
    rw [runWord, hd]
    rfl
  have hs := step_of_queued hu hc hq
  exact ⟨fun t h => by rw [hs, run, h], fun f h => by rw [hs, run, h], fun r h => by rw [hs, run, h]⟩

/-- Settles O6: the word is refused, and the Sequencer was idle already. -/
theorem illegalWordOnlyReturnsItsStatus : Obligations.IllegalWordOnlyReturnsItsStatus := by
  intro s cmd rest e hu hidle hq hd
  rw [step_of_queued hu (by rw [hidle]; rfl) hq, runWord, hd, hidle]
  rfl

/-! ### The Host's issue -/

section issue
variable {s : State} (cmd : HostCmd)

theorem hostIssue_of_idle (h : s.seq.busy = false) : hostIssue cmd s = s.withHostQueue (s.hostQueue ++ [cmd]) := by
  rw [hostIssue, h]
  rfl

theorem hostIssue_of_cancel {cmd : HostCmd} {ep : EpNum} {addr : DevAddr} (hb : s.seq.busy = true) (ht : s.seq.inTick = true)
    (hd : decode cmd.word = .ok (.asyncCancel ep addr)) :
    hostIssue cmd s = s.withSeq { s.seq with deferred := s.seq.deferred ++ [⟨ep, addr⟩] } := by
  simp only [hostIssue, hb, ht, hd]
  rfl

theorem hostIssue_of_other (hb : s.seq.busy = true)
    (h : s.seq.inTick = false ∨ ∀ ep addr, decode cmd.word ≠ .ok (.asyncCancel ep addr)) : hostIssue cmd s = s.markRefused := by
  rw [hostIssue, hb]
  cases ht : s.seq.inTick with
  | false => rfl
  | true =>
    have hno := h.resolve_left (by rw [ht]; decide)
    show (match decode cmd.word with | .ok (.asyncCancel ep addr) => _ | _ => s.markRefused) = s.markRefused
    split
    · next ep addr e => exact absurd e (hno ep addr)
    · rfl

end issue

/-- Settles O7: the three answers to an issue; a command that begins is busy and in no tick. -/
theorem hostIssueIsQueuedDeferredOrRefused : Obligations.HostIssueIsQueuedDeferredOrRefused := by
  intro s cmd
  refine ⟨hostIssue_of_idle cmd, fun ep addr => hostIssue_of_cancel, hostIssue_of_other cmd, fun i rest h => ?_⟩
  rw [State.started, interleave_of_batches (s := s.begin i) h]
  exact hostIssue_of_other (s := (s.begin i).withOracle { s.oracle with batches := rest }) cmd rfl (.inl rfl)

/-! ### The state after reset -/

theorem params_wf : Config.params.wf = true := by
  simp only [Params.wf, Config.params, Bool.and_eq_true]
  exact ⟨⟨⟨⟨⟨⟨decide_eq_true (Nat.succ_pos _), decide_eq_true (by omega)⟩, decide_eq_true (by omega)⟩,
    decide_eq_true (Nat.succ_pos _)⟩, rfl⟩, rfl⟩, decide_eq_true (Nat.succ_pos _)⟩

/-- Settles O9: nothing is stored, armed, queued or executed after reset, and no bit of the port is set. -/
theorem resetMeetsTheInvariants : Obligations.ResetMeetsTheInvariants := by
  have idle : ∀ c, State.reset.chan c = Channel.idle := State.chan_attach _ _ _ _
  refine ⟨params_wf, ⟨memWf_nil, tabSorted_nil, tabSorted_nil⟩, ⟨rfl, rfl, by decide, rfl⟩, fun c => ?_, ⟨nofun, fun c t h => ?_⟩,
    ⟨nofun, List.nodup_nil⟩, ⟨.inl rfl, fun _ => rfl⟩, rfl, rfl⟩
  · rw [idle]
    exact ⟨rfl, rfl, nofun⟩
  · rw [idle] at h
    cases h

/-! ### Operands a transfer rejects -/

/-- Settles O41: a rejected command returns from the state it has started in. -/
theorem transfersRejectBadOperands : Obligations.TransfersRejectBadOperands := by
  intro ep dir tg addr sp dd s
  refine ⟨fun h => ?_, fun h => ?_, fun h => ?_, congrArg _ (finish_started ..)⟩
  · have bad : controlOk s.cfg dd s.args = false := by
      cases hok : controlOk s.cfg dd s.args with
      | false => rfl
      | true =>
        simp only [controlOk, Bool.and_eq_true, decide_eq_true_eq] at hok
        obtain ⟨⟨h1, h2⟩, h3⟩ := hok
        rcases h with ⟨hd, h⟩ | ⟨hd, h⟩ | h | h
        · rw [if_pos hd] at h1
          exact absurd (of_decide_eq_true h1) h
        · rw [if_neg hd] at h1
          exact absurd h (of_decide_eq_true h1)
        · omega
        · omega
    rw [exec_xferControl_of_bad bad, finish_started]
    rfl
  · have bad : bulkOk ep s.args = false := by
      cases hok : bulkOk ep s.args with
      | false => rfl
      | true =>
        simp only [bulkOk, bulkMpsSet, Bool.and_eq_true, decide_eq_true_eq, List.contains_iff_mem] at hok
        obtain ⟨⟨h1, h2⟩, h3⟩ := hok
        rcases h with h | h | h
        · exact absurd h1 h
        · exact absurd h h2
        · omega
    rw [exec_xferBulk_of_bad bad, finish_started]
    rfl
  · have bad : intSyncOk s.cfg ep s.args = false := by
      cases hok : intSyncOk s.cfg ep s.args with
      | false => rfl
      | true =>
        simp only [intSyncOk, Bool.and_eq_true, decide_eq_true_eq] at hok
        obtain ⟨⟨⟨h1, h2⟩, h3⟩, h4⟩ := hok
        rcases h with h | h | h | h
        · exact absurd h h1
        · exact absurd h h2
        · omega
        · omega
    rw [exec_xferIntSync_of_bad bad, finish_started]
    rfl

end Sys2Proof.Machine
end

section
/-! What the synchronous transfers come to on every behaviour of the devices (spec 43_transfer_protocol R185 to R194): where the
allocations fail, and what a transfer that got its regions has left when it releases them. -/

namespace Sys2Proof.Machine

/-! ### A command that came out of resources -/

/-- Where the allocations fail, only the other agents have stepped (R185). -/
theorem nothingAcquired_of_passed {i : Instr} {s v : State} (p : Passed (s.begin i) v) (ha : v.alloc = s.alloc) :
    NothingAcquired s v := by
  have f := p.frame
  have h1 : v.dma.sel = s.dma.sel := f.sel
  have h2 : v.dma.burstMode = s.dma.burstMode := f.burst
  exact ⟨ha, f.regtrace, f.trbStore, by
    show v.dma = ⟨s.dma.burstMode, s.dma.sel, v.dma.ch⟩
    rw [← h1, ← h2], fun c => (f.chan c).programmed, f.endpoint, f.ep0, f.mem rfl⟩

/-- What the out-of-resources return of a transfer leaves. -/
theorem failed_return {i : Instr} {s v : State} {reqs : List (Nat × Owner)} (o : Outs)
    (h : acquire reqs (s.started i) = (none, v)) :
    (v.finish i .outOfResources o).trace = s.trace ++ [.result i.opcode .outOfResources o] ∧
      (v.finish i .outOfResources o).alloc = s.alloc ∧ (v.finish i .outOfResources o).ep0Stage = s.ep0Stage ∧
      (∀ c, ((v.finish i .outOfResources o).chan c).programmed = (s.chan c).programmed) ∧
      NothingAcquired s (v.finish i .outOfResources o) := by
  obtain ⟨p, ha⟩ := begun_of_failed h
  have ht : v.trace = s.trace := p.frame.trace
  have hn : NothingAcquired s v := nothingAcquired_of_passed p ha
  exact ⟨by rw [State.finish_trace, ht], ha, p.frame.ep0Stage, fun c => (p.frame.chan c).programmed, hn⟩

/-! ### The release of what a transfer acquired -/

theorem releaseAll_trace (trb : Nat) (stg : List Nat) (s : State) : (releaseAll trb stg s).trace = s.trace := by
  rw [releaseAll_eq]
  exact State.atPos_trace s _

theorem releaseAll_ep0Stage (trb : Nat) (stg : List Nat) (s : State) :
    (releaseAll trb stg s).ep0Stage = s.ep0Stage := by
  rw [releaseAll_eq]
  exact State.atPos_ep0Stage s _

theorem releaseAll_chan (trb : Nat) (stg : List Nat) (s : State) (c : Chan) :
    ChanFrame (s.chan c) ((releaseAll trb stg s).chan c) := by
  rw [releaseAll_eq]
  exact chan_atLine s .free c

theorem releaseAll_clean (trb : Nat) (stg : List Nat) {s : State} {c : Chan} (h : ChanClean s c) :
    ChanClean (releaseAll trb stg s) c := chanClean_of_frame (.inl (releaseAll_chan trb stg s c)) h

theorem releaseAll_toggle (trb : Nat) (stg : List Nat) {s : State} {c : Chan} (hn : s.agentTrb c = none) :
    (releaseAll trb stg s).toggle c = s.toggle c := by
  rw [releaseAll_eq]
  exact (agentFrame_interleave (s.setPos (.line .free))).toggle c hn

theorem releaseAll_shield (trb : Nat) (stg : List Nat) {s : State} {a : Nat} {b : Byte} (hb : s.seq.busy = true)
    (h : Shield a b s) : Shield a b (releaseAll trb stg s) := by
  rw [releaseAll_eq]
  exact shield_of_dma (s := s.atLine .free) rfl rfl (shield_atLine .free hb h)

theorem ChanClean.agentTrb {s : State} {c : Chan} (h : ChanClean s c) : s.agentTrb c = none :=
  State.agentTrb_eq_none (.inl h.1)

/-- The frame of a transfer does not read the region set. -/
theorem XferFrame.withAlloc {cs : List Chan} {s t : State} (f : XferFrame cs s t) (l : List (Nat × Alloc)) :
    XferFrame cs (s.withAlloc l) (t.withAlloc l) :=
  ⟨f.chanOrReset, f.log, f.toggle, f.endpoint, rfl, f.busy, f.args, f.cfg⟩

/-- From its begin to its release a transfer leaves the other channels alone, and every region it acquired is freed. -/
theorem Begun.release {cs : List Chan} {reqs : List (Nat × Owner)} {i : Instr} {s v w : State} {trb : Nat} {stg : List Nat}
    (B : Begun reqs i s (trb :: stg) v) (f : XferFrame cs v w) : XferFrame cs (s.begin i) (releaseAll trb stg w) := by
  have ha : (releaseAll trb stg w).alloc = s.alloc := by
    rw [releaseAll_alloc B.acq f.busy f.alloc, State.started_alloc]
  have p : Passed (s.begin i) (v.withAlloc s.alloc) := ⟨B.passed.frame⟩
  have f1 := (f.trans (xferFrame_atLine cs .free f.busy)).withAlloc s.alloc
  refine ((p.xferFrame cs rfl rfl).trans f1).trans ?_
  rw [← ha, releaseAll_eq]
  exact xferFrame_of_eq cs f1.busy rfl (fun _ _ => rfl) rfl rfl rfl rfl rfl List.prefix_rfl

/-! ### The common return of the transfers on an endpoint (R192) -/

section endpoint
variable {i : Instr} {c : Chan} {trb stg : Nat} {e : XferEnd} {w : State}

/-- The state in which a transfer on an endpoint releases what it acquired: its toggle is read. -/
abbrev toggleRead (w : State) : State := (w.atLine .readToggle).logOp (.R .epToggle)

theorem toggleRead_frame (cs : List Chan) (hb : w.seq.busy = true) : XferFrame cs w (toggleRead w) :=
  (xferFrame_atLine cs .readToggle hb).trans (xferFrame_of_eq cs ((xferFrame_atLine cs .readToggle hb).busy) rfl
    (fun _ _ => rfl) rfl rfl rfl rfl rfl (List.prefix_append _ _))

theorem toggleRead_clean (h : ChanClean w c) : ChanClean (toggleRead w) c :=
  chanClean_of_frame (s := w) (.inl (chan_atLine w .readToggle c)) h

theorem toggleRead_shield {a : Nat} {b : Byte} (hb : w.seq.busy = true) (h : Shield a b w) : Shield a b (toggleRead w) :=
  shield_of_dma (s := w.atLine .readToggle) (t := toggleRead w) rfl rfl (shield_atLine .readToggle hb h)

theorem toggleRead_trace : (toggleRead w).trace = w.trace := State.atPos_trace w _

/-- What a transfer that got its regions has left when it releases them: the other channels alone, its own released (R198). -/
structure Moved (cs : List Chan) (s v w : State) : Prop where
  frame : XferFrame cs v w
  clean : ∀ b ∈ cs, ChanClean w b
  trace : w.trace = s.trace

/-- What a transfer has left when it returns, its regions freed (R185, R198). -/
structure Returned (i : Instr) (cs : List Chan) (s u : State) : Prop where
  frame : XferFrame cs (s.begin i) u
  clean : ∀ b ∈ cs, ChanClean u b
  trace : u.trace = s.trace

/-- The common return: the toggle returned is the hardware's, for no agent acts on the released channel (R192). -/
theorem finishTransfer_returned {reqs : List (Nat × Owner)} {s v : State} (e : XferEnd) (B : Begun reqs i s [trb, stg] v)
    (m : Moved [c] s v w) :
    ∃ u, finishTransfer i c trb stg e w = u.finish i e.status (.transfer e.res e.len (some (u.toggle c))) ∧
      Returned i [c] s u ∧ ∀ a b, Shield a b w → Shield a b u := by
  have hcl : ∀ b ∈ [c], ChanClean (toggleRead w) b := fun b hb => toggleRead_clean (m.clean b hb)
  have f := toggleRead_frame [c] m.frame.busy
  refine ⟨releaseAll trb [stg] (toggleRead w), ?_,
    ⟨B.release (m.frame.trans f), fun b hb => releaseAll_clean trb [stg] (hcl b hb), ?_⟩, fun a b h =>
    releaseAll_shield trb [stg] f.busy (toggleRead_shield m.frame.busy h)⟩
  · rw [finishTransfer_eq, releaseAll_toggle trb [stg] (hcl c (List.mem_singleton_self c)).agentTrb]
    rfl
  · rw [releaseAll_trace, toggleRead_trace, m.trace]

end endpoint

theorem EndAnswer.ne_outOfResources {st : Status} {res : XferResult} (h : EndAnswer st res) : st ≠ .outOfResources := by
  rintro rfl
  exact absurd h.1 (by decide)

theorem EndAnswer.mem {st : Status} {res : XferResult} (h : EndAnswer st res) : st ∈ transferStatuses :=
  (by decide : ∀ x ∈ [Status.success, .deviceError, .timeout], x ∈ transferStatuses) st h.1

/-! ### The endpoint configured before the first cycle -/

theorem chan_configureEp (c b : Chan) (ty : EpType) (tg : Bool) (addr : DevAddr) (mps interval : Nat) (s : State) :
    (configureEp c ty tg addr mps interval s).chan b = s.chan b := by
  rw [configureEp_eq]; rfl

/-- What a transfer finds once its endpoint is configured. -/
structure Configured (i : Instr) (c : Chan) (v u : State) : Prop where
  frame : XferFrame [c] v u
  runs : Runs i true v u
  clean : ChanClean v c → ChanClean u c
  shield : ∀ a b, Shield a b v → Shield a b u

theorem configured (i : Instr) (c : Chan) (ty : EpType) (tg : Bool) (addr : DevAddr) (mps interval : Nat) {v : State}
    (hb : v.seq.busy = true) : Configured i c v (configureEp c ty tg addr mps interval (v.atLine .configure)) := by
  have hb' : (v.atLine .configure).seq.busy = true := (agentFrame_interleave _).busy.trans hb
  obtain ⟨ep, log, hu⟩ := configureEp_parts c ty tg addr mps interval (v.atLine .configure)
  refine ⟨(xferFrame_atLine _ _ hb).trans (xferFrame_configureEp (List.mem_singleton_self c) ty hb'),
    (does_atLine i .configure v hb).trans (runs_configureEp c ty tg addr mps interval _), fun h => ?_, fun a b h => ?_⟩
  · exact chanClean_of_frame (.inl (by rw [chan_configureEp]; exact chan_atLine v .configure c)) h
  · rw [hu]
    exact shield_of_dma (s := v.atLine .configure) rfl rfl (shield_atLine .configure hb h)

theorem CallerBuf.of_frame {cs : List Chan} {s t : State} (f : XferFrame cs s t) (h : CallerBuf s) : CallerBuf t := by
  unfold CallerBuf
  rw [f.args, State.admits_congr f.cfg f.alloc]
  exact h

/-- A part of a transfer that is done emits nothing. -/
theorem Goes.trace {α : Type} {i : Instr} {al : Bool} {s t : State} {x : Part α} {a : α} (h : Goes i al s x)
    (hi : i ≠ .asyncTick) (hx : x = .done a t) (hb : s.seq.busy = true) : t.trace = s.trace := (h.does hx hb).frame.trace hi

/-! ### XFER_INT_SYNC -/

section intSync
variable {ep : EpNum} {dir : Dir} {tg : Bool} {addr : DevAddr} {sp : Speed} {s v : State} {trb stg : Nat}

/-- XFER_INT_SYNC with its regions allocated returns, whatever the device does (R194). -/
theorem intSync_returns (hok : intSyncOk s.cfg ep s.args = true) (hbuf : CallerBuf s) (hcl : ChanClean s ⟨ep, dir⟩)
    (hv : acquire [trbRequest s.cfg, (s.args.len, .staging)] (s.started (.xferIntSync ep dir tg addr sp)) =
      (some [trb, stg], v)) :
    ∃ e w, exec (.xferIntSync ep dir tg addr sp) s =
        .next (finishTransfer (.xferIntSync ep dir tg addr sp) ⟨ep, dir⟩ trb stg e w) ∧
      Moved [⟨ep, dir⟩] s v w ∧ EndAnswer e.status e.res ∧
      e.len ≤ s.args.len ∧ (e.status ≠ .success → e.len = 0) ∧ (e.status = .success → dir = .out → e.len = s.args.len) ∧
      ∀ a b, (a < stg ∨ stg + s.args.len ≤ a) →
        (dir = .out ∨ a < s.args.buf.base ∨ s.args.buf.base + e.len ≤ a) → Shield a b s → Shield a b w := by
  have B := begun_of_acquire hv
  have hi : IsSyncTransfer (.xferIntSync ep dir tg addr sp) := .inr (.inr ⟨ep, dir, tg, addr, sp, rfl⟩)
  obtain ⟨hmax, hlen⟩ : s.args.len ≤ s.cfg.maxTrbSize ∧ s.args.len ≤ s.args.buf.len := by
    simp only [intSyncOk, Bool.and_eq_true, decide_eq_true_eq] at hok
    exact ⟨hok.1.2, hok.2⟩
  have C := configured (.xferIntSync ep dir tg addr sp) ⟨ep, dir⟩ .interrupt tg addr v.args.mps v.args.interval B.busy
  rw [exec_xferIntSync_of_some hok hv]
  generalize configureEp ⟨ep, dir⟩ .interrupt tg addr v.args.mps v.args.interval (v.atLine .configure) = u at C ⊢
  have hargs : u.args = s.args := C.frame.args.trans B.args
  have hcfg : u.cfg = v.cfg := C.frame.cfg
  obtain ⟨h1, -⟩ := B.region (trb, trbRequest s.cfg) (by simp)
  obtain ⟨h2, h3⟩ := B.region (stg, (s.args.len, .staging)) (by simp)
  obtain ⟨e, w, he, fw, cw, ka, hle, h0, hfull, sw⟩ := intSyncCycle_spec C.frame.busy (C.clean (B.clean _ hcl))
    ((B.buf hbuf).of_frame C.frame) (by rw [hargs]; exact hlen)
    (by rw [hargs, State.admits_congr hcfg C.frame.alloc]; exact h3) (hcfg ▸ h1) (hcfg ▸ h2)
  have htrace : w.trace = u.trace := (goes_intSync (al := true) hi ⟨ep, dir⟩ trb stg (by
    rw [hargs, hcfg, B.cfg]; exact hmax)).trace (by simp) he C.frame.busy
  rw [hargs] at hle hfull sw
  refine ⟨e, w, by rw [he]; rfl, ⟨C.frame.trans fw, by simpa using cw, ?_⟩, ka, hle, h0, hfull, fun a b ha hd hs =>
    sw a b ha hd (C.shield a b (B.shield a b hs))⟩
  rw [htrace, C.runs.frame.trace (by simp), B.trace]

end intSync

/-- Settles O44. -/
theorem interruptTransferCompletes : Obligations.InterruptTransferCompletes := by
  unfold Obligations.InterruptTransferCompletes
  intro ep dir tg addr sp s i got hok hbuf hcl
  rcases acquire_pair_cases (trbRequest s.cfg) (s.args.len, .staging) (s.started i) with ⟨v, hv⟩ | ⟨trb, stg, v, hv⟩
  · obtain ⟨htr, hal, -, hpr, hna⟩ := failed_return (.transfer .none 0 none) hv
    refine ⟨_, _, _, _, _, exec_xferIntSync_of_none hok hv, htr, by decide, Nat.zero_le _, by simp [ResultFits], fun _ => rfl,
      rfl, hal, (hpr _).trans hcl.2.1, fun h => absurd rfl h, by simp [got, hv], fun _ => ⟨rfl, hna⟩, nofun, fun _ _ h => ?_⟩
    simp [got, hv] at h
  · obtain ⟨e, w, he, m, ka, hle, h0, hfull, sw⟩ := intSync_returns hok hbuf hcl hv
    obtain ⟨u, hu, r, su⟩ := finishTransfer_returned (i := i) e (begun_of_acquire hv) m
    have hst := ka.ne_outOfResources
    refine ⟨u.finish i e.status (.transfer e.res e.len (some (u.toggle ⟨ep, dir⟩))), e.status, e.res, e.len, _, he.trans (congrArg _ hu),
      ?_, ka.mem, hle, ka.2, h0, rfl, r.frame.alloc, (r.clean _ (List.mem_singleton_self _)).2.1, fun _ => rfl,
      ⟨fun h => absurd h hst, fun h => ?_⟩, fun h => absurd h hst, hfull, fun p q h a ha hs hd => ?_⟩
    · rw [State.finish_trace, r.trace]; rfl
    · simp [got, hv] at h
    · obtain ⟨rfl, rfl⟩ : trb = p ∧ stg = q := by simpa [got, hv] using h
      exact (su a _ (sw a _ hs (by cases dir <;> simp_all) ⟨rfl, ha⟩)).byte

end Sys2Proof.Machine
end

section
/-! XFER_BULK on every behaviour of the device (spec 43_transfer_protocol R190 to R193). -/

namespace Sys2Proof.Machine

theorem burstSize_pos {p : Params} (h : p.wf = true) : 0 < p.burstSize := by
  simp only [Params.wf, Bool.and_eq_true, decide_eq_true_eq] at h
  exact h.1.1.1.1.1.1

/-- The sum of full chunks: what the first chunks of a payload hold together (R190). -/
theorem sum_chunks {len burst : Nat} (hb : 0 < burst) : ∀ n, n ≤ chunkCount len burst →
    ((List.range n).map (chunkSize len burst)).sum = min (n * burst) len := by
  intro n
  induction n with
  | zero => simp
  | succ n ih =>
    intro hn
    obtain ⟨b1, b2, b3⟩ := chunk_bounds (i := n) (len := len) hb (by omega)
    rw [List.range_succ, List.map_append, List.sum_append, ih (by omega)]
    have hlast : n + 1 ≠ chunkCount len burst → chunkSize len burst n = burst := fun h => by
      unfold chunkSize
      rw [if_pos (by omega)]
    have hfin : n + 1 = chunkCount len burst → n * burst + chunkSize len burst n = len := fun h => by
      have h1 : chunkSize len burst n = len - n * burst := by
        unfold chunkSize
        rw [if_neg (by omega), ← h, Nat.add_sub_cancel]
      omega
    rw [Nat.succ_mul]
    by_cases h : n + 1 = chunkCount len burst
    · have := hfin h; simp; omega
    · have := hlast h; simp; omega

/-- What the chunks sent is the payload up to their end. -/
theorem sum_sent {len burst : Nat} (hb : 0 < burst) {ends : List StageEnd} (hn : ends.length ≤ chunkCount len burst)
    (h : ∀ j x, ends[j]? = some x → x.actual = chunkSize len burst j) :
    (ends.map fun x => x.actual).sum = min (ends.length * burst) len := by
  rw [← sum_chunks hb _ hn]
  congr 1
  refine List.ext_getElem (by simp) fun j h1 h2 => ?_
  simp only [List.length_map] at h1
  simp only [List.getElem_map, List.getElem_range]
  exact h j _ (List.getElem?_eq_getElem h1)

section bulk
variable {ep : EpNum} {dir : Dir} {tg : Bool} {addr : DevAddr} {sp : Speed} {s v : State} {trb stg : Nat}

/-- What XFER_BULK has left when it returns, its endpoint configured in `u`: some chunks succeeded up to `z`, and then there
was none, or one failed (R191, R193). -/
structure BulkReturn (c : Chan) (trb stg : Nat) (s v u : State) (e : XferEnd) (w : State) (ends : List StageEnd) (z : State) :
    Prop where
  moved : Moved [c] s v w
  answer : EndAnswer e.status e.res
  le : e.len ≤ s.args.len
  args : u.args = s.args
  cfg : u.cfg = s.cfg
  chunks : ChunksEnd c trb stg 0 (chunkCount s.args.len s.cfg.burstSize) 0 u e w ends z
  shield : ∀ a b, Shield a b s → Shield a b u

theorem BulkReturn.ends_le {c : Chan} {u w z : State} {e : XferEnd} {ends : List StageEnd}
    (K : BulkReturn c trb stg s v u e w ends z) : ends.length ≤ chunkCount s.args.len s.cfg.burstSize := by
  by_cases h : e.status = .success
  · exact (K.chunks.ok h).1.le
  · exact (K.chunks.failed h).1.le

/-- XFER_BULK with its regions allocated returns, whatever the device does (R191, R193). -/
theorem bulk_returns (hok : bulkOk ep s.args = true) (hwf : s.cfg.wf = true) (hbuf : CallerBuf s)
    (hcl : ChanClean s ⟨ep, dir⟩)
    (hv : acquire [trbRequest s.cfg, (s.cfg.burstSize, .staging)] (s.started (.xferBulk ep dir tg addr sp)) =
      (some [trb, stg], v)) :
    ∃ e w ends z, exec (.xferBulk ep dir tg addr sp) s =
        .next (finishTransfer (.xferBulk ep dir tg addr sp) ⟨ep, dir⟩ trb stg e w) ∧
      BulkReturn ⟨ep, dir⟩ trb stg s v (configureEp ⟨ep, dir⟩ .bulk tg addr s.args.mps 0 (v.atLine .configure)) e w ends z := by
  have B := begun_of_acquire hv
  have hi : IsSyncTransfer (.xferBulk ep dir tg addr sp) := .inr (.inl ⟨ep, dir, tg, addr, sp, rfl⟩)
  have hlen : s.args.len ≤ s.args.buf.len := by
    simp only [bulkOk, Bool.and_eq_true, decide_eq_true_eq] at hok
    exact hok.2
  have hburst : 0 < s.cfg.burstSize := burstSize_pos hwf
  have C := configured (.xferBulk ep dir tg addr sp) ⟨ep, dir⟩ .bulk tg addr s.args.mps 0 B.busy
  rw [exec_xferBulk_of_some hok hv, B.args, B.cfg]
  generalize configureEp ⟨ep, dir⟩ .bulk tg addr s.args.mps 0 (v.atLine .configure) = u at C ⊢
  have hargs : u.args = s.args := C.frame.args.trans B.args
  have hcfg : u.cfg = s.cfg := C.frame.cfg.trans B.cfg
  obtain ⟨h1, -⟩ := B.region (trb, trbRequest s.cfg) (by simp)
  obtain ⟨h2, h3⟩ := B.region (stg, (s.cfg.burstSize, .staging)) (by simp)
  rw [← C.frame.cfg] at h1 h2
  obtain ⟨e, w, ends, z, he, fw, cw, ka, hle, k⟩ := bulkLoop_spec (c := ⟨ep, dir⟩) (trb := trb) (stg := stg)
    (chunkCount s.args.len s.cfg.burstSize) 0 0 C.frame.busy (C.clean (B.clean _ hcl)) ((B.buf hbuf).of_frame C.frame)
    (by rw [hargs]; exact hlen) (by rw [hcfg, State.admits_congr C.frame.cfg C.frame.alloc]; exact h3)
    (by rw [hcfg]; exact hburst) h1 h2 (by rw [hargs, hcfg, Nat.zero_add]) (Nat.zero_le _) (fun _ => Nat.zero_le _)
  have htrace : w.trace = u.trace :=
    (goes_bulkLoop (al := true) hi ⟨ep, dir⟩ trb stg _ 0 0 u).trace (by simp) he C.frame.busy
  rw [hargs] at hle
  refine ⟨e, w, ends, z, by rw [he]; rfl, ⟨C.frame.trans fw, by simpa using cw, ?_⟩, ka, hle, hargs, hcfg, k, fun a b hs =>
    C.shield a b (B.shield a b hs)⟩
  rw [htrace, C.runs.frame.trace (by simp), B.trace]

end bulk

/-- Settles O43. -/
theorem bulkTransferCompletes : Obligations.BulkTransferCompletes := by
  unfold Obligations.BulkTransferCompletes
  intro ep dir tg addr sp s i c burst place got hok hwf hbuf hcl
  have hburst : 0 < burst := burstSize_pos hwf
  rcases acquire_pair_cases (trbRequest s.cfg) (burst, .staging) (s.started i) with ⟨v, hv⟩ | ⟨trb, stg, v, hv⟩
  · obtain ⟨htr, hal, -, hpr, hna⟩ := failed_return (.transfer .none 0 none) hv
    refine ⟨_, _, _, _, _, exec_xferBulk_of_none hok hv, htr, by decide, Nat.zero_le _, by simp [ResultFits], rfl, hal,
      (hpr c).trans hcl.2.1, fun h => absurd rfl h, by simp [got, hv], fun _ => ⟨rfl, rfl, hna⟩, fun _ _ h => ?_⟩
    simp [got, hv] at h
  · obtain ⟨e, w, ends, z, he, K⟩ := bulk_returns hok hwf hbuf hcl hv
    obtain ⟨u, hu, r, su⟩ := finishTransfer_returned (i := i) e (begun_of_acquire hv) K.moved
    have hst := K.answer.ne_outOfResources
    have hlen : e.len = (ends.map fun x => x.actual).sum := by rw [K.chunks.len, Nat.zero_add]
    have hact := K.chunks.actual
    simp only [K.args, K.cfg, Nat.zero_add] at hact
    refine ⟨u.finish i e.status (.transfer e.res e.len (some (u.toggle c))), e.status, e.res, e.len, _,
      he.trans (congrArg _ hu), ?_, K.answer.mem, K.le, K.answer.2, rfl, r.frame.alloc,
      (r.clean _ (List.mem_singleton_self c)).2.1, fun _ => rfl, ⟨fun h => absurd h hst, fun h => ?_⟩,
      fun h => absurd h hst, fun p q h => ?_⟩
    · rw [State.finish_trace, r.trace]; rfl
    · simp [got, hv] at h
    · obtain ⟨rfl, rfl⟩ : trb = p ∧ stg = q := by simpa [got, hv] using h
      have hg : got.2 = v := by simp [got, hv]
      rw [hg]
      refine ⟨ends, z, w, K.chunks.moved, K.chunks.ok, fun h => ?_, hu.symm, hlen,
        fun hd => hlen ▸ sum_sent hburst K.ends_le fun j x hj => (hact j x hj).2 hd, fun j x hj => (hact j x hj).1,
        fun a ha hs hd => ?_⟩
      · simpa using K.chunks.failed h
      · have h1 := K.chunks.shield a _ (by rw [K.cfg]; exact hs) (by
          rw [K.args, K.cfg]
          cases dir with
          | out => exact .inl rfl
          | in_ => exact .inr fun j x hj => by rw [Nat.zero_add]; exact hd rfl j x hj) (K.shield a _ ⟨rfl, ha⟩)
        exact (su a _ h1).byte

end Sys2Proof.Machine
end

section
/-! XFER_CONTROL on every behaviour of the device (spec 43_transfer_protocol R186 to R188). -/

namespace Sys2Proof.Machine

/-- The STATUS stage hands on the length it is given (R188). -/
theorem controlStatus_len {addr : DevAddr} {dd : DataDir} {trb sb len : Nat} {s t : State} {f : XferEnd}
    (h : controlStatus addr dd trb sb len s = .done f t) : f.len = len := by
  obtain ⟨e, u, -, hf⟩ := andThen_eq_done h
  cases hf
  rfl

/-- The stages a control transfer went through, and which of them ended it (R186, R187, R188). -/
def StagesRun (addr : DevAddr) (dd : DataDir) (trb sb db : Nat) (v : State) (r : XferEnd) : Prop :=
  ∃ e u, controlSetup addr trb sb v = .done e u ∧
    (e.status ≠ .success → r.status = e.status ∧ r.res = e.res ∧ r.len = 0) ∧
    (e.status = .success → ∃ d w, controlMiddle addr dd trb db u = .done d w ∧
      (d.status ≠ .success → r.status = d.status ∧ r.res = d.res ∧ r.len = d.len) ∧
      (d.status = .success → ∃ f x, controlStatus addr dd trb sb d.len w = .done f x ∧
        r.status = f.status ∧ r.res = f.res ∧ r.len = d.len))

theorem stagesRun_of_done {addr : DevAddr} {dd : DataDir} {trb sb db : Nat} {v t : State} {r : XferEnd}
    (h : controlStages addr dd trb sb db v = .done r t) : StagesRun addr dd trb sb db v r := by
  obtain ⟨e, u, he, h⟩ := andThen_eq_done h
  by_cases hs : e.status = .success
  · rw [if_pos hs] at h
    obtain ⟨d, w, hd, h⟩ := andThen_eq_done h
    refine ⟨e, u, he, fun hn => absurd hs hn, fun _ => ⟨d, w, hd, fun hn => ?_, fun hds => ?_⟩⟩
    · rw [if_neg hn] at h
      cases h
      exact ⟨rfl, rfl, rfl⟩
    · rw [if_pos hds] at h
      exact ⟨r, t, h, rfl, rfl, controlStatus_len h⟩
  · rw [if_neg hs] at h
    cases h
    exact ⟨e, _, he, fun _ => ⟨rfl, rfl, rfl⟩, fun h => absurd h hs⟩

/-- What the stages of a control transfer need of the state they begin in (R185, R242). -/
structure StagesReady (dd : DataDir) (trb sb db : Nat) (v : State) : Prop where
  busy : v.seq.busy = true
  clean : Ep0Clean v
  buf : CallerBuf v
  len : v.args.len ≤ v.args.buf.len
  staging : v.admits [.staging] sb 8 = true
  data : dd ≠ .noData → v.admits [.staging] db v.args.len = true ∧ AddrOk v.cfg db
  slot : AddrOk v.cfg trb
  packet : AddrOk v.cfg sb

/-- The DATA stage counts nothing where it fails, and the whole payload where it sent it (R188). -/
theorem StagesReady.middle_len {addr : DevAddr} {dd : DataDir} {trb sb db : Nat} {v u w : State} {e : StageEnd} {d : XferEnd}
    (k : StagesReady dd trb sb db v) (he : controlSetup addr trb sb v = .done e u)
    (hd : controlMiddle addr dd trb db u = .done d w) :
    (d.status ≠ .success → d.len = 0) ∧ (d.status = .success → dd = .out → d.len = v.args.len) := by
  obtain ⟨e', u', he', f, c, -, -⟩ := controlSetup_spec addr k.busy k.clean k.staging k.slot k.packet
  obtain ⟨rfl, rfl⟩ : e' = e ∧ u' = u := by rw [he] at he'; cases he'; exact ⟨rfl, rfl⟩
  obtain ⟨d', w', hd', -, -, -, -, hfull, h0, -⟩ := controlMiddle_spec addr dd (trb := trb) (db := db) f.busy c (k.buf.of_frame f)
    (by rw [f.args]; exact k.len) (by rw [State.admits_congr f.cfg f.alloc, f.args, f.cfg]; exact k.data)
    (by rw [f.cfg]; exact k.slot)
  obtain ⟨rfl, rfl⟩ : d' = d ∧ w' = w := by rw [hd] at hd'; cases hd'; exact ⟨rfl, rfl⟩
  rw [f.args] at hfull
  exact ⟨h0, hfull⟩

section control
variable {addr : DevAddr} {sp : Speed} {dd : DataDir} {s v : State} {trb sb : Nat} {db : List Nat}

/-- XFER_CONTROL with its regions allocated can run its stages. -/
theorem stagesReady (hok : controlOk s.cfg dd s.args = true) (hbuf : CallerBuf s) (ho : ChanClean s ⟨0, .out⟩)
    (hi : ChanClean s ⟨0, .in_⟩) (B : Begun (controlRequests s.cfg s.args.len) (.xferControl addr sp dd) s (trb :: sb :: db) v) :
    StagesReady dd trb sb (db.headD 0) v := by
  have hlen : (if dd = .noData then s.args.len = 0 else s.args.len ≠ 0) ∧ s.args.len ≤ s.args.buf.len := by
    simp only [controlOk, Bool.and_eq_true, decide_eq_true_eq] at hok
    refine ⟨?_, hok.2⟩
    split <;> simp_all
  obtain ⟨h1, -⟩ := B.region (trb, trbRequest s.cfg) (by simp [controlRequests])
  obtain ⟨h2, h3⟩ := B.region (sb, (8, .staging)) (by simp [controlRequests])
  refine ⟨B.busy, ⟨B.clean _ ho, B.clean _ hi⟩, B.buf hbuf, by rw [B.args]; exact hlen.2, h3, fun hd => ?_, h1, h2⟩
  have h0 : s.args.len ≠ 0 := by have := hlen.1; rwa [if_neg hd] at this
  have hl := B.acq.length
  have hl : db.length = 1 := by simpa [controlRequests, h0] using hl
  obtain ⟨d, rfl⟩ := List.length_eq_one_iff.1 hl
  obtain ⟨h4, h5⟩ := B.region (d, (s.args.len, .staging)) (by simp [controlRequests, h0])
  rw [B.args]
  exact ⟨h5, h4⟩

/-- XFER_CONTROL with its regions allocated returns, whatever the device does (R186, R187, R188). -/
theorem control_returns (hok : controlOk s.cfg dd s.args = true) (hbuf : CallerBuf s) (ho : ChanClean s ⟨0, .out⟩)
    (hi : ChanClean s ⟨0, .in_⟩)
    (hv : acquire (controlRequests s.cfg s.args.len) (s.started (.xferControl addr sp dd)) = (some (trb :: sb :: db), v)) :
    ∃ e w u, controlStages addr dd trb sb (db.headD 0) v = .done e w ∧
      exec (.xferControl addr sp dd) s = .next (u.finish (.xferControl addr sp dd) e.status (.control e.res e.len)) ∧
      Returned (.xferControl addr sp dd) ep0Chans s u ∧ u.ep0Stage = .idle ∧ EndAnswer e.status e.res ∧ e.len ≤ s.args.len ∧
      ∀ a b, (a < sb ∨ sb + 8 ≤ a) → (a < db.headD 0 ∨ db.headD 0 + s.args.len ≤ a) →
        (dd ≠ .in_ ∨ a < s.args.buf.base ∨ s.args.buf.base + e.len ≤ a) → Shield a b s → Shield a b u := by
  have B := begun_of_acquire hv
  have k := stagesReady hok hbuf ho hi B
  obtain ⟨e, w, he, f, c, ka, hle, sh⟩ := controlStages_spec addr dd k.busy k.clean k.buf k.len k.staging k.data k.slot k.packet
  have htrace : w.trace = v.trace := (goes_controlStages (al := true) (i := .xferControl addr sp dd) ⟨addr, sp, dd, rfl⟩ addr dd
    trb sb (db.headD 0) (by
      simp only [controlOk, Bool.and_eq_true, decide_eq_true_eq] at hok
      rw [B.args, B.cfg]
      exact hok.1.2)).trace (by simp) he B.busy
  rw [B.args] at hle sh
  have hf : XferFrame ep0Chans v (w.withEp0Stage .idle) := f.trans
    (xferFrame_of_eq ep0Chans f.busy rfl (fun _ _ => rfl) rfl rfl rfl rfl rfl List.prefix_rfl)
  refine ⟨e, w, releaseAll trb (sb :: db) (w.withEp0Stage .idle), he, by rw [exec_xferControl_of_some hok hv, he]; rfl,
    ⟨B.release hf, fun b hb => releaseAll_clean trb (sb :: db) ?_, ?_⟩, ?_, ka, hle, fun a b h1 h2 h3 hs =>
    releaseAll_shield trb (sb :: db) (s := w.withEp0Stage .idle) f.busy
      (shield_of_dma (s := w) rfl rfl (sh a b h1 (fun _ => h2) h3 (B.shield a b hs)))⟩
  · have hcl : ∀ b ∈ ep0Chans, ChanClean w b := by simpa using ⟨c.1, c.2⟩
    exact hcl b hb
  · rw [releaseAll_trace, State.withEp0Stage_trace, htrace, B.trace]
  · rw [releaseAll_ep0Stage]; rfl

end control

/-- Settles O42. -/
theorem controlTransferCompletes : Obligations.ControlTransferCompletes := by
  unfold Obligations.ControlTransferCompletes
  intro addr sp dd s got hok hst0 hbuf ho hi
  rcases acquire_control_cases s.cfg s.args.len (s.started (.xferControl addr sp dd)) with ⟨v, hv⟩ | ⟨trb, sb, db, v, hv⟩
  · obtain ⟨htr, hal, hsg, hpr, hna⟩ := failed_return (.control .none 0) hv
    refine ⟨_, _, _, _, exec_xferControl_of_none hok hv, htr, by decide, Nat.zero_le _, by simp [ResultFits], rfl,
      hsg.trans hst0, hal, (hpr _).trans ho.2.1, (hpr _).trans hi.2.1, by simp [got, hv], fun _ => ⟨rfl, hna⟩, nofun,
      fun _ _ _ h => ?_⟩
    simp [got, hv] at h
  · obtain ⟨e, w, z, hdone, he, r, hsg, ka, hle, sw⟩ := control_returns hok hbuf ho hi hv
    have B := begun_of_acquire hv
    have k := stagesReady hok hbuf ho hi B
    have hst := ka.ne_outOfResources
    obtain ⟨a, u, ha, hfail, hgo⟩ := stagesRun_of_done hdone
    refine ⟨_, e.status, e.res, e.len, he, ?_, ka.mem, hle, ka.2, rfl, hsg, r.frame.alloc, (r.clean _ (by simp)).2.1,
      (r.clean _ (by simp)).2.1, ⟨fun h => absurd h hst, fun h => ?_⟩, fun h => absurd h hst, fun hs hd => ?_, fun p q o h => ?_⟩
    · rw [State.finish_trace, r.trace]; rfl
    · simp [got, hv] at h
    · by_cases has : a.status = .success
      · obtain ⟨d, x, hx, hdf, hds⟩ := hgo has
        have hml := k.middle_len ha hx
        by_cases hd2 : d.status = .success
        · obtain ⟨f, y, -, -, -, hl⟩ := hds hd2
          rw [hl, hml.2 hd2 hd, B.args]
        · exact absurd ((hdf hd2).1.symm.trans hs) hd2
      · exact absurd ((hfail has).1.symm.trans hs) has
    · obtain ⟨rfl, rfl, rfl⟩ : trb = p ∧ sb = q ∧ db = o := by simpa [got, hv] using h
      have hg : got.2 = v := by simp [got, hv]
      rw [hg]
      refine ⟨fun b hb h1 h2 h3 => ?_, a, u, ha, hfail, fun has => ?_⟩
      · exact (sw b _ h1 h2 (by by_cases hd : dd = .in_ <;> simp_all) ⟨rfl, hb⟩).byte
      · obtain ⟨d, x, hx, hdf, hds⟩ := hgo has
        refine ⟨d, x, hx, fun hn => ?_, hds⟩
        obtain ⟨h1, h2, h3⟩ := hdf hn
        exact ⟨h1, h2, h3.trans ((k.middle_len ha hx).1 hn)⟩

end Sys2Proof.Machine
end

section
/-! O48, O49. What a synchronous transfer leaves on every path, also stuck: no channel newly programmed, the frame, and its
regions freed where it returns (spec 43_transfer_protocol R185, R198). -/

namespace Sys2Proof.Machine

/-! ### No channel newly programmed -/

/-- No channel is programmed at `t` that was not programmed at `s`. -/
structure NoNew (s t : State) : Prop where
  chan : ∀ c, (t.chan c).programmed = true → (s.chan c).programmed = true

theorem NoNew.trans {s t u : State} (h : NoNew s t) (k : NoNew t u) : NoNew s u :=
  ⟨fun c hc => h.chan c (k.chan c hc)⟩

theorem noNew_of_chanFrame {s t : State} (h : ∀ c, ChanFrame (s.chan c) (t.chan c)) : NoNew s t :=
  ⟨fun c hc => (h c).programmed.symm.trans hc⟩

theorem noNew_atLine (s : State) (l : Line) : NoNew s (s.atLine l) := noNew_of_chanFrame (chan_atLine s l)

/-- A transfer's frame on no channel of its own programs none. -/
theorem XferFrame.noNew {s t : State} (f : XferFrame [] s t) : NoNew s t :=
  ⟨fun c hc => by
    rcases f.chan c (by simp) with h | h
    · exact h.programmed.symm.trans hc
    · rw [h] at hc; cases hc⟩

/-- A part of a command, unless it faults, ends or is held with no channel newly programmed. -/
structure Unarmed {α : Type} (s : State) (x : Part α) : Prop where
  noNew : (∀ r t, x ≠ .fault r t) → NoNew s x.state

section parts
variable {α β : Type} {s t : State}

theorem NoNew.unarmed {x : Part α} (h : NoNew s t) (k : Unarmed t x) : Unarmed s x :=
  ⟨fun hx => h.trans (k.noNew hx)⟩

theorem unarmed_done (a : α) (s : State) : Unarmed s (.done a s) := ⟨fun _ => ⟨fun _ h => h⟩⟩

theorem unarmed_of_chan {x : Part α} (h : ∀ c, x.state.chan c = s.chan c) : Unarmed s x :=
  ⟨fun _ => ⟨fun c hc => by rwa [h c] at hc⟩⟩

theorem Unarmed.andThen {x : Part α} {f : α → State → Part β} (hx : Unarmed s x)
    (hf : ∀ a t, x = .done a t → Unarmed t (f a t)) : Unarmed s (andThen x f) where
  noNew hn := by
    cases x with
    | done a t => exact (hx.noNew fun _ _ h => by cases h).trans ((hf a t rfl).noNew hn)
    | hold t => exact hx.noNew fun _ _ h => by cases h
    | fault r t => exact absurd rfl (hn r t)

theorem unarmed_seqRead (l : Line) (own : List Owner) (a n : Nat) (s : State) : Unarmed s (seqRead l own a n s) :=
  unarmed_of_chan fun c => by unfold seqRead; split <;> rfl

theorem unarmed_seqWrite (l : Line) (own : List Owner) (a : Nat) (bs : List Byte) (s : State) :
    Unarmed s (seqWrite l own a bs s) := unarmed_of_chan fun c => by unfold seqWrite; split <;> rfl

theorem unarmed_writeTrb (p : Nat) (x : Trb) (s : State) : Unarmed s (writeTrb p x s) :=
  unarmed_of_chan fun c => by unfold writeTrb; split <;> rfl

theorem unarmed_copy (l : Line) (src : List Owner) (a : Nat) (dst : List Owner) (b n : Nat) (s : State) :
    Unarmed s (copyBytes l src a dst b n s) :=
  (unarmed_seqRead l src a n s).andThen fun _ _ _ => unarmed_seqWrite l dst b _ _

theorem unarmed_fillOut (dir : Dir) (src dst n : Nat) (s : State) : Unarmed s (fillOut dir src dst n s) := by
  unfold fillOut
  split
  · exact (noNew_atLine s .fill).unarmed (unarmed_copy ..)
  · exact unarmed_done () s

theorem unarmed_deliverIn (dir : Dir) (src dst n : Nat) (s : State) : Unarmed s (deliverIn dir src dst n s) := by
  unfold deliverIn
  split
  · exact (noNew_atLine s .deliver).unarmed (unarmed_copy ..)
  · exact unarmed_done () s

/-! ### The stage cycle and the transfers -/

/-- Beside its own channel a cycle programs none. -/
theorem closed_noNew (c : Chan) (s : State) :
    CycleClosed c fun t => ∀ b, b ≠ c → (t.chan b).programmed = true → (s.chan b).programmed = true where
  interleave t h b hb hp := h b hb ((chan_interleave t b).programmed.symm.trans hp)
  seq _ _ _ h := h
  check _ h := h
  clear t h b hb hp := h b hb (by rwa [chan_dmaClear, if_neg hb] at hp)
  release t h b hb hp := h b hb (by rwa [chan_dmaRelease, if_neg hb] at hp)
  reset t h b hb hp := h b hb (by
    rcases (chan_dmaReset t b).2 with e | e
    · rwa [e] at hp
    · rw [e] at hp; cases hp)

theorem stageCycle_noNew {c : Chan} {trb : Nat} {kind : XferKind} {e : StageEnd}
    (h : stageCycle c trb kind s = .done e t) : NoNew s t := by
  obtain ⟨-, hc, -⟩ := stageCycleReleasesItsChannel c trb kind s t e h
  obtain ⟨_, u, hp, h⟩ := andThen_eq_done h
  obtain ⟨x, -, -, -, -, rfl⟩ := dmaProgram_eq_done hp
  have k := closed_noNew c s
  have hu : ∀ b, b ≠ c → ((programmed c trb x (s.atLine .program)).chan b).programmed = true →
      (s.chan b).programmed = true := fun b hb h => (noNew_atLine s .program).chan b (by rwa [chan_programmed, if_neg hb] at h)
  have hw := k.wait (waitBudget (programmed c trb x (s.atLine .program)).cfg kind
    (programmed c trb x (s.atLine .program)).args.timeout) hu
  have ht : ∀ b, b ≠ c → (t.chan b).programmed = true → (s.chan b).programmed = true := by
    dsimp only at h
    split at h
    · have := k.complete hw; rwa [h] at this
    · have := k.timeout hw; rwa [h] at this
  refine ⟨fun b hb => ?_⟩
  by_cases hbc : b = c
  · rw [hbc, hc] at hb; cases hb
  · exact ht b hbc hb

theorem stageCycle_ne_hold (c : Chan) (trb : Nat) (kind : XferKind) (s t : State) : stageCycle c trb kind s ≠ .hold t := by
  unfold stageCycle
  rcases dmaProgram_cases c trb (s.atLine .program) with ⟨-, e⟩ | ⟨-, -, e⟩ | ⟨x, -, -, ⟨-, e⟩ | ⟨-, -, e⟩⟩ <;> rw [e]
  · nofun
  · nofun
  · nofun
  · rw [andThen_done]
    dsimp only
    split <;> nofun

theorem unarmed_stageCycle (c : Chan) (trb : Nat) (kind : XferKind) (s : State) : Unarmed s (stageCycle c trb kind s) :=
  ⟨fun hn => by
    cases h : stageCycle c trb kind s with
    | done e t => exact stageCycle_noNew h
    | hold t => exact absurd h (stageCycle_ne_hold c trb kind s t)
    | fault r t => exact absurd h (hn r t)⟩

theorem unarmed_trbCycle (c : Chan) (trb : Nat) (x : Trb) (kind : XferKind) (s : State) :
    Unarmed s (trbCycle c trb x kind s) :=
  (noNew_atLine s .writeTrb).unarmed ((unarmed_writeTrb trb x _).andThen fun _ t _ => unarmed_stageCycle c trb kind t)

theorem unarmed_intSyncCycle (c : Chan) (trb stg : Nat) (s : State) : Unarmed s (intSyncCycle c trb stg s) :=
  (unarmed_fillOut ..).andThen fun _ _ _ => (unarmed_trbCycle ..).andThen fun e u _ => by
    split
    · exact (unarmed_deliverIn ..).andThen fun _ v _ => unarmed_done _ v
    · exact unarmed_done _ u

theorem unarmed_bulkChunk (c : Chan) (trb stg i : Nat) (s : State) : Unarmed s (bulkChunk c trb stg i s) :=
  (noNew_of_chanFrame (t := s.setRound i) fun c => .refl (s.chan c)).unarmed
    ((unarmed_fillOut ..).andThen fun _ _ _ => (unarmed_trbCycle ..).andThen fun e u _ => by
      split
      · exact (unarmed_deliverIn ..).andThen fun _ v _ => unarmed_done _ v
      · exact unarmed_done _ u)

theorem unarmed_bulkLoop (c : Chan) (trb stg n i len : Nat) (s : State) : Unarmed s (bulkLoop c trb stg n i len s) := by
  induction n generalizing i len s with
  | zero => exact unarmed_done _ s
  | succ n ih =>
    refine (unarmed_bulkChunk c trb stg i s).andThen fun e t _ => ?_
    split
    · exact ih ..
    · exact unarmed_done _ t

theorem noNew_controlBegin (round : Nat) (stage : Ep0Stage) (dir : Dir) (st : CtrlStage) (addr : DevAddr) (s : State) :
    NoNew s (controlBegin round stage dir st addr s) := by
  unfold controlBegin
  obtain ⟨e, r, h⟩ := configureEp0_parts dir st addr s.args.mps (((s.setRound round).atLine .configure).withEp0Stage stage)
  rw [h]
  exact ⟨(noNew_atLine (s.setRound round) .configure).chan⟩

theorem unarmed_controlSetup (addr : DevAddr) (trb sb : Nat) (s : State) : Unarmed s (controlSetup addr trb sb s) :=
  ((noNew_controlBegin ..).trans (noNew_atLine _ .fill)).unarmed
    ((unarmed_seqWrite ..).andThen fun _ _ _ => unarmed_trbCycle ..)

theorem unarmed_controlData (addr : DevAddr) (dir : Dir) (trb db : Nat) (s : State) :
    Unarmed s (controlData addr dir trb db s) :=
  (noNew_controlBegin ..).unarmed ((unarmed_fillOut ..).andThen fun _ _ _ => (unarmed_trbCycle ..).andThen fun e u _ => by
    split
    · exact (unarmed_deliverIn ..).andThen fun _ v _ => unarmed_done _ v
    · exact unarmed_done _ u)

theorem unarmed_controlMiddle (addr : DevAddr) (dd : DataDir) (trb db : Nat) (s : State) :
    Unarmed s (controlMiddle addr dd trb db s) := by
  unfold controlMiddle
  split
  · exact unarmed_controlData ..
  · exact unarmed_done _ s

theorem unarmed_controlStatus (addr : DevAddr) (dd : DataDir) (trb sb len : Nat) (s : State) :
    Unarmed s (controlStatus addr dd trb sb len s) :=
  (noNew_controlBegin ..).unarmed ((unarmed_trbCycle ..).andThen fun _ u _ => unarmed_done _ u)

theorem unarmed_controlStages (addr : DevAddr) (dd : DataDir) (trb sb db : Nat) (s : State) :
    Unarmed s (controlStages addr dd trb sb db s) := by
  refine (unarmed_controlSetup addr trb sb s).andThen fun e t _ => ?_
  split
  · refine (unarmed_controlMiddle addr dd trb db t).andThen fun d u _ => ?_
    split
    · exact unarmed_controlStatus ..
    · exact unarmed_done _ u
  · exact unarmed_done _ t

end parts

/-! ### How a synchronous transfer ends -/

/-- The transfer returns from `w`, in which its stages ended: what it acquired is released, before its Result. -/
def Unwound (i : Instr) (trb : Nat) (stg : List Nat) (w t : State) : Prop :=
  ∃ u st o, t = (releaseAll trb stg u).finish i st o ∧ XferFrame [] w u

/-- The ways a synchronous transfer can go (R185): rejected, out of resources, or with its regions acquired run to its return
or to where it is stuck. -/
inductive SyncRun (i : Instr) (s : State) : State → Prop where
  | rejected (st : Status) (o : Outs) : SyncRun i s ((s.started i).finish i st o)
  | failed {v : State} (o : Outs) (h : acquire (syncRequests i s) (s.started i) = (none, v)) :
      SyncRun i s (v.finish i .outOfResources o)
  | held {trb : Nat} {stg : List Nat} {v t : State} {x : Part XferEnd}
      (h : acquire (syncRequests i s) (s.started i) = (some (trb :: stg), v)) (hx : x = .hold t) (hn : Unarmed v x)
      (hg : Goes i false v x) : SyncRun i s t
  | returned {trb : Nat} {stg : List Nat} {v w t : State} {x : Part XferEnd} {e : XferEnd}
      (h : acquire (syncRequests i s) (s.started i) = (some (trb :: stg), v)) (hx : x = .done e w) (hn : Unarmed v x)
      (hg : Goes i false v x) (hu : Unwound i trb stg w t) : SyncRun i s t

theorem syncRun_of_conclude {i : Instr} {s v t : State} {trb : Nat} {stg : List Nat} {x : Part XferEnd}
    {f : XferEnd → State → Part Unit} (h : acquire (syncRequests i s) (s.started i) = (some (trb :: stg), v))
    (hn : Unarmed v x) (hg : Goes i false v x)
    (hf : ∀ e w, w.seq.busy = true → ∃ u, f e w = .done () u ∧ Unwound i trb stg w u)
    (he : conclude (andThen x f) = .next t) : SyncRun i s t := by
  have hb := begun_of_acquire h
  cases x with
  | done e w =>
    have hw : Runs i false v w := (hg hb.busy).1
    obtain ⟨u, hu, hr⟩ := hf e w (hw.busy hb.busy)
    rw [andThen_done, hu] at he
    cases he
    exact .returned h rfl hn hg hr
  | hold u =>
    cases he
    exact .held h rfl hn hg
  | fault r u => cases he

theorem unwound_finishTransfer (i : Instr) (c : Chan) (trb stg : Nat) (e : XferEnd) {w : State} (hb : w.seq.busy = true) :
    Unwound i trb [stg] w (finishTransfer i c trb stg e w) := ⟨toggleRead w, _, _, rfl, toggleRead_frame [] hb⟩

theorem unarmed_configured {c : Chan} {ty : EpType} {tg : Bool} {addr : DevAddr} {mps interval : Nat} {v : State}
    {α : Type} {x : Part α} (h : Unarmed (configureEp c ty tg addr mps interval (v.atLine .configure)) x) : Unarmed v x :=
  NoNew.unarmed (noNew_of_chanFrame fun b => by rw [chan_configureEp]; exact chan_atLine v .configure b) h

theorem goes_configured {i : Instr} {c : Chan} {ty : EpType} {tg : Bool} {addr : DevAddr} {mps interval : Nat} {v : State}
    {α : Type} {x : Part α} (h : Goes i false (configureEp c ty tg addr mps interval (v.atLine .configure)) x) :
    Goes i false v x := ((does_atLine i _ v).trans (runs_configureEp ..).does).goes h

theorem syncRun_of_next {i : Instr} {s t : State} (hi : IsSyncTransfer i) (h : exec i s = .next t) : SyncRun i s t := by
  have hi' := hi
  rcases hi with ⟨a, sp, dd, rfl⟩ | ⟨e, d, tg, a, sp, rfl⟩ | ⟨e, d, tg, a, sp, rfl⟩
  · by_cases hok : controlOk s.cfg dd s.args = true
    · rcases acquire_control_cases s.cfg s.args.len (s.started (.xferControl a sp dd)) with ⟨v, hv⟩ | ⟨trb, sb, db, v, hv⟩
      · rw [exec_xferControl_of_none hok hv] at h
        cases h
        exact .failed _ hv
      · rw [exec_xferControl_of_some hok hv] at h
        have B := begun_of_acquire hv
        have hlen : v.args.len ≤ v.cfg.maxTrbSize := by
          simp only [controlOk, Bool.and_eq_true, decide_eq_true_eq] at hok
          rw [B.args, B.cfg]
          exact hok.1.2
        exact syncRun_of_conclude hv (unarmed_controlStages ..) (goes_controlStages ⟨a, sp, dd, rfl⟩ a dd trb sb _ hlen)
          (fun e w hb => ⟨_, rfl, w.withEp0Stage .idle, _, _, rfl,
            xferFrame_of_eq [] hb rfl (fun _ _ => rfl) rfl rfl rfl rfl rfl List.prefix_rfl⟩) h
    · rw [exec_xferControl_of_bad (Bool.eq_false_iff.2 hok)] at h
      cases h
      exact .rejected _ _
  · by_cases hok : bulkOk e s.args = true
    · rcases acquire_pair_cases (trbRequest s.cfg) (s.cfg.burstSize, .staging) (s.started (.xferBulk e d tg a sp)) with
        ⟨v, hv⟩ | ⟨trb, stg, v, hv⟩
      · rw [exec_xferBulk_of_none hok hv] at h
        cases h
        exact .failed _ hv
      · rw [exec_xferBulk_of_some hok hv] at h
        exact syncRun_of_conclude hv (unarmed_configured (unarmed_bulkLoop ..)) (goes_configured (goes_bulkLoop hi' _ _ _ _ _ _ _))
          (fun x w hb => ⟨_, rfl, unwound_finishTransfer _ ⟨e, d⟩ trb stg x hb⟩) h
    · rw [exec_xferBulk_of_bad (Bool.eq_false_iff.2 hok)] at h
      cases h
      exact .rejected _ _
  · by_cases hok : intSyncOk s.cfg e s.args = true
    · rcases acquire_pair_cases (trbRequest s.cfg) (s.args.len, .staging) (s.started (.xferIntSync e d tg a sp)) with
        ⟨v, hv⟩ | ⟨trb, stg, v, hv⟩
      · rw [exec_xferIntSync_of_none hok hv] at h
        cases h
        exact .failed _ hv
      · rw [exec_xferIntSync_of_some hok hv] at h
        have B := begun_of_acquire hv
        have hlen : v.args.len ≤ v.cfg.maxTrbSize := by
          simp only [intSyncOk, Bool.and_eq_true, decide_eq_true_eq] at hok
          rw [B.args, B.cfg]
          exact hok.1.2
        refine syncRun_of_conclude hv (unarmed_configured (unarmed_intSyncCycle ..))
          (goes_configured (goes_intSync hi' _ _ _ ?_))
          (fun x w hb => ⟨_, rfl, unwound_finishTransfer _ ⟨e, d⟩ trb stg x hb⟩) h
        have f := (configured (.xferIntSync e d tg a sp) ⟨e, d⟩ .interrupt tg a v.args.mps v.args.interval B.busy).frame
        rw [f.args, f.cfg]
        exact hlen
    · rw [exec_xferIntSync_of_bad (Bool.eq_false_iff.2 hok)] at h
      cases h
      exact .rejected _ _

/-! ### O48 -/

theorem Passed.noNew {s t : State} (p : Passed s t) : NoNew s t := noNew_of_chanFrame p.frame.chan

theorem NoNew.of_begin {i : Instr} {s t : State} (h : NoNew (s.begin i) t) : NoNew s t := ⟨h.chan⟩

theorem Unwound.noNew {i : Instr} {trb : Nat} {stg : List Nat} {w t : State} (h : Unwound i trb stg w t) : NoNew w t := by
  obtain ⟨u, st, o, rfl, f⟩ := h
  have hr := noNew_of_chanFrame (releaseAll_chan trb stg u)
  exact f.noNew.trans ⟨hr.chan⟩

/-- No path of a synchronous transfer leaves a channel programmed (R198). -/
theorem SyncRun.noNew {i : Instr} {s t : State} (h : SyncRun i s t) : NoNew s t := by
  refine NoNew.of_begin (i := i) ?_
  cases h with
  | rejected st o => exact ⟨(passed_started i s).noNew.chan⟩
  | failed o h => exact ⟨(begun_of_failed h).1.noNew.chan⟩
  | held h hx hn hg =>
    subst hx
    exact (begun_of_acquire h).passed.noNew.trans (hn.noNew fun _ _ h => by cases h)
  | returned h hx hn hg hu =>
    subst hx
    exact ((begun_of_acquire h).passed.noNew.trans (hn.noNew fun _ _ h => by cases h)).trans hu.noNew

/-- Settles O48. -/
theorem syncTransferLeavesNoChannelProgrammed : Obligations.SyncTransferLeavesNoChannelProgrammed :=
  fun _ _ _ hi h => (syncRun_of_next hi h).noNew.chan

/-! ### O49 -/

/-- Where it returns, a synchronous transfer has freed what it acquired (R185). -/
theorem SyncRun.alloc {i : Instr} {s t : State} (h : SyncRun i s t) (hs : t.seq = Seq.idle) : t.alloc = s.alloc := by
  cases h with
  | rejected st o => exact State.started_alloc s i
  | failed o h => exact (begun_of_failed h).2
  | held h hx hn hg =>
    subst hx
    have B := begun_of_acquire h
    have hb : t.seq.busy = true := Runs.busy (hg B.busy).1 B.busy
    rw [hs] at hb
    cases hb
  | returned h hx hn hg hu =>
    subst hx
    have B := begun_of_acquire h
    have hw : Runs i false _ _ := (hg B.busy).1
    obtain ⟨u, st, o, rfl, f⟩ := hu
    exact (releaseAll_alloc B.acq f.busy (f.alloc.trans (hw.frame.alloc rfl))).trans (State.started_alloc s i)

theorem IsSyncTransfer.other {i : Instr} (hi : IsSyncTransfer i) :
    i ≠ .asyncTick ∧ (∀ e d tg a sp, i ≠ .asyncRegister e d tg a sp) ∧ ∀ e a, i ≠ .asyncCancel e a := by
  rcases hi with ⟨_, _, _, rfl⟩ | ⟨_, _, _, _, _, rfl⟩ | ⟨_, _, _, _, _, rfl⟩ <;> exact ⟨nofun, nofun, nofun⟩

/-- What a run of a synchronous transfer leaves alone, up to its Result (R31, R185, R199). -/
theorem sync_frame {i : Instr} {s u : State} (hi : IsSyncTransfer i) (h : Runs i true (s.begin i) u) :
    u.otg = { s.otg with flags := u.otg.flags, inputs := u.otg.inputs } ∧ u.port = s.port ∧ u.hcState = s.hcState ∧
      u.secondary = s.secondary ∧ u.async = s.async ∧ u.args = s.args ∧ u.cfg = s.cfg ∧ u.hostQueue = s.hostQueue ∧
      s.regtrace <+: u.regtrace ∧ u.trace = s.trace := by
  have f := h.frame
  obtain ⟨h1, h2, h3⟩ := hi.other
  exact ⟨f.otg, f.port, f.hcState, f.secondary, f.async h2 h3 h1, f.args, f.cfg, f.hostQueue, f.regtrace, f.trace h1⟩

/-- Settles O49. -/
theorem syncTransferFrame : Obligations.SyncTransferFrame := by
  intro i s t hi h
  have halloc := (syncRun_of_next hi h).alloc
  cases sync_ends hi h with
  | returned st o hr =>
    obtain ⟨h1, h2, h3, h4, h5, h6, h7, h8, h9, h10⟩ := sync_frame hi hr
    exact ⟨h1, h2, h3, h4, h5, h6, h7, h8, h9, .inl ⟨rfl, halloc rfl, st, o, by rw [State.finish_trace, h10]⟩⟩
  | stuck hr ha ht =>
    obtain ⟨h1, h2, h3, h4, h5, h6, h7, h8, h9, h10⟩ := sync_frame hi hr
    exact ⟨h1, h2, h3, h4, h5, h6, h7, h8, h9, .inr ⟨stuck_of_access hr ha ht, h10⟩⟩

end Sys2Proof.Machine
end

section
/-! O50, O51. What a synchronous transfer leaves alone of the other channels and endpoints, and of memory (spec
43_transfer_protocol section 5, 20_memory R77). -/

namespace Sys2Proof.Machine

/-- An address outside the regions a transfer acquired and, unless it only sends, outside the caller's buffer. -/
def OutsideTransfer (i : Instr) (s : State) (as : List Nat) (a : Nat) : Prop :=
  (∀ r ∈ as.zip (syncRequests i s), a < r.1 ∨ r.1 + r.2.1 ≤ a) ∧
    (sendsOnly i = true ∨ a < s.args.buf.base ∨ s.args.buf.base + s.args.len ≤ a)

/-- What a synchronous transfer on clean channels comes to: a Result on the state `u`, the other channels alone, and no byte
written outside its regions and the caller's buffer. -/
structure SyncReturn (i : Instr) (s u : State) : Prop where
  frame : XferFrame (syncChans i) (s.begin i) u
  shield : ∀ as v a b, acquire (syncRequests i s) (s.started i) = (some as, v) → OutsideTransfer i s as a → Shield a b s →
    Shield a b u

theorem syncReturn_rejected (i : Instr) (s : State) : SyncReturn i s (s.started i) :=
  ⟨(passed_started i s).xferFrame _ rfl (State.started_alloc s i), fun _ _ _ _ _ _ h =>
    (passed_started i s).shield rfl (shield_of_dma (s := s) rfl rfl h)⟩

theorem syncReturn_failed {i : Instr} {s v : State} (h : acquire (syncRequests i s) (s.started i) = (none, v)) :
    SyncReturn i s v := by
  obtain ⟨p, ha⟩ := begun_of_failed h
  exact ⟨p.xferFrame _ rfl ha, fun _ _ _ _ h' => by rw [h] at h'; cases h'⟩

/-- The regions a transfer acquired are fixed, so one run of its allocations says where it may store. -/
theorem syncReturn_of {i : Instr} {s u v : State} {as : List Nat} (h : acquire (syncRequests i s) (s.started i) = (some as, v))
    (r : Returned i (syncChans i) s u)
    (hs : ∀ a b, OutsideTransfer i s as a → Shield a b s → Shield a b u) : SyncReturn i s u :=
  ⟨r.frame, fun bs w a b h' ha => by rw [h] at h'; cases h'; exact hs a b ha⟩

/-- Of the caller's buffer a transfer of direction `dir` writes at most the bytes of its length. -/
theorem OutsideTransfer.buffer {i : Instr} {s : State} {as : List Nat} {a n : Nat} (h : OutsideTransfer i s as a)
    (hn : n ≤ s.args.len) : sendsOnly i = true ∨ a < s.args.buf.base ∨ s.args.buf.base + n ≤ a :=
  h.2.imp_right fun k => k.imp_right fun k => by omega

/-- The data region of a control transfer, where it has one, is one of those it acquired (R186). -/
theorem OutsideTransfer.data {addr : DevAddr} {sp : Speed} {dd : DataDir} {s : State} {trb sb : Nat} {db : List Nat} {a : Nat}
    (h : OutsideTransfer (.xferControl addr sp dd) s (trb :: sb :: db) a)
    (hl : (trb :: sb :: db).length = (controlRequests s.cfg s.args.len).length) :
    a < db.headD 0 ∨ db.headD 0 + s.args.len ≤ a := by
  by_cases h0 : s.args.len = 0
  · obtain rfl : db = [] := List.length_eq_zero_iff.1 (by simpa [controlRequests, h0] using hl)
    exact .inr (by simp [h0])
  · obtain ⟨d, rfl⟩ := List.length_eq_one_iff.1 (show db.length = 1 by simpa [controlRequests, h0] using hl)
    exact h.1 (d, (s.args.len, .staging)) (by simp [syncRequests, controlRequests, h0])

theorem Ends.ep0 {i : Instr} {s t : State} (h : Ends i s t) (hn : ¬UsesEp0 i) :
    t.ep0 = { s.ep0 with toggle := t.ep0.toggle } := by
  cases h with
  | returned st o hr | stuck hr => exact hr.frame.ep0 hn

/-- A synchronous transfer on clean channels, with a caller buffer, returns (R185, R198). -/
theorem sync_returns {i : Instr} {s t : State} (hi : IsSyncTransfer i) (h : exec i s = .next t) (hwf : s.cfg.wf = true)
    (hbuf : CallerBuf s) (hcl : ∀ b ∈ syncChans i, ChanClean s b) :
    ∃ u st o, t = u.finish i st o ∧ SyncReturn i s u := by
  have hrun := syncRun_of_next hi h
  rcases hi with ⟨a, sp, dd, rfl⟩ | ⟨e, d, tg, a, sp, rfl⟩ | ⟨e, d, tg, a, sp, rfl⟩
  · by_cases hok : controlOk s.cfg dd s.args = true
    · rcases acquire_control_cases s.cfg s.args.len (s.started (.xferControl a sp dd)) with ⟨v, hv⟩ | ⟨trb, sb, db, v, hv⟩
      · rw [exec_xferControl_of_none hok hv] at h
        cases h
        exact ⟨_, _, _, rfl, syncReturn_failed hv⟩
      · obtain ⟨e, w, u, hw, he, r, -, -, hle, sh⟩ := control_returns hok hbuf (hcl _ (by simp [syncChans])) (hcl _ (by simp [syncChans])) hv
        rw [he] at h
        cases h
        refine ⟨u, _, _, rfl, syncReturn_of hv r fun b x ho => sh b x ?_ ?_ ?_⟩
        · exact ho.1 (sb, (8, .staging)) (by simp [syncRequests, controlRequests])
        · exact ho.data (begun_of_acquire hv).acq.length
        · exact (ho.buffer hle).imp_left fun k => by simpa [sendsOnly] using k
    · rw [exec_xferControl_of_bad (Bool.eq_false_iff.2 hok)] at h
      cases h
      exact ⟨_, _, _, rfl, syncReturn_rejected _ s⟩
  · by_cases hok : bulkOk e s.args = true
    · rcases acquire_pair_cases (trbRequest s.cfg) (s.cfg.burstSize, .staging) (s.started (.xferBulk e d tg a sp)) with
        ⟨v, hv⟩ | ⟨trb, stg, v, hv⟩
      · rw [exec_xferBulk_of_none hok hv] at h
        cases h
        exact ⟨_, _, _, rfl, syncReturn_failed hv⟩
      · obtain ⟨x, w, ends, z, he, K⟩ := bulk_returns hok hwf hbuf (hcl _ (by simp [syncChans])) hv
        obtain ⟨u, hu, r, su⟩ := finishTransfer_returned (i := .xferBulk e d tg a sp) x (begun_of_acquire hv) K.moved
        rw [he, hu] at h
        cases h
        refine ⟨u, _, _, rfl, syncReturn_of hv r fun b y ho hs => su b y (K.chunks.shield b y ?_ ?_ (K.shield b y hs))⟩
        · rw [K.cfg]
          exact ho.1 (stg, (s.cfg.burstSize, .staging)) (by simp [syncRequests])
        · rw [K.args, K.cfg]
          refine ho.2.imp (fun k => by simpa [sendsOnly] using k) fun k j y hj => ?_
          have hj' : j < ends.length := (List.getElem?_eq_some_iff.1 hj).1
          have hact := (K.chunks.actual j y hj).1
          rw [K.args, K.cfg] at hact
          obtain ⟨hb, -, -⟩ := chunk_bounds (i := 0 + j) (len := s.args.len) (burstSize_pos hwf)
            (by have := K.ends_le; omega)
          omega
    · rw [exec_xferBulk_of_bad (Bool.eq_false_iff.2 hok)] at h
      cases h
      exact ⟨_, _, _, rfl, syncReturn_rejected _ s⟩
  · by_cases hok : intSyncOk s.cfg e s.args = true
    · rcases acquire_pair_cases (trbRequest s.cfg) (s.args.len, .staging) (s.started (.xferIntSync e d tg a sp)) with
        ⟨v, hv⟩ | ⟨trb, stg, v, hv⟩
      · rw [exec_xferIntSync_of_none hok hv] at h
        cases h
        exact ⟨_, _, _, rfl, syncReturn_failed hv⟩
      · obtain ⟨x, w, he, m, -, hle, -, -, sw⟩ := intSync_returns hok hbuf (hcl _ (by simp [syncChans])) hv
        obtain ⟨u, hu, r, su⟩ := finishTransfer_returned (i := .xferIntSync e d tg a sp) x (begun_of_acquire hv) m
        rw [he, hu] at h
        cases h
        refine ⟨u, _, _, rfl, syncReturn_of hv r fun b y ho hs => su b y (sw b y ?_ ?_ hs)⟩
        · exact ho.1 (stg, (s.args.len, .staging)) (by simp [syncRequests])
        · exact (ho.buffer hle).imp_left fun k => by simpa [sendsOnly] using k
    · rw [exec_xferIntSync_of_bad (Bool.eq_false_iff.2 hok)] at h
      cases h
      exact ⟨_, _, _, rfl, syncReturn_rejected _ s⟩

/-- A channel no agent acts on is as it was. -/
theorem ChanFrame.eq_of_agentTrb {s : State} {c : Chan} {y : Channel} (h : ChanFrame (s.chan c) y)
    (hn : s.agentTrb c = none) : y = s.chan c := by
  rcases h with h | ⟨h1, h2, ⟨x, h3, -⟩, -⟩
  · exact h
  · unfold State.agentTrb at hn
    rw [h1, h2, h3] at hn
    cases hn

/-- Settles O50. -/
theorem syncTransferLeavesOtherChannels : Obligations.SyncTransferLeavesOtherChannels := by
  intro i s t c hi h hwf hbuf hcl hc
  obtain ⟨u, st, o, rfl, r⟩ := sync_returns hi h hwf hbuf hcl
  refine ⟨r.frame.endpoint c hc, fun hn => ⟨r.frame.toggle c hc hn, ?_⟩, fun h0 => ?_⟩
  · rcases r.frame.chanOrReset c hc with k | k
    · exact .inl (k.eq_of_agentTrb (s := s.begin i) hn)
    · exact .inr k
  · have hn : ¬UsesEp0 i := by
      rcases hi with ⟨_, _, _, rfl⟩ | ⟨_, _, _, _, _, rfl⟩ | ⟨_, _, _, _, _, rfl⟩
      · exact absurd rfl (h0 ⟨0, .out⟩ (by simp [syncChans]))
      · rintro (⟨_, _, _, h⟩ | ⟨_, _, _, _, _, h⟩) <;> cases h
      · rintro (⟨_, _, _, h⟩ | ⟨_, _, _, _, _, h⟩) <;> cases h
    exact (sync_ends hi h).ep0 hn

/-- Settles O51. -/
theorem syncTransferStoresOnlyToItsBuffers : Obligations.SyncTransferStoresOnlyToItsBuffers := by
  intro i s t v as a hi h hwf hbuf hcl hv ha hr hb
  obtain ⟨u, st, o, rfl, r⟩ := sync_returns hi h hwf hbuf hcl
  exact (r.shield as v a _ hv ⟨hr, hb⟩ ⟨rfl, ha⟩).byte

end Sys2Proof.Machine
end

section
/-! O52, O53. The arm of an interrupt endpoint by its lines, where an access leaves the Sequencer stuck, and a stuck Sequencer's
steps (spec 43_transfer_protocol R196, 00_scope R13, 60_exceptions R251). -/

namespace Sys2Proof.Machine

/-! ### The lines of an arm (R196) -/

section arm
variable {c : Chan} {tg : Bool} {addr : DevAddr} {mps interval trb data len : Nat} {s : State}

/-- The state in which an arm comes to its TRB write: the endpoint is configured. -/
abbrev armConfigured (c : Chan) (tg : Bool) (addr : DevAddr) (mps interval : Nat) (s : State) : State :=
  (configureEp c .interrupt tg addr mps interval (s.atLine .configure)).atLine .writeTrb

/-- What the lines of an arm up to its program leave alone, and what they log. -/
structure ArmLine (ops : List RegOp) (s u : State) : Prop where
  busy : u.seq.busy = true
  cfg : u.cfg = s.cfg
  regtrace : u.regtrace = s.regtrace ++ ops
  trace : u.trace = s.trace
  programmed : ∀ b, (u.chan b).programmed = (s.chan b).programmed
  shield : ∀ a b, Shield a b s → Shield a b u

theorem ArmLine.atLine {ops : List RegOp} {u : State} (h : ArmLine ops s u) (l : Line) : ArmLine ops s (u.atLine l) where
  busy := (agentFrame_interleave (u.setPos (.line l))).busy.trans h.busy
  cfg := (State.atPos_cfg u _).trans h.cfg
  regtrace := (State.atPos_regtrace u _).trans h.regtrace
  trace := (State.atPos_trace u _).trans h.trace
  programmed b := (chan_atLine u l b).programmed.trans (h.programmed b)
  shield a b hs := shield_atLine l h.busy (h.shield a b hs)

theorem armLine_refl (hb : s.seq.busy = true) : ArmLine [] s s :=
  ⟨hb, rfl, (List.append_nil _).symm, rfl, fun _ => rfl, fun _ _ h => h⟩

theorem armConfigured_line (hb : s.seq.busy = true) :
    ArmLine (interruptTrace s.cfg c tg addr mps interval) s (armConfigured c tg addr mps interval s) := by
  have h := (armLine_refl hb).atLine .configure
  refine ArmLine.atLine ?_ .writeTrb
  rw [configureEp_eq]
  refine ⟨h.busy, h.cfg, ?_, h.trace, h.programmed, fun a b hs => shield_of_dma (s := s.atLine .configure) rfl rfl (h.shield a b hs)⟩
  show (s.atLine .configure).regtrace ++ _ = _
  rw [h.regtrace, List.append_nil, h.cfg, interruptTrace]
  by_cases hi : interval = 0 <;> simp [hi]

theorem armConfigured_trbStore : (armConfigured c tg addr mps interval s).trbStore = s.trbStore := by
  rw [armConfigured, State.atPos_trbStore, configureEp_eq]
  exact State.atPos_trbStore s _

theorem armedBefore_eq : armedBefore c tg addr mps interval trb data len s =
    ((armConfigured c tg addr mps interval s).putTrb trb (armTrb s.cfg data len)).atLine .program := rfl

theorem armedBefore_line (hb : s.seq.busy = true) :
    ArmLine (interruptTrace s.cfg c tg addr mps interval) s (armedBefore c tg addr mps interval trb data len s) := by
  have h := armConfigured_line (c := c) (tg := tg) (addr := addr) (mps := mps) (interval := interval) hb
  refine ArmLine.atLine ?_ .program
  exact ⟨h.busy, h.cfg, h.regtrace, h.trace, h.programmed, fun a b hs => shield_of_dma (s := armConfigured c tg addr mps interval s)
    rfl rfl (h.shield a b hs)⟩

theorem armedBefore_trbStore :
    (armedBefore c tg addr mps interval trb data len s).trbStore = tabPut s.trbStore trb (armTrb s.cfg data len) := by
  rw [armedBefore_eq, State.atPos_trbStore, State.putTrb_trbStore, armConfigured_trbStore]

/-- An arm whose operands are legal is its three lines; the write of a TRB at an address outside the address space leaves the
Sequencer stuck (R48, R62, R196). -/
theorem armInterrupt_of_legal (h0 : c.ep ≠ 0) (hl : len ≤ s.cfg.maxTrbSize) :
    armInterrupt c tg addr mps interval trb data len s =
      if trb < addrSpace s.cfg.addrWidth ∧ data < addrSpace s.cfg.addrWidth then
        andThen (dmaProgram c trb (armedBefore c tg addr mps interval trb data len s)) fun _ t => .done .success t
      else stuckAt .writeTrb (armConfigured c tg addr mps interval s) := by
  have hcfg : (configureEp c .interrupt tg addr mps interval (s.atLine .configure)).cfg = s.cfg := by
    rw [configureEp_eq]; exact State.atPos_cfg s _
  have hcfg2 : (armConfigured c tg addr mps interval s).cfg = s.cfg := (State.atPos_cfg _ _).trans hcfg
  unfold armInterrupt
  rw [if_neg (by simp [h0, hl])]
  simp only [hcfg, writeTrb, hcfg2, Bool.and_eq_true, decide_eq_true_eq]
  split <;> rfl

end arm

/-! ### An arm within a command -/

theorem quietChan_started (i : Instr) {c : Chan} {s : State} (h0 : c.ep ≠ 0) (hn : s.agentTrb c = none) :
    (s.started i).chan c = s.chan c ∧ (s.started i).endpoint c = s.endpoint c ∧ (s.started i).agentTrb c = none :=
  quietChan_atLine (s := s.begin i) .start h0 hn

theorem ChannelsCoherent.agentTrb {c : Chan} {s : State} (h : ChannelsCoherent s) (hp : (s.chan c).programmed = false) :
    s.agentTrb c = none := State.agentTrb_eq_none (.inl ((h c).1.trans hp))

/-- Beside the channel a command armed, only the other agents have stepped (R8). -/
theorem onlyAgentsBeside_of_frame {i : Instr} {c : Chan} {s u : State} (st : Status) (o : Outs)
    (f : XferFrame [c] (s.begin i) (u.withAlloc s.alloc)) (k : RunFrame i true (s.begin i) u) (hc : ∀ a sp dd, i ≠ .xferControl a sp dd)
    (hn : ¬UsesEp0 i) {ops : List RegOp} (hlog : u.regtrace = s.regtrace ++ ops) (hops : RegOp.softReset ∉ ops)
    (hm : ∀ a, OutsideAgents s a → readByte u.mem a = readByte s.mem a) : OnlyAgentsBeside c s (u.finish i st o) := by
  refine ⟨fun b hb => ?_, hm, k.flags, State.eq_of_fields k.otg k.port k.hcState (k.stage hc) k.secondary rfl (k.ep0 hn) rfl rfl rfl
    rfl rfl rfl k.args rfl rfl k.fault rfl k.cfg k.hostQueue rfl⟩
  have hb' : b ∉ [c] := by simpa using hb
  have hch : ChanFrame (s.chan b) (u.chan b) := (f.chanOrReset b hb').resolve_right fun ⟨_, h⟩ => by
    have h : RegOp.softReset ∈ u.regtrace.drop s.regtrace.length := h
    rw [hlog, List.drop_left] at h
    exact hops h
  refine ⟨f.endpoint b hb', fun ha => ⟨?_, f.toggle b hb' ha⟩, ?_⟩
  · exact hch.eq_of_agentTrb (s := s) ha
  · rcases hch with e | ⟨-, -, -, e, -⟩
    · exact .inl e
    · exact .inr e

theorem softReset_not_mem_arm (p : Params) (c : Chan) (tg : Bool) (addr : DevAddr) (mps interval trb : Nat) :
    RegOp.softReset ∉ interruptTrace p c tg addr mps interval ++ programTrace c trb := by
  by_cases h : interval = 0 <;> simp [interruptTrace, configureTrace, programTrace, h]

section armed
variable {c : Chan} {tg : Bool} {addr : DevAddr} {mps interval trb data len : Nat} {s t : State}

theorem Armed.log (h : Armed c tg addr mps interval trb data len s t) :
    t.regtrace = s.regtrace ++ (interruptTrace s.cfg c tg addr mps interval ++ programTrace c trb) := by
  rw [h.regtrace, interruptTrace]
  simp only [List.append_assoc]

/-- The program of an arm stores nothing: a byte no agent could write when the arm began is as it was. -/
theorem readByte_of_armed (hb : s.seq.busy = true) (h : armInterrupt c tg addr mps interval trb data len s = .done .success t)
    {a : Nat} {b : Byte} (hs : Shield a b s) : readByte t.mem a = b := by
  obtain ⟨-, rfl⟩ := armInterrupt_eq_done h
  have k := (armedBefore_line (c := c) (tg := tg) (addr := addr) (mps := mps) (interval := interval) (trb := trb) (data := data)
    (len := len) hb).shield a b hs
  generalize armedBefore c tg addr mps interval trb data len s = u at k ⊢
  rw [programmed_eq]
  exact k.byte

/-- What an arm within command `i` leaves, from the state in which the command began: up to the arm only the other agents
stepped, and none of them acts on the channel. -/
structure ArmedFrom (i : Instr) (c : Chan) (tg : Bool) (addr : DevAddr) (mps interval trb data len : Nat) (s u : State) :
    Prop where
  frame : XferFrame [c] (s.begin i) (u.withAlloc s.alloc)
  runs : Runs i true (s.begin i) u
  async : u.async = s.async
  chan : u.chan c = programmedChan (s.chan c) trb (armTrb s.cfg data len)
  endpoint : u.endpoint c = configuredEndpoint s.cfg (s.endpoint c) .interrupt tg addr mps interval
  trbStore : ∀ p, tabFind u.trbStore p = if p = trb then some (armTrb s.cfg data len) else tabFind s.trbStore p
  burst : u.dma.burstMode = .single
  sel : u.dma.sel = c
  log : u.regtrace = s.regtrace ++ (interruptTrace s.cfg c tg addr mps interval ++ programTrace c trb)
  mem : ∀ a, OutsideAgents s a → readByte u.mem a = readByte s.mem a

theorem armedFrom {i : Instr} {w u : State} (P : Passed (s.begin i) w) (hr : Runs i true (s.begin i) w)
    (hl : accessLine i .writeTrb = true) (h0 : c.ep ≠ 0) (hn : s.agentTrb c = none)
    (hu : armInterrupt c tg addr mps interval trb data len w = .done .success u) :
    ArmedFrom i c tg addr mps interval trb data len s u := by
  have hb : w.seq.busy = true := P.busy rfl
  have ka := armInterrupt_armed hb hu
  have hcfg : w.cfg = s.cfg := P.frame.cfg
  have hwc : w.chan c = s.chan c := (P.frame.chan c).eq_of_agentTrb (s := s.begin i) hn
  have hwe : w.endpoint c = s.endpoint c := by
    have ht : w.toggle c = s.toggle c := P.frame.toggle c hn
    have he : w.endpoint c = { s.endpoint c with toggle := (w.endpoint c).toggle } := P.frame.endpoint c
    unfold State.toggle at ht
    rw [if_neg h0, if_neg h0] at ht
    rw [he, ht]
  have hwn : w.agentTrb c = none := by
    unfold State.agentTrb at hn ⊢
    rw [hwc]
    exact hn
  have p : Passed (s.begin i) (w.withAlloc s.alloc) := ⟨P.frame⟩
  have hst : w.trbStore = s.trbStore := P.frame.trbStore
  have hrt : w.regtrace = s.regtrace := P.frame.regtrace
  have hlog := ka.log
  rw [hrt, hcfg] at hlog
  refine ⟨(p.xferFrame [c] rfl rfl).trans (ka.frame.withAlloc s.alloc), hr.trans ((goes_arm hl w).does hu hb),
    (armInterrupt_async hb hu).trans P.frame.async, ?_, ?_, fun q => ?_, ka.burst, ka.sel, hlog, fun a ha => ?_⟩
  · rw [ka.chan hwn, hwc, hcfg]
  · rw [ka.endpoint hwn, hwe, hcfg]
  · rw [ka.trbStore, tabFind_put, hst, hcfg]
  · exact readByte_of_armed hb hu (P.shield rfl (shield_of_dma (s := s) rfl rfl ⟨rfl, ha⟩))

end armed

/-! ### XFER_INT_ASYNC_ARM -/

section async
variable {ep : EpNum} {dir : Dir} {tg : Bool} {addr : DevAddr} {sp : Speed} {s : State}

theorem exec_xferIntAsyncArm :
    exec (.xferIntAsyncArm ep dir tg addr sp) s =
      conclude (andThen (armInterrupt ⟨ep, dir⟩ tg addr s.args.mps s.args.interval s.args.trb s.args.data s.args.len
        (s.started (.xferIntAsyncArm ep dir tg addr sp))) fun st t =>
          .done () (t.finish (.xferIntAsyncArm ep dir tg addr sp) st .none)) := rfl

/-- The state in which the arm comes to its program. -/
abbrev armProgram (ep : EpNum) (dir : Dir) (tg : Bool) (addr : DevAddr) (sp : Speed) (s : State) : State :=
  armedBefore ⟨ep, dir⟩ tg addr s.args.mps s.args.interval s.args.trb s.args.data s.args.len
    (s.started (.xferIntAsyncArm ep dir tg addr sp))

theorem exec_xferIntAsyncArm_of_legal (h0 : ep ≠ 0) (hl : s.args.len ≤ s.cfg.maxTrbSize)
    (ht : s.args.trb < addrSpace s.cfg.addrWidth) (hd : s.args.data < addrSpace s.cfg.addrWidth) :
    exec (.xferIntAsyncArm ep dir tg addr sp) s =
      conclude (andThen (dmaProgram ⟨ep, dir⟩ s.args.trb (armProgram ep dir tg addr sp s)) fun _ t =>
        .done () (t.finish (.xferIntAsyncArm ep dir tg addr sp) .success .none)) := by
  rw [exec_xferIntAsyncArm, armInterrupt_of_legal (c := ⟨ep, dir⟩) h0 (by rw [State.started_cfg]; exact hl), State.started_cfg,
    if_pos ⟨ht, hd⟩, armProgram]
  cases dmaProgram ⟨ep, dir⟩ s.args.trb _ <;> rfl

theorem armProgram_line :
    ArmLine (interruptTrace s.cfg ⟨ep, dir⟩ tg addr s.args.mps s.args.interval) s (armProgram ep dir tg addr sp s) := by
  have h := armedBefore_line (c := ⟨ep, dir⟩) (tg := tg) (addr := addr) (mps := s.args.mps) (interval := s.args.interval)
    (trb := s.args.trb) (data := s.args.data) (len := s.args.len) (State.started_busy s (.xferIntAsyncArm ep dir tg addr sp))
  have p := passed_started (.xferIntAsyncArm ep dir tg addr sp) s
  exact ⟨h.busy, h.cfg.trans (State.started_cfg ..), by rw [h.regtrace, State.started_regtrace, State.started_cfg],
    h.trace.trans (State.started_trace ..), fun b => (h.programmed b).trans (p.frame.chan b).programmed,
    fun a b hs => h.shield a b (p.shield rfl (shield_of_dma (s := s) rfl rfl hs))⟩

theorem armProgram_trbStore (p : Nat) :
    tabFind (armProgram ep dir tg addr sp s).trbStore p =
      if p = s.args.trb then some (armTrb s.cfg s.args.data s.args.len) else tabFind s.trbStore p := by
  rw [armProgram, armedBefore_trbStore, State.started_trbStore, State.started_cfg, tabFind_put]

/-- A fault at the program keeps the state there, marked (R151, R163). -/
theorem exec_xferIntAsyncArm_faults {r : FaultReason} (h0 : ep ≠ 0) (hl : s.args.len ≤ s.cfg.maxTrbSize)
    (ht : s.args.trb < addrSpace s.cfg.addrWidth) (hd : s.args.data < addrSpace s.cfg.addrWidth)
    (h : dmaProgram ⟨ep, dir⟩ s.args.trb (armProgram ep dir tg addr sp s) = .fault r (armProgram ep dir tg addr sp s)) :
    ∃ v, exec (.xferIntAsyncArm ep dir tg addr sp) s = .fault (faultOf r v) ∧ v.fault = some r ∧
      v.regtrace = s.regtrace ++ interruptTrace s.cfg ⟨ep, dir⟩ tg addr s.args.mps s.args.interval ∧
      (∀ p, tabFind v.trbStore p =
        if p = s.args.trb then some (armTrb s.cfg s.args.data s.args.len) else tabFind s.trbStore p) ∧ v.trace = s.trace := by
  have k := armProgram_line (ep := ep) (dir := dir) (tg := tg) (addr := addr) (sp := sp) (s := s)
  have hs := armProgram_trbStore (ep := ep) (dir := dir) (tg := tg) (addr := addr) (sp := sp) (s := s)
  rw [exec_xferIntAsyncArm_of_legal h0 hl ht hd, h]
  generalize armProgram ep dir tg addr sp s = u at k hs
  exact ⟨u.markFault r, rfl, rfl, k.regtrace, hs, k.trace⟩

end async

/-- Settles O52. -/
theorem armConfiguresAndPrograms : Obligations.ArmConfiguresAndPrograms := by
  intro ep dir tg addr sp s i c space x store ops
  refine ⟨fun h => ?_, fun h0 hl ht hd => ⟨fun hp => ?_, fun hp hbad => ?_, fun hp hco h1 h2 => ?_⟩⟩
  · have hr : armInterrupt c tg addr s.args.mps s.args.interval s.args.trb s.args.data s.args.len (s.started i) =
        .done .invalidParameter (s.started i) := by
      unfold armInterrupt
      rw [if_pos (by rw [State.started_cfg]; simpa using h)]
    rw [exec_xferIntAsyncArm, hr]
    exact congrArg _ (finish_started ..)
  · have k := armProgram_line (ep := ep) (dir := dir) (tg := tg) (addr := addr) (sp := sp) (s := s)
    refine exec_xferIntAsyncArm_faults (r := .programUnreleased) h0 hl ht hd ?_
    rcases dmaProgram_cases c s.args.trb (armProgram ep dir tg addr sp s) with ⟨-, e⟩ | ⟨hn, -⟩ | ⟨_, hn, -⟩
    · exact e
    · rw [k.programmed, hp] at hn; cases hn
    · rw [k.programmed, hp] at hn; cases hn
  · have k := armProgram_line (ep := ep) (dir := dir) (tg := tg) (addr := addr) (sp := sp) (s := s)
    have hx : tabFind (armProgram ep dir tg addr sp s).trbStore s.args.trb = some x := by
      rw [armProgram_trbStore, if_pos rfl]; rfl
    refine exec_xferIntAsyncArm_faults (r := .misalignedDma) h0 hl ht hd ?_
    rcases dmaProgram_cases c s.args.trb (armProgram ep dir tg addr sp s) with ⟨hn, -⟩ | ⟨-, hn, -⟩ |
      ⟨y, -, hy, ⟨-, e⟩ | ⟨h1, h2, -⟩⟩
    · rw [k.programmed, hp] at hn; cases hn
    · rw [hx] at hn; cases hn
    · exact e
    · rw [hx] at hy
      cases hy
      rw [k.cfg] at h1 h2
      exact absurd h1 (hbad.resolve_right fun h => h h2)
  · have hn := hco.agentTrb hp
    obtain ⟨q1, -, -⟩ := quietChan_started i (c := c) h0 hn
    obtain ⟨u, hu⟩ := armInterrupt_done (c := c) (tg := tg) (addr := addr) (mps := s.args.mps) (interval := s.args.interval)
      (trb := s.args.trb) (data := s.args.data) (len := s.args.len) (s := s.started i) h0 (by rw [State.started_cfg]; exact hl) (by rw [q1]; exact hp)
      (by rw [State.started_cfg]; exact ⟨h1, ht⟩) (by rw [State.started_cfg]; exact ⟨h2, hd⟩)
    have k := armedFrom (passed_started i s) (runs_started i s) rfl h0 hn hu
    have hal : u.alloc = s.alloc := (armInterrupt_armed (State.started_busy s i) hu).frame.alloc.trans (State.started_alloc s i)
    refine ⟨u.finish i .success .none, by rw [exec_xferIntAsyncArm, hu]; rfl, k.trbStore, ?_, ?_, k.burst, k.sel, ?_, k.async,
      hal, ?_, onlyAgentsBeside_of_frame _ _ k.frame k.runs.frame (by simp [i]) (by simp [i, UsesEp0]) k.log
        (softReset_not_mem_arm _ _ _ _ _ _ _) k.mem⟩
    · rw [State.chan_finish, k.chan]
      rfl
    · rw [State.endpoint_finish, k.endpoint]
      simp [configuredEndpoint]
    · rw [State.finish_regtrace, k.log, List.append_assoc]
    · rw [State.finish_trace, k.runs.frame.trace (by simp [i])]; rfl

end Sys2Proof.Machine
end

section
/-! O53. Where an access that is not admitted leaves the Sequencer stuck, and a stuck Sequencer's steps (spec 00_scope R13,
60_exceptions R251). -/

namespace Sys2Proof.Machine

/-! ### The Sequencer in the first round of a command -/

/-- The Sequencer executes `i`, not a tick, in its first round, at position `p`. -/
def InRound (i : Instr) (p : Pos) (s : State) : Prop :=
  s.seq = { busy := true, cmd := some ⟨i, 0, p⟩, inTick := false, deferred := [] }

theorem InRound.setPos {i : Instr} {p : Pos} {s : State} (h : InRound i p s) (q : Pos) : InRound i q (s.setPos q) := by
  show Seq.mk s.seq.busy (s.seq.cmd.map _) s.seq.inTick s.seq.deferred = _
  rw [h]
  rfl

theorem InRound.atLine {i : Instr} {p : Pos} {s : State} (h : InRound i p s) (l : Line) :
    InRound i (.line l) (s.atLine l) := by
  have hs : (s.atLine l).seq = (s.setPos (.line l)).seq := State.atPos_seq _ (by rw [h])
  exact hs.trans (h.setPos _)

theorem InRound.of_seq {i : Instr} {p : Pos} {s t : State} (h : InRound i p s) (e : t.seq = s.seq) : InRound i p t := e.trans h

theorem inRound_started (i : Instr) (s : State) : InRound i (.line .start) (s.started i) := State.started_seq s i

theorem acquire_inRound {i : Instr} (reqs : List (Nat × Owner)) {s : State} {p : Pos} (h : InRound i p s) :
    ∃ q, InRound i q (acquire reqs s).2 := by
  induction reqs generalizing s p with
  | nil => exact ⟨p, h⟩
  | cons r reqs ih =>
    obtain ⟨n, own⟩ := r
    have k : InRound i _ ((s.atLine (.alloc (reqs.length + 1))).allocRegion n own).2 :=
      (h.atLine _).of_seq (by rw [allocRegion_eq])
    unfold acquire
    split
    · rename_i t ht
      rw [ht] at k
      exact ⟨_, k⟩
    · rename_i a t ht
      rw [ht] at k
      obtain ⟨q, hq⟩ := ih k
      split
      · rename_i u hu
        rw [hu] at hq
        exact ⟨q, hq.of_seq rfl⟩
      · rename_i as u hu
        rw [hu] at hq
        exact ⟨q, hq⟩

/-- A Sequencer held before an access of its own, outside a tick, is stuck (R13). -/
theorem InRound.stuck {i : Instr} {l : Line} {t : State} (h : InRound i (.line l) t) (hi : i ≠ .asyncTick)
    (hl : accessLine i l = true) : Stuck t := by
  refine ⟨i, 0, l, ?_, hl, fun _ => by rw [h]⟩
  rw [h]
  simp [hi]

/-! ### Regions a command acquires are none of the caller's -/

/-- A region allocated beside those that stood has an owner that was asked for (R185). -/
theorem acquire_owner {reqs : List (Nat × Owner)} {s t : State} {as : List Nat} (hb : s.seq.busy = true)
    (h : acquire reqs s = (some as, t)) : ∀ r ∈ t.alloc, r ∈ s.alloc ∨ ∃ q ∈ reqs, r.2.owner = q.2 := by
  induction reqs generalizing s t as with
  | nil =>
    cases h
    exact fun _ h => .inl h
  | cons q reqs ih =>
    obtain ⟨n, own⟩ := q
    unfold acquire at h
    have hal : (s.atLine (.alloc (reqs.length + 1))).alloc = s.alloc := (agentFrame_interleave _).alloc hb
    have hbu : (s.atLine (.alloc (reqs.length + 1))).seq.busy = true := (agentFrame_interleave _).busy.trans hb
    split at h
    · cases h
    · rename_i a u hu
      obtain ⟨-, -, -, -, h4⟩ := allocRegion_some hu
      have hbz : u.seq.busy = true := by rw [h4]; exact hbu
      have hau : u.alloc = tabPut s.alloc a { len := n, owner := own } := by rw [h4, ← hal]
      split at h
      · cases h
      · rename_i bs v hv
        cases h
        intro r hr
        rcases ih hbz hv r hr with k | ⟨q, hq, k⟩
        · rw [hau] at k
          exact (mem_tabPut k).elim (fun e => .inr ⟨_, List.mem_cons_self, by rw [e]⟩) .inl
        · exact .inr ⟨q, List.mem_cons_of_mem _ hq, k⟩

/-- An access that only a region of the caller's would allow is not admitted by the regions a command acquires (R77). -/
theorem Begun.caller_not_admitted {reqs : List (Nat × Owner)} {i : Instr} {s v : State} {as : List Nat} {a n : Nat}
    (h : acquire reqs (s.started i) = (some as, v)) (hr : ∀ q ∈ reqs, q.2 ≠ .caller)
    (hs : s.admits [.caller] a n = false) : v.admits [.caller] a n = false := by
  have B := begun_of_acquire h
  rw [Bool.eq_false_iff] at hs ⊢
  refine fun hv => hs ?_
  unfold State.admits at hv ⊢
  simp only [Bool.or_eq_true, decide_eq_true_eq, Bool.and_eq_true, List.any_eq_true, B.cfg] at hv ⊢
  refine hv.imp_right fun ⟨h1, r, hm, hk⟩ => ⟨h1, r, ?_, hk⟩
  have how : r.2.owner = .caller := by simpa using hk.1.1
  rcases acquire_owner (State.started_busy s i) h r hm with k | ⟨q, hq, k⟩
  · rwa [State.started_alloc] at k
  · exact absurd (k.symm.trans how) (hr q hq)

theorem configureEp_seq (c : Chan) (ty : EpType) (tg : Bool) (addr : DevAddr) (mps interval : Nat) (s : State) :
    (configureEp c ty tg addr mps interval s).seq = s.seq := by rw [configureEp_eq]

/-- A step of an unmarked machine whose Sequencer is stuck is a step of the other agents alone. -/
theorem step_of_stuck {s : State} (hu : Unmarked s) (h : Stuck s) : step s = .next s.interleave := by
  obtain ⟨i, k, l, hs, -, -⟩ := h
  have hq : sequencerStep s = .next s := by
    rw [sequencerStep, hs]
    rfl
  rw [step, hu.1]
  simp only [hu.2, Bool.false_eq_true, if_false, hq]

/-- Settles O53. -/
theorem stuckSequencerLeavesTheOthersRunning : Obligations.StuckSequencerLeavesTheOthersRunning := by
  refine ⟨fun s hu h => ⟨step_of_stuck hu h, (agentFrame_interleave s).stuck h⟩, ?_, ?_⟩
  · intro ep tg addr sp s v trb stg i hok hbuf hv
    have B := begun_of_acquire hv
    obtain ⟨q, hq⟩ := acquire_inRound [trbRequest s.cfg, (s.args.len, .staging)] (inRound_started i s)
    rw [hv] at hq
    have C := configured i ⟨ep, .out⟩ .interrupt tg addr v.args.mps v.args.interval B.busy
    have hu : InRound i (.line .configure)
        (configureEp ⟨ep, .out⟩ .interrupt tg addr v.args.mps v.args.interval (v.atLine .configure)) :=
      (hq.atLine .configure).of_seq (configureEp_seq ..)
    have hch : ∀ c, ((configureEp ⟨ep, .out⟩ .interrupt tg addr v.args.mps v.args.interval (v.atLine .configure)).chan c).programmed
        = (s.chan c).programmed := fun c => by
      rw [chan_configureEp, (chan_atLine v .configure c).programmed]
      exact (B.passed.frame.chan c).programmed
    have hst : (configureEp ⟨ep, .out⟩ .interrupt tg addr v.args.mps v.args.interval (v.atLine .configure)).trbStore
        = s.trbStore := by
      rw [configureEp_eq]
      exact (State.atPos_trbStore v _).trans B.passed.frame.trbStore
    rw [exec_xferIntSync_of_some hok hv]
    generalize configureEp ⟨ep, .out⟩ .interrupt tg addr v.args.mps v.args.interval (v.atLine .configure) = u at *
    have hargs : u.args = s.args := C.frame.args.trans B.args
    have hadm : (u.atLine .fill).admits [.caller] s.args.buf.base s.args.len = false := by
      rw [State.admits_congr (State.atPos_cfg u _) ((agentFrame_interleave _).alloc C.frame.busy),
        State.admits_congr C.frame.cfg C.frame.alloc]
      exact Begun.caller_not_admitted hv (by simp [trbRequest]) hbuf
    have hhold : intSyncCycle ⟨ep, .out⟩ trb stg u = .hold ((u.atLine .fill).setPos (.line .fill)) := by
      unfold intSyncCycle fillOut copyBytes seqRead
      rw [if_pos rfl, hargs, if_neg (by rw [hadm]; decide)]
      rfl
    have hw := (hu.atLine .fill).setPos (.line .fill)
    refine ⟨(u.atLine .fill).setPos (.line .fill), by rw [hhold]; rfl, hw, hw.stuck (by simp [i]) rfl, ?_, fun c => ?_, ?_⟩
    · rw [State.setPos_trace, State.atPos_trace, C.runs.frame.trace (by simp [i]), B.trace]
    · exact (chan_atLine u .fill c).programmed.trans (hch c)
    · rw [State.setPos_trbStore, State.atPos_trbStore, hst]
  · intro ep dir tg addr sp s i h0 hl hbad
    have k := armConfigured_line (c := ⟨ep, dir⟩) (tg := tg) (addr := addr) (mps := s.args.mps) (interval := s.args.interval)
      (State.started_busy s i)
    have hr : InRound i (.line .writeTrb) (armConfigured ⟨ep, dir⟩ tg addr s.args.mps s.args.interval (s.started i)) :=
      (((inRound_started i s).atLine .configure).of_seq (configureEp_seq ..)).atLine .writeTrb
    have hst := armConfigured_trbStore (c := ⟨ep, dir⟩) (tg := tg) (addr := addr) (mps := s.args.mps)
      (interval := s.args.interval) (s := s.started i)
    have hx := armInterrupt_of_legal (c := ⟨ep, dir⟩) (tg := tg) (addr := addr) (mps := s.args.mps) (interval := s.args.interval)
      (trb := s.args.trb) (data := s.args.data) (len := s.args.len) (s := s.started i) h0 (by rw [State.started_cfg]; exact hl)
    rw [State.started_cfg, if_neg (by omega)] at hx
    rw [exec_xferIntAsyncArm, hx]
    generalize armConfigured ⟨ep, dir⟩ tg addr s.args.mps s.args.interval (s.started i) = u at *
    have hw := hr.setPos (.line .writeTrb)
    refine ⟨u.setPos (.line .writeTrb), rfl, hw, hw.stuck (by simp [i]) rfl, ?_, fun c => ?_, ?_, ?_⟩
    · rw [State.setPos_trace, k.trace, State.started_trace]
    · exact (k.programmed c).trans ((passed_started i s).frame.chan c).programmed
    · rw [State.setPos_trbStore, hst, State.started_trbStore]
    · rw [State.setPos_regtrace, k.regtrace, State.started_regtrace, State.started_cfg]

end Sys2Proof.Machine
end

section
/-! O54, O55. ASYNC_REGISTER and ASYNC_CANCEL: what they reject, how they fail, and what a register leaves (spec 44_async_queue
R209 to R212, R225, R227). -/

namespace Sys2Proof.Machine

section register
variable {ep : EpNum} {dir : Dir} {tg : Bool} {addr : DevAddr} {sp : Speed} {s v : State}

theorem exec_asyncRegister_of_bad (h : registerOk s.cfg s.async ep dir addr s.args = false) :
    let i := Instr.asyncRegister ep dir tg addr sp
    exec i s = .next ((s.started i).finish i .invalidParameter .none) := by
  simp only [exec, execAsyncRegister, State.started_cfg, State.started_async, State.started_args, h, Bool.false_eq_true, if_false]

theorem exec_asyncRegister_of_none (hok : registerOk s.cfg s.async ep dir addr s.args = true)
    (h : acquire (registerRequests s.cfg s.args.len) (s.started (.asyncRegister ep dir tg addr sp)) = (none, v)) :
    let i := Instr.asyncRegister ep dir tg addr sp
    exec i s = .next (v.finish i .outOfResources .none) := by
  simp only [exec, execAsyncRegister, State.started_cfg, State.started_async, State.started_args, hok, if_true, h]

theorem exec_asyncRegister_of_some {buf : Nat} {pool : List Nat} (hok : registerOk s.cfg s.async ep dir addr s.args = true)
    (h : acquire (registerRequests s.cfg s.args.len) (s.started (.asyncRegister ep dir tg addr sp)) = (some (buf :: pool), v)) :
    let i := Instr.asyncRegister ep dir tg addr sp
    exec i s = conclude (
      if (v.atLine .shared).async.any fun y => y.ep = ep then .fault .channelShared (v.atLine .shared)
      else
        andThen (armInterrupt ⟨ep, .in_⟩ tg addr (v.atLine .shared).args.mps (v.atLine .shared).args.interval (pool.headD 0) buf
          (sliceBytes (v.atLine .shared).cfg (v.atLine .shared).args.len) (v.atLine .shared)) fun _ u =>
        .done () ((u.withAsync (u.async ++ [newEntry ep tg addr sp u.args buf pool])).finish i .success .none)) := by
  simp only [exec, execAsyncRegister, State.started_cfg, State.started_async, State.started_args, hok, if_true, h]

/-- ASYNC_REGISTER's allocations give a buffer and a pool (R209). -/
theorem acquire_register_some {p : Params} {len : Nat} {as : List Nat}
    (h : acquire (registerRequests p len) s = (some as, v)) : ∃ buf pool, as = buf :: pool ∧ pool.length = p.asyncIter := by
  have hl := acquire_length h
  match as, hl with
  | buf :: pool, hl => exact ⟨buf, pool, rfl, by simpa [registerRequests] using hl⟩

end register

/-- Settles O54. -/
theorem queueCommandsRejectOrFailCleanly : Obligations.QueueCommandsRejectOrFailCleanly := by
  intro ep dir tg addr sp s v u
  refine ⟨fun h => ?_, fun hok => ⟨fun hv => ?_, fun as hv hsh => ?_⟩, fun h => ?_⟩
  · have hbad : registerOk s.cfg s.async ep dir addr s.args = false := by
      rw [Bool.eq_false_iff]
      intro hok
      simp only [registerOk, hasKey, Bool.and_eq_true, decide_eq_true_eq, Bool.not_eq_true', List.any_eq_false, not_and] at hok
      obtain ⟨⟨⟨⟨⟨⟨h1, h2⟩, h3, h4⟩, h5⟩, h6⟩, h7⟩, h8⟩ := hok
      rcases h with h | h | h | h | h | h | h | ⟨x, hx, ha, he⟩
      · exact h h1
      · exact h2 h
      · omega
      · omega
      · exact h5 h
      · exact h6 h
      · omega
      · exact h8 x hx ha he
    rw [exec_asyncRegister_of_bad hbad]
    exact congrArg _ (finish_started ..)
  · obtain ⟨p, ha⟩ := begun_of_failed hv
    have htr : v.trace = s.trace := p.frame.trace
    refine ⟨?_, nothingAcquired_of_passed p ha, p.frame.async⟩
    rw [exec_asyncRegister_of_none hok hv, ← htr]
    rfl
  · obtain ⟨buf, pool, rfl, -⟩ := acquire_register_some hv
    have hq : (v.atLine .shared).async = s.async :=
      (State.atPos_async v _).trans (begun_of_acquire hv).passed.frame.async
    rw [exec_asyncRegister_of_some hok hv, hq, if_pos (by simpa using hsh)]
    rfl
  · have hf : findEntry s.async ep addr = none := by
      simpa [findEntry] using h
    have hx : exec (.asyncCancel ep addr) s =
        .next ((s.started (.asyncCancel ep addr)).finish (.asyncCancel ep addr) .invalidParameter .none) := by
      simp only [exec, execAsyncCancel, cancelEntry, State.started_async, hf]
    rw [hx]
    exact congrArg _ (finish_started ..)

/-! ### The entry a register leaves (R209, R211) -/

/-- The slices of a region of `n` slices at an aligned address are addresses of the address space, aligned where there is one
slice or a slice is a multiple of the alignment (R66, R211). -/
theorem slice_ok {p : Params} {buf n sl j : Nat} (h : AddrOk p buf) (hs : buf + n * sl ≤ addrSpace p.addrWidth) (hj : j < n)
    (hal : n = 1 ∨ sl % p.dmaAlign = 0) : AddrOk p (buf + j * sl) := by
  have hle : (j + 1) * sl ≤ n * sl := Nat.mul_le_mul_right sl hj
  rw [Nat.succ_mul] at hle
  refine ⟨?_, ?_⟩
  · rcases hal with rfl | hal
    · obtain rfl : j = 0 := by omega
      simpa using h.1
    · rw [Nat.add_mod, Nat.mul_mod, hal, h.1]
      simp
  · rcases Nat.eq_zero_or_pos sl with rfl | hpos
    · simpa using h.2
    · have := h.2
      omega

theorem mem_zip_replicate {α β : Type} {l : List α} {q : α} {r : β} {n : Nat} (hq : q ∈ l) (hn : l.length = n) :
    (q, r) ∈ l.zip (List.replicate n r) := by
  subst hn
  induction l with
  | nil => cases hq
  | cons a l ih =>
    rw [List.length_cons, List.replicate_succ, List.zip_cons_cons]
    rcases List.mem_cons.1 hq with rfl | hq
    · exact List.mem_cons_self
    · exact List.mem_cons_of_mem _ (ih hq)

/-- An entry whose channel is just programmed on its slice, with aligned slices inside its own region, is ready (R209). -/
theorem entryReady_of_programmed {t : State} {x : AsyncEntry} {ch : Channel} {desc : Nat} {y : Trb}
    (hc : t.chan (entryChan x) = programmedChan ch desc y) (hy : y.size ≤ sliceBytes t.cfg x.len)
    (hd : ch.done = true → ch.actual ≤ sliceBytes t.cfg x.len)
    (hs : ∀ j, j < t.cfg.asyncIter → AddrOk t.cfg (x.buf + j * sliceBytes t.cfg x.len))
    (ha : t.admits [.async] x.buf (t.cfg.asyncIter * sliceBytes t.cfg x.len) = true) (hp : ∀ p ∈ x.pool, AddrOk t.cfg p) :
    EntryReady t x := by
  refine ⟨fun j hj => ⟨(hs j hj).1, (hs j hj).2, State.admits_sub ha (Nat.le_add_right _ _) ?_⟩, hp, fun h => ?_, fun z hz => ?_⟩
  · have hle : (j + 1) * sliceBytes t.cfg x.len ≤ t.cfg.asyncIter * sliceBytes t.cfg x.len := Nat.mul_le_mul_right _ hj
    rw [Nat.succ_mul] at hle
    omega
  · rw [hc] at h ⊢
    exact hd h
  · obtain ⟨-, -, h⟩ := State.agentTrb_eq_some hz
    rw [hc] at h
    cases h
    exact hy

/-- Settles O55. -/
theorem registerAppendsAndArms : Obligations.RegisterAppendsAndArms := by
  intro ep tg addr sp s v buf p pool i c sl x entry hok hns hwf hco hp hv
  have B := begun_of_acquire hv
  obtain ⟨_, _, he, hlen⟩ := acquire_register_some hv
  cases he
  have hok' := hok
  simp only [registerOk, Bool.and_eq_true, decide_eq_true_eq] at hok'
  obtain ⟨⟨⟨⟨⟨⟨-, h0⟩, hint, -⟩, -⟩, -⟩, hmax⟩, -⟩ := hok'
  have hn := hco.agentTrb hp
  -- the state the arm begins in
  have P : Passed (s.begin i) (v.atLine .shared) := B.passed.trans (passed_atLine v .shared B.busy)
  have hcfg : (v.atLine .shared).cfg = s.cfg := P.frame.cfg
  have hargs : (v.atLine .shared).args = s.args := P.frame.args
  have hasy : (v.atLine .shared).async = s.async := P.frame.async
  have hal : (v.atLine .shared).alloc = v.alloc := (agentFrame_interleave (v.setPos (.line .shared))).alloc B.busy
  have hch : ((v.atLine .shared).chan c).programmed = false := (P.frame.chan c).programmed.trans hp
  have hruns : Runs i true (s.begin i) (v.atLine .shared) := by
    have hd : Does i true (s.started i) (acquire (registerRequests s.cfg s.args.len) (s.started i)).2 := does_acquire _ _
    rw [hv] at hd
    exact (runs_started i s).trans ((hd.trans (does_atLine i .shared v)) (State.started_busy s i))
  have hexec : exec i s = _ := exec_asyncRegister_of_some hok hv
  rw [hasy, if_neg (by simpa using hns), hargs, hcfg] at hexec
  generalize v.atLine .shared = w at *
  -- the arm
  obtain ⟨hb1, hb2⟩ := B.region (buf, (s.cfg.asyncIter * sl, .async)) (by simp [registerRequests, sl])
  have hpool : ∀ q ∈ p :: pool, AddrOk s.cfg q := fun q hq => by
    rw [← B.cfg]
    exact (B.region (q, trbRequest s.cfg) (List.mem_cons_of_mem _ (mem_zip_replicate hq hlen))).1
  have hbuf : AddrOk s.cfg buf := by rw [← B.cfg]; exact hb1
  obtain ⟨u, hu⟩ := armInterrupt_done (c := c) (tg := tg) (addr := addr) (mps := s.args.mps) (interval := s.args.interval)
    (trb := p) (data := buf) (len := sl) (s := w) h0 (by rw [hcfg]; exact hmax) hch
    (by rw [hcfg]; exact hpool p (by simp)) (by rw [hcfg]; exact hbuf)
  have k := armedFrom P hruns rfl h0 hn hu
  have hua : u.alloc = v.alloc := (armInterrupt_armed (P.busy rfl) hu).frame.alloc.trans hal
  have hargs' : u.args = s.args := k.frame.args
  have hrf : RunFrame i true (s.begin i) (u.withAsync (s.async ++ [entry])) :=
    { k.runs.frame with async := fun h => absurd rfl (h ep .in_ tg addr sp) }
  have hnew : newEntry ep tg addr sp u.args buf (p :: pool) = entry := by rw [hargs']; rfl
  refine ⟨(u.withAsync (s.async ++ [entry])).finish i .success .none, ?_, rfl, hlen, hua, k.trbStore, k.chan, ?_, k.burst, k.sel,
    ?_, ?_, onlyAgentsBeside_of_frame _ _ ?_ hrf (by simp [i]) (by simp [i, UsesEp0]) k.log
      (softReset_not_mem_arm _ _ _ _ _ _ _) k.mem, fun hsl hdone => ?_⟩
  · rw [hexec, List.headD_cons, hu, andThen_done, hnew, k.async]; rfl
  · rw [State.endpoint_finish, State.endpoint_of_ep (State.withAsync_ep ..) c, k.endpoint]
    simp [configuredEndpoint, show s.args.interval ≠ 0 by omega]
  · rw [State.finish_regtrace, State.withAsync_regtrace, k.log, List.append_assoc]
  · rw [State.finish_trace, State.withAsync_trace, k.runs.frame.trace (by simp [i])]; rfl
  · exact k.frame.trans (xferFrame_of_eq [c] k.frame.busy rfl (fun _ _ => rfl) rfl rfl rfl rfl rfl List.prefix_rfl)
  · obtain ⟨-, -, -, hspace⟩ := B.acq.region (buf, (s.cfg.asyncIter * sl, .async)) (by simp [registerRequests, sl])
    rw [State.started_cfg] at hspace
    have htc : ((u.withAsync (s.async ++ [entry])).finish i .success .none).cfg = s.cfg := k.runs.frame.cfg
    refine entryReady_of_programmed (x := entry) (y := x) k.chan ?_ ?_ (fun j hj => ?_) ?_ fun q hq => ?_
    · rw [htc]
    · rw [htc]
      exact hdone
    · rw [htc] at hj ⊢
      exact slice_ok hbuf hspace hj hsl
    · rw [htc, State.admits_congr (htc.trans B.cfg.symm) hua]
      exact hb2
    · rw [htc]
      exact hpool q hq

end Sys2Proof.Machine
end

section
/-! O56. What a cancel of a live entry leaves (spec 44_async_queue R212 to R214). -/

namespace Sys2Proof.Machine

section cancel
variable {x : AsyncEntry} {s : State}

/-- The state in which a cancel frees its entry's regions: its channel is released, where it may be. -/
abbrev cancelReleased (x : AsyncEntry) (s : State) : State := (cancelChannel x s).atLine .free

theorem cancelReleased_frame (x : AsyncEntry) (hb : s.seq.busy = true) : CancelFrame x s (cancelReleased x s) :=
  (cancelChannel_frame x hb).trans (cancelFrame_atLine x .free (cancelChannel_frame x hb).frame.busy)

theorem cancelChannel_burst (x : AsyncEntry) (s : State) : (cancelChannel x s).dma.burstMode = s.dma.burstMode := by
  unfold cancelChannel
  split
  · exact (agentFrame_interleave ((dmaClear (entryChan x) (s.atLine .clear)).setPos (.line .release))).burst.trans
      (agentFrame_interleave (s.setPos (.line .clear))).burst
  · rfl

theorem cancelReleased_burst (x : AsyncEntry) (s : State) : (cancelReleased x s).dma.burstMode = s.dma.burstMode :=
  (agentFrame_interleave ((cancelChannel x s).setPos (.line .free))).burst.trans (cancelChannel_burst x s)

/-- Where CancelReleasesChannel holds, the entry's channel ends released (R212, R214). -/
theorem cancelReleased_released (hc : s.cfg.cancelReleasesChannel = true) :
    let t := cancelReleased x s
    let c := entryChan x
    (t.chan c).programmed = false ∧ (t.chan c).enabled = false ∧ (t.chan c).pending = false ∧ (t.chan c).trb = none ∧
      t.dma.sel = c ∧ t.regtrace = s.regtrace ++ clearTrace c ++ releaseTrace c := by
  obtain ⟨h1, h2, h3, h4, h5, h6⟩ := cancelChannel_released (x := x) hc
  have hch : (cancelReleased x s).chan (entryChan x) = (cancelChannel x s).chan (entryChan x) := chan_atLine_eq .free h3
  refine ⟨by rw [hch]; exact h2, by rw [hch]; exact h1, by rw [hch]; exact h3, by rw [hch]; exact h4,
    (sel_atLine _ _).trans h5, ?_⟩
  rw [State.atPos_regtrace, h6]
  simp [clearTrace, releaseTrace]

/-- Where it does not hold, only the other agents act on the channel (R212, R214). -/
theorem cancelReleased_kept (hc : s.cfg.cancelReleasesChannel = false) : cancelReleased x s = s.atLine .free := by
  rw [cancelReleased, cancelChannel, hc]
  rfl

/-- `w` is `z` with the entry's buffer and pool freed, the slots emptied (R212). -/
structure Freed (x : AsyncEntry) (z w : State) : Prop where
  dma : w.dma = z.dma
  ep : w.ep = z.ep
  ep0 : w.ep0 = z.ep0
  mem : w.mem = z.mem
  regtrace : w.regtrace = z.regtrace
  alloc : ∀ r, r ∈ w.alloc ↔ r ∈ z.alloc ∧ r.1 ≠ x.buf ∧ r.1 ∉ x.pool
  trbStore : ∀ p, tabFind w.trbStore p = if p ∈ x.pool then none else tabFind z.trbStore p

theorem freed_cancelFree (x : AsyncEntry) (s : State) : Freed x (cancelReleased x s) (cancelFree x (cancelChannel x s)) := by
  rw [cancelFree_eq, cancelReleased]
  generalize (cancelChannel x s).atLine .free = z
  refine ⟨rfl, rfl, rfl, rfl, rfl, fun r => ?_, fun p => ?_⟩
  · show r ∈ x.pool.foldl tabDrop (tabDrop z.alloc x.buf) ↔ _
    rw [foldl_tabDrop, List.mem_filter, mem_tabDrop]
    simp only [decide_eq_true_eq, and_assoc]
  · show tabFind (x.pool.foldl tabDrop z.trbStore) p = _
    rw [foldl_tabDrop, tabFind_filter (fun k => decide (k ∉ x.pool))]
    by_cases hp : p ∈ x.pool <;> simp [hp]

theorem Freed.withAsync {z w : State} (h : Freed x z w) (q : List AsyncEntry) : Freed x z (w.withAsync q) :=
  ⟨h.dma, h.ep, h.ep0, h.mem, h.regtrace, h.alloc, h.trbStore⟩

theorem cancelFree_async (x : AsyncEntry) (s : State) : (cancelFree x s).async = s.async := by
  rw [cancelFree_eq]
  exact State.atPos_async s _

/-- The cancel of the entry it finds: released, freed, and removed (R212). -/
theorem cancelEntry_of_found {ep : EpNum} {addr : DevAddr} (h : findEntry s.async ep addr = some x) :
    cancelEntry ep addr s = ((.success, .toggle x.toggle),
      (cancelFree x (cancelChannel x s)).withAsync (removeEntry (cancelFree x (cancelChannel x s)).async ep addr)) := by
  rw [cancelEntry, h]

end cancel

/-- The first entry of a key is found, and its removal keeps the order of the others (R212). -/
theorem findEntry_append {before after : List AsyncEntry} {x : AsyncEntry}
    (hb : ∀ y ∈ before, ¬(y.devAddr = x.devAddr ∧ y.ep = x.ep)) :
    findEntry (before ++ x :: after) x.ep x.devAddr = some x ∧
      removeEntry (before ++ x :: after) x.ep x.devAddr = before ++ after := by
  have hn : ∀ y ∈ before, ¬(decide (y.devAddr = x.devAddr) && decide (y.ep = x.ep)) = true := fun y hy => by
    simpa using hb y hy
  constructor
  · rw [findEntry, List.find?_append, List.find?_eq_none.2 hn]
    simp
  · rw [removeEntry, List.eraseP_append_right _ hn]
    simp

theorem exec_asyncCancel_of_found {ep : EpNum} {addr : DevAddr} {x : AsyncEntry} {s : State}
    (h : findEntry s.async ep addr = some x) :
    let i := Instr.asyncCancel ep addr
    exec i s = .next (((cancelFree x (cancelChannel x (s.started i))).withAsync (removeEntry s.async ep addr)).finish i .success
      (.toggle x.toggle)) := by
  intro i
  have hb := State.started_busy s i
  have ha : (cancelFree x (cancelChannel x (s.started i))).async = s.async := by
    rw [cancelFree_async, (cancelChannel_frame x hb).async, State.started_async]
  have hx : cancelEntry ep addr (s.started i) = _ := cancelEntry_of_found (by rw [State.started_async]; exact h)
  rw [ha] at hx
  show Host.Outcome.next ((cancelEntry ep addr (s.started i)).2.finish i (cancelEntry ep addr (s.started i)).1.1
    (cancelEntry ep addr (s.started i)).1.2) = _
  rw [hx]

/-- Settles O56. -/
theorem cancelRemovesAndFrees : Obligations.CancelRemovesAndFrees := by
  intro s x before after c hq hbef
  obtain ⟨hfind, hrem⟩ := findEntry_append (after := after) hbef
  rw [← hq] at hfind hrem
  -- the whole command, from its begin to the point before the regions are freed
  generalize hi : Instr.asyncCancel x.ep x.devAddr = i
  have hb := State.started_busy s i
  have hrun : RunFrame i true (s.begin i) (cancelFree x (cancelChannel x (s.started i))) :=
    Runs.frame ((runs_started i s).trans (((does_cancelChannel x _).trans (does_cancelFree x _)) hb))
  have hrun : RunFrame i true (s.begin i)
      ((cancelFree x (cancelChannel x (s.started i))).withAsync (removeEntry s.async x.ep x.devAddr)) :=
    { hrun with async := fun _ h => absurd hi.symm (h x.ep x.devAddr) }
  have F : CancelFrame x (s.begin i) (cancelReleased x (s.started i)) :=
    (cancelFrame_atLine x .start (s := s.begin i) rfl).trans (cancelReleased_frame x hb)
  have hrel := cancelReleased_released (x := x) (s := s.started i)
  have hkept := cancelReleased_kept (x := x) (s := s.started i)
  have hburst := cancelReleased_burst x (s.started i)
  have K := (freed_cancelFree x (s.started i)).withAsync (removeEntry s.async x.ep x.devAddr)
  have hasync : ((cancelFree x (cancelChannel x (s.started i))).withAsync (removeEntry s.async x.ep x.devAddr)).async = before ++ after :=
    hrem
  have hexec : exec i s = .next (((cancelFree x (cancelChannel x (s.started i))).withAsync (removeEntry s.async x.ep x.devAddr)).finish
      i .success (.toggle x.toggle)) := by
    subst hi
    exact exec_asyncCancel_of_found hfind
  rw [State.started_cfg, State.started_regtrace] at hrel
  rw [State.started_cfg] at hkept
  rw [State.started_burst] at hburst
  have hstay : s.cfg.cancelReleasesChannel = false → (cancelReleased x (s.started i)).dma.sel = s.dma.sel ∧
      (cancelReleased x (s.started i)).regtrace = s.regtrace ∧
      ChanFrame (s.chan c) ((cancelReleased x (s.started i)).chan c) := fun hc => by
    rw [hkept hc, sel_atLine, State.atPos_regtrace, State.started_sel, State.started_regtrace]
    exact ⟨rfl, rfl, ((passed_started i s).frame.chan c).trans (chan_atLine _ .free c)⟩
  clear hkept
  generalize cancelReleased x (s.started i) = z at F hrel hburst hstay K
  generalize (cancelFree x (cancelChannel x (s.started i))).withAsync (removeEntry s.async x.ep x.devAddr) = w at hrun K hexec hasync
  have hch : ∀ b, w.chan b = z.chan b := State.chan_of_dma (by rw [K.dma])
  have hep : ∀ b, w.endpoint b = z.endpoint b := State.endpoint_of_ep K.ep
  have htg : ∀ b, w.toggle b = z.toggle b := fun b => by unfold State.toggle; rw [K.ep0, hep]
  have hep0 : w.ep0 = { s.ep0 with toggle := w.ep0.toggle } := by rw [K.ep0]; exact F.ep0
  refine ⟨_, hexec, ?_, hasync, rfl, fun hc => ?_, fun hc => ?_, K.dma ▸ hburst, fun r => ?_, fun p => ?_, fun b hb hn => ?_,
    fun b => ?_, fun a ha => ?_, ?_, ?_, ?_, hrun.port, hrun.hcState, hrun.args, hrun.hostQueue⟩
  · rw [State.finish_trace, hrun.trace (by simp [← hi]), ← hi]; rfl
  · rw [State.chan_finish, State.finish_dma, State.finish_regtrace, hch, K.dma, K.regtrace]
    exact hrel hc
  · obtain ⟨h1, h2, h3⟩ := hstay hc
    rw [State.chan_finish, State.finish_dma, State.finish_regtrace, hch, K.dma, K.regtrace]
    exact ⟨h3.programmed, h3.enabled, h3.trb, h1, h2⟩
  · rw [State.finish_alloc, K.alloc, F.frame.alloc]
    rfl
  · rw [State.finish_trbStore, K.trbStore, F.trbStore]
    rfl
  · rw [State.chan_finish, State.toggle_finish, hch, htg]
    exact ⟨(F.chan b hb).eq_of_agentTrb (s := s.begin i) hn, F.frame.toggle b (fun h => hb (List.mem_singleton.1 h)) hn⟩
  · rw [State.endpoint_finish, hep]
    exact F.endpoint b
  · rw [State.finish_mem, K.mem]
    exact (F.shield a _ (shield_of_dma (s := s) (t := s.begin i) rfl rfl ⟨rfl, ha⟩)).byte
  · have h := congrArg Ep0.mps hep0
    exact h
  · have h := congrArg Ep0.devAddr hep0
    exact h
  · have h := congrArg Otg.state hrun.otg
    exact h

end Sys2Proof.Machine
end

section
/-! O59. A tick over ready entries completes on every behaviour of the other agents (spec 44_async_queue R215, R216, R218). -/

namespace Sys2Proof.Machine

/-- The byte lies outside the buffers of the entries. -/
def OutsideEntries (p : Params) (l : List AsyncEntry) (a : Nat) : Prop :=
  ∀ x ∈ l, a < x.buf ∨ x.buf + p.asyncIter * sliceBytes p x.len ≤ a

/-- The entries visited in order: each visit answers, and leaves the entries to come ready (R215, R223). -/
theorem tickLoop_spec (l : List AsyncEntry) : ∀ (k : Nat) {s : State}, s.seq.busy = true → (∀ x ∈ l, EntryReady s x) →
    (∀ x ∈ l, EntryLegal s.cfg x) → (l.map (·.ep)).Nodup →
    ∃ t, tickLoop k l s = .done () t ∧ t.seq.busy = true ∧
      ∀ a v, OutsideEntries s.cfg l a → Shield a v s → Shield a v t := by
  induction l with
  | nil => exact fun k s hb _ _ _ => ⟨s, rfl, hb, fun _ _ _ h => h⟩
  | cons x l ih =>
    intro k s hb hr hl hn
    rw [List.map_cons, List.nodup_cons] at hn
    have hr' : ∀ y ∈ x :: l, EntryReady (s.setRound k) y := fun y hy =>
      entryReady_of (s := s) rfl rfl (.inl (.refl _)) (hr y hy)
    obtain ⟨u, hu, f, su⟩ := tickEntry_spec k (s := s.setRound k) hb (hr' x List.mem_cons_self) (hl x List.mem_cons_self)
    have hcfg : u.cfg = s.cfg := f.cfg
    have hne : ∀ y ∈ l, entryChan y ∉ [entryChan x] := fun y hy h => by
      have he : y.ep = x.ep := congrArg Chan.ep (List.mem_singleton.1 h)
      exact hn.1 (he ▸ List.mem_map_of_mem (f := (·.ep)) hy)
    obtain ⟨t, ht, hbt, st⟩ := ih (k + 1) (s := u) f.busy
      (fun y hy => entryReady_frame f (hne y hy) (hr' y (List.mem_cons_of_mem _ hy)))
      (fun y hy => by rw [hcfg]; exact hl y (List.mem_cons_of_mem _ hy)) hn.2
    rw [tickLoop, hu]
    refine ⟨t, ht, hbt, fun a v ha h => st a v ?_ (su a v (ha x List.mem_cons_self) (shield_of_dma (s := s) rfl rfl h))⟩
    rw [hcfg]
    exact fun y hy => ha y (List.mem_cons_of_mem _ hy)

/-! ### The deferred commands at a tick's end -/

theorem cancelEntry_busy (ep : EpNum) (addr : DevAddr) {s : State} (hb : s.seq.busy = true) :
    (cancelEntry ep addr s).2.seq.busy = true := ((does_cancelEntry (.inr rfl) ep addr s) hb).busy hb

theorem cancelEntry_shield {ep : EpNum} {addr : DevAddr} {s : State} {a : Nat} {v : Byte} (hb : s.seq.busy = true)
    (h : Shield a v s) : Shield a v (cancelEntry ep addr s).2 := by
  cases hf : findEntry s.async ep addr with
  | none => rw [cancelEntry, hf]; exact h
  | some x =>
    have k := (freed_cancelFree x s).withAsync (removeEntry (cancelFree x (cancelChannel x s)).async ep addr)
    rw [cancelEntry_of_found hf]
    exact shield_of_dma k.mem (by rw [k.dma]) ((cancelReleased_frame x hb).shield a v h)

theorem runDeferred_shield (l : List CancelReq) {a : Nat} {v : Byte} : ∀ (k : Nat) {s : State}, s.seq.busy = true →
    Shield a v s → Shield a v (runDeferred k l s) := by
  induction l with
  | nil => exact fun _ _ _ h => h
  | cons q l ih =>
    intro k s hb h
    have hb' : (s.setRound k).seq.busy = true := hb
    refine ih (k + 1) ?_ ?_
    · exact cancelEntry_busy q.ep q.addr hb'
    · exact shield_of_dma (s := (cancelEntry q.ep q.addr (s.setRound k)).2) rfl rfl
        (cancelEntry_shield hb' (shield_of_dma (s := s) rfl rfl h))

theorem tickEnd_shield {a : Nat} {v : Byte} {s : State} (hb : s.seq.busy = true) (h : Shield a v s) :
    Shield a v (tickEnd s) := runDeferred_shield _ 0 hb (shield_of_dma (s := s) rfl rfl h)

/-- What a tick leaves alone, however it ends (R31, R44). -/
theorem Ends.tick_frame {s t : State} (h : Ends .asyncTick s t) :
    s.trace <+: t.trace ∧ t.otg.state = s.otg.state ∧ t.port = s.port ∧ t.hcState = s.hcState ∧ t.ep0Stage = s.ep0Stage ∧
      t.args = s.args ∧ t.hostQueue = s.hostQueue := by
  cases h with
  | returned st o hr =>
    have f := hr.frame
    exact ⟨f.tracePrefix.trans (List.prefix_append _ _), by have h := congrArg Otg.state f.otg; exact h, f.port, f.hcState,
      f.stage nofun, f.args, f.hostQueue⟩
  | stuck hr =>
    have f := hr.frame
    exact ⟨f.tracePrefix, by have h := congrArg Otg.state f.otg; exact h, f.port, f.hcState, f.stage nofun, f.args, f.hostQueue⟩

/-- Settles O59. -/
theorem tickCompletes : Obligations.TickCompletes := by
  intro s hwf hq hco hr
  have hb : (tickBegin s).seq.busy = true := (runs_tickBegin s).busy rfl
  have hasy : (tickBegin s).async = s.async := State.started_async s _
  have hcfg : (tickBegin s).cfg = s.cfg := State.started_cfg s _
  have p := passed_started .asyncTick s
  obtain ⟨u, hu, hbu, su⟩ := tickLoop_spec s.async 0 hb
    (fun x hx => entryReady_of (s := s) hcfg (State.started_alloc s _) (.inl (p.frame.chan _)) (hr x hx))
    (fun x hx => by rw [hcfg]; exact hq.1 x hx) hq.2
  have hexec : exec .asyncTick s = .next ((tickEnd (u.atLine .tickEnd)).finish .asyncTick .success .none) := by
    show conclude (andThen (tickLoop 0 (tickBegin s).async (tickBegin s)) _) = _
    rw [hasy, hu]
    rfl
  obtain ⟨h1, h2, h3, h4, h5, h6, h7⟩ := (tick_ends hexec).tick_frame
  refine ⟨_, hexec, rfl, h1, by rw [State.finish_trace, List.getLast?_concat]; rfl, h2, h3, h4, h5, h6, h7, fun a ha hout => ?_⟩
  have k := su a _ (by rw [hcfg]; exact hout) (shield_of_dma (s := s.started .asyncTick) rfl rfl
    (p.shield rfl (shield_of_dma (s := s) rfl rfl ⟨rfl, ha⟩)))
  exact (tickEnd_shield (s := u.atLine .tickEnd) ((agentFrame_interleave (u.setPos (.line .tickEnd))).busy.trans hbu) (shield_atLine .tickEnd hbu k)).byte

end Sys2Proof.Machine
end

section
/-! O57. Runs in which the other agents take no step but scripted ones: the position of the Sequencer and the script are set
apart from the rest of the state. With it, a tick that finds no entry complete (spec 44_async_queue R216). -/

namespace Sys2Proof.Machine

/-! ### A state at another position, with another script -/

/-- The state with its command at `r`, and the batches `b` for the points to come. -/
def State.vary (s : State) (r : Option Running) (b : List (List AgentEvent)) : State :=
  (s.withSeq { s.seq with cmd := r }).withOracle { s.oracle with batches := b }

/-- `u` is `s` but for the position of the Sequencer, and at `u` the batches `b` are to come. -/
def Still (b : List (List AgentEvent)) (s u : State) : Prop := ∃ r, u = s.vary r b

section still
variable {b : List (List AgentEvent)} {s u : State}

theorem still_self (h : s.oracle.batches = b) : Still b s s := ⟨s.seq.cmd, by subst h; rfl⟩

theorem Still.map {f : State → State} (h : Still b s u) (hf : ∀ r b, f (s.vary r b) = (f s).vary r b) :
    Still b (f s) (f u) := by
  obtain ⟨r, rfl⟩ := h
  exact ⟨r, hf r b⟩

/-- An equation between states that reads neither the position nor the script. -/
theorem Still.read {α : Type} (h : Still b s u) {f : State → α} (hf : ∀ r b, f (s.vary r b) = f s) : f u = f s := by
  obtain ⟨r, rfl⟩ := h
  exact hf r b

theorem Still.chan (h : Still b s u) (c : Chan) : u.chan c = s.chan c := h.read (f := (·.chan c)) fun _ _ => rfl
theorem Still.cfg (h : Still b s u) : u.cfg = s.cfg := h.read (f := (·.cfg)) fun _ _ => rfl
theorem Still.args (h : Still b s u) : u.args = s.args := h.read (f := (·.args)) fun _ _ => rfl
theorem Still.async (h : Still b s u) : u.async = s.async := h.read (f := (·.async)) fun _ _ => rfl

theorem setToggle_vary (c : Chan) (tg : Bool) (s : State) (r : Option Running) (b : List (List AgentEvent)) :
    (s.vary r b).setToggle c tg = (s.setToggle c tg).vary r b := by
  unfold State.setToggle
  split <;> rfl

/-- The agent of a channel reads neither the position nor the script. -/
theorem agentComplete_vary (c : Chan) (bs : List Byte) (tg : Bool) (s : State) (r : Option Running)
    (b : List (List AgentEvent)) : agentComplete c bs tg (s.vary r b) = (agentComplete c bs tg s).vary r b := by
  have hv : (s.vary r b).agentTrb c = s.agentTrb c := rfl
  have upd : ∀ m y, (((s.vary r b).withMem m).setToggle c tg).setChan c y = (((s.withMem m).setToggle c tg).setChan c y).vary r b :=
    fun m y => congrArg (·.setChan c y) (setToggle_vary c tg (s.withMem m) r b)
  cases hx : s.agentTrb c with
  | none => simp only [agentComplete, hv, hx]
  | some x =>
    have hx' : (s.vary r b).agentTrb c = some x := hx
    cases hd : c.dir with
    | out =>
      rw [agentComplete_out hx' bs tg hd, agentComplete_out hx bs tg hd]
      by_cases h : s.admits anyOwner x.addr x.size = true
      · rw [if_pos h]
        exact (if_pos h).trans (upd _ _)
      · rw [if_neg h]
        exact if_neg h
    | in_ =>
      rw [agentComplete_in hx' bs tg hd, agentComplete_in hx bs tg hd]
      by_cases h : (decide (bs.length ≤ x.size) && s.admits anyOwner x.addr bs.length) = true
      · rw [if_pos h]
        exact (if_pos h).trans (upd _ _)
      · rw [if_neg h]
        exact if_neg h

/-- Neither does the Host's issue of a command. -/
theorem hostIssue_vary (cmd : HostCmd) (s : State) (r : Option Running) (b : List (List AgentEvent)) :
    hostIssue cmd (s.vary r b) = (hostIssue cmd s).vary r b := by
  unfold hostIssue
  show (if (!s.seq.busy) = true then _ else if s.seq.inTick = true then _ else _) = _
  split
  · rfl
  · split
    · split <;> rfl
    · rfl

theorem idleChans_vary (cs : List Chan) (s : State) (r : Option Running) (b : List (List AgentEvent)) :
    idleChans cs (s.vary r b) = (idleChans cs s).vary r b := by
  induction cs generalizing s with
  | nil => rfl
  | cons c cs ih => exact ih (s.setChan c Channel.idle)

theorem drawReset_vary (s : State) (r : Option Running) (b : List (List AgentEvent)) :
    (s.vary r b).drawReset = (s.drawReset.1, s.drawReset.2.vary r b) := by
  unfold State.drawReset
  show (match s.oracle.resets with
    | d :: ds => (d, (s.vary r b).withOracle { s.oracle with batches := b, resets := ds })
    | [] => (Config.freeReset s.oracle.next,
        (s.vary r b).withOracle { s.oracle with batches := b, next := s.oracle.next + 1 })) = _
  cases s.oracle.resets <;> rfl

/-- DMA_RESET draws what it drops, and reads neither the position nor the script. -/
theorem dmaReset_vary (s : State) (r : Option Running) (b : List (List AgentEvent)) :
    dmaReset (s.vary r b) = (dmaReset s).vary r b := by
  have hd : ((s.vary r b).logOp .softReset).drawReset = _ := drawReset_vary (s.logOp .softReset) r b
  unfold dmaReset
  rw [hd]
  generalize (s.logOp .softReset).drawReset = d
  show (if d.1.keepConf = true then idleChans (s.dma.sel :: d.1.dropped) (d.2.vary r b)
    else (idleChans (s.dma.sel :: d.1.dropped) (d.2.vary r b)).setBurst .other) = _
  rw [idleChans_vary]
  dsimp only
  split <;> rfl

/-- What the Result of a command leaves, however its position and script varied. -/
theorem vary_finish (s : State) (r : Option Running) (b : List (List AgentEvent)) (i : Instr) (st : Status) (o : Outs) :
    (s.vary r b).finish i st o = { s with
      seq := Seq.idle, oracle := { s.oracle with batches := b }, trace := s.trace ++ [.result i.opcode st o] } := rfl

/-! ### Points -/

/-- At a point with a scripted batch the other agents take its steps. -/
theorem Still.atPos {es : List AgentEvent} {v : State} (h : Still (es :: b) s u) (p : Pos)
    (hf : ∀ r b, es.foldl agentStep (s.vary r b) = v.vary r b) : Still b v (u.atPos p) := by
  obtain ⟨r, rfl⟩ := h
  refine ⟨r.map fun x => { x with pos := p }, ?_⟩
  rw [← hf]
  exact interleave_of_batches rfl

theorem Still.quiet (h : Still ([] :: b) s u) (p : Pos) : Still b s (u.atPos p) := h.atPos p fun _ _ => rfl

theorem Still.round (h : Still b s u) (n : Nat) : Still b s (u.setRound n) := by
  obtain ⟨r, rfl⟩ := h
  exact ⟨_, rfl⟩

theorem Still.complete {c : Chan} {bs : List Byte} {tg : Bool} (h : Still ([.complete c bs tg] :: b) s u) (p : Pos) :
    Still b (agentComplete c bs tg s) (u.atPos p) := h.atPos p fun r b => agentComplete_vary c bs tg s r b

theorem Still.issue {cmd : HostCmd} (h : Still ([.issue cmd] :: b) s u) (p : Pos) :
    Still b (hostIssue cmd s) (u.atPos p) := h.atPos p fun r b => hostIssue_vary cmd s r b

theorem Still.check (h : Still b s u) (c : Chan) : Still b (dmaCheck c s) (dmaCheck c u) := h.map fun _ _ => rfl
theorem Still.clear (h : Still b s u) (c : Chan) : Still b (dmaClear c s) (dmaClear c u) := h.map fun _ _ => rfl
theorem Still.release (h : Still b s u) (c : Chan) : Still b (dmaRelease c s) (dmaRelease c u) := h.map fun _ _ => rfl
theorem Still.reset (h : Still b s u) : Still b (dmaReset s) (dmaReset u) := h.map (dmaReset_vary s)
theorem Still.log (h : Still b s u) (op : RegOp) : Still b (s.logOp op) (u.logOp op) :=
  h.map (f := (·.logOp op)) fun _ _ => rfl

end still

/-! ### A tick that finds no entry complete -/

/-- The state in which a quiet tick begins its loop. -/
def tickCore (s : State) : State :=
  s.withSeq { busy := true, cmd := some ⟨.asyncTick, 0, .line .start⟩, inTick := true, deferred := [] }

theorem still_tickBegin {b : List (List AgentEvent)} {s : State} (h : s.oracle.batches = [] :: b) :
    Still b (tickCore s) (tickBegin s) :=
  ((still_self (s := s.begin .asyncTick) h).quiet (.line .start)).map (f := fun t => t.withSeq { t.seq with inTick := true })
    fun _ _ => rfl

/-- The samples a tick takes of the entries' channels. -/
def checkAll (l : List AsyncEntry) (s : State) : State := l.foldl (fun t x => dmaCheck (entryChan x) t) s

theorem checkAll_eq (l : List AsyncEntry) (s : State) :
    checkAll l s = { s with
      dma := { s.dma with sel := (checkAll l s).dma.sel }
      regtrace := s.regtrace ++ (l.map fun x => sampleTrace (entryChan x)).flatten } := by
  induction l generalizing s with
  | nil => simp [checkAll]
  | cons x l ih =>
    have h : checkAll (x :: l) s = checkAll l (dmaCheck (entryChan x) s) := rfl
    rw [h, ih, dmaCheck_eq]
    simp only [List.map_cons, List.flatten_cons, List.append_assoc]

/-- A quiet visit of an entry that is not complete takes its sample (R216). -/
theorem tickEntry_skips {b : List (List AgentEvent)} {s u : State} (k : Nat) {x : AsyncEntry} (h : Still ([] :: b) s u)
    (hd : (s.chan (entryChan x)).done = false) :
    ∃ v, tickEntry k x u = .done () v ∧ Still b (dmaCheck (entryChan x) s) v := by
  have hs := (h.quiet (.line .check)).check (entryChan x)
  refine ⟨_, ?_, hs⟩
  unfold tickEntry
  dsimp only
  rw [if_neg]
  rw [hs.chan, chan_dmaCheck, hd]
  decide

theorem tickLoop_skips {b : List (List AgentEvent)} (l : List AsyncEntry) : ∀ (k : Nat) {s u : State},
    Still (List.replicate l.length [] ++ b) s u → (∀ x ∈ l, (s.chan (entryChan x)).done = false) →
    ∃ v, tickLoop k l u = .done () v ∧ Still b (checkAll l s) v := by
  induction l with
  | nil => exact fun k s u h _ => ⟨u, rfl, h⟩
  | cons x l ih =>
    intro k s u h hd
    rw [List.length_cons, List.replicate_succ, List.cons_append] at h
    obtain ⟨v, hv, hs⟩ := tickEntry_skips k (h.round k) (hd x List.mem_cons_self)
    obtain ⟨w, hw, hw'⟩ := ih (k + 1) hs fun y hy => by
      rw [chan_dmaCheck]
      exact hd y (List.mem_cons_of_mem _ hy)
    exact ⟨w, by rw [tickLoop, hv, andThen_done, hw], hw'⟩

theorem exec_asyncTick_of_loop {s v : State} (h : tickLoop 0 s.async (tickBegin s) = .done () v) :
    exec .asyncTick s = .next ((tickEnd (v.atLine .tickEnd)).finish .asyncTick .success .none) := by
  have ha : (tickBegin s).async = s.async := State.started_async s _
  show conclude (andThen (tickLoop 0 (tickBegin s).async (tickBegin s)) _) = _
  rw [ha, h]
  rfl

/-- A tick with no deferred command returns from where its loop ends. -/
theorem tickEnd_of_none {s : State} (h : s.seq.deferred = []) (i : Instr) (st : Status) (o : Outs) :
    (tickEnd s).finish i st o = s.finish i st o := by
  rw [tickEnd, h]
  rfl

/-- Settles O57. -/
theorem tickSkipsIncompleteEntries : Obligations.TickSkipsIncompleteEntries := by
  intro s hq hd
  obtain ⟨rest, hq⟩ := hq
  have hb : s.oracle.batches = [] :: (List.replicate s.async.length [] ++ ([] :: rest)) := by
    rw [hq, List.replicate_succ', List.replicate_succ]
    simp
  obtain ⟨v, hv, hs⟩ := tickLoop_skips s.async 0 (still_tickBegin hb) (by exact hd)
  obtain ⟨r, hr⟩ := hs.quiet (.line .tickEnd)
  have hexec := exec_asyncTick_of_loop hv
  obtain ⟨sel, hc⟩ : ∃ sel, checkAll s.async (tickCore s) = { tickCore s with
      dma := { s.dma with sel := sel }
      regtrace := s.regtrace ++ (s.async.map fun x => sampleTrace (entryChan x)).flatten } := ⟨_, checkAll_eq s.async _⟩
  rw [State.atLine, hr, hc, tickEnd_of_none rfl] at hexec
  rw [vary_finish] at hexec
  exact ⟨_, hexec, fun b => rfl, rfl, rfl⟩

end Sys2Proof.Machine
end

section
/-! The visit of a complete entry of the queue while the other agents take no step: its lines up to the arm, the arm, and what
they leave (spec 44_async_queue R215). -/

namespace Sys2Proof.Machine

/-! ### Quiet points -/

/-- `u` is `s` but for the position of the Sequencer, and the next `n` points are quiet. -/
def Calm (n : Nat) (s u : State) : Prop := ∃ rest, Still (List.replicate n [] ++ rest) s u

section calm
variable {n : Nat} {s u : State}

theorem Calm.point (h : Calm (n + 1) s u) (p : Pos) : Calm n s (u.atPos p) := by
  obtain ⟨rest, h⟩ := h
  exact ⟨rest, Still.quiet h p⟩

theorem Calm.mono {m : Nat} (h : Calm n s u) (hm : m ≤ n) : Calm m s u := by
  obtain ⟨rest, h⟩ := h
  refine ⟨List.replicate (n - m) [] ++ rest, ?_⟩
  rwa [← List.append_assoc, List.replicate_append_replicate, Nat.add_sub_cancel' hm]

theorem Calm.map {f : State → State} (h : Calm n s u) (hf : ∀ r b, f (s.vary r b) = (f s).vary r b) : Calm n (f s) (f u) := by
  obtain ⟨rest, h⟩ := h
  exact ⟨rest, h.map hf⟩

theorem Calm.read {α : Type} (h : Calm n s u) {f : State → α} (hf : ∀ r b, f (s.vary r b) = f s) : f u = f s := by
  obtain ⟨rest, h⟩ := h
  exact h.read hf

theorem Calm.chan (h : Calm n s u) (c : Chan) : u.chan c = s.chan c := h.read (f := (·.chan c)) fun _ _ => rfl
theorem Calm.toggle (h : Calm n s u) (c : Chan) : u.toggle c = s.toggle c := h.read (f := (·.toggle c)) fun _ _ => rfl
theorem Calm.cfg (h : Calm n s u) : u.cfg = s.cfg := h.read (f := (·.cfg)) fun _ _ => rfl

theorem Calm.translate (h : Calm n s u) (c : Chan) : Machine.translate u c = Machine.translate s c := by
  unfold Machine.translate
  rw [h.chan, h.cfg]

theorem Calm.round (h : Calm n s u) (k : Nat) : Calm n s (u.setRound k) := by
  obtain ⟨rest, h⟩ := h
  exact ⟨rest, h.round k⟩

theorem Calm.reset (h : Calm n s u) : Calm n (dmaReset s) (dmaReset u) := h.map (dmaReset_vary s)

theorem Calm.clear (h : Calm n s u) (c : Chan) : Calm n (dmaClear c s) (dmaClear c u) := h.map fun _ _ => rfl
theorem Calm.release (h : Calm n s u) (c : Chan) : Calm n (dmaRelease c s) (dmaRelease c u) := h.map fun _ _ => rfl
theorem Calm.log (h : Calm n s u) (op : RegOp) : Calm n (s.logOp op) (u.logOp op) := h.map (f := (·.logOp op)) fun _ _ => rfl
theorem Calm.entry (h : Calm n s u) (k : Nat) (x : AsyncEntry) : Calm n (s.setEntry k x) (u.setEntry k x) :=
  h.map (f := (·.setEntry k x)) fun _ _ => rfl
theorem Calm.putTrb (h : Calm n s u) (p : Nat) (x : Trb) : Calm n (s.putTrb p x) (u.putTrb p x) :=
  h.map (f := (·.putTrb p x)) fun _ _ => rfl

theorem configureEp_vary (c : Chan) (ty : EpType) (tg : Bool) (addr : DevAddr) (mps interval : Nat) (s : State)
    (r : Option Running) (b : List (List AgentEvent)) :
    configureEp c ty tg addr mps interval (s.vary r b) = (configureEp c ty tg addr mps interval s).vary r b := by
  unfold configureEp
  dsimp only
  split <;> rfl

theorem Calm.configureEp (h : Calm n s u) (c : Chan) (ty : EpType) (tg : Bool) (addr : DevAddr) (mps interval : Nat) :
    Calm n (Machine.configureEp c ty tg addr mps interval s) (Machine.configureEp c ty tg addr mps interval u) :=
  h.map (configureEp_vary c ty tg addr mps interval s)

end calm

/-! ### The lines of a visit -/

/-- A complete entry's channel released, from the state its sample leaves: its toggle read and stored, the channel cleared, reset
after an error, and released. -/
def visitFreed (k : Nat) (x : AsyncEntry) (s : State) : State :=
  let c := entryChan x
  let t := dmaClear c ((s.logOp (.R .epToggle)).setEntry k { x with toggle := s.toggle c })
  dmaRelease c (if (s.chan c).err = true then dmaReset t else t)

/-- The visit up to the program of the next slice: the index advanced, the endpoint configured, the TRB written. -/
def visitArm (k : Nat) (x : AsyncEntry) (s : State) : State :=
  (configureEp (entryChan x) .interrupt (s.toggle (entryChan x)) x.devAddr x.mps x.interval
    ((visitFreed k x s).setEntry k (servedEntry s x))).putTrb (nextSlot s.cfg x) (nextTrb s.cfg x)

/-- The lines of the visit that release the channel, the other agents stepping before each. -/
def freeRun (k : Nat) (x : AsyncEntry) (u : State) : State :=
  let c := entryChan x
  let v := (((u.atLine .translate).atLine .capture).atLine .readToggle).logOp (.R .epToggle)
  let w := dmaClear c ((v.setEntry k { x with toggle := v.toggle c }).atLine .clear)
  dmaRelease c ((if (translate (u.atLine .translate) c).1 = .success then w else dmaReset (w.atLine .reset)).atLine .release)

/-- What follows the program of the next slice: the delivery of the slice before it. -/
def deliver (x : AsyncEntry) (actual : Nat) (res : XferResult) (s : State) : Part Unit :=
  andThen (seqRead .callback [.async] (x.buf + x.index * sliceBytes s.cfg x.len) actual (s.atLine .callback)) fun data t =>
    .done () (t.emit (.callback x.callback x.ctx data actual res))

theorem translate_success_iff (s : State) (c : Chan) : (translate s c).1 = .success ↔ (s.chan c).err = false := by
  rcases translate_answer s c with ⟨h, e⟩ | ⟨e, -⟩
  · simp [e, h]
  · cases h : (s.chan c).err with
    | true => simp [e]
    | false => rw [translate_of_no_err h] at e; cases e

/-- The lines of a quiet visit that release the channel. -/
theorem calm_freeRun {n k : Nat} {x : AsyncEntry} {s u : State} (h : Calm (n + 6) s u) :
    Calm n (visitFreed k x s) (freeRun k x u) := by
  have p3 := (((h.point (.line .translate)).point (.line .capture)).point (.line .readToggle)).log (.R .epToggle)
  have ht := p3.toggle (entryChan x)
  have p4 := ((p3.entry k { x with toggle := s.toggle (entryChan x) }).point (.line .clear)).clear (entryChan x)
  have hr := (h.point (.line .translate)).translate (entryChan x)
  have hs := translate_success_iff s (entryChan x)
  unfold freeRun visitFreed
  dsimp only
  rw [ht, hr]
  refine Calm.release (Calm.point ?_ (.line .release)) _
  cases he : (s.chan (entryChan x)).err with
  | false =>
    rw [if_pos (hs.2 he), if_neg Bool.false_ne_true]
    exact p4.mono (by omega)
  | true =>
    rw [if_pos rfl, if_neg fun e => by rw [hs.1 e] at he; cases he]
    exact (p4.point (.line .reset)).reset

theorem tickComplete_eq (k : Nat) (x : AsyncEntry) (u : State) :
    tickComplete k x u =
      let z := { x with toggle := ((((u.atLine .translate).atLine .capture).atLine .readToggle).logOp (.R .epToggle)).toggle (entryChan x)
                        index := (x.index + 1) % (freeRun k x u).cfg.asyncIter }
      andThen (armSlice z ((freeRun k x u).setEntry k z)) fun _ s =>
        deliver x (((u.atLine .translate).atLine .capture).chan (entryChan x)).actual
          (translate (u.atLine .translate) (entryChan x)).2 s := rfl

/-! ### What a tick can change -/

/-- `t` is `s` but for the channel engine, the endpoints, the queue, the TRB store, the traces and the draws. -/
def TickOnly (s t : State) : Prop :=
  ∃ d e a tr rt o tc, t = { s with dma := d, ep := e, async := a, trbStore := tr, regtrace := rt, oracle := o, trace := tc }

section tickOnly
variable {s t u : State}

theorem TickOnly.trans (h : TickOnly s t) (k : TickOnly t u) : TickOnly s u := by
  obtain ⟨_, _, _, _, _, _, _, rfl⟩ := h
  obtain ⟨_, _, _, _, _, _, _, rfl⟩ := k
  exact ⟨_, _, _, _, _, _, _, rfl⟩

theorem TickOnly.cfg (h : TickOnly s t) : t.cfg = s.cfg := by obtain ⟨_, _, _, _, _, _, _, rfl⟩ := h; rfl
theorem TickOnly.mem (h : TickOnly s t) : t.mem = s.mem := by obtain ⟨_, _, _, _, _, _, _, rfl⟩ := h; rfl
theorem TickOnly.alloc (h : TickOnly s t) : t.alloc = s.alloc := by obtain ⟨_, _, _, _, _, _, _, rfl⟩ := h; rfl
theorem TickOnly.ep0 (h : TickOnly s t) : t.ep0 = s.ep0 := by obtain ⟨_, _, _, _, _, _, _, rfl⟩ := h; rfl

theorem tickOnly_reset (s : State) : TickOnly s (dmaReset s) := ⟨_, _, _, _, _, _, _, dmaReset_eq s⟩

theorem tickOnly_clear (c : Chan) (s : State) : TickOnly s (dmaClear c s) := ⟨_, _, _, _, _, _, _, dmaClear_eq c s⟩
theorem tickOnly_release (c : Chan) (s : State) : TickOnly s (dmaRelease c s) := ⟨_, _, _, _, _, _, _, dmaRelease_eq c s⟩
theorem tickOnly_log (op : RegOp) (s : State) : TickOnly s (s.logOp op) := ⟨_, _, _, _, _, _, _, rfl⟩
theorem tickOnly_setEntry (k : Nat) (x : AsyncEntry) (s : State) : TickOnly s (s.setEntry k x) := ⟨_, _, _, _, _, _, _, rfl⟩
theorem tickOnly_putTrb (p : Nat) (x : Trb) (s : State) : TickOnly s (s.putTrb p x) := ⟨_, _, _, _, _, _, _, rfl⟩
theorem tickOnly_emit (e : Event) (s : State) : TickOnly s (s.emit e) := ⟨_, _, _, _, _, _, _, rfl⟩
theorem tickOnly_configureEp (c : Chan) (ty : EpType) (tg : Bool) (addr : DevAddr) (mps interval : Nat) (s : State) :
    TickOnly s (configureEp c ty tg addr mps interval s) := ⟨_, _, _, _, _, _, _, configureEp_eq c ty tg addr mps interval s⟩
theorem tickOnly_programmed (c : Chan) (desc : Nat) (x : Trb) (s : State) : TickOnly s (programmed c desc x s) :=
  ⟨_, _, _, _, _, _, _, programmed_eq c desc x s⟩

theorem tickOnly_visitFreed (k : Nat) (x : AsyncEntry) (s : State) : TickOnly s (visitFreed k x s) := by
  have h := ((tickOnly_log (.R .epToggle) s).trans (tickOnly_setEntry k { x with toggle := s.toggle (entryChan x) } _)).trans
    (tickOnly_clear (entryChan x) _)
  unfold visitFreed
  dsimp only
  refine TickOnly.trans ?_ (tickOnly_release (entryChan x) _)
  split
  · exact h.trans (tickOnly_reset _)
  · exact h

theorem tickOnly_visitArm (k : Nat) (x : AsyncEntry) (s : State) : TickOnly s (visitArm k x s) :=
  (((tickOnly_visitFreed k x s).trans (tickOnly_setEntry k (servedEntry s x) _)).trans
    (tickOnly_configureEp _ _ _ _ _ _ _)).trans (tickOnly_putTrb _ _ _)

end tickOnly

theorem andThen_assoc {α β γ : Type} (x : Part α) (f : α → State → Part β) (g : β → State → Part γ) :
    andThen (andThen x f) g = andThen x fun a s => andThen (f a s) g := by
  cases x <;> rfl

/-- The arm of an entry's next slice is its three lines. -/
theorem armSlice_served {x : AsyncEntry} {s z : State} (h0 : x.ep ≠ 0) (hl : sliceBytes s.cfg x.len ≤ s.cfg.maxTrbSize)
    (h1 : nextSlot s.cfg x < addrSpace s.cfg.addrWidth) (h2 : (nextTrb s.cfg x).addr < addrSpace s.cfg.addrWidth)
    (hc : z.cfg = s.cfg) :
    armSlice (servedEntry s x) z = andThen (dmaProgram (entryChan x) (nextSlot s.cfg x)
      (((((configureEp (entryChan x) .interrupt (s.toggle (entryChan x)) x.devAddr x.mps x.interval (z.atLine .configure)).atLine
        .writeTrb).putTrb (nextSlot s.cfg x) (nextTrb s.cfg x))).atLine .program)) fun _ t => .done .success t := by
  have ha : armTrb z.cfg (nextTrb s.cfg x).addr (sliceBytes s.cfg x.len) = nextTrb s.cfg x := by rw [hc]; rfl
  have k := armInterrupt_of_legal (c := entryChan x) (tg := s.toggle (entryChan x)) (addr := x.devAddr) (mps := x.mps)
    (interval := x.interval) (trb := nextSlot s.cfg x) (data := (nextTrb s.cfg x).addr) (len := sliceBytes s.cfg x.len) (s := z)
    h0 (by rw [hc]; exact hl)
  rw [if_pos (by rw [hc]; exact ⟨h1, h2⟩), armedBefore_eq, ha] at k
  rw [armSlice, hc]
  exact k

/-- The lines of the visit of an entry of `s` up to the program of its next slice, the other agents stepping before each. -/
def armRun (k : Nat) (x : AsyncEntry) (s u : State) : State :=
  (((configureEp (entryChan x) .interrupt (s.toggle (entryChan x)) x.devAddr x.mps x.interval
    (((freeRun k x u).setEntry k (servedEntry s x)).atLine .configure)).atLine .writeTrb).putTrb (nextSlot s.cfg x)
      (nextTrb s.cfg x)).atLine .program

/-- A quiet visit of a complete entry comes to the program of its next slice. -/
theorem tickComplete_arms {n k : Nat} {x : AsyncEntry} {s u : State} (h : Calm (n + 9) s u) (h0 : x.ep ≠ 0)
    (hl : sliceBytes s.cfg x.len ≤ s.cfg.maxTrbSize) (h1 : nextSlot s.cfg x < addrSpace s.cfg.addrWidth)
    (h2 : (nextTrb s.cfg x).addr < addrSpace s.cfg.addrWidth) :
    Calm n (visitArm k x s) (armRun k x s u) ∧
      tickComplete k x u = andThen (dmaProgram (entryChan x) (nextSlot s.cfg x) (armRun k x s u)) fun _ v =>
        deliver x (s.chan (entryChan x)).actual (translate s (entryChan x)).2 v := by
  have p2 := (h.point (.line .translate)).point (.line .capture)
  have ht := ((p2.point (.line .readToggle)).log (.R .epToggle)).toggle (entryChan x)
  have hf := calm_freeRun (n := n + 3) (k := k) (x := x) h
  have hc : (freeRun k x u).cfg = s.cfg := hf.cfg.trans (tickOnly_visitFreed k x s).cfg
  have q := (((((hf.entry k (servedEntry s x)).point (.line .configure)).configureEp (entryChan x) .interrupt
    (s.toggle (entryChan x)) x.devAddr x.mps x.interval).point (.line .writeTrb)).putTrb (nextSlot s.cfg x)
      (nextTrb s.cfg x)).point (.line .program)
  refine ⟨q, ?_⟩
  rw [tickComplete_eq]
  dsimp only
  rw [hc, ht, (h.point (.line .translate)).translate, p2.chan]
  show andThen (armSlice (servedEntry s x) ((freeRun k x u).setEntry k (servedEntry s x))) _ = _
  rw [armSlice_served (z := (freeRun k x u).setEntry k (servedEntry s x)) h0 hl h1 h2 hc, andThen_assoc]
  rfl

/-! ### What a visit leaves -/

/-- DMA_RESET with a scripted draw idles, but for the selected channel, only what the draw drops (R155). -/
theorem dmaReset_of_scripted {s : State} {d : ResetDraw} {ds : List ResetDraw} (h : s.oracle.resets = d :: ds) :
    (dmaReset s).oracle.resets = ds ∧ ∀ b, b ∉ d.dropped → b ≠ s.dma.sel → (dmaReset s).chan b = s.chan b := by
  have hd : (s.logOp .softReset).drawReset = (d, (s.logOp .softReset).withOracle { s.oracle with resets := ds }) := by
    unfold State.drawReset
    rw [show (s.logOp .softReset).oracle.resets = d :: ds from h]
    rfl
  unfold dmaReset
  rw [hd]
  dsimp only
  have hc : ∀ b, b ∉ d.dropped → b ≠ s.dma.sel → (idleChans (s.dma.sel :: d.dropped)
      ((s.logOp .softReset).withOracle { s.oracle with resets := ds })).chan b = s.chan b := fun b hb hs => by
    rw [chan_idleChans, if_neg (by simp [hb, hs])]
    rfl
  have ho := congrArg (fun t : State => t.oracle.resets) (idleChans_eq (s.dma.sel :: d.dropped)
    ((s.logOp .softReset).withOracle { s.oracle with resets := ds }))
  split
  · exact ⟨ho, hc⟩
  · exact ⟨ho, hc⟩

/-- What the reset after an error leaves, from `t` (R155, R215). -/
structure ResetIf (e : Bool) (t r : State) : Prop where
  only : r = { t with dma := r.dma, oracle := r.oracle, regtrace := t.regtrace ++ if e then [.softReset] else [] }
  sel : r.dma.sel = t.dma.sel
  same : r.chan t.dma.sel = if e then Channel.idle else t.chan t.dma.sel
  other : ∀ b, r.chan b = t.chan b ∨ e = true ∧ r.chan b = Channel.idle
  unread : e = false → r.oracle.resets = t.oracle.resets ∧ ∀ b, r.chan b = t.chan b
  spared : ∀ d ds, e = true → t.oracle.resets = d :: ds →
    r.oracle.resets = ds ∧ ∀ b, b ∉ d.dropped → b ≠ t.dma.sel → r.chan b = t.chan b

theorem resetIf (e : Bool) (t : State) : ResetIf e t (if e = true then dmaReset t else t) := by
  cases e with
  | false =>
    rw [if_neg Bool.false_ne_true]
    exact ⟨by simp, rfl, rfl, fun _ => .inl rfl, fun _ => ⟨rfl, fun _ => rfl⟩, nofun⟩
  | true =>
    rw [if_pos rfl]
    exact ⟨dmaReset_eq t, dmaReset_sel t, (chan_dmaReset t _).1 rfl, fun b => (chan_dmaReset t b).2.imp id fun h => ⟨rfl, h⟩, nofun,
      fun d ds _ h => dmaReset_of_scripted h⟩

/-- The registers of a channel cleared and released, whatever a reset between made of it. -/
def freedChan (ch : Channel) : Channel :=
  { ch with enabled := false, programmed := false, pending := false, trb := none, done := false, err := false, errCode := 0 }

/-- What a visit leaves of the channels, up to the program of its next slice (R153 to R155, R215). -/
structure VisitChans (x : AsyncEntry) (s t : State) : Prop where
  chan : t.chan (entryChan x) = freedChan (if (s.chan (entryChan x)).err then Channel.idle else s.chan (entryChan x))
  other : ∀ b, b ≠ entryChan x → t.chan b = s.chan b ∨ (s.chan (entryChan x)).err = true ∧ t.chan b = Channel.idle
  unread : (s.chan (entryChan x)).err = false → t.oracle.resets = s.oracle.resets ∧ ∀ b, b ≠ entryChan x → t.chan b = s.chan b
  spared : ∀ d ds, (s.chan (entryChan x)).err = true → s.oracle.resets = d :: ds →
    t.oracle.resets = ds ∧ ∀ b, b ∉ d.dropped → b ≠ entryChan x → t.chan b = s.chan b

theorem VisitChans.of_dma {x : AsyncEntry} {s t u : State} (h : VisitChans x s t) (hd : u.dma = t.dma) (ho : u.oracle = t.oracle) :
    VisitChans x s u := by
  have hc : ∀ b, u.chan b = t.chan b := State.chan_of_dma (by rw [hd])
  obtain ⟨h1, h2, h3, h4⟩ := h
  exact ⟨by rw [hc, h1], fun b hb => by rw [hc]; exact h2 b hb, fun he => ⟨by rw [ho, (h3 he).1], fun b hb => by
    rw [hc]; exact (h3 he).2 b hb⟩, fun d ds he hd => ⟨by rw [ho, (h4 d ds he hd).1], fun b hn hb => by
      rw [hc]; exact (h4 d ds he hd).2 b hn hb⟩⟩

/-- The register operations of a visit that release the channel. -/
def freeTrace (s : State) (c : Chan) : List RegOp :=
  [.R .epToggle] ++ clearTrace c ++ (if (s.chan c).err then [.softReset] else []) ++ releaseTrace c

/-- What the lines of a visit leave that release the channel. -/
structure Releasing (k : Nat) (x : AsyncEntry) (s t : State) : Prop where
  only : TickOnly s t
  async : t.async = s.async.set k { x with toggle := s.toggle (entryChan x) }
  trbStore : t.trbStore = s.trbStore
  trace : t.trace = s.trace
  ep : t.ep = s.ep
  regtrace : t.regtrace = s.regtrace ++ freeTrace s (entryChan x)
  chans : VisitChans x s t

theorem releasing_of_reset {k : Nat} {x : AsyncEntry} {s t r : State} (ht : t = dmaClear (entryChan x)
    ((s.logOp (.R .epToggle)).setEntry k { x with toggle := s.toggle (entryChan x) }))
    (h : ResetIf (s.chan (entryChan x)).err t r) : Releasing k x s (dmaRelease (entryChan x) r) := by
  obtain ⟨honly, hsel, hsame, hother, hunread, hspared⟩ := h
  have hta : t.async = s.async.set k { x with toggle := s.toggle (entryChan x) } := by rw [ht, dmaClear_eq]; rfl
  have htb : t.trbStore = s.trbStore := by rw [ht, dmaClear_eq]; rfl
  have htr : t.trace = s.trace := by rw [ht, dmaClear_eq]; rfl
  have hte : t.ep = s.ep := by rw [ht, dmaClear_eq]; rfl
  have hts : t.dma.sel = entryChan x := by rw [ht]; rfl
  have htc : ∀ b, b ≠ entryChan x → t.chan b = s.chan b := fun b hb => by rw [ht, chan_dmaClear, if_neg hb]; rfl
  have htx : t.chan (entryChan x) = { s.chan (entryChan x) with done := false, err := false, errCode := 0 } := by
    rw [ht, chan_dmaClear, if_pos rfl]; rfl
  have hto : t.oracle = s.oracle := by rw [ht, dmaClear_eq]; rfl
  have htt : TickOnly s t := by
    rw [ht]
    exact ((tickOnly_log _ s).trans (tickOnly_setEntry k _ _)).trans (tickOnly_clear _ _)
  have hne : ∀ b, b ≠ entryChan x → (dmaRelease (entryChan x) r).chan b = r.chan b := fun b hb => by
    rw [chan_dmaRelease, if_neg hb]
  rw [hts] at hsame hspared
  rw [hto] at hunread hspared
  refine ⟨(htt.trans ⟨_, _, _, _, _, _, _, honly⟩).trans (tickOnly_release _ _), ?_, ?_, ?_, ?_, ?_, ?_, fun b hb => ?_,
    fun he => ⟨(hunread he).1, fun b hb => ?_⟩, fun d ds he hd => ⟨(hspared d ds he hd).1, fun b hn hb => ?_⟩⟩
  · exact (congrArg State.async honly).trans hta
  · exact (congrArg State.trbStore honly).trans htb
  · exact (congrArg State.trace honly).trans htr
  · exact (congrArg State.ep honly).trans hte
  · have h1 : (dmaRelease (entryChan x) r).regtrace = r.regtrace ++ releaseTrace (entryChan x) := by rw [dmaRelease_eq]; rfl
    have h2 : t.regtrace = s.regtrace ++ [.R .epToggle] ++ clearTrace (entryChan x) := by rw [ht, dmaClear_eq]; rfl
    rw [h1, congrArg State.regtrace honly, h2]
    simp only [freeTrace, List.append_assoc]
  · rw [chan_dmaRelease, if_pos rfl, hsame, htx]
    cases (s.chan (entryChan x)).err <;> rfl
  · rw [hne b hb, ← htc b hb]
    exact hother b
  · rw [hne b hb, ← htc b hb]
    exact (hunread he).2 b
  · rw [hne b hb, ← htc b hb]
    exact (hspared d ds he hd).2 b hn hb

theorem releasing (k : Nat) (x : AsyncEntry) (s : State) : Releasing k x s (visitFreed k x s) := by
  unfold visitFreed
  exact releasing_of_reset rfl (resetIf _ _)

/-- What the visit of a complete entry leaves at the program of its next slice: `t` from `s` (R215). -/
structure Visiting (k : Nat) (x : AsyncEntry) (s t : State) : Prop where
  only : TickOnly s t
  async : t.async = s.async.set k (servedEntry s x)
  trbStore : t.trbStore = tabPut s.trbStore (nextSlot s.cfg x) (nextTrb s.cfg x)
  trace : t.trace = s.trace
  regtrace : t.regtrace = s.regtrace ++ (freeTrace s (entryChan x) ++
      interruptTrace s.cfg (entryChan x) (s.toggle (entryChan x)) x.devAddr x.mps x.interval)
  chans : VisitChans x s t
  endpoint : ∀ b, t.endpoint b = if b = entryChan x then
    configuredEndpoint s.cfg (s.endpoint (entryChan x)) .interrupt (s.toggle (entryChan x)) x.devAddr x.mps x.interval
      else s.endpoint b

theorem visiting (k : Nat) (x : AsyncEntry) (s : State) : Visiting k x s (visitArm k x s) := by
  have h := releasing k x s
  have hc := h.only.cfg
  refine ⟨tickOnly_visitArm k x s, ?_, ?_, ?_, ?_, ?_, fun b => ?_⟩ <;> unfold visitArm <;>
    generalize visitFreed k x s = z at h hc ⊢
  · rw [configureEp_eq]
    show z.async.set k _ = _
    rw [h.async, List.set_set]
  · rw [configureEp_eq]
    show tabPut z.trbStore _ _ = _
    rw [h.trbStore]
  · rw [configureEp_eq]
    exact h.trace
  · rw [configureEp_eq]
    show z.regtrace ++ (_ ++ if (_ : Bool) = true then [RegOp.W .epTimer (.chanVal _ (intTimerValue z.cfg _))] else []) = _
    rw [h.regtrace, hc, List.append_assoc]
    simp [interruptTrace]
  · refine h.chans.of_dma ?_ ?_
    · rw [configureEp_eq]; rfl
    · rw [configureEp_eq]; rfl
  · refine (State.endpoint_of_ep (s := configureEp _ _ _ _ _ _ _) rfl b).trans ?_
    rw [endpoint_configureEp]
    rw [State.endpoint_of_ep (s := s) (t := z.setEntry k (servedEntry s x)) h.ep,
      State.endpoint_of_ep (s := s) (t := z.setEntry k (servedEntry s x)) h.ep]
    rw [State.setEntry_cfg, hc]

end Sys2Proof.Machine
end

section
/-! O58. A tick while the other agents take no step: what each visit of the queue leaves, and the visits in order (spec
44_async_queue R215, R216, R218 to R220). -/

namespace Sys2Proof.Machine

theorem Calm.emit {n : Nat} {s u : State} (h : Calm n s u) (e : Event) : Calm n (s.emit e) (u.emit e) :=
  h.map (f := (·.emit e)) fun _ _ => rfl

theorem Calm.programmed {n : Nat} {s u : State} (h : Calm n s u) (c : Chan) (desc : Nat) (x : Trb) :
    Calm n (Machine.programmed c desc x s) (Machine.programmed c desc x u) := h.map fun _ _ => rfl

/-! ### One visit -/

/-- The next slice of an entry can be armed, and the slice before it delivered (R66, R151, R251). -/
structure Serves (s : State) (x : AsyncEntry) : Prop where
  slot : nextSlot s.cfg x < addrSpace s.cfg.addrWidth
  addr : (nextTrb s.cfg x).addr < addrSpace s.cfg.addrWidth
  slotAligned : nextSlot s.cfg x % s.cfg.dmaAlign = 0
  addrAligned : (nextTrb s.cfg x).addr % s.cfg.dmaAlign = 0
  read : s.admits [.async] (x.buf + x.index * sliceBytes s.cfg x.len) (s.chan (entryChan x)).actual = true

/-- The visit of an entry by a quiet tick. -/
def visit (k : Nat) (x : AsyncEntry) (s : State) : State :=
  let t := dmaCheck (entryChan x) s
  if (s.chan (entryChan x)).done = true then
    (programmed (entryChan x) (nextSlot s.cfg x) (nextTrb s.cfg x) (visitArm k x t)).emit (entryCallback s x)
  else t

theorem EntryLegal.nextIndex_lt {p : Params} {x : AsyncEntry} (h : EntryLegal p x) : nextIndex p x < p.asyncIter :=
  Nat.mod_lt _ (by obtain ⟨-, -, -, -, -, h, -⟩ := h; omega)

theorem EntryLegal.nextSlot_mem {p : Params} {x : AsyncEntry} (h : EntryLegal p x) : nextSlot p x ∈ x.pool := by
  have hi := h.nextIndex_lt
  obtain ⟨-, -, -, -, -, -, hp⟩ := h
  rw [nextSlot, List.getD_eq_getElem _ _ (by omega)]
  exact List.getElem_mem _

theorem serves_of_ready {s : State} {x : AsyncEntry} (hr : EntryReady s x) (hl : EntryLegal s.cfg x)
    (hd : (s.chan (entryChan x)).done = true) : Serves s x := by
  obtain ⟨hs, hp, ha, -⟩ := hr
  obtain ⟨hsa, hss⟩ := hp _ hl.nextSlot_mem
  obtain ⟨haa, has, -⟩ := hs _ hl.nextIndex_lt
  obtain ⟨-, -, had⟩ := hs x.index (by obtain ⟨-, -, -, -, -, h, -⟩ := hl; exact h)
  exact ⟨hss, has, hsa, haa, State.admits_sub had (le_refl _) (by have := ha hd; omega)⟩

/-- What a slice delivered leaves. -/
def delivered (x : AsyncEntry) (actual : Nat) (res : XferResult) (s : State) : State :=
  s.emit (.callback x.callback x.ctx (readBytes s.mem (x.buf + x.index * sliceBytes s.cfg x.len) actual) actual res)

theorem deliver_calm {n : Nat} {x : AsyncEntry} {actual : Nat} {res : XferResult} {s u : State} (h : Calm (n + 1) s u)
    (ha : s.admits [.async] (x.buf + x.index * sliceBytes s.cfg x.len) actual = true) :
    ∃ w, deliver x actual res u = .done () w ∧ Calm n (delivered x actual res s) w := by
  have p := h.point (.line .callback)
  have hm := p.read (f := (·.mem)) fun _ _ => rfl
  have hadm := p.read (f := (·.admits [.async] (x.buf + x.index * sliceBytes s.cfg x.len) actual)) fun _ _ => rfl
  refine ⟨_, ?_, p.emit _⟩
  rw [deliver, h.cfg, seqRead, if_pos (hadm.trans ha), hm]
  rfl

theorem deliver_stuck {n : Nat} {x : AsyncEntry} {actual : Nat} {res : XferResult} {s u : State} (h : Calm (n + 1) s u)
    (ha : s.admits [.async] (x.buf + x.index * sliceBytes s.cfg x.len) actual = false) :
    deliver x actual res u = .hold ((u.atLine .callback).setPos (.line .callback)) := by
  have p := h.point (.line .callback)
  have hadm := p.read (f := (·.admits [.async] (x.buf + x.index * sliceBytes s.cfg x.len) actual)) fun _ _ => rfl
  rw [deliver, h.cfg, seqRead, if_neg (by rw [hadm.trans ha]; nofun)]
  rfl

/-- The state at the program of the next slice has its descriptor, and its channel is released. -/
theorem visitArm_programs {k : Nat} {x : AsyncEntry} {s w : State} {n : Nat} {p : Params} (hp : s.cfg = p)
    (h : Calm n (visitArm k x s) w) :
    (w.chan (entryChan x)).programmed = false ∧ tabFind w.trbStore (nextSlot p x) = some (nextTrb p x) ∧ w.cfg = p := by
  subst hp
  have v := visiting k x s
  refine ⟨?_, ?_, h.cfg.trans v.only.cfg⟩
  · rw [h.chan, v.chans.chan]; rfl
  · rw [h.read (f := (·.trbStore)) fun _ _ => rfl, v.trbStore, tabFind_put_same]

/-- The visit of an entry, quiet from its sample on, answers. -/
theorem tickEntry_of_check {n k : Nat} {x : AsyncEntry} {s u : State}
    (hs : Calm (n + 10) (dmaCheck (entryChan x) s) (dmaCheck (entryChan x) (u.atLine .check))) (hl : EntryLegal s.cfg x)
    (hr : (s.chan (entryChan x)).done = true → Serves s x) :
    ∃ w, tickEntry k x u = .done () w ∧ Calm n (visit k x s) w := by
  unfold tickEntry visit
  dsimp only
  rw [hs.chan, chan_dmaCheck]
  cases hd : (s.chan (entryChan x)).done with
  | false =>
    rw [if_neg Bool.false_ne_true, if_neg Bool.false_ne_true]
    exact ⟨_, rfl, hs.mono (by omega)⟩
  | true =>
    obtain ⟨h1, h2, h3, h4, h5⟩ := hr hd
    obtain ⟨h0, -, -, -, hm, -, -⟩ := hl
    obtain ⟨hw, e⟩ := tickComplete_arms (n := n + 1) (k := k) (x := x) hs h0 hm h1 h2
    obtain ⟨hp, ht, hc⟩ := visitArm_programs rfl hw
    have ho := (tickOnly_visitArm k x (dmaCheck (entryChan x) s)).trans
      (tickOnly_programmed (entryChan x) (nextSlot s.cfg x) (nextTrb s.cfg x) _)
    have hv := hw.programmed (entryChan x) (nextSlot s.cfg x) (nextTrb s.cfg x)
    rw [if_pos rfl, if_pos rfl, e, dmaProgram_done (x := nextTrb s.cfg x) hp ht (by rw [hc]; exact h3) (by rw [hc]; exact h4)]
    obtain ⟨y, hy, hyc⟩ := deliver_calm (x := x) (actual := (s.chan (entryChan x)).actual)
      (res := (translate s (entryChan x)).2) hv (by rw [ho.cfg, State.admits_congr ho.cfg ho.alloc]; exact h5)
    refine ⟨y, hy, ?_⟩
    rw [delivered, ho.mem, ho.cfg] at hyc
    exact hyc

/-- A quiet visit answers. -/
theorem tickEntry_visit {n k : Nat} {x : AsyncEntry} {s u : State} (h : Calm (n + 11) s u) (hl : EntryLegal s.cfg x)
    (hr : (s.chan (entryChan x)).done = true → Serves s x) :
    ∃ w, tickEntry k x u = .done () w ∧ Calm n (visit k x s) w :=
  tickEntry_of_check ((h.point (.line .check)).map (f := dmaCheck (entryChan x)) fun _ _ => rfl) hl hr

/-- The sample before a visit changes nothing the visit reads. -/
theorem Visiting.of_check {k : Nat} {x : AsyncEntry} {s t : State} (h : Visiting k x (dmaCheck (entryChan x) s) t) :
    t.async = s.async.set k (servedEntry s x) ∧ t.trace = s.trace := ⟨h.async, h.trace⟩

/-- What the visit of an entry leaves, whether it was complete or not (R215, R216). -/
structure Visited (k : Nat) (x : AsyncEntry) (s t : State) : Prop where
  only : TickOnly s t
  async : t.async = if (s.chan (entryChan x)).done then s.async.set k (servedEntry s x) else s.async
  trbStore : ∀ p, tabFind t.trbStore p =
    if (s.chan (entryChan x)).done ∧ p = nextSlot s.cfg x then some (nextTrb s.cfg x) else tabFind s.trbStore p
  trace : t.trace = s.trace ++ if (s.chan (entryChan x)).done then [entryCallback s x] else []
  regtrace : t.regtrace = s.regtrace ++ visitTrace s x
  chan : t.chan (entryChan x) = if (s.chan (entryChan x)).done then rearmedChan s x else s.chan (entryChan x)
  other : ∀ b, b ≠ entryChan x → t.chan b = s.chan b ∨
    ((s.chan (entryChan x)).done && (s.chan (entryChan x)).err) = true ∧ t.chan b = Channel.idle
  unread : ((s.chan (entryChan x)).done && (s.chan (entryChan x)).err) = false →
    t.oracle.resets = s.oracle.resets ∧ ∀ b, b ≠ entryChan x → t.chan b = s.chan b
  spared : ∀ d ds, ((s.chan (entryChan x)).done && (s.chan (entryChan x)).err) = true → s.oracle.resets = d :: ds →
    t.oracle.resets = ds ∧ ∀ b, b ∉ d.dropped → b ≠ entryChan x → t.chan b = s.chan b
  endpoint : ∀ b, t.endpoint b = if (s.chan (entryChan x)).done ∧ b = entryChan x then rearmedEndpoint s x else s.endpoint b
  sel : t.dma.sel = entryChan x
  burst : t.dma.burstMode = if (s.chan (entryChan x)).done then .single else s.dma.burstMode

theorem visited_of_done {k : Nat} {x : AsyncEntry} {s v : State} (hd : (s.chan (entryChan x)).done = true) (hi : x.interval ≠ 0)
    (h : Visiting k x (dmaCheck (entryChan x) s) v) :
    Visited k x s ((programmed (entryChan x) (nextSlot s.cfg x) (nextTrb s.cfg x) v).emit (entryCallback s x)) := by
  obtain ⟨honly, hasync, htrb, htrace, hreg, ⟨hchan, hother, hunread, hspared⟩, hep⟩ := h
  have hw := programmed_eq (entryChan x) (nextSlot s.cfg x) (nextTrb s.cfg x) v
  have hsel := programmed_sel (entryChan x) (nextSlot s.cfg x) (nextTrb s.cfg x) v
  have hburst := programmed_burst (entryChan x) (nextSlot s.cfg x) (nextTrb s.cfg x) v
  have hc := fun b => chan_programmed (entryChan x) b (nextSlot s.cfg x) (nextTrb s.cfg x) v
  have ho := (TickOnly.trans ⟨_, _, _, _, _, _, _, dmaCheck_eq _ s⟩ honly).trans
    (tickOnly_programmed (entryChan x) (nextSlot s.cfg x) (nextTrb s.cfg x) _)
  generalize programmed (entryChan x) (nextSlot s.cfg x) (nextTrb s.cfg x) v = w at *
  have hne : ∀ b, b ≠ entryChan x → w.chan b = v.chan b := fun b hb => by rw [hc, if_neg hb]
  have hwo : w.oracle = v.oracle := by rw [hw]
  have hwp : w.ep = v.ep := by rw [hw]
  simp only [chan_dmaCheck] at hchan hother hunread hspared
  constructor
  case only => exact ho.trans (tickOnly_emit _ _)
  case async =>
    rw [if_pos hd]
    exact (congrArg State.async hw).trans hasync
  case trbStore =>
    intro p
    simp only [hd, true_and]
    exact (congrArg (fun t : State => tabFind t.trbStore p) hw).trans ((congrArg (tabFind · p) htrb).trans (tabFind_put _ _ _ _))
  case trace =>
    rw [if_pos hd]
    exact congrArg (· ++ [entryCallback s x]) ((congrArg State.trace hw).trans htrace)
  case regtrace =>
    refine (congrArg State.regtrace hw).trans ((congrArg (· ++ _) hreg).trans ?_)
    rw [visitTrace, if_pos hd, dmaCheck_eq]
    simp only [freeTrace, List.append_assoc]
    rfl
  case chan =>
    rw [if_pos hd]
    refine (hc _).trans ?_
    rw [if_pos rfl, hchan]
    rfl
  case other =>
    intro b hb
    rw [hd, Bool.true_and]
    exact (hother b hb).imp (hne b hb).trans fun h => ⟨h.1, (hne b hb).trans h.2⟩
  case unread =>
    rw [hd, Bool.true_and]
    exact fun he => ⟨(congrArg Oracle.resets hwo).trans (hunread he).1, fun b hb => (hne b hb).trans ((hunread he).2 b hb)⟩
  case spared =>
    rw [hd, Bool.true_and]
    exact fun d ds he hr => ⟨(congrArg Oracle.resets hwo).trans (hspared d ds he hr).1, fun b hn hb =>
      (hne b hb).trans ((hspared d ds he hr).2 b hn hb)⟩
  case endpoint =>
    intro b
    refine (State.endpoint_of_ep hwp b).trans ((hep b).trans ?_)
    simp only [hd, true_and]
    split
    · rw [configuredEndpoint, if_pos (by simp [hi])]
      rfl
    · rfl
  case sel => exact hsel
  case burst =>
    rw [if_pos hd]
    exact hburst

theorem visited (k : Nat) {x : AsyncEntry} (s : State) (hi : x.interval ≠ 0) : Visited k x s (visit k x s) := by
  unfold visit
  dsimp only
  cases hd : (s.chan (entryChan x)).done with
  | true =>
    rw [if_pos rfl]
    exact visited_of_done hd hi (visiting k x _)
  | false =>
    rw [if_neg Bool.false_ne_true]
    have hs : TickOnly s (dmaCheck (entryChan x) s) := ⟨_, _, _, _, _, _, _, dmaCheck_eq _ _⟩
    constructor
    case only => exact hs
    case async => rw [if_neg (by rw [hd]; nofun)]; rfl
    case trbStore => exact fun p => by rw [if_neg fun h => by rw [hd] at h; cases h.1]; rfl
    case trace => rw [if_neg (by rw [hd]; nofun), List.append_nil]; rfl
    case regtrace => rw [visitTrace, if_neg (by rw [hd]; nofun), List.append_nil, dmaCheck_eq]
    case chan => rw [if_neg (by rw [hd]; nofun)]; rfl
    case other => exact fun b _ => .inl rfl
    case unread => exact fun _ => ⟨rfl, fun _ _ => rfl⟩
    case spared => exact fun d ds he => by rw [hd] at he; cases he
    case endpoint => exact fun b => by rw [if_neg fun h => by rw [hd] at h; cases h.1]; rfl
    case sel => rfl
    case burst => rw [if_neg (by rw [hd]; nofun)]; rfl

end Sys2Proof.Machine
end

section
/-! O58, first part. The visits of a quiet tick over a queue of ready entries, whose resets spare the queue's channels. -/

namespace Sys2Proof.Machine

/-! ### What a visit leaves of the entries to come -/

/-- The parts of the state the visit of an entry depends on. -/
structure SameFor (x : AsyncEntry) (s t : State) : Prop where
  only : TickOnly s t
  chan : t.chan (entryChan x) = s.chan (entryChan x)
  endpoint : t.endpoint (entryChan x) = s.endpoint (entryChan x)

section sameFor
variable {x : AsyncEntry} {s t : State}

theorem SameFor.toggle (h : SameFor x s t) : t.toggle (entryChan x) = s.toggle (entryChan x) := by
  have he := h.endpoint
  have h0 := h.only.ep0
  unfold State.toggle
  rw [he, h0]

theorem SameFor.servedEntry (h : SameFor x s t) : Machine.servedEntry t x = Machine.servedEntry s x := by
  rw [Machine.servedEntry, h.toggle, h.only.cfg]; rfl

theorem SameFor.translate (h : SameFor x s t) : Machine.translate t (entryChan x) = Machine.translate s (entryChan x) := by
  unfold Machine.translate
  rw [h.chan, h.only.cfg]

theorem SameFor.entryCallback (h : SameFor x s t) : Machine.entryCallback t x = Machine.entryCallback s x := by
  rw [Machine.entryCallback, h.chan, h.only.cfg, h.only.mem, h.translate]; rfl

theorem SameFor.visitTrace (h : SameFor x s t) : Machine.visitTrace t x = Machine.visitTrace s x := by
  rw [Machine.visitTrace, h.chan, h.only.cfg, h.toggle]; rfl

theorem SameFor.rearmedChan (h : SameFor x s t) : Machine.rearmedChan t x = Machine.rearmedChan s x := by
  rw [Machine.rearmedChan, h.chan, h.only.cfg]; rfl

theorem SameFor.rearmedEndpoint (h : SameFor x s t) : Machine.rearmedEndpoint t x = Machine.rearmedEndpoint s x := by
  rw [Machine.rearmedEndpoint, h.toggle, h.only.cfg]; rfl

end sameFor

/-! ### The visits in order -/

/-- The visits of the entries `l`, the first of them the `k`-th of the queue. -/
def visitAll (k : Nat) : List AsyncEntry → State → State
  | [], s => s
  | x :: l, s => visitAll (k + 1) l (visit k x s)

theorem tickLoop_visitAll {n : Nat} (l : List AsyncEntry) : ∀ (k : Nat) {s u : State}, Calm (n + 11 * l.length) s u →
    (∀ x ∈ l, EntryLegal s.cfg x) → (∀ x ∈ l, EntryReady s x) → (l.map (·.ep)).Nodup →
    ∃ w, tickLoop k l u = .done () w ∧ Calm n (visitAll k l s) w := by
  induction l with
  | nil => exact fun k s u h _ _ _ => ⟨u, rfl, h⟩
  | cons x l ih =>
    intro k s u h hl hr hn
    rw [List.map_cons, List.nodup_cons] at hn
    have hlx := hl x List.mem_cons_self
    have h' : Calm (n + 11 * l.length + 11) s (u.setRound k) := (h.round k).mono (by rw [List.length_cons]; omega)
    obtain ⟨v, hv, hc⟩ := tickEntry_visit (k := k) h' hlx fun hd => serves_of_ready (hr x List.mem_cons_self) hlx hd
    have f := visited k (x := x) s (by obtain ⟨-, ⟨hi, -⟩, -⟩ := hlx; omega)
    have hne : ∀ y ∈ l, entryChan y ≠ entryChan x := fun y hy h => by
      have he : y.ep = x.ep := congrArg Chan.ep h
      exact hn.1 (he ▸ List.mem_map_of_mem (f := (·.ep)) hy)
    have hl' : ∀ y ∈ l, EntryLegal (visit k x s).cfg y := fun y hy => by
      rw [f.only.cfg]
      exact hl y (List.mem_cons_of_mem _ hy)
    have hr' : ∀ y ∈ l, EntryReady (visit k x s) y := fun y hy =>
      entryReady_of f.only.cfg f.only.alloc ((f.other _ (hne y hy)).imp .inl (·.2))
        (hr y (List.mem_cons_of_mem _ hy))
    obtain ⟨w, hw, hcw⟩ := ih (k + 1) hc hl' hr' hn.2
    exact ⟨w, by rw [tickLoop, hv]; exact hw, hcw⟩

/-- The entry is complete, with an error. -/
def failed (s : State) (x : AsyncEntry) : Bool := (s.chan (entryChan x)).done && (s.chan (entryChan x)).err

/-- The entry is complete. -/
def completed (s : State) (x : AsyncEntry) : Bool := (s.chan (entryChan x)).done

/-- The resets the visits of `l` make draw what is scripted, and drop no channel of `cs` (R155). -/
def ResetsSpare (cs : List Chan) (l : List AsyncEntry) (s : State) : Prop :=
  (l.filter (failed s)).length ≤ s.oracle.resets.length ∧
    ∀ d ∈ s.oracle.resets.take (l.filter (failed s)).length, ∀ c ∈ cs, c ∉ d.dropped

/-- What the visits of the entries `l`, which stand after `before`, leave: `t` from `s`. -/
structure Served (cs : List Chan) (before l : List AsyncEntry) (s t : State) : Prop where
  only : TickOnly s t
  trace : t.trace = s.trace ++ (l.filter (completed s)).map (entryCallback s)
  async : t.async = before ++ l.map fun x => if completed s x then servedEntry s x else x
  regtrace : t.regtrace = s.regtrace ++ (l.map (visitTrace s)).flatten
  chan : ∀ x ∈ l, t.chan (entryChan x) = if completed s x then rearmedChan s x else s.chan (entryChan x)
  endpoint : ∀ x ∈ l, t.endpoint (entryChan x) = if completed s x then rearmedEndpoint s x else s.endpoint (entryChan x)
  kept : ∀ c ∈ cs, (∀ x ∈ l, entryChan x ≠ c) → t.chan c = s.chan c
  otherEndpoint : ∀ b, (∀ x ∈ l, entryChan x ≠ b) → t.endpoint b = s.endpoint b
  other : ∀ b, (∀ x ∈ l, entryChan x ≠ b) → t.chan b = s.chan b ∨ (∃ x ∈ l, failed s x = true) ∧ t.chan b = Channel.idle
  trbStore : ∀ p, tabFind t.trbStore p =
    (((l.filter (completed s)).reverse.find? fun x => nextSlot s.cfg x = p).map (nextTrb s.cfg)).or (tabFind s.trbStore p)
  sel : t.dma.sel = (l.getLast?.map entryChan).getD s.dma.sel
  burst : t.dma.burstMode = if l.filter (completed s) = [] then s.dma.burstMode else .single

theorem served_nil (cs : List Chan) {before : List AsyncEntry} {s : State} (h : s.async = before) : Served cs before [] s s :=
  ⟨⟨_, _, _, _, _, _, _, rfl⟩, (List.append_nil _).symm, by rw [h]; exact (List.append_nil _).symm, (List.append_nil _).symm, nofun, nofun,
    fun _ _ _ => rfl, fun _ _ => rfl, fun _ _ => .inl rfl, fun p => by simp, rfl, rfl⟩

theorem filter_cons_append {α : Type} (p : α → Bool) (x : α) (l : List α) :
    (x :: l).filter p = (if p x then [x] else []) ++ l.filter p := by
  cases h : p x <;> simp [h]

/-- The visits of the entries to come see what they would have seen before the visit of the first. -/
theorem served_cons {cs : List Chan} {before l : List AsyncEntry} {x : AsyncEntry} {s u t : State}
    (hx : ∀ y ∈ l, entryChan y ≠ entryChan x) (hcs : entryChan x ∈ cs) (hl : ∀ y ∈ l, entryChan y ∈ cs)
    (hv : Visited before.length x s u) (hs : ∀ c ∈ cs, c ≠ entryChan x → u.chan c = s.chan c)
    (h : Served cs (before ++ [if completed s x then servedEntry s x else x]) l u t) : Served cs before (x :: l) s t := by
  have same : ∀ y ∈ l, SameFor y s u := fun y hy =>
    ⟨hv.only, hs _ (hl y hy) (hx y hy), (hv.endpoint _).trans (if_neg fun h => hx y hy h.2)⟩
  have hc : ∀ y ∈ l, completed u y = completed s y := fun y hy => congrArg Channel.done (same y hy).chan
  have hf : ∀ y ∈ l, failed u y = failed s y := fun y hy => by rw [failed, (same y hy).chan]; rfl
  have hfc : l.filter (completed u) = l.filter (completed s) := List.filter_congr hc
  have hcfg := hv.only.cfg
  have hsplit : ∀ b, (∀ y ∈ x :: l, entryChan y ≠ b) → (∀ y ∈ l, entryChan y ≠ b) ∧ b ≠ entryChan x := fun b hb =>
    ⟨fun y hy => hb y (List.mem_cons_of_mem _ hy), fun e => hb x List.mem_cons_self e.symm⟩
  constructor
  case only => exact hv.only.trans h.only
  case trace =>
    rw [h.trace, hv.trace, hfc, filter_cons_append, List.map_append, List.append_assoc]
    congr 2
    · unfold completed
      split <;> rfl
    · exact List.map_congr_left fun y hy => (same y (List.mem_filter.1 hy).1).entryCallback
  case async =>
    rw [h.async, List.append_assoc]
    congr 1
    rw [List.map_cons, List.singleton_append]
    congr 1
    exact List.map_congr_left fun y hy => by rw [hc y hy, (same y hy).servedEntry]
  case regtrace =>
    rw [h.regtrace, hv.regtrace, List.map_cons, List.flatten_cons, List.append_assoc]
    congr 3
    exact List.map_congr_left fun y hy => (same y hy).visitTrace
  case chan =>
    intro y hy
    rcases List.mem_cons.1 hy with rfl | hy
    · rw [h.kept _ hcs hx, hv.chan]; rfl
    · rw [h.chan y hy, hc y hy, (same y hy).rearmedChan, (same y hy).chan]
  case endpoint =>
    intro y hy
    rcases List.mem_cons.1 hy with rfl | hy
    · rw [h.otherEndpoint _ hx, hv.endpoint]
      exact if_congr (and_iff_left rfl) rfl rfl
    · rw [h.endpoint y hy, hc y hy, (same y hy).rearmedEndpoint, (same y hy).endpoint]
  case kept =>
    intro c hc hn
    obtain ⟨hn1, hn2⟩ := hsplit c hn
    rw [h.kept c hc hn1, hs c hc hn2]
  case otherEndpoint =>
    intro b hb
    obtain ⟨hn1, hn2⟩ := hsplit b hb
    rw [h.otherEndpoint b hn1, hv.endpoint, if_neg fun e => hn2 e.2]
  case other =>
    intro b hb
    obtain ⟨hn1, hn2⟩ := hsplit b hb
    rcases h.other b hn1 with e | ⟨⟨y, hy, hfy⟩, e⟩
    · rw [e]
      exact (hv.other b hn2).imp id fun ⟨h1, h2⟩ => ⟨⟨x, List.mem_cons_self, h1⟩, h2⟩
    · exact .inr ⟨⟨y, List.mem_cons_of_mem _ hy, by rw [← hf y hy]; exact hfy⟩, e⟩
  case trbStore =>
    intro p
    rw [h.trbStore, hfc, hcfg, hv.trbStore, filter_cons_append, List.reverse_append, List.find?_append]
    cases (l.filter (completed s)).reverse.find? fun x => nextSlot s.cfg x = p with
    | some y => rfl
    | none =>
      cases hd : completed s x with
      | false => simp [show (s.chan (entryChan x)).done = false from hd]
      | true =>
        by_cases hp : p = nextSlot s.cfg x
        · simp [show (s.chan (entryChan x)).done = true from hd, hp]
        · simp [show (s.chan (entryChan x)).done = true from hd, hp, Ne.symm hp]
  case sel =>
    rw [h.sel, hv.sel, List.getLast?_cons]
    cases l.getLast? <;> rfl
  case burst =>
    rw [h.burst, hfc, filter_cons_append]
    cases hd : completed s x with
    | false =>
      have hb : u.dma.burstMode = s.dma.burstMode :=
        hv.burst.trans (if_neg (by rw [show (s.chan (entryChan x)).done = false from hd]; nofun))
      rw [hb]
      rfl
    | true =>
      have hb : u.dma.burstMode = .single := hv.burst.trans (if_pos (show (s.chan (entryChan x)).done = true from hd))
      rw [hb, ite_self, if_neg (by simp)]

/-- After the visit of an entry the resets to come still spare the queue. -/
theorem resetsSpare_visited {cs : List Chan} {l : List AsyncEntry} {x : AsyncEntry} {k : Nat} {s u : State}
    (hv : Visited k x s u) (hx : ∀ y ∈ l, entryChan y ≠ entryChan x) (hl : ∀ y ∈ l, entryChan y ∈ cs)
    (h : ResetsSpare cs (x :: l) s) : (∀ c ∈ cs, c ≠ entryChan x → u.chan c = s.chan c) ∧ ResetsSpare cs l u := by
  have key : (∀ c ∈ cs, c ≠ entryChan x → u.chan c = s.chan c) ∧
      (l.filter (failed s)).length ≤ u.oracle.resets.length ∧
        ∀ d ∈ u.oracle.resets.take (l.filter (failed s)).length, ∀ c ∈ cs, c ∉ d.dropped := by
    obtain ⟨h1, h2⟩ := h
    cases he : failed s x with
    | false =>
      rw [List.filter_cons_of_neg (by rw [he]; nofun)] at h1 h2
      obtain ⟨hr, hc⟩ := hv.unread he
      exact ⟨fun c _ hne => hc c hne, hr ▸ h1, hr ▸ h2⟩
    | true =>
      rw [List.filter_cons_of_pos he, List.length_cons] at h1 h2
      obtain ⟨d, ds, hd⟩ := List.exists_cons_of_length_pos (l := s.oracle.resets) (by omega)
      obtain ⟨hr, hc⟩ := hv.spared d ds he hd
      rw [hd] at h1 h2
      rw [List.take_succ_cons] at h2
      exact ⟨fun c hcs hne => hc c (h2 d List.mem_cons_self c hcs) hne, by rw [hr]; simpa using h1,
        fun e he' => h2 e (List.mem_cons_of_mem _ (hr ▸ he'))⟩
  have hf : l.filter (failed u) = l.filter (failed s) := List.filter_congr fun y hy => by
    rw [failed, key.1 _ (hl y hy) (hx y hy)]; rfl
  exact ⟨key.1, by rw [ResetsSpare, hf]; exact key.2⟩

theorem served_visitAll {cs : List Chan} (l : List AsyncEntry) : ∀ {before : List AsyncEntry} {s : State}, s.async = before ++ l →
    (∀ x ∈ l, x.interval ≠ 0) → (l.map (·.ep)).Nodup → (∀ x ∈ l, entryChan x ∈ cs) → ResetsSpare cs l s →
    Served cs before l s (visitAll before.length l s) := by
  induction l with
  | nil => exact fun h _ _ _ _ => served_nil cs (h.trans (List.append_nil _))
  | cons x l ih =>
    intro before s ha hi hn hcs hr
    rw [List.map_cons, List.nodup_cons] at hn
    have hne : ∀ y ∈ l, entryChan y ≠ entryChan x := fun y hy h => by
      have he : y.ep = x.ep := congrArg Chan.ep h
      exact hn.1 (he ▸ List.mem_map_of_mem (f := (·.ep)) hy)
    have hl : ∀ y ∈ l, entryChan y ∈ cs := fun y hy => hcs y (List.mem_cons_of_mem _ hy)
    have hv := visited before.length (x := x) s (hi x List.mem_cons_self)
    obtain ⟨hs, hr'⟩ := resetsSpare_visited hv hne hl hr
    refine served_cons hne (hcs x List.mem_cons_self) hl hv hs ?_
    have ha' : (visit before.length x s).async = (before ++ [if completed s x then servedEntry s x else x]) ++ l := by
      rw [hv.async, ha, List.append_assoc, List.singleton_append]
      unfold completed
      split
      · simp
      · rfl
    have k := ih ha' (fun y hy => hi y (List.mem_cons_of_mem _ hy)) hn.2 hl hr'
    rw [List.length_append, List.length_singleton] at k
    exact k

end Sys2Proof.Machine
end

section
/-! O58. A quiet tick delivers each complete entry and arms its next slice; over one entry, also where the arm faults or the
delivery is stuck (spec 44_async_queue R215, R218 to R220). -/

namespace Sys2Proof.Machine

theorem TickOnly.seq {s t : State} (h : TickOnly s t) : t.seq = s.seq := by obtain ⟨_, _, _, _, _, _, _, rfl⟩ := h; rfl

theorem calm_tickBegin {n : Nat} {s : State} (h : Quiet (n + 1) s) : Calm n (tickCore s) (tickBegin s) := by
  obtain ⟨rest, h⟩ := h
  exact ⟨rest, still_tickBegin h⟩

/-- What a tick returns from the state `v` its visits leave. -/
def tickReturn (v : State) (b : List (List AgentEvent)) : State :=
  { v with seq := Seq.idle, oracle := { v.oracle with batches := b }, trace := v.trace ++ [.result 0x32 .success .none] }

/-- A tick whose visits came to `v`, the points quiet, returns with its Result. -/
theorem exec_asyncTick_calm {s v w : State} (hw : tickLoop 0 s.async (tickBegin s) = .done () w) (hc : Calm 1 v w)
    (hv : TickOnly (tickCore s) v) : ∃ b, exec .asyncTick s = .next (tickReturn v b) := by
  obtain ⟨b, hq⟩ := hc.point (.line .tickEnd)
  obtain ⟨r, hr⟩ := hq
  refine ⟨List.replicate 0 [] ++ b, ?_⟩
  have hd : (v.vary r (List.replicate 0 [] ++ b)).seq.deferred = [] := congrArg Seq.deferred hv.seq
  rw [exec_asyncTick_of_loop hw, State.atLine, hr, tickEnd_of_none hd, vary_finish]
  rfl

/-- What a tick leaves, from what its visits leave. -/
theorem TickOnly.returned {s v : State} (hv : TickOnly (tickCore s) v) (b : List (List AgentEvent)) :
    tickReturn v b = { s with
      dma := (tickReturn v b).dma, ep := (tickReturn v b).ep, async := (tickReturn v b).async
      trbStore := (tickReturn v b).trbStore, regtrace := (tickReturn v b).regtrace
      oracle := (tickReturn v b).oracle, seq := Seq.idle, trace := (tickReturn v b).trace } := by
  obtain ⟨_, _, _, _, _, _, _, rfl⟩ := hv
  rfl

/-- A quiet tick over a queue of ready entries whose resets spare the queue serves every entry. -/
theorem exec_asyncTick_serves {s : State} (hq : QueueLegal s) (hQ : Quiet (11 * s.async.length + 2) s)
    (hr : ∀ x ∈ s.async, EntryReady s x) (hs : ResetsSpareQueue s) :
    ∃ v b, exec .asyncTick s = .next (tickReturn v b) ∧ Served (s.async.map entryChan) [] s.async (tickCore s) v := by
  obtain ⟨hl, hn⟩ := hq
  have hQ' : Quiet (1 + 11 * s.async.length + 1) s := by
    rw [show 1 + 11 * s.async.length + 1 = 11 * s.async.length + 2 by omega]
    exact hQ
  obtain ⟨w, hw, hc⟩ := tickLoop_visitAll s.async 0 (calm_tickBegin hQ') hl hr hn
  have k := served_visitAll (cs := s.async.map entryChan) s.async (before := []) (s := tickCore s) rfl
    (fun x hx => by obtain ⟨-, ⟨hi, -⟩, -⟩ := hl x hx; omega) hn (fun x hx => List.mem_map_of_mem hx)
    ⟨hs.1, fun d hd c hc => by
      obtain ⟨x, hx, rfl⟩ := List.mem_map.1 hc
      exact hs.2 d hd x hx⟩
  obtain ⟨b, hb⟩ := exec_asyncTick_calm hw hc k.only
  exact ⟨_, b, hb, k⟩

/-! ### One complete entry -/

/-- A quiet tick over one entry that can be served. -/
theorem exec_asyncTick_one {s : State} {x : AsyncEntry} (ha : s.async = [x]) (hl : EntryLegal s.cfg x) (hQ : Quiet 13 s)
    (hr : (s.chan (entryChan x)).done = true → Serves s x) :
    ∃ v b, exec .asyncTick s = .next (tickReturn v b) ∧ Visited 0 x (tickCore s) v := by
  have hv := visited 0 (x := x) (tickCore s) (by obtain ⟨-, ⟨hi, -⟩, -⟩ := hl; omega)
  obtain ⟨w, hw, hc⟩ := tickEntry_visit (n := 1) (k := 0) ((calm_tickBegin (n := 12) hQ).round 0) hl fun hd => by
    obtain ⟨h1, h2, h3, h4, h5⟩ := hr hd
    exact ⟨h1, h2, h3, h4, h5⟩
  have hloop : tickLoop 0 s.async (tickBegin s) = .done () w := by rw [ha, tickLoop, hw]; rfl
  obtain ⟨b, hb⟩ := exec_asyncTick_calm hloop hc hv.only
  exact ⟨_, b, hb, hv⟩

/-- The state at the program of the one entry's next slice. -/
def oneArmed (s : State) (x : AsyncEntry) : State :=
  armRun 0 x (dmaCheck (entryChan x) (tickCore s)) (dmaCheck (entryChan x) (((tickBegin s).setRound 0).atLine .check))

/-- A quiet tick over one complete entry comes to the arm of its next slice. -/
theorem exec_asyncTick_arms {s : State} {x : AsyncEntry} (ha : s.async = [x]) (hl : EntryLegal s.cfg x) (hQ : Quiet 13 s)
    (hd : (s.chan (entryChan x)).done = true) (h1 : nextSlot s.cfg x < addrSpace s.cfg.addrWidth)
    (h2 : (nextTrb s.cfg x).addr < addrSpace s.cfg.addrWidth) :
    Calm 2 (visitArm 0 x (dmaCheck (entryChan x) (tickCore s))) (oneArmed s x) ∧
      exec .asyncTick s = conclude (andThen (andThen (dmaProgram (entryChan x) (nextSlot s.cfg x) (oneArmed s x)) fun _ v =>
        deliver x (s.chan (entryChan x)).actual (translate s (entryChan x)).2 v) fun _ t =>
          .done () ((tickEnd (t.atLine .tickEnd)).finish .asyncTick .success .none)) := by
  have hs := (((calm_tickBegin (n := 12) hQ).round 0).point (.line .check)).map (f := dmaCheck (entryChan x)) fun _ _ => rfl
  obtain ⟨h0, -, -, -, hm, -, -⟩ := hl
  obtain ⟨hw, e⟩ := tickComplete_arms (n := 2) (k := 0) (x := x) hs h0 hm h1 h2
  refine ⟨hw, ?_⟩
  have hasy : (tickBegin s).async = [x] := (State.started_async s _).trans ha
  show conclude (andThen (tickLoop 0 (tickBegin s).async (tickBegin s)) _) = _
  have hd' : ((dmaCheck (entryChan x) (((tickBegin s).setRound 0).atLine .check)).chan (entryChan x)).done = true := by
    rw [hs.chan]
    exact hd
  have he : tickEntry 0 x ((tickBegin s).setRound 0) = andThen (dmaProgram (entryChan x) (nextSlot s.cfg x) (oneArmed s x))
      fun _ v => deliver x (s.chan (entryChan x)).actual (translate s (entryChan x)).2 v := (if_pos hd').trans e
  rw [hasy, tickLoop, he]
  generalize andThen (dmaProgram (entryChan x) _ _) _ = y
  cases y <;> rfl

/-- At the program of the one entry's next slice its channel is released, and its descriptor written. -/
theorem oneArmed_programs {n : Nat} {s : State} {x : AsyncEntry}
    (h : Calm n (visitArm 0 x (dmaCheck (entryChan x) (tickCore s))) (oneArmed s x)) :
    ((oneArmed s x).chan (entryChan x)).programmed = false ∧
      tabFind (oneArmed s x).trbStore (nextSlot s.cfg x) = some (nextTrb s.cfg x) ∧ (oneArmed s x).cfg = s.cfg :=
  visitArm_programs (by rw [dmaCheck_eq]; rfl) h

/-- A quiet tick over one complete entry whose next slice or slot is misaligned faults at the arm (R151). -/
theorem exec_asyncTick_misaligned {s : State} {x : AsyncEntry} (ha : s.async = [x]) (hl : EntryLegal s.cfg x) (hQ : Quiet 13 s)
    (hd : (s.chan (entryChan x)).done = true) (h1 : nextSlot s.cfg x < addrSpace s.cfg.addrWidth)
    (h2 : (nextTrb s.cfg x).addr < addrSpace s.cfg.addrWidth)
    (hm : nextSlot s.cfg x % s.cfg.dmaAlign ≠ 0 ∨ (nextTrb s.cfg x).addr % s.cfg.dmaAlign ≠ 0) :
    exec .asyncTick s = .fault (.misalignedDma ((oneArmed s x).markFault .misalignedDma)) := by
  obtain ⟨hc, e⟩ := exec_asyncTick_arms ha hl hQ hd h1 h2
  obtain ⟨hp, ht, hcs⟩ := oneArmed_programs hc
  rw [e]
  rcases dmaProgram_cases (entryChan x) (nextSlot s.cfg x) (oneArmed s x) with ⟨hp', -⟩ | ⟨-, ht', -⟩ | ⟨y, -, hy, ⟨-, ef⟩ | ⟨h3, h4, -⟩⟩
  · rw [hp] at hp'; cases hp'
  · cases ht.symm.trans ht'
  · rw [ef]; rfl
  · cases ht.symm.trans hy
    rw [hcs] at h3 h4
    exact (hm.elim (· h3) (· h4)).elim

/-! ### Where the tick stands -/

theorem Calm.setPos {n : Nat} {s u : State} (h : Calm n s u) (p : Pos) : Calm n s (u.setPos p) := by
  obtain ⟨rest, r, rfl⟩ := h
  exact ⟨rest, _, rfl⟩

theorem Calm.seq {n : Nat} {s u : State} (h : Calm n s u) : u.seq = { s.seq with cmd := u.seq.cmd } := by
  obtain ⟨rest, r, rfl⟩ := h
  rfl

/-- The Sequencer visits the first entry of a tick. -/
def FirstVisit (s : State) : Prop := ∃ p, s.seq.cmd = some ⟨.asyncTick, 0, p⟩

theorem FirstVisit.of_seq {s t : State} (h : FirstVisit s) (e : t.seq = s.seq) : FirstVisit t := by
  obtain ⟨p, h⟩ := h
  exact ⟨p, by rw [e, h]⟩

theorem FirstVisit.setPos {s : State} (h : FirstVisit s) (q : Pos) : (s.setPos q).seq.cmd = some ⟨.asyncTick, 0, q⟩ := by
  obtain ⟨p, h⟩ := h
  show s.seq.cmd.map _ = _
  rw [h]
  rfl

theorem FirstVisit.setRound {s : State} (h : FirstVisit s) : FirstVisit (s.setRound 0) := by
  obtain ⟨p, h⟩ := h
  refine ⟨p, ?_⟩
  show s.seq.cmd.map _ = _
  rw [h]
  rfl

theorem FirstVisit.atPos {s : State} (h : FirstVisit s) (q : Pos) : FirstVisit (s.atPos q) :=
  ⟨q, (agentFrame_interleave (s.setPos q)).cmd.trans (h.setPos q)⟩

theorem firstVisit_armRun {x : AsyncEntry} {s u : State} (h : FirstVisit u) : FirstVisit (armRun 0 x s u) := by
  have h3 : FirstVisit ((((u.atLine .translate).atLine .capture).atLine .readToggle).logOp (.R .epToggle)) :=
    (((h.atPos _).atPos _).atPos _).of_seq rfl
  have h4 : FirstVisit (freeRun 0 x u) := by
    unfold freeRun
    dsimp only
    generalize (((u.atLine .translate).atLine .capture).atLine .readToggle).logOp (.R .epToggle) = v at h3 ⊢
    have hc : FirstVisit (dmaClear (entryChan x) ((v.setEntry 0 { x with toggle := v.toggle (entryChan x) }).atLine .clear)) :=
      ((h3.of_seq (t := State.setEntry _ _ _) rfl).atPos (.line .clear)).of_seq (by rw [dmaClear_eq])
    refine FirstVisit.of_seq (FirstVisit.atPos ?_ (.line .release)) (by rw [dmaRelease_eq])
    split
    · exact hc
    · exact (hc.atPos (.line .reset)).of_seq (by rw [dmaReset_eq])
  exact ((((((h4.of_seq (t := (freeRun 0 x u).setEntry 0 (servedEntry s x)) rfl).atPos (.line .configure)).of_seq
    (configureEp_seq ..)).atPos (.line .writeTrb)).of_seq (t := State.putTrb _ _ _) rfl).atPos (.line .program))

/-- Where a quiet tick over one complete entry is stuck before its callback. -/
def oneStuck (s : State) (x : AsyncEntry) : State :=
  ((programmed (entryChan x) (nextSlot s.cfg x) (nextTrb s.cfg x) (oneArmed s x)).atLine .callback).setPos (.line .callback)

/-- A quiet tick over one complete entry whose captured length leaves its region is stuck before the callback (R13, R251). -/
theorem exec_asyncTick_stuck {s : State} {x : AsyncEntry} (ha : s.async = [x]) (hl : EntryLegal s.cfg x) (hQ : Quiet 13 s)
    (hd : (s.chan (entryChan x)).done = true) (h1 : nextSlot s.cfg x < addrSpace s.cfg.addrWidth)
    (h2 : (nextTrb s.cfg x).addr < addrSpace s.cfg.addrWidth) (h3 : nextSlot s.cfg x % s.cfg.dmaAlign = 0)
    (h4 : (nextTrb s.cfg x).addr % s.cfg.dmaAlign = 0)
    (h5 : s.admits [.async] (x.buf + x.index * sliceBytes s.cfg x.len) (s.chan (entryChan x)).actual = false) :
    exec .asyncTick s = .next (oneStuck s x) ∧
      (oneStuck s x).seq = { busy := true, cmd := some ⟨.asyncTick, 0, .line .callback⟩, inTick := true, deferred := [] } ∧
      Calm 1 (programmed (entryChan x) (nextSlot s.cfg x) (nextTrb s.cfg x)
        (visitArm 0 x (dmaCheck (entryChan x) (tickCore s)))) (oneStuck s x) := by
  obtain ⟨hc, e⟩ := exec_asyncTick_arms ha hl hQ hd h1 h2
  obtain ⟨hp, ht, hcs⟩ := oneArmed_programs hc
  have ho := (tickOnly_visitArm 0 x (dmaCheck (entryChan x) (tickCore s))).trans
    (tickOnly_programmed (entryChan x) (nextSlot s.cfg x) (nextTrb s.cfg x) _)
  have hv := hc.programmed (entryChan x) (nextSlot s.cfg x) (nextTrb s.cfg x)
  have hadm : (programmed (entryChan x) (nextSlot s.cfg x) (nextTrb s.cfg x)
      (visitArm 0 x (dmaCheck (entryChan x) (tickCore s)))).admits [.async] (x.buf + x.index * sliceBytes
        (programmed (entryChan x) (nextSlot s.cfg x) (nextTrb s.cfg x)
          (visitArm 0 x (dmaCheck (entryChan x) (tickCore s)))).cfg x.len) (s.chan (entryChan x)).actual = false := by
    rw [ho.cfg, State.admits_congr ho.cfg ho.alloc]
    exact h5
  have k : Calm 1 _ (oneStuck s x) := (hv.point (.line .callback)).setPos (.line .callback)
  refine ⟨?_, ?_, k⟩
  · rw [e, dmaProgram_done hp ht (by rw [hcs]; exact h3) (by rw [hcs]; exact h4), andThen_done, deliver_stuck hv hadm]
    rfl
  · have h0 : FirstVisit (tickBegin s) := ⟨.line .start, (agentFrame_interleave (s.begin .asyncTick)).cmd⟩
    have hf : FirstVisit (oneArmed s x) :=
      firstVisit_armRun ((h0.setRound.atPos (.line .check)).of_seq (t := dmaCheck (entryChan x) _) (by rw [dmaCheck_eq]))
    have hcmd : (oneStuck s x).seq.cmd = some ⟨.asyncTick, 0, .line .callback⟩ :=
      ((hf.of_seq (by rw [programmed_eq])).atPos (.line .callback)).setPos (.line .callback)
    rw [k.seq, hcmd, ho.seq]
    rfl

end Sys2Proof.Machine

open Sys2Proof Sys2Proof.Machine

/-- Settles O58. -/
theorem tickDeliversAndRearms : Obligations.TickDeliversAndRearms := by
  refine ⟨fun s hwf hq hQ hr hs => ?_, fun s x ha hwf hq hQ hd => ⟨fun hr => ?_, fun h1 h2 hmis => ?_, fun h1 h2 h3 h4 hadm => ?_⟩⟩
  · obtain ⟨v, b, hexec, k⟩ := exec_asyncTick_serves hq hQ hr hs
    refine ⟨_, hexec, ?_, ?_, ?_, fun x hx => ⟨?_, ?_⟩, fun c hc => ⟨?_, ?_⟩, fun p => ?_, ?_, ?_, k.only.returned b⟩
    · exact congrArg (· ++ _) k.trace
    · exact k.async
    · exact k.regtrace
    · exact k.chan x hx
    · exact k.endpoint x hx
    · exact k.otherEndpoint c hc
    · refine (k.other c hc).imp id fun ⟨⟨x, hx, hf⟩, e⟩ => ⟨⟨x, ?_, ?_⟩, e⟩
      · exact List.mem_filter.2 ⟨hx, (Bool.and_eq_true_iff.1 hf).1⟩
      · exact (Bool.and_eq_true_iff.1 hf).2
    · refine (k.trbStore p).trans ?_
      show ((((s.async.filter fun x => (s.chan (entryChan x)).done).reverse.find? fun x => nextSlot s.cfg x = p).map _).or _) = _
      split <;> rename_i h <;> rw [h] <;> rfl
    · exact k.sel
    · exact k.burst
  · have hl : EntryLegal s.cfg x := hq.1 x (by rw [ha]; exact List.mem_singleton_self x)
    obtain ⟨v, b, hexec, k⟩ := exec_asyncTick_one ha hl hQ fun hd => serves_of_ready hr hl hd
    have hd' : ((tickCore s).chan (entryChan x)).done = true := hd
    refine ⟨_, hexec, ?_, ?_, ?_, ?_, ?_, fun c hc => ⟨?_, ?_⟩, fun p => ?_, ?_, ?_, k.only.returned b⟩
    · exact k.async.trans (by rw [if_pos hd']; exact congrArg (·.set 0 (servedEntry s x)) ha)
    · exact (congrArg (· ++ [.result 0x32 .success .none]) (k.trace.trans (by rw [if_pos hd']; rfl))).trans
        (List.append_assoc s.trace [entryCallback s x] _)
    · exact k.regtrace
    · exact k.chan.trans (if_pos hd')
    · exact (k.endpoint _).trans (if_pos ⟨hd', rfl⟩)
    · exact (k.endpoint _).trans (if_neg fun h => hc h.2)
    · exact (k.other c hc).imp id fun h => ⟨(Bool.and_eq_true_iff.1 h.1).2, h.2⟩
    · exact (k.trbStore p).trans (if_congr (and_iff_right hd') rfl rfl)
    · exact k.sel
    · exact k.burst.trans (if_pos hd')
  · have hl : EntryLegal s.cfg x := hq.1 x (by rw [ha]; exact List.mem_singleton_self x)
    obtain ⟨k1, k2⟩ := (visiting 0 x (dmaCheck (entryChan x) (tickCore s))).of_check
    have k1' : _ = [servedEntry s x] := k1.trans (congrArg (·.set 0 (servedEntry s x)) ha)
    obtain ⟨hc, -⟩ := exec_asyncTick_arms ha hl hQ hd h1 h2
    obtain ⟨hp, ht, -⟩ := oneArmed_programs hc
    generalize visitArm 0 x (dmaCheck (entryChan x) (tickCore s)) = z at k1' k2 hc
    refine ⟨_, exec_asyncTick_misaligned ha hl hQ hd h1 h2 hmis, rfl, ?_, ?_, hp, ht⟩
    · exact (hc.read (f := (·.async)) fun _ _ => rfl).trans k1'
    · exact (hc.read (f := (·.trace)) fun _ _ => rfl).trans k2
  · have hl : EntryLegal s.cfg x := hq.1 x (by rw [ha]; exact List.mem_singleton_self x)
    obtain ⟨k1, k2⟩ := (visiting 0 x (dmaCheck (entryChan x) (tickCore s))).of_check
    have k1' : _ = [servedEntry s x] := k1.trans (congrArg (·.set 0 (servedEntry s x)) ha)
    obtain ⟨hexec, hseq, hc⟩ := exec_asyncTick_stuck ha hl hQ hd h1 h2 h3 h4 hadm
    generalize visitArm 0 x (dmaCheck (entryChan x) (tickCore s)) = z at k1' k2 hc
    have ha' : (programmed (entryChan x) (nextSlot s.cfg x) (nextTrb s.cfg x) z).async = [servedEntry s x] := by
      rw [programmed_eq]; exact k1'
    have ht' : (programmed (entryChan x) (nextSlot s.cfg x) (nextTrb s.cfg x) z).trace = s.trace := by
      rw [programmed_eq]; exact k2
    have hch : (oneStuck s x).chan (entryChan x) = programmedChan (z.chan (entryChan x)) (nextSlot s.cfg x) (nextTrb s.cfg x) :=
      (hc.chan _).trans ((chan_programmed _ _ _ _ _).trans (if_pos rfl))
    generalize programmed (entryChan x) (nextSlot s.cfg x) (nextTrb s.cfg x) z = y at ha' ht' hc
    refine ⟨_, hexec, hseq, ⟨.asyncTick, 0, .callback, ?_, rfl, fun h => (h rfl).elim⟩, ?_, ?_, ?_, ?_⟩
    · rw [hseq]; rfl
    · exact (hc.read (f := (·.async)) fun _ _ => rfl).trans ha'
    · exact (hc.read (f := (·.trace)) fun _ _ => rfl).trans ht'
    · exact congrArg Channel.trb hch
    · exact congrArg Channel.pending hch
end

section
/-! O60. A cancel issued during a tick runs at its end, the points quiet but for the issue (spec 44_async_queue R215, R224). -/

namespace Sys2Proof.Machine

/-- A cancel with its entry's channel released, where it may be, the other agents taking no step. -/
def cancelQuiet (x : AsyncEntry) (s : State) : State :=
  if s.cfg.cancelReleasesChannel then dmaRelease (entryChan x) (dmaClear (entryChan x) s) else s

theorem calm_cancelReleased {n : Nat} {x : AsyncEntry} {s u : State} (h : Calm (n + 3) s u) :
    Calm n (cancelQuiet x s) (cancelReleased x u) := by
  unfold cancelReleased cancelChannel cancelQuiet
  rw [h.cfg]
  refine Calm.point ?_ (.line .free)
  split
  · exact ((((h.point (.line .clear)).clear (entryChan x)).point (.line .release)).release (entryChan x))
  · exact h.mono (by omega)

theorem cancelQuiet_only (x : AsyncEntry) (s : State) : TickOnly s (cancelQuiet x s) := by
  unfold cancelQuiet
  split
  · exact (tickOnly_clear _ s).trans (tickOnly_release _ _)
  · exact ⟨_, _, _, _, _, _, _, rfl⟩

theorem cancelQuiet_trace (x : AsyncEntry) (s : State) : (cancelQuiet x s).trace = s.trace := by
  unfold cancelQuiet
  split
  · rw [dmaRelease_eq, dmaClear_eq]
  · rfl

theorem cancelQuiet_async (x : AsyncEntry) (s : State) : (cancelQuiet x s).async = s.async := by
  unfold cancelQuiet
  split
  · rw [dmaRelease_eq, dmaClear_eq]
  · rfl

theorem TickOnly.refused {s t : State} (h : TickOnly s t) : t.refused = s.refused := by
  obtain ⟨_, _, _, _, _, _, _, rfl⟩ := h; rfl

/-- What a quiet cancel of a live entry returns and leaves (R212). -/
theorem cancelEntry_calm {ep : EpNum} {addr : DevAddr} {x : AsyncEntry} {s u : State} (h : Calm 3 s u)
    (hf : findEntry s.async ep addr = some x) :
    let r := cancelEntry ep addr u
    r.1 = (.success, .toggle x.toggle) ∧ r.2.async = removeEntry s.async ep addr ∧ r.2.trace = s.trace ∧ r.2.refused = s.refused ∧
      (∀ y, y ∈ r.2.alloc ↔ y ∈ s.alloc ∧ y.1 ≠ x.buf ∧ y.1 ∉ x.pool) ∧
      (s.cfg.cancelReleasesChannel = true → (r.2.chan (entryChan x)).programmed = false) := by
  have ha : u.async = s.async := h.read (f := (·.async)) fun _ _ => rfl
  have hq := calm_cancelReleased (n := 0) (x := x) h
  have ho := cancelQuiet_only x s
  have hk := freed_cancelFree x u
  have he := cancelEntry_of_found (s := u) (by rw [ha]; exact hf)
  have hx := cancelFree_eq x (cancelChannel x u)
  have hu : (cancelFree x (cancelChannel x u)).async = s.async :=
    (congrArg State.async hx).trans ((hq.read (f := (·.async)) fun _ _ => rfl).trans (cancelQuiet_async x s))
  have hch : ∀ c, (cancelFree x (cancelChannel x u)).chan c = (cancelReleased x u).chan c := State.chan_of_dma (by rw [hk.dma])
  dsimp only
  rw [he]
  refine ⟨rfl, congrArg (removeEntry · ep addr) hu, ?_, ?_, fun y => ?_, fun hc => ?_⟩
  · exact (congrArg State.trace hx).trans ((hq.read (f := (·.trace)) fun _ _ => rfl).trans (cancelQuiet_trace x s))
  · exact (congrArg State.refused hx).trans ((hq.read (f := (·.refused)) fun _ _ => rfl).trans ho.refused)
  · refine (hk.alloc y).trans ?_
    rw [hq.read (f := (·.alloc)) fun _ _ => rfl, ho.alloc]
  · refine (congrArg Channel.programmed (hch _)).trans ?_
    exact (cancelReleased_released (x := x) (s := u) (by rw [h.cfg]; exact hc)).1

/-- The Result of a deferred cancel (R212, R224). -/
def cancelResult (q : List AsyncEntry) (ep : EpNum) (addr : DevAddr) : Event :=
  match findEntry q ep addr with
  | some x => .result 0x31 .success (.toggle x.toggle)
  | none => .result 0x31 .invalidParameter .none

/-- What a tick leaves that ends with the deferred cancel of `ep` and `addr`: `t`, from `s` at its end (R215, R224). -/
structure TickCancelled (ep : EpNum) (addr : DevAddr) (s t : State) : Prop where
  seq : t.seq = Seq.idle
  refused : t.refused = s.refused
  async : t.async = removeEntry s.async ep addr
  trace : t.trace = s.trace ++ [cancelResult s.async ep addr, .result 0x32 .success .none]
  alloc : ∀ x, findEntry s.async ep addr = some x → ∀ r, r ∈ t.alloc ↔ r ∈ s.alloc ∧ r.1 ≠ x.buf ∧ r.1 ∉ x.pool
  released : ∀ x, findEntry s.async ep addr = some x → s.cfg.cancelReleasesChannel = true →
    (t.chan (entryChan x)).programmed = false

/-- The end of a quiet tick during which one cancel was deferred. -/
theorem tickEnd_cancels {ep : EpNum} {addr : DevAddr} {s u : State} (h : Calm 3 s u) (hd : s.seq.deferred = [⟨ep, addr⟩]) :
    TickCancelled ep addr s ((tickEnd u).finish .asyncTick .success .none) := by
  have hu : u.seq.deferred = [⟨ep, addr⟩] := (congrArg Seq.deferred h.seq).trans hd
  have hz : Calm 3 (s.withSeq { s.seq with inTick := false }) ((u.withSeq { u.seq with inTick := false }).setRound 0) :=
    (h.map (f := fun t => t.withSeq { t.seq with inTick := false }) fun _ _ => rfl).round 0
  have he : tickEnd u = ((cancelEntry ep addr ((u.withSeq { u.seq with inTick := false }).setRound 0)).2.emit
      (.result 0x31 (cancelEntry ep addr ((u.withSeq { u.seq with inTick := false }).setRound 0)).1.1
        (cancelEntry ep addr ((u.withSeq { u.seq with inTick := false }).setRound 0)).1.2)) := by
    rw [tickEnd, hu]
    rfl
  rw [he]
  generalize (u.withSeq { u.seq with inTick := false }).setRound 0 = z at hz
  cases hf : findEntry s.async ep addr with
  | none =>
    have hfz : findEntry z.async ep addr = none := by
      rw [hz.read (f := (·.async)) fun _ _ => rfl]
      exact hf
    have hz' : cancelEntry ep addr z = ((.invalidParameter, .none), z) := by rw [cancelEntry, hfz]
    rw [hz']
    refine ⟨rfl, hz.read (f := (·.refused)) fun _ _ => rfl, ?_, ?_, fun y hy => ?_, fun y hy => ?_⟩
    · refine (hz.read (f := (·.async)) fun _ _ => rfl).trans ?_
      exact (List.eraseP_of_forall_not (List.find?_eq_none.1 hf)).symm
    · show (z.trace ++ [Event.result 0x31 .invalidParameter .none]) ++ [.result 0x32 .success .none] = _
      rw [hz.read (f := (·.trace)) fun _ _ => rfl, cancelResult, hf, List.append_assoc]
      rfl
    · cases hf.symm.trans hy
    · cases hf.symm.trans hy
  | some x =>
    obtain ⟨h1, h2, h3, h4, h5, h6⟩ := cancelEntry_calm hz (x := x) hf
    generalize cancelEntry ep addr z = r at h1 h2 h3 h4 h5 h6 ⊢
    refine ⟨rfl, h4, h2, ?_, fun y hy => ?_, fun y hy hc => ?_⟩
    · show (r.2.trace ++ [Event.result 0x31 r.1.1 r.1.2]) ++ [.result 0x32 .success .none] = _
      rw [h3, h1, cancelResult, hf, List.append_assoc]
      rfl
    · cases hf.symm.trans hy
      exact h5
    · cases hf.symm.trans hy
      exact h6 hc

end Sys2Proof.Machine

open Sys2Proof Sys2Proof.Machine

/-- Settles O60. -/
theorem tickRunsTheDeferredCancel : Obligations.TickRunsTheDeferredCancel := by
  refine ⟨fun s cmd ep addr rest hcmd hnd hb => ?_, fun s x cmd rest ha hwf hq hr hd hp hcmd hb => ?_⟩
  · have hb' : s.oracle.batches = [] :: (List.replicate s.async.length [] ++ ([.issue cmd] :: (List.replicate 3 [] ++ rest))) := by
      rw [hb, List.replicate_succ]
      rfl
    obtain ⟨v, hv, hs⟩ := tickLoop_skips s.async 0 (still_tickBegin hb') hnd
    have hexec := exec_asyncTick_of_loop hv
    have hi := hs.issue (.line .tickEnd)
    have hck := checkAll_eq s.async (tickCore s)
    generalize checkAll s.async (tickCore s) = z at hi hck
    have hseq : z.seq = (tickCore s).seq := by rw [hck]
    have href : z.refused = s.refused := by rw [hck]; rfl
    have hasy : z.async = s.async := by rw [hck]; rfl
    have htr : z.trace = s.trace := by rw [hck]; rfl
    have hal : z.alloc = s.alloc := by rw [hck]; rfl
    have hcfg : z.cfg = s.cfg := by rw [hck]; rfl
    rw [hostIssue_of_cancel (by rw [hseq]; rfl) (by rw [hseq]; rfl) hcmd] at hi
    have k := tickEnd_cancels (ep := ep) (addr := addr) ⟨rest, hi⟩ (by
      show z.seq.deferred ++ _ = _
      rw [hseq]
      rfl)
    obtain ⟨k1, k2, k3, k4, k5, k6⟩ := k
    rw [State.withSeq_async, hasy] at k3 k4 k5 k6
    rw [State.withSeq_trace, htr] at k4
    rw [State.withSeq_alloc, hal] at k5
    rw [State.withSeq_cfg, hcfg] at k6
    exact ⟨_, hexec, k1, k2.trans href, k3, k4, fun x hx => ⟨k5 x hx, k6 x hx⟩⟩
  · have hl : EntryLegal s.cfg x := hq.1 x (by rw [ha]; exact List.mem_singleton_self x)
    have hs := (((still_tickBegin hb).round 0).issue (.line .check))
    rw [hostIssue_of_cancel rfl rfl hcmd] at hs
    have hc : Calm (4 + 10) _ _ := Calm.map (f := dmaCheck (entryChan x)) ⟨rest, hs⟩ fun _ _ => rfl
    obtain ⟨w, hw, hcw⟩ := tickEntry_of_check (k := 0) hc hl fun hd => by
      obtain ⟨h1, h2, h3, h4, h5⟩ := serves_of_ready hr hl hd
      exact ⟨h1, h2, h3, h4, h5⟩
    have hv := visited 0 (x := x) ((tickCore s).withSeq { (tickCore s).seq with
      deferred := (tickCore s).seq.deferred ++ [⟨x.ep, x.devAddr⟩] }) (by obtain ⟨-, ⟨hi, -⟩, -⟩ := hl; omega)
    have hloop : tickLoop 0 s.async (tickBegin s) = .done () w := by rw [ha, tickLoop, hw]; rfl
    have hexec := exec_asyncTick_of_loop hloop
    have hseq := hv.only.seq
    have href := hv.only.refused
    have hasy := hv.async.trans (if_pos hd)
    have htr := hv.trace.trans (congrArg (_ ++ ·) (if_pos hd))
    generalize visit 0 x _ = z at hcw hseq href hasy htr
    have hz : z.async = [servedEntry s x] := hasy.trans (congrArg (·.set 0 (servedEntry s x)) ha)
    have hf := findEntry_append (before := []) (after := []) (x := servedEntry s x) (by simp)
    obtain ⟨k1, k2, k3, k4, -, -⟩ := tickEnd_cancels (ep := x.ep) (addr := x.devAddr) (hcw.point (.line .tickEnd))
      (congrArg Seq.deferred hseq)
    have hfind : findEntry z.async x.ep x.devAddr = some (servedEntry s x) := by rw [hz]; exact hf.1
    rw [cancelResult, hfind, htr] at k4
    refine ⟨_, hexec, k1, k2.trans href, k3.trans (by rw [hz]; exact hf.2), k4.trans ?_⟩
    exact List.append_assoc s.trace [entryCallback s x] _
end

section
/-! What a stage cycle moves and leaves where the device answers before the first sample and the other agents take no other step
(spec 43_transfer_protocol R184, 41_dma_channel_engine R158). -/

namespace Sys2Proof.Machine

/-! ### What a transfer can change -/

/-- `t` is `s` but for the channel engine, the endpoints, memory, the TRB store, the protocol stage and the register trace. -/
def XferOnly (s t : State) : Prop :=
  ∃ d e0 e m tr rt g, t = { s with dma := d, ep0 := e0, ep := e, mem := m, trbStore := tr, regtrace := rt, ep0Stage := g }

section xferOnly
variable {s t u : State}

theorem xferOnly_refl (s : State) : XferOnly s s := ⟨_, _, _, _, _, _, _, rfl⟩

theorem XferOnly.trans (h : XferOnly s t) (k : XferOnly t u) : XferOnly s u := by
  obtain ⟨_, _, _, _, _, _, _, rfl⟩ := h
  obtain ⟨_, _, _, _, _, _, _, rfl⟩ := k
  exact ⟨_, _, _, _, _, _, _, rfl⟩

theorem XferOnly.cfg (h : XferOnly s t) : t.cfg = s.cfg := by obtain ⟨_, _, _, _, _, _, _, rfl⟩ := h; rfl
theorem XferOnly.args (h : XferOnly s t) : t.args = s.args := by obtain ⟨_, _, _, _, _, _, _, rfl⟩ := h; rfl
theorem XferOnly.alloc (h : XferOnly s t) : t.alloc = s.alloc := by obtain ⟨_, _, _, _, _, _, _, rfl⟩ := h; rfl

theorem XferOnly.admits (h : XferOnly s t) (own : List Owner) (a n : Nat) : t.admits own a n = s.admits own a n :=
  State.admits_congr h.cfg h.alloc own a n

theorem xferOnly_log (op : RegOp) (s : State) : XferOnly s (s.logOp op) := ⟨_, _, _, _, _, _, _, rfl⟩
theorem xferOnly_withMem (m : Memory) (s : State) : XferOnly s (s.withMem m) := ⟨_, _, _, _, _, _, _, rfl⟩
theorem xferOnly_putTrb (p : Nat) (x : Trb) (s : State) : XferOnly s (s.putTrb p x) := ⟨_, _, _, _, _, _, _, rfl⟩
theorem xferOnly_stage (g : Ep0Stage) (s : State) : XferOnly s (s.withEp0Stage g) := ⟨_, _, _, _, _, _, _, rfl⟩
theorem xferOnly_programmed (c : Chan) (desc : Nat) (x : Trb) (s : State) : XferOnly s (programmed c desc x s) :=
  ⟨_, _, _, _, _, _, _, programmed_eq c desc x s⟩
theorem xferOnly_check (c : Chan) (s : State) : XferOnly s (dmaCheck c s) := ⟨_, _, _, _, _, _, _, dmaCheck_eq c s⟩
theorem xferOnly_clear (c : Chan) (s : State) : XferOnly s (dmaClear c s) := ⟨_, _, _, _, _, _, _, dmaClear_eq c s⟩
theorem xferOnly_release (c : Chan) (s : State) : XferOnly s (dmaRelease c s) := ⟨_, _, _, _, _, _, _, dmaRelease_eq c s⟩
theorem xferOnly_configureEp (c : Chan) (ty : EpType) (tg : Bool) (addr : DevAddr) (mps interval : Nat) (s : State) :
    XferOnly s (configureEp c ty tg addr mps interval s) := ⟨_, _, _, _, _, _, _, configureEp_eq c ty tg addr mps interval s⟩
theorem xferOnly_configureEp0 (dir : Dir) (st : CtrlStage) (addr : DevAddr) (mps : Nat) (s : State) :
    XferOnly s (configureEp0 dir st addr mps s) := ⟨_, _, _, _, _, _, _, configureEp0_eq dir st addr mps s⟩

end xferOnly

/-! ### The device's answer -/

/-- The number of bytes a completed transfer of `x` moved (R158). -/
def movedBytes (c : Chan) (x : Trb) (bs : List Byte) : Nat := if c.dir = .out then x.size else bs.length

/-- The answer `bs` is one the agent of the channel can make to `x` (R158). -/
structure Answers (s : State) (c : Chan) (x : Trb) (bs : List Byte) : Prop where
  fits : c.dir = .in_ → bs.length ≤ x.size ∧ s.admits anyOwner x.addr bs.length = true
  sent : c.dir = .out → s.admits anyOwner x.addr x.size = true

theorem Answers.of_only {s t : State} {c : Chan} {x : Trb} {bs : List Byte} (h : Answers s c x bs) (k : XferOnly s t) :
    Answers t c x bs :=
  ⟨fun hd => by rw [k.admits]; exact h.fits hd, fun hd => by rw [k.admits]; exact h.sent hd⟩

/-- What the agent of a channel leaves that answers (R158, R159). -/
theorem agentComplete_answers {s : State} {c : Chan} {x : Trb} {bs : List Byte} (hx : s.agentTrb c = some x)
    (h : Answers s c x bs) (tg : Bool) :
    agentComplete c bs tg s =
      ((s.withMem (if c.dir = .in_ then writeBytes s.mem x.addr bs else s.mem)).setToggle c tg).setChan c
        { s.chan c with actual := movedBytes c x bs, pending := false, done := true } := by
  unfold movedBytes
  cases hd : c.dir with
  | in_ =>
    obtain ⟨h1, h2⟩ := h.fits hd
    rw [agentComplete_in hx bs tg hd, if_pos (by rw [h2, Bool.and_true]; exact decide_eq_true h1)]
    rfl
  | out =>
    rw [agentComplete_out hx bs tg hd, if_pos (h.sent hd)]
    rfl

/-! ### A stage cycle -/

/-- A stage cycle whose device answers before its first sample. -/
def answeredCycle (c : Chan) (trb : Nat) (x : Trb) (bs : List Byte) (tg : Bool) (s : State) : State :=
  dmaRelease c (dmaClear c (dmaCheck c (agentComplete c bs tg (programmed c trb x (s.putTrb trb x)))))

/-- What such a cycle leaves (R151 to R154, R158, R159, R184). -/
structure Cycled (c : Chan) (trb : Nat) (x : Trb) (bs : List Byte) (tg : Bool) (s t : State) : Prop where
  only : XferOnly s t
  stage : t.ep0Stage = s.ep0Stage
  mem : t.mem = if c.dir = .in_ then writeBytes s.mem x.addr bs else s.mem
  chan : t.chan c = usedChan trb (movedBytes c x bs)
  other : ∀ b, b ≠ c → t.chan b = s.chan b
  endpoint : ∀ b, t.endpoint b = if b = c ∧ c.ep ≠ 0 then { s.endpoint c with toggle := tg } else s.endpoint b
  ep : c.ep = 0 → t.ep = s.ep
  ep0 : t.ep0 = if c.ep = 0 then { s.ep0 with toggle := s.ep0.toggle.set c.dir tg } else s.ep0
  trbStore : t.trbStore = tabPut s.trbStore trb x
  regtrace : t.regtrace = s.regtrace ++ cycleTrace c trb
  sel : t.dma.sel = c
  burst : t.dma.burstMode = .single

/-- What the sample, the clear and the release of a completed cycle leave. -/
structure CycleShut (c : Chan) (v t : State) : Prop where
  only : XferOnly v t
  rest : t = { v with dma := t.dma, regtrace := v.regtrace ++ (sampleTrace c ++ clearTrace c ++ releaseTrace c) }
  chan : t.chan c = freedChan (v.chan c)
  other : ∀ b, b ≠ c → t.chan b = v.chan b
  sel : t.dma.sel = c
  burst : t.dma.burstMode = v.dma.burstMode

theorem cycleShut (c : Chan) (v : State) : CycleShut c v (dmaRelease c (dmaClear c (dmaCheck c v))) := by
  refine ⟨((xferOnly_check c v).trans (xferOnly_clear c _)).trans (xferOnly_release c _), ?_, ?_, fun b hb => ?_, rfl, rfl⟩
  · rw [dmaCheck_eq, dmaClear_eq, dmaRelease_eq]
    simp [clearTrace, releaseTrace]
  · rw [chan_dmaRelease, if_pos rfl, chan_dmaClear, if_pos rfl, chan_dmaCheck]
    rfl
  · rw [chan_dmaRelease, if_neg hb, chan_dmaClear, if_neg hb, chan_dmaCheck]

theorem cycled_answeredCycle {c : Chan} {trb : Nat} {x : Trb} {bs : List Byte} {tg : Bool} {s : State} (h : Answers s c x bs) :
    Cycled c trb x bs tg s (answeredCycle c trb x bs tg s) := by
  have hp := programmed_eq c trb x (s.putTrb trb x)
  have hc := fun b => chan_programmed c b trb x (s.putTrb trb x)
  have hb := programmed_burst c trb x (s.putTrb trb x)
  have ho := (xferOnly_putTrb trb x s).trans (xferOnly_programmed c trb x _)
  unfold answeredCycle
  generalize programmed c trb x (s.putTrb trb x) = u at *
  have hcc : u.chan c = programmedChan (s.chan c) trb x := (hc c).trans (if_pos rfl)
  have hx : u.agentTrb c = some x := by rw [State.agentTrb, hcc]; rfl
  have hmem : u.mem = s.mem := by rw [hp]; rfl
  have hep : u.ep = s.ep := by rw [hp]; rfl
  have hep0 : u.ep0 = s.ep0 := by rw [hp]; rfl
  have htrb : u.trbStore = tabPut s.trbStore trb x := by rw [hp]; rfl
  have hreg : u.regtrace = s.regtrace ++ programTrace c trb := by rw [hp]; rfl
  have hst : u.ep0Stage = s.ep0Stage := by rw [hp]; rfl
  rw [agentComplete_answers hx (h.of_only ho), hcc, hmem]
  generalize hm : (if c.dir = .in_ then writeBytes s.mem x.addr bs else s.mem) = m
  obtain ⟨e1, -, e3, -, e5⟩ := transferEnded_update c
    { programmedChan (s.chan c) trb x with actual := movedBytes c x bs, pending := false, done := true } tg m u
  have em := mem_transferUpdate c
    { programmedChan (s.chan c) trb x with actual := movedBytes c x bs, pending := false, done := true } tg m u
  have ee : ∀ b, (((u.withMem m).setToggle c tg).setChan c { programmedChan (s.chan c) trb x with
      actual := movedBytes c x bs, pending := false, done := true }).endpoint b = _ := fun b =>
    (State.endpoint_setToggle (u.withMem m) c b tg)
  have ee0 : (((u.withMem m).setToggle c tg).setChan c { programmedChan (s.chan c) trb x with
      actual := movedBytes c x bs, pending := false, done := true }).ep0 = _ := State.ep0_setToggle (u.withMem m) c tg
  have eep : c.ep = 0 → (((u.withMem m).setToggle c tg).setChan c { programmedChan (s.chan c) trb x with
      actual := movedBytes c x bs, pending := false, done := true }).ep = u.ep := fun h0 => by
    unfold State.setToggle
    rw [if_pos h0]
    rfl
  generalize ((u.withMem m).setToggle c tg).setChan c { programmedChan (s.chan c) trb x with
    actual := movedBytes c x bs, pending := false, done := true } = v at *
  obtain ⟨k1, k2, k3, k4, k5, k6⟩ := cycleShut c v
  generalize dmaRelease c (dmaClear c (dmaCheck c v)) = t at *
  refine ⟨(ho.trans ⟨_, _, _, _, _, _, _, e5⟩).trans k1, ?_, ?_, ?_, fun b hb => ?_, fun b => ?_, fun h0 => ?_, ?_, ?_, ?_, k5, ?_⟩
  · rw [k2, e5]; exact hst
  · rw [k2]; exact em.trans hm.symm
  · rw [k3, e1]; rfl
  · rw [k4 b hb, (e3 b hb).1, hc, if_neg hb]; rfl
  · rw [State.endpoint_of_ep (s := v) (by rw [k2]), ee, State.endpoint_of_ep (s := s) (t := u.withMem m) hep,
      State.endpoint_of_ep (s := s) (t := u.withMem m) hep]
  · rw [k2]
    exact (eep h0).trans hep
  · rw [k2]
    refine ee0.trans ?_
    rw [show (u.withMem m).ep0 = s.ep0 from hep0]
  · rw [k2, e5]; exact htrb
  · rw [k2, e5]
    show u.regtrace ++ _ = _
    rw [hreg]
    simp [cycleTrace]
  · rw [k6, e5]; exact hb

/-! ### The cycle as the Sequencer runs it -/

section runs
variable {b : List (List AgentEvent)} {s u : State}

theorem Still.putTrb (h : Still b s u) (p : Nat) (x : Trb) : Still b (s.putTrb p x) (u.putTrb p x) :=
  h.map (f := (·.putTrb p x)) fun _ _ => rfl
theorem Still.programmed (h : Still b s u) (c : Chan) (desc : Nat) (x : Trb) :
    Still b (Machine.programmed c desc x s) (Machine.programmed c desc x u) := h.map fun _ _ => rfl
theorem Still.withMem (h : Still b s u) (m : Memory) : Still b (s.withMem m) (u.withMem m) :=
  h.map (f := (·.withMem m)) fun _ _ => rfl
theorem Still.admits (h : Still b s u) (own : List Owner) (a n : Nat) : u.admits own a n = s.admits own a n :=
  h.read (f := (·.admits own a n)) fun _ _ => rfl
theorem Still.mem (h : Still b s u) : u.mem = s.mem := h.read (f := (·.mem)) fun _ _ => rfl

/-- The end of a cycle that completed without an error, the points quiet. -/
theorem stageComplete_still {c : Chan} (h : Still (List.replicate 4 [] ++ b) s u) (he : (s.chan c).err = false) :
    ∃ w, stageComplete c u = .done { status := .success, res := .none, actual := (s.chan c).actual } w ∧
      Still b (dmaRelease c (dmaClear c s)) w := by
  have p1 := h.quiet (.line .translate)
  have p2 := p1.quiet (.line .capture)
  have p4 := (((p2.quiet (.line .clear)).clear c).quiet (.line .release)).release c
  have ht : translate (u.atLine .translate) c = (.success, .none) := translate_of_no_err (by rw [p1.chan]; exact he)
  refine ⟨_, ?_, p4⟩
  unfold stageComplete
  dsimp only
  rw [ht, if_pos rfl, p2.chan]

/-- The channel a device's answer leaves. -/
theorem chan_answered {c : Chan} {trb : Nat} {x : Trb} {bs : List Byte} (h : Answers s c x bs) (tg : Bool) :
    (agentComplete c bs tg (Machine.programmed c trb x (s.putTrb trb x))).chan c =
      { programmedChan (s.chan c) trb x with actual := movedBytes c x bs, pending := false, done := true } := by
  have hc : (Machine.programmed c trb x (s.putTrb trb x)).chan c = programmedChan (s.chan c) trb x :=
    (chan_programmed c c trb x _).trans (if_pos rfl)
  have ho := (xferOnly_putTrb trb x s).trans (xferOnly_programmed c trb x _)
  generalize Machine.programmed c trb x (s.putTrb trb x) = u at hc ho
  rw [agentComplete_answers (by rw [State.agentTrb, hc]; rfl) (h.of_only ho), State.chan_setChan_same, hc]

/-- A stage cycle whose device answers before its first sample, the other points quiet, succeeds (R184). -/
theorem trbCycle_still {c : Chan} {trb : Nat} {x : Trb} {kind : XferKind} {bs : List Byte} {tg : Bool}
    (h : Still ([] :: [] :: [.complete c bs tg] :: (List.replicate 4 [] ++ b)) s u) (hcl : ChanClean s c)
    (h1 : AddrOk s.cfg trb) (h2 : AddrOk s.cfg x.addr) (hw : 0 < waitBudget s.cfg kind s.args.timeout)
    (ha : Answers s c x bs) :
    ∃ w, trbCycle c trb x kind u = .done { status := .success, res := .none, actual := movedBytes c x bs } w ∧
      Still b (answeredCycle c trb x bs tg s) w := by
  have p1 := h.quiet (.line .writeTrb)
  have p2 := (p1.putTrb trb x).quiet (.line .program)
  have p3 := p2.programmed c trb x
  obtain ⟨-, hpr, hdn, her⟩ := hcl
  have hprog : dmaProgram c trb (((u.atLine .writeTrb).putTrb trb x).atLine .program) = .done () _ :=
    dmaProgram_done (x := x) (by rw [p2.chan]; exact hpr) (by
      rw [p2.read (f := (·.trbStore)) fun _ _ => rfl]
      exact tabFind_put_same _ _ _) (by rw [p2.cfg]; exact h1.1) (by rw [p2.cfg]; exact h2.1)
  have hwt : writeTrb trb x (u.atLine .writeTrb) = .done () ((u.atLine .writeTrb).putTrb trb x) :=
    writeTrb_done (by rw [p1.cfg]; exact h1.2) (by rw [p1.cfg]; exact h2.2)
  unfold trbCycle stageCycle
  rw [hwt, andThen_done, hprog, andThen_done]
  have hch := chan_answered (trb := trb) ha tg
  have hcfg : (Machine.programmed c trb x (((u.atLine .writeTrb).putTrb trb x).atLine .program)).cfg = s.cfg :=
    p3.cfg.trans ((xferOnly_putTrb trb x s).trans (xferOnly_programmed c trb x _)).cfg
  have hargs : (Machine.programmed c trb x (((u.atLine .writeTrb).putTrb trb x).atLine .program)).args = s.args :=
    p3.args.trans ((xferOnly_putTrb trb x s).trans (xferOnly_programmed c trb x _)).args
  obtain ⟨n, hn⟩ := Nat.exists_eq_add_of_lt hw
  rw [Nat.zero_add] at hn
  dsimp only
  rw [hcfg, hargs, hn]
  generalize Machine.programmed c trb x (((u.atLine .writeTrb).putTrb trb x).atLine .program) = v at p3
  have p4 := (p3.complete (.waiting c (n + 1))).check c
  have hv : ((dmaCheck c (v.atPos (.waiting c (n + 1)))).chan c) =
      { programmedChan (s.chan c) trb x with actual := movedBytes c x bs, pending := false, done := true } :=
    (p4.chan c).trans hch
  have hwait : waitLoop c (n + 1) v = (true, dmaCheck c (v.atPos (.waiting c (n + 1)))) := by
    rw [waitLoop, hv]
    rfl
  rw [hwait, if_pos rfl]
  obtain ⟨w, e, hw⟩ := stageComplete_still p4 (c := c) ((congrArg Channel.err hch).trans her)
  exact ⟨w, e.trans (congrArg (fun n => Part.done (StageEnd.mk .success .none n) w)
    (congrArg Channel.actual hch)), hw⟩

/-- The staging region filled for an OUT cycle, from a quiet point. -/
theorem fillOut_still {dir : Dir} {src dst n : Nat} (h : Still ((if dir = .out then [[]] else []) ++ b) s u)
    (h1 : s.admits [.caller] src n = true) (h2 : s.admits [.staging] dst n = true) :
    ∃ w, fillOut dir src dst n u = .done () w ∧
      Still b (if dir = .out then s.withMem (writeBytes s.mem dst (readBytes s.mem src n)) else s) w := by
  unfold fillOut
  by_cases hd : dir = .out
  · rw [if_pos hd] at h ⊢
    rw [if_pos hd]
    have p := h.quiet (.line .fill)
    exact ⟨_, copyBytes_done (by rw [p.admits]; exact h1) (by rw [p.admits]; exact h2), by rw [p.mem]; exact p.withMem _⟩
  · rw [if_neg hd] at h ⊢
    rw [if_neg hd]
    exact ⟨_, rfl, h⟩

/-- The bytes of an IN cycle copied to the caller, from a quiet point. -/
theorem deliverIn_still {dir : Dir} {src dst n : Nat} (h : Still ((if dir = .in_ then [[]] else []) ++ b) s u)
    (h1 : dir = .in_ → s.admits [.staging] src n = true) (h2 : dir = .in_ → s.admits [.caller] dst n = true) :
    ∃ w, deliverIn dir src dst n u = .done () w ∧
      Still b (if dir = .in_ then s.withMem (writeBytes s.mem dst (readBytes s.mem src n)) else s) w := by
  unfold deliverIn
  by_cases hd : dir = .in_
  · rw [if_pos hd] at h ⊢
    rw [if_pos hd]
    have p := h.quiet (.line .deliver)
    exact ⟨_, copyBytes_done (by rw [p.admits]; exact h1 hd) (by rw [p.admits]; exact h2 hd), by rw [p.mem]; exact p.withMem _⟩
  · rw [if_neg hd] at h ⊢
    rw [if_neg hd]
    exact ⟨_, rfl, h⟩

end runs

/-! ### A cycle with its copies -/

/-- What a data cycle of `n` bytes at `p` moves and leaves, the device answering `bs` before its first sample (R158, R184). -/
structure DataMoved (c : Chan) (trb stg p n : Nat) (bs : List Byte) (tg : Bool) (s t : State) : Prop where
  only : XferOnly s t
  stage : t.ep0Stage = s.ep0Stage
  memIn : c.dir = .in_ → t.mem = writeBytes (writeBytes s.mem stg bs) p bs
  memOut : c.dir = .out → t.mem = writeBytes s.mem stg (readBytes s.mem p n)
  chan : t.chan c = usedChan trb (if c.dir = .out then n else bs.length)
  other : ∀ b, b ≠ c → t.chan b = s.chan b
  endpoint : ∀ b, t.endpoint b = if b = c ∧ c.ep ≠ 0 then { s.endpoint c with toggle := tg } else s.endpoint b
  ep : c.ep = 0 → t.ep = s.ep
  ep0 : t.ep0 = if c.ep = 0 then { s.ep0 with toggle := s.ep0.toggle.set c.dir tg } else s.ep0
  trbStore : ∀ q, q ≠ trb → tabFind t.trbStore q = tabFind s.trbStore q
  regtrace : t.regtrace = s.regtrace ++ cycleTrace c trb
  sel : t.dma.sel = c
  burst : t.dma.burstMode = .single

/-- The premises of a data cycle: what it reads and writes is admitted, and the answer fits (R77, R158). -/
structure DataReady (c : Chan) (trb stg p n : Nat) (bs : List Byte) (kind : XferKind) (s : State) : Prop where
  clean : ChanClean s c
  slot : AddrOk s.cfg trb
  buffer : AddrOk s.cfg stg
  budget : 0 < waitBudget s.cfg kind s.args.timeout
  caller : s.admits [.caller] p n = true
  staging : s.admits [.staging] stg n = true
  fits : c.dir = .in_ → bs.length ≤ n

/-- The points of a data cycle, the device answering before the first sample. -/
def dataPoints (c : Chan) (bs : List Byte) (tg : Bool) : List (List AgentEvent) :=
  (if c.dir = .out then [[]] else []) ++ ([] :: [] :: [.complete c bs tg] :: (List.replicate 4 [] ++
    if c.dir = .in_ then [[]] else []))

theorem filled_eq (dir : Dir) {stg p n : Nat} (s : State) :
    let f := if dir = .out then s.withMem (writeBytes s.mem stg (readBytes s.mem p n)) else s
    f = { s with mem := f.mem } ∧ (dir = .out → f.mem = writeBytes s.mem stg (readBytes s.mem p n)) ∧
      (dir = .in_ → f.mem = s.mem) := by
  cases dir with
  | in_ => exact ⟨rfl, nofun, fun _ => rfl⟩
  | out => exact ⟨rfl, fun _ => rfl, nofun⟩

theorem delivered_eq (dir : Dir) {src dst n : Nat} (s : State) :
    let f := if dir = .in_ then s.withMem (writeBytes s.mem dst (readBytes s.mem src n)) else s
    f = { s with mem := f.mem } ∧ (dir = .in_ → f.mem = writeBytes s.mem dst (readBytes s.mem src n)) ∧
      (dir = .out → f.mem = s.mem) := by
  cases dir with
  | in_ => exact ⟨rfl, fun _ => rfl, nofun⟩
  | out => exact ⟨rfl, nofun, fun _ => rfl⟩

theorem dataCycle_still {b : List (List AgentEvent)} {s u : State} {c : Chan} {trb stg p n : Nat} {bs : List Byte} {tg : Bool}
    {kind : XferKind} (fl : Params → Nat) (h : Still (dataPoints c bs tg ++ b) s u) (r : DataReady c trb stg p n bs kind s) :
    ∃ v w z t, fillOut c.dir p stg n u = .done () v ∧
      trbCycle c trb { addr := stg, size := n, flags := fl v.cfg } kind v =
        .done { status := .success, res := .none, actual := if c.dir = .out then n else bs.length } w ∧
      deliverIn c.dir stg p (if c.dir = .out then n else bs.length) w = .done () z ∧
      Still b t z ∧ DataMoved c trb stg p n bs tg s t ∧ v.args = s.args ∧ w.args = s.args := by
  obtain ⟨hcl, h1, h2, hw, hp, hs, hf⟩ := r
  have hpts : dataPoints c bs tg ++ b = (if c.dir = .out then [[]] else []) ++
      ([] :: [] :: [.complete c bs tg] :: (List.replicate 4 [] ++ ((if c.dir = .in_ then [[]] else []) ++ b))) := by
    simp [dataPoints]
  rw [hpts] at h
  obtain ⟨v, hv, p1⟩ := fillOut_still h hp hs
  have hfs := filled_eq c.dir (stg := stg) (p := p) (n := n) s
  generalize (if c.dir = .out then s.withMem (writeBytes s.mem stg (readBytes s.mem p n)) else s) = f at p1 hfs
  obtain ⟨hff, hfout, hfin⟩ := hfs
  have hfo : XferOnly s f := ⟨_, _, _, _, _, _, _, hff⟩
  have hfch : ∀ b, f.chan b = s.chan b := State.chan_of_dma (by rw [hff])
  have hans : Answers f c { addr := stg, size := n, flags := fl v.cfg } bs :=
    ⟨fun hd => ⟨hf hd, State.admits_any (State.admits_sub (by rw [hfo.admits]; exact hs) (le_refl _) (by have := hf hd; omega))⟩,
      fun _ => State.admits_any (by rw [hfo.admits]; exact hs)⟩
  obtain ⟨w, e, p2⟩ := trbCycle_still (trb := trb) (kind := kind) p1 (by unfold ChanClean; rw [hfch]; exact hcl)
    (by rw [hfo.cfg]; exact h1) (by rw [hfo.cfg]; exact h2) (by rw [hfo.cfg, hfo.args]; exact hw) hans
  have K := cycled_answeredCycle (trb := trb) (tg := tg) hans
  generalize answeredCycle c trb { addr := stg, size := n, flags := fl v.cfg } bs tg f = g at p2 K
  have hgo := hfo.trans K.only
  have hl : ∀ hd : c.dir = .in_, (if c.dir = .out then n else bs.length) = bs.length := fun hd => by rw [hd]; rfl
  obtain ⟨z, hz, p3⟩ := deliverIn_still (src := stg) (dst := p) (n := if c.dir = .out then n else bs.length) p2
    (fun hd => State.admits_sub (by rw [hgo.admits]; exact hs) (le_refl _) (by rw [hl hd]; have := hf hd; omega))
    (fun hd => State.admits_sub (by rw [hgo.admits]; exact hp) (le_refl _) (by rw [hl hd]; have := hf hd; omega))
  refine ⟨v, w, z, _, hv, e, hz, p3, ?_, p1.args.trans hfo.args, p2.args.trans hgo.args⟩
  have hd := delivered_eq c.dir (src := stg) (dst := p) (n := if c.dir = .out then n else bs.length) g
  generalize (if c.dir = .in_ then g.withMem (writeBytes g.mem p (readBytes g.mem stg (if c.dir = .out then n else bs.length)))
    else g) = t at hd
  obtain ⟨htt, htin, htout⟩ := hd
  refine ⟨hgo.trans ⟨_, _, _, _, _, _, _, htt⟩, ?_, fun hi => ?_, fun ho => ?_, ?_, fun b hb => ?_, fun b => ?_, fun h0 => ?_, ?_,
    fun q hq => ?_, ?_, ?_, ?_⟩
  · rw [htt]; exact K.stage.trans (by rw [hff])
  · rw [htin hi, K.mem, if_pos hi, hfin hi, hl hi, readBytes_writeBytes]
  · rw [htout ho, K.mem, if_neg (by rw [ho]; decide), hfout ho]
  · rw [State.chan_of_dma (s := g) (by rw [htt])]; exact K.chan
  · rw [State.chan_of_dma (s := g) (by rw [htt]), K.other b hb, hfch]
  · rw [State.endpoint_of_ep (s := g) (by rw [htt]), K.endpoint, State.endpoint_of_ep (s := s) (t := f) (by rw [hff]),
      State.endpoint_of_ep (s := s) (t := f) (by rw [hff])]
  · rw [htt]
    exact (K.ep h0).trans (by rw [hff])
  · rw [htt]
    refine K.ep0.trans ?_
    rw [show f.ep0 = s.ep0 by rw [hff]]
  · have hst : t.trbStore = tabPut f.trbStore trb _ := (congrArg State.trbStore htt).trans K.trbStore
    rw [hst, tabFind_put_ne _ _ hq, hff]
  · rw [htt]; exact K.regtrace.trans (by rw [show f.regtrace = s.regtrace by rw [hff]])
  · rw [htt]; exact K.sel
  · rw [htt]; exact K.burst

end Sys2Proof.Machine
end

section
/-! O47. XFER_INT_SYNC with a device that answers in time: the state its quiet allocations leave, the state its release leaves,
and what lies between (spec 43_transfer_protocol R185, R194, R195). -/

namespace Sys2Proof.Machine

/-! ### The allocations, the points quiet -/

/-- `t` is `s` but for the Sequencer, the region set and the oracle. -/
def AllocOnly (s t : State) : Prop := ∃ q a o, t = { s with seq := q, alloc := a, oracle := o }

theorem AllocOnly.trans {s t u : State} (h : AllocOnly s t) (k : AllocOnly t u) : AllocOnly s u := by
  obtain ⟨_, _, _, rfl⟩ := h
  obtain ⟨_, _, _, rfl⟩ := k
  exact ⟨_, _, _, rfl⟩

/-- A quiet point moves the Sequencer and takes a batch of the script. -/
theorem atPos_of_quiet {s : State} {b : List (List AgentEvent)} (h : s.oracle.batches = [] :: b) (p : Pos) :
    AllocOnly s (s.atPos p) ∧ (s.atPos p).oracle.batches = b := by
  obtain ⟨r, hr⟩ := (still_self h).quiet p
  rw [hr]
  exact ⟨⟨_, _, _, rfl⟩, rfl⟩

theorem drawAlloc_batches (s : State) : s.drawAlloc.2.oracle.batches = s.oracle.batches := by
  unfold State.drawAlloc
  split <;> rfl

theorem allocRegion_batches (s : State) (n : Nat) (own : Owner) :
    (s.allocRegion n own).2.oracle.batches = s.oracle.batches := by
  have h := drawAlloc_batches s
  unfold State.allocRegion
  split
  · rename_i a t e
    rw [e] at h
    split <;> exact h
  · rename_i t e
    rw [e] at h
    exact h

theorem acquire_quiet {b : List (List AgentEvent)} (reqs : List (Nat × Owner)) : ∀ {s v : State} {as : List Nat},
    s.oracle.batches = List.replicate reqs.length [] ++ b → acquire reqs s = (some as, v) →
    AllocOnly s v ∧ v.oracle.batches = b := by
  induction reqs with
  | nil =>
    intro s v as h e
    cases e
    exact ⟨⟨_, _, _, rfl⟩, h⟩
  | cons q reqs ih =>
    obtain ⟨n, own⟩ := q
    intro s v as h e
    obtain ⟨h1, h2⟩ := atPos_of_quiet (b := List.replicate reqs.length [] ++ b) h (.line (.alloc (reqs.length + 1)))
    unfold acquire at e
    have hal := allocRegion_eq (s.atLine (.alloc (reqs.length + 1))) n own
    have hba := (allocRegion_batches (s.atLine (.alloc (reqs.length + 1))) n own).trans h2
    split at e
    · cases e
    · rename_i a t ht
      rw [ht] at hal hba
      split at e
      · cases e
      · rename_i as' u hu
        cases e
        obtain ⟨h3, h4⟩ := ih hba hu
        exact ⟨(h1.trans ⟨_, _, _, hal⟩).trans h3, h4⟩

/-- The state a transfer whose first points are quiet has when its regions are allocated. -/
theorem begun_quiet {reqs : List (Nat × Owner)} {i : Instr} {s v : State} {as : List Nat} {b : List (List AgentEvent)}
    (h : acquire reqs (s.started i) = (some as, v)) (hb : s.oracle.batches = List.replicate (reqs.length + 1) [] ++ b) :
    AllocOnly s v ∧ v.oracle.batches = b := by
  obtain ⟨h1, h2⟩ := atPos_of_quiet (s := s.begin i) (b := List.replicate reqs.length [] ++ b)
    (hb.trans (by rw [List.replicate_succ]; rfl)) (.line .start)
  have hs : AllocOnly s (s.started i) := AllocOnly.trans ⟨_, _, _, rfl⟩ h1
  obtain ⟨h3, h4⟩ := acquire_quiet reqs (s := s.started i) h2 h
  exact ⟨hs.trans h3, h4⟩

/-! ### The release, from a quiet point -/

/-- The state in which a transfer returns that had `P` when it released its regions. -/
def transferReturn (s P : State) (trb : Nat) (o : Oracle) (e : Event) : State :=
  { s with
    dma := P.dma, ep0 := P.ep0, ep := P.ep, mem := P.mem, ep0Stage := P.ep0Stage, trbStore := tabDrop P.trbStore trb
    seq := Seq.idle, regtrace := P.regtrace, trace := s.trace ++ [e], oracle := o }

theorem releaseAll_still {reqs : List (Nat × Owner)} {i : Instr} {s v P w : State} {trb : Nat} {stg : List Nat}
    {b : List (List AgentEvent)} (B : Begun reqs i s (trb :: stg) v) (hv : AllocOnly s v) (hP : XferOnly v P)
    (hw : Still ([] :: b) P w) (st : Status) (o : Outs) :
    ∃ r, (releaseAll trb stg w).finish i st o = transferReturn s P trb r (.result i.opcode st o) := by
  have hbw : w.seq.busy = true := by
    rw [hw.read (f := (·.seq.busy)) fun _ _ => rfl]
    obtain ⟨_, _, _, _, _, _, _, rfl⟩ := hP
    exact B.busy
  have haw : w.alloc = v.alloc := (hw.read (f := (·.alloc)) fun _ _ => rfl).trans hP.alloc
  have hal := (releaseAll_alloc B.acq hbw haw).trans (State.started_alloc s i)
  obtain ⟨r, hr⟩ := hw.quiet (.line .free)
  rw [releaseAll_eq] at hal ⊢
  rw [State.atLine, hr] at hal ⊢
  obtain ⟨_, _, _, _, _, _, _, rfl⟩ := hP
  obtain ⟨_, _, _, rfl⟩ := hv
  exact ⟨_, State.eq_of_fields rfl rfl rfl rfl rfl rfl rfl rfl rfl rfl hal rfl rfl rfl rfl rfl rfl rfl rfl rfl rfl⟩

/-! ### XFER_INT_SYNC -/

theorem Still.configureEp {b : List (List AgentEvent)} {s u : State} (h : Still b s u) (c : Chan) (ty : EpType) (tg : Bool)
    (addr : DevAddr) (mps interval : Nat) :
    Still b (Machine.configureEp c ty tg addr mps interval s) (Machine.configureEp c ty tg addr mps interval u) :=
  h.map (configureEp_vary c ty tg addr mps interval s)

theorem AllocOnly.args {s t : State} (h : AllocOnly s t) : t.args = s.args := by obtain ⟨_, _, _, rfl⟩ := h; rfl
theorem AllocOnly.cfg {s t : State} (h : AllocOnly s t) : t.cfg = s.cfg := by obtain ⟨_, _, _, rfl⟩ := h; rfl

/-- A configured endpoint leaves what a data cycle needs. -/
theorem DataReady.configured {c : Chan} {trb stg p n : Nat} {bs : List Byte} {kind : XferKind} {s : State}
    (h : DataReady c trb stg p n bs kind s) (ty : EpType) (tg : Bool) (addr : DevAddr) (mps interval : Nat) :
    DataReady c trb stg p n bs kind (configureEp c ty tg addr mps interval s) := by
  have ho := xferOnly_configureEp c ty tg addr mps interval s
  obtain ⟨h1, h2, h3, h4, h5, h6, h7⟩ := h
  exact ⟨by unfold ChanClean; rw [chan_configureEp]; exact h1, by rw [ho.cfg]; exact h2, by rw [ho.cfg]; exact h3,
    by rw [ho.cfg, ho.args]; exact h4, by rw [ho.admits]; exact h5, by rw [ho.admits]; exact h6, h7⟩

/-- The cycle of XFER_INT_SYNC is a data cycle. -/
theorem intSyncCycle_still {b : List (List AgentEvent)} {s u : State} {c : Chan} {trb stg : Nat} {bs : List Byte} {tg : Bool}
    (h : Still (dataPoints c bs tg ++ b) s u)
    (r : DataReady c trb stg s.args.buf.base s.args.len bs .interrupt s) :
    ∃ z t, intSyncCycle c trb stg u = .done { status := .success, res := .none
                                              len := if c.dir = .out then s.args.len else bs.length } z ∧
      Still b t z ∧ DataMoved c trb stg s.args.buf.base s.args.len bs tg s t := by
  have hu : u.args = s.args := h.args
  obtain ⟨v, w, z, t, h1, h2, h3, h4, h5, hv, hw⟩ := dataCycle_still (fun p => trbFlags p .interrupt) h r
  refine ⟨z, t, ?_, h4, h5⟩
  rw [intSyncCycle, hu, h1, andThen_done, hv, h2, andThen_done, if_pos rfl, hw, h3, andThen_done]

theorem Still.toggle {b : List (List AgentEvent)} {s u : State} (h : Still b s u) (c : Chan) : u.toggle c = s.toggle c :=
  h.read (f := (·.toggle c)) fun _ _ => rfl

/-- The common return of a transfer on an endpoint, its two points quiet (R192). -/
theorem finishTransfer_still {reqs : List (Nat × Owner)} {i : Instr} {s v P w : State} {trb stg : Nat} {c : Chan}
    {b : List (List AgentEvent)} (B : Begun reqs i s [trb, stg] v) (hv : AllocOnly s v) (hP : XferOnly v P)
    (hw : Still ([] :: [] :: b) P w) (e : XferEnd) :
    ∃ r, finishTransfer i c trb stg e w = transferReturn s (P.logOp (.R .epToggle)) trb r
      (.result i.opcode e.status (.transfer e.res e.len (some (P.toggle c)))) := by
  have p := hw.quiet (.line .readToggle)
  rw [finishTransfer_eq, State.atLine, p.toggle]
  exact releaseAll_still B hv (hP.trans (xferOnly_log _ P)) (p.log (.R .epToggle)) _ _

/-- XFER_INT_SYNC whose device answers before the first sample, the other points quiet, and the state its cycle leaves. -/
theorem intSync_answered {ep : EpNum} {dir : Dir} {tg tg' : Bool} {addr : DevAddr} {sp : Speed} {s v : State} {trb stg : Nat}
    {bs : List Byte} {rest : List (List AgentEvent)} (hok : intSyncOk s.cfg ep s.args = true) (hbuf : CallerBuf s)
    (hcl : ChanClean s ⟨ep, dir⟩) (hw : 0 < waitBudget s.cfg .interrupt s.args.timeout) (hf : dir = .in_ → bs.length ≤ s.args.len)
    (hv : acquire [trbRequest s.cfg, (s.args.len, .staging)] (s.started (.xferIntSync ep dir tg addr sp)) =
      (some [trb, stg], v))
    (hb : s.oracle.batches = List.replicate 3 [] ++ ([] :: (dataPoints ⟨ep, dir⟩ bs tg' ++ ([] :: [] :: rest)))) :
    ∃ P r, exec (.xferIntSync ep dir tg addr sp) s = .next (transferReturn s (P.logOp (.R .epToggle)) trb r
        (.result 0x22 .success (.transfer .none (if dir = .out then s.args.len else bs.length) (some (P.toggle ⟨ep, dir⟩))))) ∧
      AllocOnly s v ∧ DataMoved ⟨ep, dir⟩ trb stg s.args.buf.base s.args.len bs tg'
        (configureEp ⟨ep, dir⟩ .interrupt tg addr s.args.mps s.args.interval v) P := by
  have B := begun_of_acquire hv
  obtain ⟨hao, hbat⟩ := begun_quiet (reqs := [_, _]) hv hb
  have hlen : s.args.len ≤ s.args.buf.len := by
    simp only [intSyncOk, Bool.and_eq_true, decide_eq_true_eq] at hok
    exact hok.2
  obtain ⟨h1, -⟩ := B.region (trb, trbRequest s.cfg) (by simp)
  obtain ⟨h2, h3⟩ := B.region (stg, (s.args.len, .staging)) (by simp)
  have hcb : v.admits [.caller] s.args.buf.base s.args.buf.len = true := by
    have h := B.buf hbuf
    rw [CallerBuf, hao.args] at h
    exact h
  have R : DataReady ⟨ep, dir⟩ trb stg s.args.buf.base s.args.len bs .interrupt v :=
    ⟨B.clean _ hcl, h1, h2, by rw [hao.cfg, hao.args]; exact hw, State.admits_sub hcb (le_refl _) (by omega), h3, hf⟩
  have p := ((still_self hbat).quiet (.line .configure)).configureEp ⟨ep, dir⟩ .interrupt tg addr s.args.mps s.args.interval
  have R' := R.configured .interrupt tg addr s.args.mps s.args.interval
  have ho := xferOnly_configureEp ⟨ep, dir⟩ .interrupt tg addr s.args.mps s.args.interval v
  have hargs : (configureEp ⟨ep, dir⟩ .interrupt tg addr s.args.mps s.args.interval v).args = s.args := ho.args.trans hao.args
  rw [exec_xferIntSync_of_some hok hv, hao.args]
  generalize configureEp ⟨ep, dir⟩ .interrupt tg addr s.args.mps s.args.interval v = U at *
  obtain ⟨z, P, hz, hs, hd⟩ := intSyncCycle_still p (by rw [hargs]; exact R')
  rw [hargs] at hz hd
  obtain ⟨r, hr⟩ := finishTransfer_still B hao (ho.trans hd.only) hs
    { status := .success, res := .none, len := if dir = .out then s.args.len else bs.length }
  exact ⟨P, r, by rw [hz]; exact congrArg Host.Outcome.next hr, hao, hd⟩

/-- What the configuration of an endpoint leaves, once the regions are allocated (R171). -/
structure EpConfigured (c : Chan) (ty : EpType) (tg : Bool) (addr : DevAddr) (mps interval : Nat) (s u : State) : Prop where
  mem : u.mem = s.mem
  dma : u.dma = s.dma
  chan : ∀ b, u.chan b = s.chan b
  trbStore : u.trbStore = s.trbStore
  ep0 : u.ep0 = s.ep0
  stage : u.ep0Stage = s.ep0Stage
  regtrace : u.regtrace = s.regtrace ++ (configureTrace c ty tg addr mps ++
    if ty = .interrupt && interval ≠ 0 then [.W .epTimer (.chanVal c (intTimerValue s.cfg interval))] else [])
  endpoint : ∀ b, u.endpoint b = if b = c then configuredEndpoint s.cfg (s.endpoint c) ty tg addr mps interval else s.endpoint b

theorem epConfigured {s v : State} (h : AllocOnly s v) (c : Chan) (ty : EpType) (tg : Bool) (addr : DevAddr)
    (mps interval : Nat) : EpConfigured c ty tg addr mps interval s (configureEp c ty tg addr mps interval v) := by
  have he := fun b => endpoint_configureEp c b ty tg addr mps interval v
  have hc := fun b => chan_configureEp c b ty tg addr mps interval v
  have hu := configureEp_eq c ty tg addr mps interval v
  obtain ⟨_, _, _, rfl⟩ := h
  generalize configureEp c ty tg addr mps interval _ = u at *
  exact ⟨by rw [hu], by rw [hu], hc, by rw [hu], by rw [hu], by rw [hu], by rw [hu], he⟩

/-- An endpoint after a data cycle: configured, with the toggle of the answer (R159, R171). -/
theorem endpoint_moved {c : Chan} {ty : EpType} {tg tg' : Bool} {addr : DevAddr} {mps interval : Nat} {s u P : State}
    (h : EpConfigured c ty tg addr mps interval s u) (h0 : c.ep ≠ 0)
    (hP : ∀ b, P.endpoint b = if b = c ∧ c.ep ≠ 0 then { u.endpoint c with toggle := tg' } else u.endpoint b) :
    P.endpoint c = { configuredEndpoint s.cfg (s.endpoint c) ty tg addr mps interval with toggle := tg' } ∧
      P.toggle c = tg' ∧ ∀ b, b ≠ c → P.endpoint b = s.endpoint b := by
  have hc : P.endpoint c = { configuredEndpoint s.cfg (s.endpoint c) ty tg addr mps interval with toggle := tg' } := by
    rw [hP, if_pos ⟨rfl, h0⟩, h.endpoint, if_pos rfl]
  refine ⟨hc, ?_, fun b hb => ?_⟩
  · rw [State.toggle, if_neg h0, hc]
  · rw [hP, if_neg fun e => hb e.1, h.endpoint, if_neg hb]

theorem interruptTrace_eq (p : Params) (c : Chan) (tg : Bool) (addr : DevAddr) (mps interval : Nat) :
    (configureTrace c .interrupt tg addr mps ++ if EpType.interrupt = .interrupt && interval ≠ 0 then
      [RegOp.W .epTimer (.chanVal c (intTimerValue p interval))] else []) = interruptTrace p c tg addr mps interval := by
  simp [interruptTrace]

theorem readBytes_copied (m : Memory) (a p n : Nat) : readBytes (writeBytes m a (readBytes m p n)) a n = readBytes m p n := by
  have h := readBytes_writeBytes m a (readBytes m p n)
  rwa [length_readBytes] at h

/-- A byte outside the staging bytes written, and outside the caller's bytes of an IN cycle, is as it was. -/
theorem DataMoved.byte {c : Chan} {trb stg p n : Nat} {bs : List Byte} {tg : Bool} {s t : State}
    (h : DataMoved c trb stg p n bs tg s t) {a : Nat}
    (h1 : a < stg ∨ stg + (if c.dir = .out then n else bs.length) ≤ a) (h2 : c.dir = .in_ → a < p ∨ p + bs.length ≤ a) :
    readByte t.mem a = readByte s.mem a := by
  cases hd : c.dir with
  | in_ =>
    rw [hd, if_neg (by decide)] at h1
    rw [h.memIn hd, readByte_writeBytes_out _ _ _ _ (h2 hd), readByte_writeBytes_out _ _ _ _ h1]
  | out =>
    rw [hd, if_pos rfl] at h1
    rw [h.memOut hd, readByte_writeBytes_out _ _ _ _ (by rw [length_readBytes]; exact h1)]

/-- The state a transfer on an endpoint returns, field by field. -/
theorem transferReturn_eq {s P : State} (trb : Nat) (r : Oracle) (e : Event) (h0 : P.ep0 = s.ep0) (hg : P.ep0Stage = s.ep0Stage) :
    let t := transferReturn s P trb r e
    t = { s with
      dma := { burstMode := P.dma.burstMode, sel := P.dma.sel, ch := t.dma.ch }, ep := t.ep, mem := t.mem
      trbStore := t.trbStore, seq := Seq.idle, regtrace := t.regtrace, trace := t.trace, oracle := t.oracle } := by
  unfold transferReturn
  rw [h0, hg]

end Sys2Proof.Machine

open Sys2Proof Sys2Proof.Machine

/-- Settles O47. -/
theorem interruptTransferDelivers : Obligations.InterruptTransferDelivers := by
  intro ep dir tg tg' addr sp s u trb stg bs rest c len moved hok hbuf hcl hw hf hv hb
  obtain ⟨P, r, hexec, hao, hd⟩ := intSync_answered (tg' := tg') (bs := bs) (rest := rest) hok hbuf hcl hw hf hv (by
    rw [hb]
    cases dir <;> rfl)
  have h0 : ep ≠ 0 := by
    simp only [intSyncOk, Bool.and_eq_true, decide_eq_true_eq] at hok
    exact hok.1.1.1
  have C := epConfigured hao c .interrupt tg addr s.args.mps s.args.interval
  generalize configureEp ⟨ep, dir⟩ .interrupt tg addr s.args.mps s.args.interval u = U at hd C
  obtain ⟨he, htg, heo⟩ := endpoint_moved C h0 hd.endpoint
  have hfin := transferReturn_eq (P := P.logOp (.R .epToggle)) trb r
    (.result 0x22 .success (.transfer .none (if dir = .out then s.args.len else bs.length) (some (P.toggle ⟨ep, dir⟩))))
    (hd.ep0.trans (by rw [if_neg h0]; exact C.ep0)) (hd.stage.trans C.stage)
  refine ⟨_, hexec, ?_, ?_, fun hi => ?_, fun ho => ?_, fun a h1 h2 => ?_, hd.chan, ?_, fun b hb => ⟨?_, heo b hb⟩, fun p => ?_, ?_⟩
  · show s.trace ++ _ = _
    rw [htg]
  · show P.regtrace ++ _ = _
    rw [hd.regtrace, C.regtrace, interruptTrace_eq]
  · show readBytes P.mem _ _ = _
    rw [hd.memIn hi, readBytes_writeBytes]
  · show readBytes P.mem _ _ = _
    rw [hd.memOut ho, C.mem, readBytes_copied]
  · show readByte P.mem a = _
    rw [hd.byte h1 fun hi => ?_, C.mem]
    have h2 := h2 hi
    have hi' : dir = .in_ := hi
    rwa [show moved = bs.length from if_neg (by rw [hi']; decide)] at h2
  · exact he.trans (by simp [configuredEndpoint])
  · exact (hd.other b hb).trans (C.chan b)
  · show tabFind (tabDrop P.trbStore trb) p = _
    rw [tabFind_drop]
    split
    · rfl
    · next hp => rw [hd.trbStore p hp, C.trbStore]
  · rw [show (P.logOp (.R .epToggle)).dma.burstMode = .single from hd.burst,
      show (P.logOp (.R .epToggle)).dma.sel = c from hd.sel] at hfin
    exact hfin
end

section
/-! O46. XFER_BULK with a device that answers each chunk in time (spec 43_transfer_protocol R190 to R193). -/

namespace Sys2Proof.Machine

/-! ### The acquired regions lie apart -/

/-- Acquired regions lie apart from those that stood, and from each other (R15). -/
theorem acquire_apart {reqs : List (Nat × Owner)} {s t : State} {as : List Nat} (hb : s.seq.busy = true)
    (h : acquire reqs s = (some as, t)) :
    (∀ q ∈ as.zip reqs, ∀ r ∈ s.alloc, q.1 + q.2.1 ≤ r.1 ∨ r.1 + r.2.len ≤ q.1) ∧
      (as.zip reqs).Pairwise fun p q => q.1 + q.2.1 ≤ p.1 ∨ p.1 + p.2.1 ≤ q.1 := by
  induction reqs generalizing s t as with
  | nil => cases h; exact ⟨by simp, by simp⟩
  | cons q reqs ih =>
    obtain ⟨n, own⟩ := q
    unfold acquire at h
    have hal : (s.atLine (.alloc (reqs.length + 1))).alloc = s.alloc := (agentFrame_interleave _).alloc hb
    have hbp : (s.atLine (.alloc (reqs.length + 1))).seq.busy = true := (agentFrame_interleave _).busy.trans hb
    generalize s.atLine (.alloc (reqs.length + 1)) = p at *
    split at h
    · cases h
    · rename_i a u hu
      split at h
      · cases h
      · rename_i bs v hv
        cases h
        obtain ⟨-, -, -, h3, h4⟩ := allocRegion_some hu
        have hbu : u.seq.busy = true := by rw [h4]; exact hbp
        have hual : u.alloc = tabPut s.alloc a { len := n, owner := own } := by rw [h4, hal]
        rw [hal] at h3
        obtain ⟨k1, k2⟩ := ih hbu hv
        rw [List.zip_cons_cons]
        refine ⟨fun q hq r hr => ?_, List.pairwise_cons.2 ⟨fun q hq => ?_, k2⟩⟩
        · rcases List.mem_cons.1 hq with rfl | hq
          · exact (h3 r hr).2
          · exact k1 q hq r (by rw [hual]; exact tabPut_mem_of_ne hr (h3 r hr).1)
        · exact k1 q hq (a, { len := n, owner := own }) (by rw [hual]; exact tabPut_mem _ _ _)

/-- A byte of the caller's buffer lies outside every acquired region (R15, R242). -/
theorem callerBuf_apart {reqs : List (Nat × Owner)} {i : Instr} {s t : State} {as : List Nat}
    (h : acquire reqs (s.started i) = (some as, t)) (hbuf : CallerBuf s) {q : Nat × Nat × Owner} (hq : q ∈ as.zip reqs) {a : Nat}
    (h1 : s.args.buf.base ≤ a) (h2 : a < s.args.buf.base + s.args.buf.len) : a < q.1 ∨ q.1 + q.2.1 ≤ a := by
  obtain ⟨k, -⟩ := acquire_apart (State.started_busy s i) h
  rw [State.started_alloc] at k
  unfold CallerBuf State.admits at hbuf
  simp only [Bool.or_eq_true, decide_eq_true_eq, Bool.and_eq_true, List.any_eq_true] at hbuf
  rcases hbuf with hz | ⟨-, r, hr, ⟨-, hr1⟩, hr2⟩
  · omega
  · have := k q hq r hr
    omega

theorem readBytes_congr {m m' : Memory} {a n : Nat} (h : ∀ j, a ≤ j → j < a + n → readByte m j = readByte m' j) :
    readBytes m a n = readBytes m' a n := by
  refine List.ext_getElem (by simp) fun i h1 h2 => ?_
  rw [length_readBytes] at h1
  rw [getElem_readBytes _ _ _ _ h1, getElem_readBytes _ _ _ _ h1]
  exact h _ (by omega) (by omega)

/-! ### The chunks -/

/-- The answers of the device to the chunks from the `i`-th on, each chunk's points quiet but for its answer. -/
def chunkPoints (c : Chan) (l : List (List Byte × Bool)) : List (List AgentEvent) :=
  (l.map fun x => dataPoints c x.1 x.2).flatten

theorem bulkChunk_still {b : List (List AgentEvent)} {s u : State} {c : Chan} {trb stg i : Nat} {bs : List Byte} {tg : Bool}
    (h : Still (dataPoints c bs tg ++ b) s u)
    (r : DataReady c trb stg (s.args.buf.base + i * s.cfg.burstSize) (chunkSize s.args.len s.cfg.burstSize i) bs .bulk s) :
    ∃ z t, bulkChunk c trb stg i u =
        .done { status := .success, res := .none
                actual := if c.dir = .out then chunkSize s.args.len s.cfg.burstSize i else bs.length } z ∧
      Still b t z ∧ DataMoved c trb stg (s.args.buf.base + i * s.cfg.burstSize) (chunkSize s.args.len s.cfg.burstSize i) bs tg s t := by
  have hu : u.args = s.args := h.args
  have hc : u.cfg = s.cfg := h.cfg
  obtain ⟨v, w, z, t, h1, h2, h3, h4, h5, -, -⟩ := dataCycle_still (fun p => trbFlags p .bulk) (h.round i) r
  refine ⟨z, t, ?_, h4, h5⟩
  unfold bulkChunk
  dsimp only
  rw [hu, hc, h1, andThen_done, h2, andThen_done, if_pos rfl, h3, andThen_done]

/-- The bytes the chunks from the `i`-th on moved. -/
def chunksLen (c : Chan) (len burst : Nat) : Nat → List (List Byte × Bool) → Nat
  | _, [] => 0
  | i, x :: l => (if c.dir = .out then chunkSize len burst i else x.1.length) + chunksLen c len burst (i + 1) l

/-- What the chunks from the `i`-th on move and leave, the device answering `l`: `t` from `s` (R190 to R193). -/
structure ChunksAnswered (c : Chan) (trb stg base len burst i : Nat) (l : List (List Byte × Bool)) (s t : State) : Prop where
  nil : l = [] → t = s
  only : XferOnly s t
  stage : t.ep0Stage = s.ep0Stage
  memIn : c.dir = .in_ → ∀ j x, l[j]? = some x → readBytes t.mem (base + (i + j) * burst) x.1.length = x.1
  memOut : c.dir = .out → ∀ j, j + 1 = l.length → readBytes t.mem stg (chunkSize len burst (i + j)) =
    readBytes s.mem (base + (i + j) * burst) (chunkSize len burst (i + j))
  byte : ∀ a, (a < stg ∨ stg + burst ≤ a) → (c.dir = .in_ → ∀ j x, l[j]? = some x →
    a < base + (i + j) * burst ∨ base + (i + j) * burst + x.1.length ≤ a) → readByte t.mem a = readByte s.mem a
  chan : t.chan c = match l.getLast? with
    | none => s.chan c
    | some x => usedChan trb (if c.dir = .out then chunkSize len burst (i + l.length - 1) else x.1.length)
  other : ∀ b, b ≠ c → t.chan b = s.chan b
  endpoint : ∀ b, t.endpoint b =
    if b = c then { s.endpoint c with toggle := (l.getLast?.map Prod.snd).getD (s.endpoint c).toggle } else s.endpoint b
  ep0 : t.ep0 = s.ep0
  trbStore : ∀ q, q ≠ trb → tabFind t.trbStore q = tabFind s.trbStore q
  regtrace : t.regtrace = s.regtrace ++ (List.replicate l.length (cycleTrace c trb)).flatten
  sel : t.dma.sel = if l = [] then s.dma.sel else c
  burst : t.dma.burstMode = if l = [] then s.dma.burstMode else .single

theorem chunksAnswered_nil (c : Chan) (trb stg base len burst i : Nat) (s : State) :
    ChunksAnswered c trb stg base len burst i [] s s :=
  ⟨fun _ => rfl, xferOnly_refl s, rfl, nofun, nofun, fun _ _ _ => rfl, rfl, fun _ _ => rfl, fun b => by split <;> simp_all, rfl,
    fun _ _ => rfl, by simp, rfl, rfl⟩

theorem chunksAnswered_cons {c : Chan} {trb stg base len burst i : Nat} {x : List Byte × Bool} {l : List (List Byte × Bool)}
    {s t u : State} (h0 : c.ep ≠ 0) (hb : 0 < burst) (hi : i + (l.length + 1) = chunkCount len burst)
    (hx : x.1.length ≤ chunkSize len burst i)
    (ha : ∀ a, base ≤ a → a < base + len → a < stg ∨ stg + burst ≤ a)
    (h : DataMoved c trb stg (base + i * burst) (chunkSize len burst i) x.1 x.2 s u)
    (k : ChunksAnswered c trb stg base len burst (i + 1) l u t) : ChunksAnswered c trb stg base len burst i (x :: l) s t := by
  have hbounds := fun j (hj : j < chunkCount len burst) => chunk_bounds (len := len) (i := j) hb hj
  obtain ⟨b1, b2, b3⟩ := hbounds i (by omega)
  constructor
  case nil => exact fun h => absurd h (List.cons_ne_nil _ _)
  case only => exact h.only.trans k.only
  case stage => exact k.stage.trans h.stage
  case memIn =>
    intro hd j y hy
    cases j with
    | zero =>
      cases hy
      rw [Nat.add_zero]
      refine (readBytes_congr fun a h1 h2 => k.byte a (ha a (by omega) (by omega)) fun _ j y hy => .inl ?_).trans ?_
      · have := Nat.mul_le_mul_right burst (show i + 1 ≤ i + 1 + j by omega)
        rw [Nat.succ_mul] at this
        omega
      · rw [h.memIn hd, readBytes_writeBytes]
    | succ j =>
      rw [show i + (j + 1) = i + 1 + j by omega]
      exact k.memIn hd j y hy
  case memOut =>
    intro hd j hj
    rw [List.length_cons] at hj
    cases l with
    | nil =>
      obtain rfl : j = 0 := by simpa using hj
      rw [k.nil rfl, h.memOut hd, Nat.add_zero, readBytes_copied]
    | cons y l =>
      rw [List.length_cons] at hj hi
      obtain ⟨j, rfl⟩ : ∃ j', j = j' + 1 := ⟨l.length, by omega⟩
      obtain ⟨d1, d2, d3⟩ := hbounds (i + 1 + j) (by omega)
      rw [show i + (j + 1) = i + 1 + j by omega, k.memOut hd j (by rw [List.length_cons]; omega)]
      refine readBytes_congr fun a h1 h2 => h.byte ?_ fun hi => by rw [hd] at hi; cases hi
      have := ha a (by omega) (by omega)
      rw [if_pos hd]
      omega
  case byte =>
    intro a h1 h2
    rw [k.byte a h1 fun hd j y hy => ?_]
    · refine h.byte ?_ fun hd => h2 hd 0 x rfl
      split <;> omega
    · rw [show i + 1 + j = i + (j + 1) by omega]
      exact h2 hd (j + 1) y hy
  case chan =>
    cases l with
    | nil => rw [k.nil rfl]; exact h.chan
    | cons y l =>
      rw [List.getLast?_cons_cons, k.chan, List.length_cons, List.length_cons, List.length_cons,
        show i + 1 + (l.length + 1) - 1 = i + (l.length + 1 + 1) - 1 by omega, List.getLast?_cons]
  case other => exact fun b hb => (k.other b hb).trans (h.other b hb)
  case endpoint =>
    intro b
    have hc : u.endpoint c = { s.endpoint c with toggle := x.2 } := (h.endpoint c).trans (if_pos ⟨rfl, h0⟩)
    rw [k.endpoint, hc]
    by_cases hbc : b = c
    · rw [if_pos hbc, if_pos hbc]
      cases l with
      | nil => rfl
      | cons y l => rw [List.getLast?_cons_cons, List.getLast?_cons]; rfl
    · rw [if_neg hbc, if_neg hbc, h.endpoint, if_neg fun e => hbc e.1]
  case ep0 => exact k.ep0.trans (h.ep0.trans (if_neg h0))
  case trbStore => exact fun q hq => (k.trbStore q hq).trans (h.trbStore q hq)
  case regtrace =>
    rw [k.regtrace, h.regtrace, List.length_cons, List.replicate_succ, List.flatten_cons, List.append_assoc]
  case sel =>
    rw [k.sel, h.sel, ite_self, if_neg (List.cons_ne_nil _ _)]
  case burst =>
    rw [k.burst, h.burst, ite_self, if_neg (List.cons_ne_nil _ _)]

/-- A channel a cycle has used is clean (R198). -/
theorem chanClean_used {s : State} {c : Chan} {trb n : Nat} (h : s.chan c = usedChan trb n) : ChanClean s c := by
  rw [ChanClean, h]
  exact ⟨rfl, rfl, rfl, rfl⟩

/-- The premises of every chunk of a bulk transfer (R191). -/
structure ChunksReady (c : Chan) (trb stg base len burst : Nat) (s : State) : Prop where
  clean : ChanClean s c
  slot : AddrOk s.cfg trb
  buffer : AddrOk s.cfg stg
  budget : 0 < waitBudget s.cfg .bulk s.args.timeout
  caller : s.admits [.caller] base len = true
  staging : s.admits [.staging] stg burst = true
  args : s.args.len = len ∧ s.args.buf.base = base
  size : s.cfg.burstSize = burst

theorem ChunksReady.data {c : Chan} {trb stg base len burst i : Nat} {s : State} {bs : List Byte}
    (h : ChunksReady c trb stg base len burst s) (hb : 0 < burst) (hi : i < chunkCount len burst)
    (hf : bs.length ≤ chunkSize len burst i) : DataReady c trb stg (base + i * burst) (chunkSize len burst i) bs .bulk s := by
  obtain ⟨b1, b2, b3⟩ := chunk_bounds (i := i) (len := len) hb hi
  exact ⟨h.clean, h.slot, h.buffer, h.budget, State.admits_sub h.caller (by omega) (by omega),
    State.admits_sub h.staging (le_refl _) (by omega), fun _ => hf⟩

theorem ChunksReady.of_moved {c : Chan} {trb stg base len burst p n : Nat} {s t : State} {bs : List Byte} {tg : Bool}
    (h : ChunksReady c trb stg base len burst s) (k : DataMoved c trb stg p n bs tg s t) :
    ChunksReady c trb stg base len burst t := by
  have hc := k.only.cfg
  have ha := k.only.args
  exact ⟨chanClean_used k.chan, hc ▸ h.slot, hc ▸ h.buffer, by rw [hc, ha]; exact h.budget, by rw [k.only.admits]; exact h.caller,
    by rw [k.only.admits]; exact h.staging, by rw [ha]; exact h.args, by rw [hc]; exact h.size⟩

/-- The chunk loop, the device answering each chunk before its first sample (R191, R193). -/
theorem bulkLoop_still {b : List (List AgentEvent)} {c : Chan} {trb stg base len burst : Nat} (h0 : c.ep ≠ 0) (hb : 0 < burst)
    (ha : ∀ a, base ≤ a → a < base + len → a < stg ∨ stg + burst ≤ a) (l : List (List Byte × Bool)) :
    ∀ (i m : Nat) {s u : State}, Still (chunkPoints c l ++ b) s u → ChunksReady c trb stg base len burst s →
      i + l.length = chunkCount len burst → (∀ j x, l[j]? = some x → x.1.length ≤ chunkSize len burst (i + j)) →
      ∃ z t, bulkLoop c trb stg l.length i m u =
          .done { status := .success, res := .none, len := m + chunksLen c len burst i l } z ∧
        Still b t z ∧ ChunksAnswered c trb stg base len burst i l s t := by
  induction l with
  | nil => exact fun i m s u h _ _ _ => ⟨u, s, rfl, h, chunksAnswered_nil c trb stg base len burst i s⟩
  | cons x l ih =>
    intro i m s u h r hi hf
    rw [List.length_cons] at hi
    have hx : x.1.length ≤ chunkSize len burst i := hf 0 x rfl
    have hp : chunkPoints c (x :: l) ++ b = dataPoints c x.1 x.2 ++ (chunkPoints c l ++ b) := by simp [chunkPoints]
    rw [hp] at h
    obtain ⟨hlen, hbase⟩ := r.args
    obtain ⟨v, t, hv, p, k⟩ := bulkChunk_still (trb := trb) (stg := stg) (i := i) h
      (by rw [hlen, hbase, r.size]; exact r.data hb (by omega) hx)
    rw [hlen, hbase, r.size] at k
    rw [hlen, r.size] at hv
    obtain ⟨z, y, hz, q, kz⟩ := ih (i + 1) (m + if c.dir = .out then chunkSize len burst i else x.1.length) p (r.of_moved k)
      (by omega) fun j y hy => by
        rw [show i + 1 + j = i + (j + 1) by omega]
        exact hf (j + 1) y hy
    refine ⟨z, y, ?_, q, chunksAnswered_cons h0 hb hi hx ha k kz⟩
    rw [List.length_cons, bulkLoop, hv, andThen_done, if_pos rfl, hz, chunksLen, Nat.add_assoc]

/-! ### What the chunks moved -/

theorem chunksLen_in {c : Chan} (hc : c.dir = .in_) (len burst : Nat) (l : List (List Byte × Bool)) :
    ∀ i, chunksLen c len burst i l = (l.map fun x => x.1.length).sum := by
  induction l with
  | nil => exact fun _ => rfl
  | cons x l ih =>
    intro i
    rw [chunksLen, ih, hc, List.map_cons, List.sum_cons]
    rfl

theorem chunksLen_out {c : Chan} (hc : c.dir = .out) (len burst : Nat) (l : List (List Byte × Bool)) :
    ∀ i, chunksLen c len burst i l = ((List.range' i l.length).map (chunkSize len burst)).sum := by
  induction l with
  | nil => exact fun _ => rfl
  | cons x l ih =>
    intro i
    rw [chunksLen, ih, if_pos hc, List.length_cons, List.range'_succ, List.map_cons, List.sum_cons]

/-- The chunks of a payload cover it (R190). -/
theorem le_chunkCount_mul {burst : Nat} (len : Nat) (hb : 0 < burst) : len ≤ chunkCount len burst * burst := by
  unfold chunkCount ceilDiv
  have h1 := Nat.div_add_mod (len + burst - 1) burst
  have h2 := Nat.mod_lt (len + burst - 1) hb
  rw [Nat.mul_comm] at h1
  omega

/-- All the chunks of a payload move the whole of it OUT, and what the device returned IN. -/
theorem chunksLen_all {c : Chan} {len burst : Nat} (hb : 0 < burst) {l : List (List Byte × Bool)}
    (hl : l.length = chunkCount len burst) :
    chunksLen c len burst 0 l = if c.dir = .out then len else (l.map fun x => x.1.length).sum := by
  cases hd : c.dir with
  | in_ => exact chunksLen_in hd len burst l 0
  | out =>
    rw [chunksLen_out hd, if_pos rfl, ← List.range_eq_range', sum_chunks hb _ (by omega), hl]
    exact Nat.min_eq_right (le_chunkCount_mul len hb)

/-! ### XFER_BULK -/

/-- XFER_BULK whose device answers each chunk before its first sample, and the state its loop leaves. -/
theorem bulk_answered {ep : EpNum} {dir : Dir} {tg : Bool} {addr : DevAddr} {sp : Speed} {s v : State} {trb stg : Nat}
    {l : List (List Byte × Bool)} {rest : List (List AgentEvent)} (hok : bulkOk ep s.args = true) (hwf : s.cfg.wf = true)
    (hbuf : CallerBuf s) (hcl : ChanClean s ⟨ep, dir⟩) (hw : 0 < waitBudget s.cfg .bulk s.args.timeout)
    (hl : l.length = chunkCount s.args.len s.cfg.burstSize)
    (hf : ∀ j x, l[j]? = some x → x.1.length ≤ chunkSize s.args.len s.cfg.burstSize j)
    (hv : acquire [trbRequest s.cfg, (s.cfg.burstSize, .staging)] (s.started (.xferBulk ep dir tg addr sp)) =
      (some [trb, stg], v))
    (hb : s.oracle.batches = List.replicate 3 [] ++ ([] :: (chunkPoints ⟨ep, dir⟩ l ++ ([] :: [] :: rest)))) :
    ∃ P r, exec (.xferBulk ep dir tg addr sp) s = .next (transferReturn s (P.logOp (.R .epToggle)) trb r
        (.result 0x21 .success (.transfer .none (if dir = .out then s.args.len else (l.map fun x => x.1.length).sum)
          (some (P.toggle ⟨ep, dir⟩))))) ∧
      AllocOnly s v ∧ ChunksAnswered ⟨ep, dir⟩ trb stg s.args.buf.base s.args.len s.cfg.burstSize 0 l
        (configureEp ⟨ep, dir⟩ .bulk tg addr s.args.mps 0 v) P := by
  have B := begun_of_acquire hv
  obtain ⟨hao, hbat⟩ := begun_quiet (reqs := [_, _]) hv hb
  have hburst := burstSize_pos hwf
  obtain ⟨⟨-, h0⟩, hlen⟩ : (_ ∧ ep ≠ 0) ∧ s.args.len ≤ s.args.buf.len := by
    simpa only [bulkOk, Bool.and_eq_true, decide_eq_true_eq] using hok
  obtain ⟨h1, -⟩ := B.region (trb, trbRequest s.cfg) (by simp)
  obtain ⟨h2, h3⟩ := B.region (stg, (s.cfg.burstSize, .staging)) (by simp)
  have hcb : v.admits [.caller] s.args.buf.base s.args.buf.len = true := by
    have h := B.buf hbuf
    rw [CallerBuf, hao.args] at h
    exact h
  have ho := xferOnly_configureEp ⟨ep, dir⟩ .bulk tg addr s.args.mps 0 v
  have hargs : (configureEp ⟨ep, dir⟩ .bulk tg addr s.args.mps 0 v).args = s.args := ho.args.trans hao.args
  have hcfg : (configureEp ⟨ep, dir⟩ .bulk tg addr s.args.mps 0 v).cfg = v.cfg := ho.cfg
  have hclU : ChanClean (configureEp ⟨ep, dir⟩ .bulk tg addr s.args.mps 0 v) ⟨ep, dir⟩ := by
    unfold ChanClean
    rw [chan_configureEp]
    exact B.clean _ hcl
  have p := ((still_self hbat).quiet (.line .configure)).configureEp ⟨ep, dir⟩ .bulk tg addr s.args.mps 0
  have ha : ∀ a, s.args.buf.base ≤ a → a < s.args.buf.base + s.args.len → a < stg ∨ stg + s.cfg.burstSize ≤ a := fun a k1 k2 =>
    callerBuf_apart hv hbuf (q := (stg, s.cfg.burstSize, .staging)) (by simp) k1 (by omega)
  rw [exec_xferBulk_of_some hok hv, hao.args, hao.cfg, ← hl]
  generalize configureEp ⟨ep, dir⟩ .bulk tg addr s.args.mps 0 v = U at ho hargs hcfg hclU p ⊢
  have R : ChunksReady ⟨ep, dir⟩ trb stg s.args.buf.base s.args.len s.cfg.burstSize U :=
    ⟨hclU, by rw [hcfg]; exact h1, by rw [hcfg]; exact h2, by rw [hcfg, hao.cfg, hargs]; exact hw,
      by rw [ho.admits]; exact State.admits_sub hcb (le_refl _) (by omega), by rw [ho.admits]; exact h3,
      by rw [hargs]; exact ⟨rfl, rfl⟩, by rw [hcfg, hao.cfg]⟩
  obtain ⟨z, P, hz, hs, hd⟩ := bulkLoop_still h0 hburst ha l 0 0 p R (by omega) fun j x hx => by
    rw [Nat.zero_add]
    exact hf j x hx
  rw [Nat.zero_add, chunksLen_all hburst hl] at hz
  obtain ⟨r, hr⟩ := finishTransfer_still B hao (ho.trans hd.only) hs
    { status := .success, res := .none, len := if dir = .out then s.args.len else (l.map fun x => x.1.length).sum }
  exact ⟨P, r, by rw [hz]; exact congrArg Host.Outcome.next hr, hao, hd⟩

end Sys2Proof.Machine

open Sys2Proof Sys2Proof.Machine

/-- Settles O46. -/
theorem bulkTransferDelivers : Obligations.BulkTransferDelivers := by
  intro ep dir tg addr sp s v trb stg answers rest c len burst place hok hwf hbuf hcl hw hl hf hv hb
  have hpts : (answers.map fun x => answered (if dir = .out then 3 else 2) (if dir = .out then 4 else 5) c x.1 x.2).flatten =
      chunkPoints ⟨ep, dir⟩ answers :=
    congrArg List.flatten (List.map_congr_left fun x _ => by cases dir <;> rfl)
  obtain ⟨P, r, hexec, hao, hd⟩ := bulk_answered (rest := rest) hok hwf hbuf hcl hw hl hf hv (by
    rw [hb, hpts]
    simp [List.replicate_succ])
  have h0 : ep ≠ 0 := by
    simp only [bulkOk, Bool.and_eq_true, decide_eq_true_eq] at hok
    exact hok.1.2
  have C := epConfigured hao c .bulk tg addr s.args.mps 0
  generalize configureEp ⟨ep, dir⟩ .bulk tg addr s.args.mps 0 v = U at hd C
  have hfin := transferReturn_eq (P := P.logOp (.R .epToggle)) trb r
    (.result 0x21 .success (.transfer .none (if dir = .out then s.args.len else (answers.map fun x => x.1.length).sum)
      (some (P.toggle ⟨ep, dir⟩)))) (hd.ep0.trans C.ep0) (hd.stage.trans C.stage)
  have he : P.endpoint c = _ := (hd.endpoint c).trans (if_pos rfl)
  rw [show U.endpoint ⟨ep, dir⟩ = _ from (C.endpoint c).trans (if_pos rfl)] at he
  have htg : P.toggle ⟨ep, dir⟩ = (answers.getLast?.map Prod.snd).getD tg := by
    rw [State.toggle, if_neg h0]
    exact congrArg Endpoint.toggle he
  refine ⟨_, hexec, ?_, ?_, fun hi i x hx => ?_, fun ho i hi => ?_, fun a h1 h2 => ?_, ?_, ?_, fun b hb => ⟨?_, ?_⟩, fun p => ?_, ?_⟩
  · show s.trace ++ _ = _
    rw [htg]
  · show P.regtrace ++ _ = _
    rw [hd.regtrace, show U.regtrace = s.regtrace ++ configureTrace c .bulk tg addr s.args.mps from
      C.regtrace.trans (congrArg (s.regtrace ++ ·) (List.append_nil _))]
  · have h := hd.memIn hi i x hx
    rwa [Nat.zero_add] at h
  · have h := hd.memOut ho i (hi.trans hl.symm)
    rwa [Nat.zero_add, C.mem] at h
  · refine (hd.byte a h1 fun hi i x hx => ?_).trans (congrArg (readByte · a) C.mem)
    rw [Nat.zero_add]
    exact h2 hi i x hx
  · refine hd.chan.trans ?_
    cases answers.getLast? with
    | none => exact C.chan c
    | some x =>
      rw [Nat.zero_add, hl]
  · exact he.trans (by simp [configuredEndpoint])
  · exact (hd.other b hb).trans (C.chan b)
  · exact ((hd.endpoint b).trans (if_neg hb)).trans ((C.endpoint b).trans (if_neg hb))
  · show tabFind (tabDrop P.trbStore trb) p = _
    rw [tabFind_drop]
    split
    · rfl
    · next hp => rw [hd.trbStore p hp, C.trbStore]
  · rw [show (P.logOp (.R .epToggle)).dma.burstMode = if answers = [] then s.dma.burstMode else .single from
        hd.burst.trans (by rw [C.dma]),
      show (P.logOp (.R .epToggle)).dma.sel = if answers = [] then s.dma.sel else c from hd.sel.trans (by rw [C.dma])] at hfin
    exact hfin
end

section
/-! O45. XFER_CONTROL with a device that answers each stage in time (spec 43_transfer_protocol R186 to R188). -/

namespace Sys2Proof.Machine

/-! ### A stage begins -/

/-- A stage of a control transfer begun, the other agents taking no step. -/
def stageBegun (g : Ep0Stage) (dir : Dir) (st : CtrlStage) (addr : DevAddr) (s : State) : State :=
  configureEp0 dir st addr s.args.mps (s.withEp0Stage g)

theorem configureEp0_vary (dir : Dir) (st : CtrlStage) (addr : DevAddr) (mps : Nat) (s : State) (r : Option Running)
    (b : List (List AgentEvent)) :
    configureEp0 dir st addr mps (s.vary r b) = (configureEp0 dir st addr mps s).vary r b := by
  unfold configureEp0
  dsimp only
  split <;> rfl

theorem controlBegin_still {b : List (List AgentEvent)} {s u : State} (h : Still ([] :: b) s u) (k : Nat) (g : Ep0Stage) (dir : Dir)
    (st : CtrlStage) (addr : DevAddr) : Still b (stageBegun g dir st addr s) (controlBegin k g dir st addr u) := by
  have p := ((h.round k).quiet (.line .configure)).map (f := (·.withEp0Stage g)) fun _ _ => rfl
  have hu : u.args = s.args := h.args
  unfold controlBegin stageBegun
  rw [hu]
  exact p.map (configureEp0_vary dir st addr s.args.mps _)

/-- What the begin of a stage leaves (R170, R186). -/
structure StageBegun (dir : Dir) (st : CtrlStage) (addr : DevAddr) (s u : State) : Prop where
  only : XferOnly s u
  mem : u.mem = s.mem
  dma : u.dma = s.dma
  ep : u.ep = s.ep
  trbStore : u.trbStore = s.trbStore
  ep0 : ∀ tg, { u.ep0 with toggle := u.ep0.toggle.set dir tg } =
    { mps := s.args.mps, devAddr := addr, toggle := s.ep0.toggle.set dir tg }
  regtrace : u.regtrace = s.regtrace ++ configureEp0Trace dir st addr s.args.mps

theorem stageBegun_spec (g : Ep0Stage) (dir : Dir) (st : CtrlStage) (addr : DevAddr) (s : State) :
    StageBegun dir st addr s (stageBegun g dir st addr s) := by
  have h := configureEp0_eq dir st addr s.args.mps (s.withEp0Stage g)
  have ho := (xferOnly_stage g s).trans (xferOnly_configureEp0 dir st addr s.args.mps _)
  unfold stageBegun
  generalize configureEp0 dir st addr s.args.mps (s.withEp0Stage g) = u at h ho
  refine ⟨ho, by rw [h]; rfl, by rw [h]; rfl, by rw [h]; rfl, by rw [h]; rfl, fun tg => ?_, by rw [h]; rfl⟩
  rw [h]
  cases st <;> cases dir <;> rfl

/-! ### A stage is done -/

/-- What a stage whose device answered leaves, but for memory (R184, R186). -/
structure StageDone (dir : Dir) (st : CtrlStage) (addr : DevAddr) (trb n : Nat) (tg : Bool) (s t : State) : Prop where
  only : XferOnly s t
  chan : t.chan ⟨0, dir⟩ = usedChan trb n
  other : ∀ b, b ≠ ⟨0, dir⟩ → t.chan b = s.chan b
  ep : t.ep = s.ep
  ep0 : t.ep0 = { mps := s.args.mps, devAddr := addr, toggle := s.ep0.toggle.set dir tg }
  trbStore : ∀ q, q ≠ trb → tabFind t.trbStore q = tabFind s.trbStore q
  regtrace : t.regtrace = s.regtrace ++ (configureEp0Trace dir st addr s.args.mps ++ cycleTrace ⟨0, dir⟩ trb)
  sel : t.dma.sel = ⟨0, dir⟩
  burst : t.dma.burstMode = .single

/-- A cycle on endpoint 0, its staging region filled before it, does a stage. -/
theorem stageDone_of_cycled {dir : Dir} {st : CtrlStage} {addr : DevAddr} {trb : Nat} {x : Trb} {bs : List Byte} {tg : Bool}
    {s u f t : State} (h : StageBegun dir st addr s u) (hf : f = { u with mem := f.mem })
    (k : Cycled ⟨0, dir⟩ trb x bs tg f t) : StageDone dir st addr trb (movedBytes ⟨0, dir⟩ x bs) tg s t := by
  have hch : ∀ b, f.chan b = s.chan b := fun b => State.chan_of_dma (by rw [hf, h.dma]) b
  refine ⟨(h.only.trans ⟨_, _, _, _, _, _, _, hf⟩).trans k.only, k.chan, fun b hb => (k.other b hb).trans (hch b),
    (k.ep rfl).trans (by rw [hf, h.ep]), ?_, fun q hq => ?_, ?_, k.sel, k.burst⟩
  · rw [k.ep0, if_pos rfl, show f.ep0 = u.ep0 by rw [hf]]
    exact h.ep0 tg
  · rw [k.trbStore, tabFind_put_ne _ _ hq, show f.trbStore = u.trbStore by rw [hf], h.trbStore]
  · rw [k.regtrace, show f.regtrace = u.regtrace by rw [hf], h.regtrace, List.append_assoc]

/-- A data cycle on endpoint 0 does a stage. -/
theorem stageDone_of_moved {dir : Dir} {st : CtrlStage} {addr : DevAddr} {trb stg p n : Nat} {bs : List Byte} {tg : Bool}
    {s u t : State} (h : StageBegun dir st addr s u) (k : DataMoved ⟨0, dir⟩ trb stg p n bs tg u t) :
    StageDone dir st addr trb (if dir = .out then n else bs.length) tg s t := by
  have hch : ∀ b, u.chan b = s.chan b := fun b => State.chan_of_dma (by rw [h.dma]) b
  refine ⟨h.only.trans k.only, k.chan, fun b hb => (k.other b hb).trans (hch b), (k.ep rfl).trans h.ep, ?_, fun q hq => ?_, ?_,
    k.sel, k.burst⟩
  · rw [k.ep0, if_pos rfl]
    exact h.ep0 tg
  · rw [k.trbStore q hq, h.trbStore]
  · rw [k.regtrace, h.regtrace, List.append_assoc]

/-! ### The premises of the stages -/

/-- What every stage of a control transfer needs (R185, R242). -/
structure CtrlReady (trb sb : Nat) (s : State) : Prop where
  clean : Ep0Clean s
  slot : AddrOk s.cfg trb
  packet : AddrOk s.cfg sb
  budget : 0 < waitBudget s.cfg .control s.args.timeout
  staging : s.admits [.staging] sb 8 = true

theorem CtrlReady.of_only {trb sb : Nat} {s t : State} (h : CtrlReady trb sb s) (k : XferOnly s t) (hc : Ep0Clean t) :
    CtrlReady trb sb t :=
  ⟨hc, by rw [k.cfg]; exact h.slot, by rw [k.cfg]; exact h.packet, by rw [k.cfg, k.args]; exact h.budget,
    by rw [k.admits]; exact h.staging⟩

theorem CtrlReady.begun {trb sb : Nat} {dir : Dir} {st : CtrlStage} {addr : DevAddr} {s u : State} (h : CtrlReady trb sb s)
    (k : StageBegun dir st addr s u) : CtrlReady trb sb u :=
  h.of_only k.only (ep0Clean_of h.clean fun b hb => by
    unfold ChanClean
    rw [State.chan_of_dma (s := s) (t := u) (by rw [k.dma])]
    exact hb)

theorem CtrlReady.done {trb sb n : Nat} {dir : Dir} {st : CtrlStage} {addr : DevAddr} {tg : Bool} {s t : State}
    (h : CtrlReady trb sb s) (k : StageDone dir st addr trb n tg s t) : CtrlReady trb sb t :=
  h.of_only k.only (ep0Clean_of h.clean fun b hb => by
    by_cases hd : b = ⟨0, dir⟩
    · rw [hd]; exact chanClean_used k.chan
    · unfold ChanClean
      rw [k.other b hd]
      exact hb)

/-! ### The stages -/

section stages
variable {b : List (List AgentEvent)} {s u : State} {addr : DevAddr} {trb sb : Nat}

/-- The SETUP stage, the device answering before the first sample (R186 (1)). -/
theorem controlSetup_still {tg : Bool}
    (h : Still ([] :: [] :: [] :: [] :: [.complete ⟨0, .out⟩ [] tg] :: (List.replicate 4 [] ++ b)) s u) (r : CtrlReady trb sb s) :
    ∃ z t, controlSetup addr trb sb u = .done { status := .success, res := .none, actual := 8 } z ∧ Still b t z ∧
      StageDone .out .setup addr trb 8 tg s t ∧ t.mem = writeBytes s.mem sb s.args.setup.toList := by
  have p1 := controlBegin_still h 0 .setup .out .setup addr
  have hb := stageBegun_spec .setup .out .setup addr s
  have hr := r.begun hb
  generalize stageBegun .setup .out .setup addr s = v at p1 hb hr
  have hargs : (controlBegin 0 .setup .out .setup addr u).args = s.args := p1.args.trans hb.only.args
  have p2 := p1.quiet (.line .fill)
  have hlen : s.args.setup.toList.length = 8 := by simp
  have hadm : ((controlBegin 0 .setup .out .setup addr u).atLine .fill).admits [.staging] sb s.args.setup.toList.length = true := by
    rw [p2.admits, hlen]
    exact hr.staging
  have p3 := p2.withMem (writeBytes v.mem sb s.args.setup.toList)
  have ho := hb.only.trans (xferOnly_withMem (writeBytes v.mem sb s.args.setup.toList) v)
  have hr' : CtrlReady trb sb (v.withMem (writeBytes v.mem sb s.args.setup.toList)) := hr.of_only (xferOnly_withMem _ v) hr.clean
  have hans : Answers (v.withMem (writeBytes v.mem sb s.args.setup.toList)) ⟨0, .out⟩
      { addr := sb, size := 8, flags := trbFlags s.cfg .setup } [] :=
    ⟨nofun, fun _ => State.admits_any hr'.staging⟩
  obtain ⟨z, e, p4⟩ := trbCycle_still (kind := .control) p3 hr'.clean.1 hr'.slot hr'.packet hr'.budget hans
  have K := cycled_answeredCycle (trb := trb) (tg := tg) hans
  refine ⟨z, _, ?_, p4, stageDone_of_cycled hb rfl K, ?_⟩
  · unfold controlSetup
    dsimp only
    rw [hargs, seqWrite, if_pos hadm, andThen_done, p2.mem]
    rw [show ((((controlBegin 0 .setup .out .setup addr u).atLine .fill).withMem _).cfg) = s.cfg from p3.cfg.trans ho.cfg, e]
    rfl
  · rw [K.mem, if_neg (by decide)]
    exact congrArg (writeBytes · sb _) hb.mem

/-- The DATA stage, the device answering before the first sample (R186 (2)). -/
theorem controlData_still {dir : Dir} {db : Nat} {bs : List Byte} {tg : Bool}
    (h : Still ([] :: (dataPoints ⟨0, dir⟩ bs tg ++ b)) s u) (r : CtrlReady trb sb s) (hdb : AddrOk s.cfg db)
    (hcb : s.admits [.caller] s.args.buf.base s.args.len = true) (hst : s.admits [.staging] db s.args.len = true)
    (hf : dir = .in_ → bs.length ≤ s.args.len) :
    ∃ z t, controlData addr dir trb db u =
        .done { status := .success, res := .none, len := if dir = .out then s.args.len else bs.length } z ∧ Still b t z ∧
      StageDone dir .data addr trb (if dir = .out then s.args.len else bs.length) tg s t ∧
      ∃ v, DataMoved ⟨0, dir⟩ trb db s.args.buf.base s.args.len bs tg v t ∧ v.mem = s.mem := by
  have p1 := controlBegin_still h 1 .data dir .data addr
  have hb := stageBegun_spec .data dir .data addr s
  have hr := r.begun hb
  generalize stageBegun .data dir .data addr s = v at p1 hb hr
  have hargs : (controlBegin 1 .data dir .data addr u).args = s.args := p1.args.trans hb.only.args
  have R : DataReady ⟨0, dir⟩ trb db s.args.buf.base s.args.len bs .control v :=
    ⟨hr.clean.dir dir, hr.slot, by rw [hb.only.cfg]; exact hdb, hr.budget, by rw [hb.only.admits]; exact hcb,
      by rw [hb.only.admits]; exact hst, hf⟩
  obtain ⟨w, y, z, t, h1, h2, h3, h4, h5, hw, hy⟩ := dataCycle_still (fun p => trbFlags p .data) p1 R
  rw [hb.only.args] at hw hy
  refine ⟨z, t, ?_, h4, stageDone_of_moved hb h5, v, h5, hb.mem⟩
  unfold controlData
  dsimp only
  rw [hargs, h1, andThen_done, hw, h2, andThen_done, if_pos rfl, hy, h3, andThen_done]

/-- The STATUS stage, the device answering before the first sample (R186 (3)). -/
theorem controlStatus_still {dd : DataDir} {len : Nat} {tg : Bool}
    (h : Still ([] :: [] :: [] :: [.complete ⟨0, statusDir dd⟩ [] tg] :: (List.replicate 4 [] ++ b)) s u)
    (r : CtrlReady trb sb s) :
    ∃ z t, controlStatus addr dd trb sb len u = .done { status := .success, res := .none, len := len } z ∧ Still b t z ∧
      StageDone (statusDir dd) .status addr trb 0 tg s t ∧ t.mem = s.mem := by
  have p1 := controlBegin_still h 2 .status (statusDir dd) .status addr
  have hb := stageBegun_spec .status (statusDir dd) .status addr s
  have hr := r.begun hb
  generalize stageBegun .status (statusDir dd) .status addr s = v at p1 hb hr
  have hcfg : (controlBegin 2 .status (statusDir dd) .status addr u).cfg = s.cfg := p1.cfg.trans hb.only.cfg
  have hans : Answers v ⟨0, statusDir dd⟩ { addr := sb, size := 0, flags := trbFlags s.cfg .status } [] :=
    ⟨fun _ => ⟨le_refl _, rfl⟩, fun _ => rfl⟩
  obtain ⟨z, e, p4⟩ := trbCycle_still (kind := .control) p1 (hr.clean.dir _) hr.slot hr.packet hr.budget hans
  have K := cycled_answeredCycle (trb := trb) (tg := tg) hans
  have hn : movedBytes ⟨0, statusDir dd⟩ { addr := sb, size := 0, flags := trbFlags s.cfg .status } [] = 0 := by
    unfold movedBytes
    split <;> rfl
  have hd := stageDone_of_cycled hb rfl K
  rw [hn] at hd
  refine ⟨z, _, ?_, p4, hd, ?_⟩
  · unfold controlStatus
    dsimp only
    rw [hcfg, e]
    rfl
  · rw [K.mem]
    split <;> exact hb.mem

/-- The points of the DATA stage, where there is one, the device answering before the first sample. -/
def middlePoints (dd : DataDir) (bs : List Byte) (tg : Bool) : List (List AgentEvent) :=
  match dataStageDir dd with
  | none => []
  | some dir => [] :: dataPoints ⟨0, dir⟩ (if dir = .in_ then bs else []) tg

/-- What the DATA stage, where there is one, moves and leaves: `t` from `s` (R186 (2)). -/
structure MiddleDone (addr : DevAddr) (dd : DataDir) (trb db : Nat) (bs : List Byte) (tg : Bool) (s t : State) : Prop where
  only : XferOnly s t
  chan : ∀ dir, dataStageDir dd = some dir → t.chan ⟨0, dir⟩ = usedChan trb (if dir = .out then s.args.len else bs.length)
  other : ∀ b : Chan, dataStageDir dd ≠ some b.dir ∨ b.ep ≠ 0 → t.chan b = s.chan b
  ep : t.ep = s.ep
  ep0 : t.ep0 = match dataStageDir dd with
    | none => s.ep0
    | some dir => { mps := s.args.mps, devAddr := addr, toggle := s.ep0.toggle.set dir tg }
  trbStore : ∀ q, q ≠ trb → tabFind t.trbStore q = tabFind s.trbStore q
  regtrace : t.regtrace = s.regtrace ++ match dataStageDir dd with
    | none => []
    | some dir => configureEp0Trace dir .data addr s.args.mps ++ cycleTrace ⟨0, dir⟩ trb
  memNone : dd = .noData → t.mem = s.mem
  memIn : dd = .in_ → t.mem = writeBytes (writeBytes s.mem db bs) s.args.buf.base bs
  memOut : dd = .out → t.mem = writeBytes s.mem db (readBytes s.mem s.args.buf.base s.args.len)

theorem middleDone_of_stage {dd : DataDir} {dir : Dir} {db : Nat} {bs : List Byte} {tg : Bool} {v t : State}
    (hd : dataStageDir dd = some dir)
    (h : StageDone dir .data addr trb (if dir = .out then s.args.len else bs.length) tg s t)
    (k : DataMoved ⟨0, dir⟩ trb db s.args.buf.base s.args.len (if dir = .in_ then bs else []) tg v t) (hm : v.mem = s.mem) :
    MiddleDone addr dd trb db bs tg s t := by
  refine ⟨h.only, fun e he => ?_, fun b hb => h.other b ?_, h.ep, by rw [hd]; exact h.ep0, h.trbStore, by rw [hd]; exact h.regtrace,
    fun e => ?_, fun e => ?_, fun e => ?_⟩
  · cases hd.symm.trans he
    exact h.chan
  · rintro rfl
    exact hb.elim (fun h => h hd) fun h => h rfl
  · rw [e] at hd
    cases hd
  · rw [e] at hd
    cases hd
    rw [k.memIn rfl, hm]
    rfl
  · rw [e] at hd
    cases hd
    rw [k.memOut rfl, hm]

theorem controlMiddle_dir {dd : DataDir} {dir : Dir} {db : Nat} {bs : List Byte} {tg : Bool} (hd : dataStageDir dd = some dir)
    (h : Still (middlePoints dd bs tg ++ b) s u) (r : CtrlReady trb sb s) (hdb : AddrOk s.cfg db)
    (hst : s.admits [.staging] db s.args.len = true) (hcb : s.admits [.caller] s.args.buf.base s.args.len = true)
    (hf : bs.length ≤ s.args.len) :
    ∃ z t, controlMiddle addr dd trb db u =
        .done { status := .success, res := .none, len := if dir = .out then s.args.len else bs.length } z ∧ Still b t z ∧
      MiddleDone addr dd trb db bs tg s t := by
  rw [middlePoints, hd] at h
  obtain ⟨z, t, e, p, k, v, m, hm⟩ := controlData_still (addr := addr) h r hdb hcb hst fun hi => by rw [if_pos hi]; exact hf
  have hlen : (if dir = .out then s.args.len else (if dir = .in_ then bs else []).length) =
      if dir = .out then s.args.len else bs.length := by cases dir <;> rfl
  rw [hlen] at e k
  refine ⟨z, t, ?_, p, middleDone_of_stage hd k m hm⟩
  rw [controlMiddle, hd]
  exact e

theorem controlMiddle_still {dd : DataDir} {db : Nat} {bs : List Byte} {tg : Bool} (h : Still (middlePoints dd bs tg ++ b) s u)
    (r : CtrlReady trb sb s) (hdb : dd ≠ .noData → AddrOk s.cfg db ∧ s.admits [.staging] db s.args.len = true)
    (h0 : dd = .noData → s.args.len = 0) (hcb : s.admits [.caller] s.args.buf.base s.args.len = true)
    (hf : bs.length ≤ s.args.len) :
    ∃ z t, controlMiddle addr dd trb db u =
        .done { status := .success, res := .none, len := if dd = .in_ then bs.length else s.args.len } z ∧ Still b t z ∧
      MiddleDone addr dd trb db bs tg s t := by
  cases dd with
  | noData =>
    refine ⟨u, s, ?_, h, xferOnly_refl s, nofun, fun _ _ => rfl, rfl, rfl, fun _ _ => rfl, (List.append_nil _).symm,
      fun _ => rfl, nofun, nofun⟩
    rw [if_neg (by decide), h0 rfl]
    rfl
  | in_ =>
    obtain ⟨h1, h2⟩ := hdb (by decide)
    exact controlMiddle_dir rfl h r h1 h2 hcb hf
  | out =>
    obtain ⟨h1, h2⟩ := hdb (by decide)
    exact controlMiddle_dir rfl h r h1 h2 hcb hf

end stages

theorem CtrlReady.middle {addr : DevAddr} {dd : DataDir} {trb sb db : Nat} {bs : List Byte} {tg : Bool} {s t : State}
    (h : CtrlReady trb sb s) (k : MiddleDone addr dd trb db bs tg s t) : CtrlReady trb sb t :=
  h.of_only k.only (ep0Clean_of h.clean fun b hb => by
    by_cases hd : dataStageDir dd ≠ some b.dir ∨ b.ep ≠ 0
    · unfold ChanClean
      rw [k.other b hd]
      exact hb
    · obtain ⟨hd, he⟩ := not_or.1 hd
      obtain ⟨e, d⟩ := b
      obtain rfl : e = 0 := not_not.1 he
      exact chanClean_used (k.chan d (not_not.1 hd)))

/-- The points of the stages, the device answering each before its first sample. -/
def stagePoints (dd : DataDir) (bs : List Byte) (t1 t2 t3 : Bool) : List (List AgentEvent) :=
  ([] :: [] :: [] :: [] :: [.complete ⟨0, .out⟩ [] t1] :: List.replicate 4 []) ++ (middlePoints dd bs t2 ++
    ([] :: [] :: [] :: [.complete ⟨0, statusDir dd⟩ [] t3] :: List.replicate 4 []))

/-- What the three stages move and leave (R186, R187). -/
structure StagesDone (addr : DevAddr) (dd : DataDir) (trb sb db : Nat) (bs : List Byte) (t1 t2 t3 : Bool) (s P : State) : Prop where
  only : XferOnly s P
  stages : ∃ g m, StageDone .out .setup addr trb 8 t1 s g ∧ g.mem = writeBytes s.mem sb s.args.setup.toList ∧
    MiddleDone addr dd trb db bs t2 g m ∧ StageDone (statusDir dd) .status addr trb 0 t3 m P ∧ P.mem = m.mem

theorem controlStages_still {b : List (List AgentEvent)} {s u : State} {addr : DevAddr} {dd : DataDir} {trb sb db : Nat}
    {bs : List Byte} {t1 t2 t3 : Bool} (h : Still (stagePoints dd bs t1 t2 t3 ++ b) s u) (r : CtrlReady trb sb s)
    (hdb : dd ≠ .noData → AddrOk s.cfg db ∧ s.admits [.staging] db s.args.len = true)
    (h0 : dd = .noData → s.args.len = 0) (hcb : s.admits [.caller] s.args.buf.base s.args.len = true)
    (hf : bs.length ≤ s.args.len) :
    ∃ z P, controlStages addr dd trb sb db u =
        .done { status := .success, res := .none, len := if dd = .in_ then bs.length else s.args.len } z ∧ Still b P z ∧
      StagesDone addr dd trb sb db bs t1 t2 t3 s P := by
  unfold stagePoints at h
  rw [List.append_assoc, List.append_assoc] at h
  obtain ⟨z1, g, e1, p1, k1, m1⟩ := controlSetup_still (addr := addr) h r
  have o := k1.only
  have ha := o.args
  obtain ⟨z2, m, e2, p2, k2⟩ := controlMiddle_still (addr := addr) p1 (r.done k1)
    (by rw [o.cfg, ha, o.admits]; exact hdb) (by rw [ha]; exact h0) (by rw [ha, o.admits]; exact hcb) (by rw [ha]; exact hf)
  rw [ha] at e2
  obtain ⟨z3, P, e3, p3, k3, m3⟩ := controlStatus_still (addr := addr) (dd := dd)
    (len := if dd = .in_ then bs.length else s.args.len) p2 ((r.done k1).middle k2)
  refine ⟨z3, P, ?_, p3, (o.trans k2.only).trans k3.only, g, m, k1, m1, k2, k3, m3⟩
  rw [controlStages, e1, andThen_done, if_pos rfl, e2, andThen_done, if_pos rfl, e3]

/-! ### What the stages leave together -/

/-- The bytes the last cycle on endpoint 0's OUT channel moved. -/
def lastOut (dd : DataDir) (len : Nat) : Nat :=
  match dd with
  | .noData => 8
  | .in_ => 0
  | .out => len

/-- Endpoint 0's toggles, as the last answers of the three stages left them. -/
def lastToggles (dd : DataDir) (t1 t2 t3 : Bool) : PerDir Bool :=
  match dd with
  | .noData => ⟨t1, t3⟩
  | .in_ => ⟨t3, t2⟩
  | .out => ⟨t2, t3⟩

section together
variable {addr : DevAddr} {dd : DataDir} {trb sb db : Nat} {bs : List Byte} {t1 t2 t3 : Bool} {s P : State}

theorem StagesDone.ep (h : StagesDone addr dd trb sb db bs t1 t2 t3 s P) : P.ep = s.ep := by
  obtain ⟨-, g, m, k1, -, k2, k3, -⟩ := h
  exact k3.ep.trans (k2.ep.trans k1.ep)

theorem StagesDone.trbStore (h : StagesDone addr dd trb sb db bs t1 t2 t3 s P) (q : Nat) (hq : q ≠ trb) :
    tabFind P.trbStore q = tabFind s.trbStore q := by
  obtain ⟨-, g, m, k1, -, k2, k3, -⟩ := h
  exact (k3.trbStore q hq).trans ((k2.trbStore q hq).trans (k1.trbStore q hq))

theorem StagesDone.dma (h : StagesDone addr dd trb sb db bs t1 t2 t3 s P) :
    P.dma.sel = ⟨0, statusDir dd⟩ ∧ P.dma.burstMode = .single := by
  obtain ⟨-, g, m, -, -, -, k3, -⟩ := h
  exact ⟨k3.sel, k3.burst⟩

theorem StagesDone.regtrace (h : StagesDone addr dd trb sb db bs t1 t2 t3 s P) :
    P.regtrace = s.regtrace ++ (configureEp0Trace .out .setup addr s.args.mps ++ cycleTrace ⟨0, .out⟩ trb) ++
      (match dataStageDir dd with
        | none => []
        | some dir => configureEp0Trace dir .data addr s.args.mps ++ cycleTrace ⟨0, dir⟩ trb) ++
      (configureEp0Trace (statusDir dd) .status addr s.args.mps ++ cycleTrace ⟨0, statusDir dd⟩ trb) := by
  obtain ⟨-, g, m, k1, -, k2, k3, -⟩ := h
  have h1 := k1.only.args
  have h2 := k2.only.args.trans h1
  rw [k3.regtrace, k2.regtrace, k1.regtrace, h1, h2]

theorem StagesDone.chan_other (h : StagesDone addr dd trb sb db bs t1 t2 t3 s P) (c : Chan) (hc : c.ep ≠ 0) :
    P.chan c = s.chan c := by
  obtain ⟨-, g, m, k1, -, k2, k3, -⟩ := h
  have hne : ∀ d, c ≠ ⟨0, d⟩ := by
    rintro d rfl
    exact hc rfl
  rw [k3.other c (hne _), k2.other c (.inr hc), k1.other c (hne _)]

theorem StagesDone.chan_ep0 (h : StagesDone addr dd trb sb db bs t1 t2 t3 s P) :
    P.chan ⟨0, .out⟩ = usedChan trb (lastOut dd s.args.len) ∧
      P.chan ⟨0, .in_⟩ = usedChan trb (if dd = .in_ then bs.length else 0) := by
  obtain ⟨-, g, m, k1, -, k2, k3, -⟩ := h
  have ha := k1.only.args
  cases dd with
  | noData => exact ⟨(k3.other _ (by decide)).trans ((k2.other _ (.inl nofun)).trans k1.chan), k3.chan⟩
  | in_ => exact ⟨k3.chan, (k3.other _ (by decide)).trans (k2.chan .in_ rfl)⟩
  | out => exact ⟨(k3.other _ (by decide)).trans ((k2.chan .out rfl).trans (by rw [if_pos rfl, ha]; rfl)), k3.chan⟩

theorem StagesDone.ep0 (h : StagesDone addr dd trb sb db bs t1 t2 t3 s P) :
    P.ep0 = { mps := s.args.mps, devAddr := addr, toggle := lastToggles dd t1 t2 t3 } := by
  obtain ⟨-, g, m, k1, -, k2, k3, -⟩ := h
  have h1 := k1.only.args
  have h2 := k2.only.args.trans h1
  have e2 := k2.ep0
  rw [k3.ep0, h2]
  cases dd with
  | noData => rw [show m.ep0 = g.ep0 from e2, k1.ep0]; rfl
  | in_ => rw [show m.ep0 = _ from e2, k1.ep0]; rfl
  | out => rw [show m.ep0 = _ from e2, k1.ep0]; rfl

/-- The memory the stages leave: the DATA stage's bytes over the packet's (R186). -/
theorem StagesDone.memory (h : StagesDone addr dd trb sb db bs t1 t2 t3 s P) :
    let m := writeBytes s.mem sb s.args.setup.toList
    (dd = .noData → P.mem = m) ∧ (dd = .in_ → P.mem = writeBytes (writeBytes m db bs) s.args.buf.base bs) ∧
      (dd = .out → P.mem = writeBytes m db (readBytes m s.args.buf.base s.args.len)) := by
  obtain ⟨-, g, m, k1, m1, k2, k3, m3⟩ := h
  have ha := k1.only.args
  have h2 := k2.memIn
  have h3 := k2.memOut
  rw [ha, m1] at h2 h3
  exact ⟨fun e => by rw [m3, k2.memNone e, m1], fun e => m3.trans (h2 e), fun e => m3.trans (h3 e)⟩

theorem StagesDone.byte (h : StagesDone addr dd trb sb db bs t1 t2 t3 s P) (hf : bs.length ≤ s.args.len) {a : Nat}
    (h1 : a < sb ∨ sb + 8 ≤ a) (h2 : a < db ∨ db + s.args.len ≤ a)
    (h3 : dd = .in_ → a < s.args.buf.base ∨ s.args.buf.base + bs.length ≤ a) : readByte P.mem a = readByte s.mem a := by
  obtain ⟨mn, mi, mo⟩ := h.memory
  have hm : readByte (writeBytes s.mem sb s.args.setup.toList) a = readByte s.mem a :=
    readByte_writeBytes_out _ _ _ _ (by simpa using h1)
  cases dd with
  | noData => rw [mn rfl, hm]
  | in_ => rw [mi rfl, readByte_writeBytes_out _ _ _ _ (h3 rfl), readByte_writeBytes_out _ _ _ _ (by omega), hm]
  | out => rw [mo rfl, readByte_writeBytes_out _ _ _ _ (by rw [length_readBytes]; exact h2), hm]

/-- The packet still stands in its staging region (R186 (1)). -/
theorem StagesDone.packet (h : StagesDone addr dd trb sb db bs t1 t2 t3 s P) (hf : bs.length ≤ s.args.len)
    (h1 : dd ≠ .noData → ∀ a, sb ≤ a → a < sb + 8 → a < db ∨ db + s.args.len ≤ a)
    (h2 : ∀ a, sb ≤ a → a < sb + 8 → a < s.args.buf.base ∨ s.args.buf.base + s.args.len ≤ a) :
    readBytes P.mem sb 8 = s.args.setup.toList := by
  obtain ⟨mn, mi, mo⟩ := h.memory
  have hm : readBytes (writeBytes s.mem sb s.args.setup.toList) sb 8 = s.args.setup.toList := by
    have h := readBytes_writeBytes s.mem sb s.args.setup.toList
    rwa [show s.args.setup.toList.length = 8 by simp] at h
  refine (readBytes_congr fun a ha1 ha2 => ?_).trans hm
  have d2 := h2 a ha1 ha2
  cases dd with
  | noData => rw [mn rfl]
  | in_ =>
    have d1 := h1 (by decide) a ha1 ha2
    rw [mi rfl, readByte_writeBytes_out _ _ _ _ (by omega), readByte_writeBytes_out _ _ _ _ (by omega)]
  | out => rw [mo rfl, readByte_writeBytes_out _ _ _ _ (by rw [length_readBytes]; exact h1 (by decide) a ha1 ha2)]

/-- OUT data lies in the staging region as the caller gave it (R186 (2)). -/
theorem StagesDone.sent (h : StagesDone addr dd trb sb db bs t1 t2 t3 s P) (hd : dd = .out)
    (h1 : ∀ a, s.args.buf.base ≤ a → a < s.args.buf.base + s.args.len → a < sb ∨ sb + 8 ≤ a) :
    readBytes P.mem db s.args.len = readBytes s.mem s.args.buf.base s.args.len := by
  obtain ⟨-, -, mo⟩ := h.memory
  rw [mo hd, readBytes_copied]
  exact readBytes_congr fun a ha1 ha2 => readByte_writeBytes_out _ _ _ _ (by simpa using h1 a ha1 ha2)

end together

/-! ### XFER_CONTROL -/

/-- XFER_CONTROL whose device answers each stage before its first sample, and the state its stages leave. -/
theorem control_answered {addr : DevAddr} {sp : Speed} {dd : DataDir} {s v : State} {trb sb : Nat} {db : List Nat} {bs : List Byte}
    {t1 t2 t3 : Bool} {rest : List (List AgentEvent)} (hok : controlOk s.cfg dd s.args = true) (hbuf : CallerBuf s)
    (ho : ChanClean s ⟨0, .out⟩) (hi : ChanClean s ⟨0, .in_⟩) (hw : 0 < waitBudget s.cfg .control s.args.timeout)
    (hf : bs.length ≤ s.args.len)
    (hv : acquire (controlRequests s.cfg s.args.len) (s.started (.xferControl addr sp dd)) = (some (trb :: sb :: db), v))
    (hb : s.oracle.batches = List.replicate ((controlRequests s.cfg s.args.len).length + 1) [] ++
      (stagePoints dd bs t1 t2 t3 ++ ([] :: rest))) :
    ∃ P r, exec (.xferControl addr sp dd) s = .next (transferReturn s (P.withEp0Stage .idle) trb r
        (.result 0x20 .success (.control .none (if dd = .in_ then bs.length else s.args.len)))) ∧
      AllocOnly s v ∧ StagesDone addr dd trb sb (db.headD 0) bs t1 t2 t3 v P := by
  have B := begun_of_acquire hv
  obtain ⟨hao, hbat⟩ := begun_quiet hv hb
  have K := stagesReady hok hbuf ho hi B
  have h0 : dd = .noData → s.args.len = 0 := fun h => by
    simp only [controlOk, Bool.and_eq_true, decide_eq_true_eq, h, if_true] at hok
    exact hok.1.1
  have R : CtrlReady trb sb v := ⟨K.clean, K.slot, K.packet, by rw [hao.cfg, hao.args]; exact hw, K.staging⟩
  have hcb : v.admits [.caller] v.args.buf.base v.args.len = true := State.admits_sub K.buf (le_refl _) (by have := K.len; omega)
  obtain ⟨z, P, e, p, k⟩ := controlStages_still (addr := addr) (still_self hbat) R (fun h => (K.data h).symm)
    (by rw [hao.args]; exact h0) hcb (by rw [hao.args]; exact hf)
  rw [hao.args] at e
  obtain ⟨r, hr⟩ := releaseAll_still B hao (k.only.trans (xferOnly_stage .idle P))
    (p.map (f := (·.withEp0Stage .idle)) fun _ _ => rfl) .success
    (.control .none (if dd = .in_ then bs.length else s.args.len))
  refine ⟨P, r, ?_, hao, k⟩
  rw [exec_xferControl_of_some hok hv, e]
  exact congrArg Host.Outcome.next hr

theorem length_controlRequests (p : Params) (len : Nat) :
    (controlRequests p len).length + 1 = if len = 0 then 3 else 4 := by
  unfold controlRequests
  split <;> rfl

/-- The packet's region and the data's lie apart (R15, R186). -/
theorem control_regions_apart {addr : DevAddr} {sp : Speed} {dd : DataDir} {s v : State} {trb sb d : Nat} (h0 : s.args.len ≠ 0)
    (hv : acquire (controlRequests s.cfg s.args.len) (s.started (.xferControl addr sp dd)) = (some [trb, sb, d], v)) :
    d + s.args.len ≤ sb ∨ sb + 8 ≤ d := by
  obtain ⟨-, h⟩ := acquire_apart (State.started_busy s _) hv
  rw [controlRequests, if_neg h0] at h
  simp only [List.zip_cons_cons, List.zip_nil_right, List.pairwise_cons, List.mem_cons] at h
  exact h.2.1 _ (.inl rfl)

end Sys2Proof.Machine

open Sys2Proof Sys2Proof.Machine

/-- Settles O45: the stages cycle by cycle on quiet agents, then the common return. -/
theorem controlTransferDelivers : Obligations.ControlTransferDelivers := by
  intro addr sp dd s v trb sb db bs t1 t2 t3 rest len data back hok hbuf ho hi hw hf hv hb
  obtain ⟨P, r, hexec, hao, k⟩ := control_answered (t1 := t1) (t2 := t2) (t3 := t3) (rest := rest) hok hbuf ho hi hw hf hv (by
    rw [hb, length_controlRequests, List.append_assoc, List.append_assoc, List.append_assoc]
    cases dd <;> rfl)
  have hlen : s.args.len ≤ s.args.buf.len := by
    simp only [controlOk, Bool.and_eq_true, decide_eq_true_eq] at hok
    exact hok.2
  have hcaller : ∀ a, s.args.buf.base ≤ a → a < s.args.buf.base + s.args.len → a < sb ∨ sb + 8 ≤ a := fun a h1 h2 =>
    callerBuf_apart hv hbuf (q := (sb, 8, .staging)) (by simp [controlRequests]) h1 (by omega)
  have hdata : dd ≠ .noData → data + s.args.len ≤ sb ∨ sb + 8 ≤ data := fun hd => by
    have h0 : s.args.len ≠ 0 := by
      simp only [controlOk, if_neg hd, Bool.and_eq_true, decide_eq_true_eq] at hok
      exact hok.1.1
    obtain ⟨d, rfl⟩ : ∃ d, db = [d] := List.length_eq_one_iff.1 (by
      have h0 : len ≠ 0 := h0
      simpa [controlRequests, h0] using (begun_of_acquire hv).acq.length)
    exact control_regions_apart h0 hv
  obtain ⟨_, _, _, rfl⟩ := hao
  refine ⟨_, hexec, rfl, k.regtrace, ?_, fun hd => ?_, fun hd => k.sent hd hcaller, fun a h1 h2 h3 => k.byte hf h1 h2 h3,
    k.chan_ep0.1, k.chan_ep0.2, k.chan_other, fun p => ?_, ?_⟩
  · exact k.packet hf
      (fun hd a h1 h2 => show a < data ∨ data + s.args.len ≤ a by have := hdata hd; omega)
      fun a h1 h2 => show a < s.args.buf.base ∨ s.args.buf.base + s.args.len ≤ a by have := hcaller a; omega
  · show readBytes P.mem _ _ = bs
    rw [k.memory.2.1 hd]
    exact readBytes_writeBytes _ _ _
  · show tabFind (tabDrop P.trbStore trb) p = _
    rw [tabFind_drop]
    split
    · rfl
    · next hp => exact k.trbStore p hp
  · have h1 : P.dma = { burstMode := .single, sel := ⟨0, back⟩, ch := P.dma.ch } := by
      rw [← k.dma.1, ← k.dma.2]
    exact State.eq_of_fields rfl rfl rfl rfl rfl h1 k.ep0 k.ep rfl rfl rfl rfl rfl rfl rfl rfl rfl rfl rfl rfl rfl
end
